-- ==== Sys2Proof/Word.lean ====
section
/-! DEFINITION. The word types of the model, and the names of its units by number (R9, R12).
Bit vectors hold what the manual treats as bits; unit numbers are `Fin`. -/

namespace Sys2Proof

/-- One byte. -/
abbrev Byte := BitVec 8
/-- One set-up register word (R14). -/
abbrev Word := BitVec 32
/-- A 64-bit register or global address (R10, R15). -/
abbrev DWord := BitVec 64

/-- A compute die, 0–7 (R9). -/
abbrev Die := Fin 8
/-- A logical tile of a die, 0–39 (R2, R9). -/
abbrev TileId := Fin 40
/-- A host-visible context, 0–7 (R9). -/
abbrev Ctx := Fin 8
/-- A task context of a tile, 0–3 (R9). -/
abbrev Tctx := Fin 4
/-- A stream queue number, 0–3 read, 4–5 write (R130). -/
abbrev Strm := Fin 6
/-- A row engine of a die (R204). -/
abbrev RowId := Fin 8
/-- A fabric port of a die, k of port 3d + k (R244). -/
abbrev PortK := Fin 3
/-- A half of a port: 0 the whole port or the + half, 1 the − half (R250). -/
abbrev Half := Fin 2
/-- A ring set, 0 admin, r = 1–8 context r − 1 (R355). -/
abbrev RingSet := Fin 9
/-- A Lantern core of the package, c = 4d + j (R377). -/
abbrev Core := Fin 32
/-- A Lantern core of a die (R377). -/
abbrev CoreJ := Fin 4
/-- An HBM controller of a die (R221). -/
abbrev Ctrl := Fin 2

end Sys2Proof
end

