-- ==== Sys2Proof/Syntax.lean ====
section
/-! DEFINITION. The commands of the block: one constructor per row of spec/opcode_table.json.
A command is one whole, indivisible step of the part (95_what_each_step_holds.md): an event at a unit, a
message or bus transfer from outside, a set-up register write by a master, or a command descriptor that begins.
Operands name the unit and carry what comes from outside the package (bytes, samples, pin levels).
The constructors stand in the order of the table. -/

namespace Sys2Proof

/-- The masters of the set-up space (R15, R37). -/
inductive Master where
  /-- the board management controller, over I3C Basic -/
  | bmc
  /-- the host, over the Crewin link -/
  | host
  /-- Lantern core c, whose mode the state holds; each core is a master of its own for R15 -/
  | core (c : Core)
  /-- the remote fabric manager, over the fabric control class -/
  | fm
deriving DecidableEq, Repr

/-- Where a command descriptor comes from: a ring set of the host (R355) or a core's internal port (R382). -/
inductive CmdSrc where
  | ring (r : RingSet)
  | core (c : Core)
deriving DecidableEq, Repr

/-- The agents that read or write HBM (R228, R237). -/
inductive Agent where
  | stream (d : Die) (t : TileId) (q : Strm)
  | rowEngine (d : Die) (j : RowId)
  | sequencer (d : Die) (t : TileId)
  | carousel (d : Die)
  | core (c : Core)
  | host
  | remote
  | icu (d : Die)
  | replay (d : Die)
  | loader (d : Die)
  | fabOp (x : Ctx)
  | command (x : Ctx)
  | boot
deriving DecidableEq, Repr

/-- Who asks the die power manager for leave (R401). -/
inductive LeaveSrc where
  /-- a tile's grid, for one period of issue -/
  | grid (t : TileId)
  /-- an HBM controller with pending READ units -/
  | hbmRead (c : Ctrl)
  /-- an HBM controller with pending WRITE or REMOTE units -/
  | hbmWrite (c : Ctrl)
  /-- a fabric port -/
  | port (k : PortK)
deriving DecidableEq, Repr

/-- A private write on the management bus: the address it is sent to, and its bytes (R437). -/
structure I3cWrite where
  addr : BitVec 7
  bytes : List Byte
deriving DecidableEq, Repr

/-- A SETDASA: the static address it is sent to, and the dynamic address it assigns (R437). -/
structure I3cAssign where
  fixed : BitVec 7
  addr : BitVec 7
deriving DecidableEq, Repr

/-- The commands, one constructor per row of the table. -/
inductive Instr where
  -- set-up space
  | setupRegisterWrite (m : Master) (addr v : Word) (size : Nat)
  | wideLowWordRead (m : Master) (addr : Word)
  | wideHighWordWrite (m : Master) (addr v : Word)
  | wideLowWordWrite (m : Master) (addr v : Word)
  -- bridges
  | bridgeFrameError (e : Fin 10) (sameFrame : Bool)
  | bridgeTrainingLost (e : Fin 10)
  -- tiles
  | tilSqTail (m : Master) (d : Die) (t : TileId) (v : Word)
  | start (d : Die) (t : TileId)
  | halt (d : Die) (t : TileId)
  | descriptorFetch (d : Die) (t : TileId) (n : Tctx)
  | grid (d : Die) (t : TileId)
  | load (d : Die) (t : TileId)
  | taskMark (d : Die) (t : TileId) (n : Tctx)
  | endTask (d : Die) (t : TileId) (n : Tctx)
  | taskContextReady (d : Die) (t : TileId) (n : Tctx)
  | gridAssign (d : Die) (t : TileId)
  | entryUsable (d : Die) (t : TileId) (e : Fin 16)
  | holdExpiry (d : Die) (t : TileId)
  | stopRampEnd (d : Die) (t : TileId)
  | checkResult (d : Die) (t : TileId) (upset : Option (Nat × Nat))
  | gridReexec (d : Die) (t : TileId)
  | halfDrained (d : Die) (t : TileId) (accUpset rndUpset : Option (Nat × Nat))
  | taskCommit (d : Die) (t : TileId) (n : Tctx)
  | tagTimeout (d : Die) (t : TileId) (n : Tctx)
  | tileStall (d : Die) (t : TileId)
  | tilRegion (m : Master) (d : Die) (t : TileId) (n : Fin 16) (v : Word)
  | setFull (m : Master) (d : Die) (t : TileId) (count base : BitVec 14)
  | setEmpty (m : Master) (d : Die) (t : TileId) (count base : BitVec 14)
  -- streams
  | streamDescriptorFetch (d : Die) (t : TileId) (q : Strm)
  | nop (d : Die) (t : TileId) (q : Strm)
  | linear (d : Die) (t : TileId) (q : Strm)
  | block2d (d : Die) (t : TileId) (q : Strm)
  | gather (d : Die) (t : TileId) (q : Strm)
  | scatter (d : Die) (t : TileId) (q : Strm)
  | note (d : Die) (t : TileId) (q : Strm)
  | streamSlotClaim (d : Die) (t : TileId) (q : Strm)
  | streamSlotEnd (d : Die) (t : TileId) (q : Strm) (slot : Nat)
  | feedBlockDelivered (d : Die) (t : TileId) (q : Strm)
  | streamDescriptorEnd (d : Die) (t : TileId) (q : Strm)
  | streamStall (d : Die) (t : TileId) (q : Strm)
  -- carousel
  | ringForm (c : Nat) (x : Ctx)
  | form (d : Die)
  | formReady (d : Die)
  | formAbort (d : Die)
  | formTimeout (x : Ctx)
  | ringDissolve (c : Nat)
  | carRingQTail (m : Master) (d : Die) (x : Ctx) (v : Word)
  | fwd (x : Ctx)
  | bwd (x : Ctx)
  | bind (x : Ctx)
  | openVersion (x : Ctx)
  | openGrant (x : Ctx)
  | commit (x : Ctx)
  | carouselMark (x : Ctx)
  | stoneEmit (d : Die) (x : Ctx)
  | stone (d : Die)
  | stonePlace (d : Die) (b : Nat)
  | stoneForward (d : Die) (b : Nat)
  | gradAdd (d : Die) (b : Nat)
  | gradientApply (d : Die) (b : Nat)
  | carStall (d : Die) (b : Nat)
  | carRingGenRead (m : Master) (d : Die) (x : Ctx)
  -- row engines
  | rowQTail (m : Master) (d : Die) (j : RowId) (v : Word)
  | act (d : Die) (j : RowId)
  | actBwd (d : Die) (j : RowId)
  | normFwd (d : Die) (j : RowId)
  | normBwd (d : Die) (j : RowId)
  | smaxFwd (d : Die) (j : RowId)
  | smaxBwd (d : Die) (j : RowId)
  | opt (d : Die) (j : RowId)
  | reduce (d : Die) (j : RowId)
  | convert (d : Die) (j : RowId)
  | add (d : Die) (j : RowId)
  | statFree (d : Die) (j : RowId)
  | rowClaim (d : Die) (j : RowId)
  | rowDescriptorEnd (d : Die) (j : RowId)
  | rowStall (d : Die) (j : RowId)
  | rowResume (m : Master) (d : Die) (j : RowId)
  | rowSpillBase (m : Master) (d : Die) (j : RowId) (lo : Word)
  | rowSpillSize (m : Master) (d : Die) (j : RowId) (v : Word)
  -- HBM
  | writeAccept (d : Die) (c : Ctrl)
  | hbmRead (a : Agent) (d : Die) (c : Ctrl) (unit : Nat) (upset : List (Nat × Byte))
  | maintenanceWindow (d : Die) (c : Ctrl) (pc : Fin 64)
  | stackHot (d : Die) (c : Ctrl) (hot : Bool)
  -- fabric
  | portEnable (m : Master) (d : Die) (k : PortK) (en : Bool)
  | train (d : Die) (k : PortK) (h : Half) (aligned : Bool)
  | ident (d : Die) (k : PortK) (h : Half)
  | linkDown (d : Die) (k : PortK) (h : Half)
  | rejoin (m : Master) (d : Die) (k : PortK)
  | retrain (m : Master) (d : Die) (k : PortK)
  | frame (d : Die) (k : PortK) (h : Half) (bytes : List Byte) (fec : Option Nat)
  | delivered (d : Die)
  | deliveredInterval (d : Die)
  | e2eTimeout (d : Die)
  | fabId (m : Master) (d : Die) (v : Word)
  | routeTableWrite (m : Master) (addr v : Word)
  | windowOpen (m : Master) (d : Die) (w : Byte)
  | windowClose (m : Master) (d : Die) (w : Byte)
  | windowClosingEnd (d : Die) (w : Byte)
  | rwrite (d : Die)
  | rread (d : Die)
  | rdata (d : Die)
  | rack (d : Die)
  | coll (d : Die)
  | fabOpqTail (m : Master) (d : Die) (x : Ctx) (v : Word)
  | copy (x : Ctx)
  | allReduce (x : Ctx)
  | reduceScatter (x : Ctx)
  | allGather (x : Ctx)
  | multicast (x : Ctx)
  | fabOpEnd (x : Ctx)
  | fabOpqResume (m : Master) (d : Die) (x : Ctx)
  | multicastStall (d : Die) (x : Ctx)
  | fabMcRemove (m : Master) (d : Die) (r : Byte)
  | mcRemove (d : Die)
  | mcOffset (d : Die)
  | jobAbortMessage (d : Die)
  | abortSettle (x : Ctx)
  | passCount (d : Die)
  | passGen (d : Die)
  | regRead (d : Die)
  | regWrite (d : Die)
  | regResult (d : Die)
  -- timekeeping
  | syncPulse
  | syncPulseMissing
  | gctSyncArm (m : Master) (d : Die) (v : Word)
  | trigger
  | launchArm (m : Master) (d : Die) (v : Word)
  | launch
  | launchEnd (m : Master) (d : Die) (v : Word)
  | gctStepClose (m : Master) (d : Die) (x : Ctx)
  | stepAdvance (x : Ctx)
  | stepBoundary (x : Ctx)
  | gctRecCtrl (m : Master) (d : Die) (v : Word)
  | replayRecord (d : Die)
  | gctCompare (d : Die) (k : Fin 8)
  | compareEnable (m : Master) (d : Die) (k : Fin 8)
  | regradeGo (m : Master) (d : Die) (v : Word)
  | fuseBurnComplete
  -- loader
  | modelLoad (c : Nat) (x : Ctx)
  | modelSwap (c : Nat) (x : Ctx)
  | modelUnload (c : Nat)
  | manifestFetched (x : Ctx) (bytes : List Byte)
  | shardArrived (x : Ctx) (segs : List (List Byte))
  | fetchTimeout (x : Ctx)
  | replicateArrived (x : Ctx) (srcs : List (List Byte))
  | localDone (x : Ctx)
  | loadDone (d : Die)
  | loadCommit (d : Die)
  | loadAbort (d : Die)
  | loadAbortSettle (x : Ctx)
  | checkPassStart (d : Die)
  | checkPassEnd (d : Die)
  -- host interface
  | hostLinkTrain (aligned : Bool)
  | hostIdent
  | hostLinkDown
  | hostAccessTimeout (a : Nat)
  | hostRetrain (m : Master)
  | admEnable (m : Master) (en : Bool)
  | apertureWrite (k : Fin 4) (off : Nat) (data : List Byte)
  | apertureRead (k : Fin 4) (off len : Nat)
  | cmdTail (m : Master) (r : RingSet) (v : Word)
  | cplHead (m : Master) (r : RingSet) (v : Word)
  | evHead (m : Master) (r : RingSet) (v : Word)
  | commandFetch (src : CmdSrc) (bytes : List Byte)
  | negotiate (c : Nat)
  | setupCommit (c : Nat)
  | ctxOpen (c : Nat)
  | ctxClose (c : Nat)
  | attestReport (c len : Nat) (chain : Bool)
  | fwUpdate (c : Nat)
  | fwUpdateStaged (image : List Byte)
  | fwUpdateWritten (sectors : Nat) (ok : Bool)
  | adminMark (c : Nat)
  | allot (c : Nat)
  | free (c : Nat)
  | copyIn (c : Nat)
  | copyOut (c : Nat)
  | request (c : Nat)
  | jobAbort (c : Nat)
  | mark (c : Nat)
  | arbitrationWindowEnd
  | irqCoalesceExpiry (v : Fin 18)
  -- Lantern cores and interrupts
  | lccRun (m : Master) (d : Die) (j : CoreJ)
  | lccCmdTail (m : Master) (d : Die) (j : CoreJ) (v : Word)
  | debugHalt (m : Master) (d : Die) (j : CoreJ)
  | debugResume (m : Master) (d : Die) (j : CoreJ)
  | debugStep (m : Master) (d : Die) (j : CoreJ)
  | interruptDelivery (d : Die) (src : Fin 1024)
  | coreWake (c : Core)
  | icuSrcEnable (m : Master) (d : Die) (src : Fin 1024) (v : Word)
  | icuPend (m : Master) (d : Die) (w : Fin 32) (v : Word)
  | icuAck (m : Master) (d : Die) (v : Word)
  | icuEvqHead (m : Master) (d : Die) (v : Word)
  | icuEvqBase (m : Master) (d : Die) (lo : Word)
  | lccTraceCtrl (m : Master) (d : Die) (v : Word)
  -- power
  | leaveRequest (d : Die) (src : LeaveSrc)
  | leaveGrant (d : Die) (t : TileId)
  | leaveRelease (d : Die) (src : LeaveSrc)
  | pwrLimit (m : Master) (d : Die) (v : Word)
  | refLost
  | refReturn
  | dwellExpiry
  | wake
  | temperatureSample (d : Die) (die stack0 stack1 : Int)
  | tripRailRemoval
  | thermAlert (asserted : Bool)
  | vinSample (mv ma : Nat)
  -- boot and reset
  | fuses (consistent : Bool)
  | clocks (locked : Bool) (failedEdge : Option (Fin 10))
  | flash (table header signer : Bool)
  | hbm (trained body : Bool)
  | selftest (bad : List (Nat × List Nat))
  | identity
  | firmware
  | ready (m : Master) (d : Die)
  | coldReset
  | warmReset
  | idvResetWarm (m : Master) (d : Die) (key : BitVec 16)
  | idvResetCold (m : Master) (d : Die) (key : BitVec 16)
  | resetRelease
  | vinRise
  | powerGood
  -- management bus
  | i3cPrivateWrite (w : I3cWrite)
  | i3cPrivateRead (w : I3cWrite) (len : Nat)
  | entdaa (addr : BitVec 7)
  | setdasa (a : I3cAssign)
  | rstdaa
  | getpid
  | getbcr
  | getdcr
  | getstatus
  | enec
  | disec
  | idvMbox (m : Master) (d : Die) (v : Word)
  -- later rows of the table
  | hostAccessComplete (a : Nat) (ok : Bool) (data : List Byte)
  | flitReplay
  | powerControllerAlert
  | idvResetRecognised
  | rowSlotEnd (d : Die) (j : RowId)
deriving DecidableEq, Repr

end Sys2Proof
end

