-- ==== Sys2Proof/Config.lean ====
section
/-! DEFINITION. What the manual leaves open and every device fixes for itself: constants with no body, so that
no proof can rest on a value of theirs. -/

namespace Sys2Proof.Config

/-- The modes in which a Lantern core's code runs (R377). -/
inductive CoreMode where
  | user
  | supervisor
  | firmware
deriving DecidableEq, Repr, Inhabited

/-- What a step of a core's own program asks of the package (R377–R380, R386): nothing, sleep until an interrupt, a load or a
store at a physical address, the clean or the invalidation of a line, or a barrier. -/
inductive CoreAct where
  | own
  | sleep
  | load (pa : BitVec 48) (n : Nat)
  | store (pa : BitVec 48) (bytes : List (BitVec 8))
  | clean (pa : BitVec 48)
  | invalidate (pa : BitVec 48)
  | barrier
deriving DecidableEq, Repr, Inhabited

/-- A step of a core's own program: what it asks for, and then its program counter, its mode, whether its MMU is on, and
whether it still handles an abort. -/
structure CoreStep where
  act : CoreAct
  pc : BitVec 64
  mode : CoreMode
  mmu : Bool
  handling : Bool
deriving DecidableEq, Repr, Inhabited

/-- What a Lantern core does in one tick: its instruction set is another book's (chapter 13, "Lantern cores"), and the command
table has no row for its loads and stores. Free value number, core. -/
opaque coreRun : Nat → Nat → List CoreStep

/-- The program counter of a Lantern core after a debug STEP, and its program counter and mode as it takes an interrupt or a
synchronous abort. Free value number, core. -/
opaque corePc : Nat → Nat → BitVec 64
opaque coreMode : Nat → Nat → CoreMode

/-- The line that a full L2 cache gives up for another. Free value number. -/
opaque l2Victim : Nat → Nat

/-- The boot ROM of die 0, by byte (R378). -/
opaque bootRom : Nat → BitVec 8

/-- The cause code, in the core's own instruction set, of the abort that stops it (R380, R394). Free value number. -/
opaque coreFaultCause : Nat → BitVec 32

/-- The unique device secret held in fuses (R416). -/
opaque uds : Nat

/-- The fingerprints of the four firmware root keys, held in fuses (R416). Root slot. -/
opaque rootHash : Nat → List (BitVec 8)

/-- Where in die 0's system reserve the ROM writes the alias certificate, and where a firmware image is staged (R424,
R428 name the reserve, not the place). -/
opaque aliasAt : Nat
opaque stagingAt : Nat

/-- The per-signature secret of an ECDSA signature (R433 names the scheme, not the nonce). Free value number,
draw. -/
opaque ecdsaNonce : Nat → Nat → Nat

/-- The 48-bit provisioned ID, the bus and the device characteristics that GETPID, GETBCR and GETDCR return (R437
names the commands; the values are not given). -/
opaque i3cPid : BitVec 48
opaque i3cBcr : BitVec 8
opaque i3cDcr : BitVec 8

/-- The 16-bit GETSTATUS answer (R437 names the command; the layout is not given). Free value number. -/
opaque i3cStatus : Nat → BitVec 16

/-- USER of a task record whose descriptor was not read, or that has none (R113: it is the descriptor's). Free value
number. -/
opaque unreadUser : Nat → BitVec 32

/-- A stone of a circuit with LAST that does not close its origin's range is the circuit's last on its lane: no header says so
(R161, R184). Free value number. -/
opaque endsCircuit : Nat → Bool

/-- The global address that a capture record gives bytes which a command reads for itself and which land nowhere: a formation
or load record, or a manifest (R310, R313). -/
opaque recordAddress : BitVec 64

/-- The boot flash as the package is delivered, by byte (R417). -/
opaque factoryFlash : Nat → BitVec 8

/-- What a flash sector holds that has failed read-back twice, and how many sectors were programmed when a reset cut an
update short (R428, R429). Free value number, byte; free value number. -/
opaque failedSector : Nat → Nat → BitVec 8
opaque sectorsDone : Nat → Nat

/-- For how long after a reset's recognition, or after power good, the reset inputs stay low, and when REFCLK has come into
range: the pins are the board's (R440, R442). Both by the tick of the recognition or of power good. -/
opaque inputLow : Nat → Nat
opaque refclkAt : Nat → Nat

/-- How many of the security version's fuses were burnt as power failed in their burn (R421). Free value number. -/
opaque fusesBurnt : Nat → Nat

/-- Length less 1 and bytes of the factory certificates (R425). -/
opaque certLen : Fin 65532
opaque certByte : Nat → BitVec 8

/-- Where job control reads a request's input to, and the bytes it answers with: its programs are no part of the manual
(R187). Free value number; free value number, byte. -/
opaque requestBuffer : Nat → BitVec 64
opaque requestOutput : Nat → Nat → BitVec 8

end Sys2Proof.Config
end

