-- ==== Sys2Proof/Machine/RegTable.lean ====
section
/-! DEFINITION. The set-up registers: the offset, the fields, the access codes and the reset values that the
chapters' register tables give (R14–R20, R34–R36), and how a write leaves a register's fields. -/

namespace Sys2Proof.Machine

/-- Access codes (R17). -/
inductive Acc where
  | ro | rw | rwl | w1c | w1s | wo | rws
deriving DecidableEq, Repr

/-- The values a field may be given; any other is a reserved encoding and leaves the field as it is (R16). -/
inductive Valid where
  | any
  | range (lo hi : Nat)
  | among (l : List Nat)
  /-- no 2-bit pair is 3 -/
  | slots
deriving DecidableEq, Repr

/-- One field of a register. -/
structure Fld where
  hi : Nat
  lo : Nat
  acc : Acc
  rst : Nat := 0
  valid : Valid := .any
deriving DecidableEq, Repr

/-- Registers whose read or write does more than move stored fields. -/
inductive RegKind where
  | plain
  -- IDV, SEC, PWR
  | idvDevice | idvGrade | idvReset | idvMbox | secReady | secUpdate
  | pwrLimit | pwrStatus | pwrCtrl | pwrTempMax | pwrTherm
  -- GCT
  | gctCount | gctSyncCtrl | gctLaunchAt | gctBudget | gctLaunchCtrl | gctStepClose | gctStep | gctSeed
  | gctCtxStatus | gctRowCtx | gctRecCtrl | gctCmpCtrl | gctRegradeCtrl
  -- ICU, LCC
  | icuSrc | icuPend | icuNext | icuAck | icuMask | icuSum | icuEvqBase | icuEvqHead
  | lccRun | lccDbgCtrl | lccDbgStatus | lccDbgPc | lccBase | lccCmdTail | lccTrace
  -- HBM
  | hbmStatus | hbmFrameCtrl | hbmUsed | hbmFree
  -- FAB
  | fabPortStatus | fabPortCtrl | fabId | fabRoute | fabWinCmd | fabWin | fabWin0 | fabOpqBase | fabOpqCtrl | fabOpqTail
  | fabMcRemove
  -- HLK
  | hlkStatus | hlkCtrl | hlkAdmBase | hlkRingHead | cmdTail | cplHead | evHead
  -- CAR
  | carStatus | carState | carJob | carStash | carStashState | carGen | carQBase | carQCtrl | carQTail
  -- TIL
  | tilStatus | tilSqTail | tilTctx | tilTask | tilBlock | tilRegion | tilTagCmd | tilTagState | tilGridStatus
  -- ROW
  | rowStatus | rowCtrl | rowTail | rowSpillBase | rowSpillSize | rowStatUse
deriving DecidableEq, Repr

/-- A register, or an array of registers with up to two strides. -/
structure Reg where
  name : String
  kind : RegKind := .plain
  /-- offset in the die of the first register of the array -/
  base : Nat
  n : Nat := 1
  stride : Nat := 4
  n2 : Nat := 1
  stride2 : Nat := 0
  wide : Bool := false
  pkg : Bool := false
  flds : List Fld
deriving DecidableEq, Repr

/-- Bits hi to lo of a value. -/
def bitsOf (v hi lo : Nat) : Nat := (v / 2 ^ lo) % 2 ^ (hi + 1 - lo)

/-- A value with bits hi to lo replaced by those of `x`. -/
def setBits (v hi lo x : Nat) : Nat :=
  v - bitsOf v hi lo * 2 ^ lo + (x % 2 ^ (hi + 1 - lo)) * 2 ^ lo

def Valid.ok (v : Valid) (x : Nat) : Bool :=
  match v with
  | .any => true
  | .range lo hi => lo ≤ x && x ≤ hi
  | .among l => l.contains x
  | .slots => (List.range 16).all fun j => bitsOf x (2 * j + 1) (2 * j) != 3

/-- A field's value after a write of `w` over `old`, with `locked` set after SETUP_COMMIT (R16–R18). -/
def Fld.write (f : Fld) (locked : Bool) (old w : Nat) : Nat :=
  let x := bitsOf w f.hi f.lo
  let o := bitsOf old f.hi f.lo
  match f.acc with
  | .ro => o
  | .wo => o
  | .rw | .rws => if f.valid.ok x then x else o
  | .rwl => if locked then o else if f.valid.ok x then x else o
  | .w1c => o - (o &&& x)
  | .w1s => o ||| x

/-- A register's value after a write, field by field. -/
def Reg.write (r : Reg) (locked : Bool) (old w : Nat) : Nat :=
  r.flds.foldl (fun a f => setBits a f.hi f.lo (f.write locked old w)) old

/-- The reset value of a register. -/
def Reg.reset (r : Reg) : Nat := r.flds.foldl (fun a f => setBits a f.hi f.lo f.rst) 0

/-- The write tries to change a locked RWL field (R18). -/
def Reg.breaksLock (r : Reg) (old w : Nat) : Bool :=
  r.flds.any fun f => f.acc == .rwl && bitsOf w f.hi f.lo != bitsOf old f.hi f.lo

/-- Two writes leave a non-RO field with different values, from the same starting value (R371).
A WO field holds no value; its written bits stand for it. -/
def Reg.contradict (r : Reg) (locked : Bool) (old w₁ w₂ : Nat) : Bool :=
  r.flds.any fun f =>
    match f.acc with
    | .ro => false
    | .wo => bitsOf w₁ f.hi f.lo != bitsOf w₂ f.hi f.lo
    | _ => f.write locked old w₁ != f.write locked old w₂

/-- Which register of the array a die offset names: the two indexes, and whether it is the high word. -/
def Reg.index (r : Reg) (off : Nat) : Option (Nat × Nat × Bool) :=
  if off < r.base then none else
  let x := off - r.base
  let j := if r.n2 == 1 then 0 else x / r.stride2
  let x := if r.n2 == 1 then x else x % r.stride2
  let i := if r.n == 1 then 0 else x / r.stride
  let y := if r.n == 1 then x else x % r.stride
  if j < r.n2 && i < r.n then
    if y == 0 then some (i, j, false)
    else if r.wide && y == 4 then some (i, j, true)
    else none
  else none

def ro (hi lo : Nat) (rst : Nat := 0) : Fld := { hi, lo, acc := .ro, rst }
def rw (hi lo : Nat) (rst : Nat := 0) (valid : Valid := .any) : Fld := { hi, lo, acc := .rw, rst, valid }
def rwl (hi lo : Nat) (rst : Nat := 0) (valid : Valid := .any) : Fld := { hi, lo, acc := .rwl, rst, valid }
def rws (hi lo : Nat) (rst : Nat := 0) (valid : Valid := .any) : Fld := { hi, lo, acc := .rws, rst, valid }
def wo (hi lo : Nat) : Fld := { hi, lo, acc := .wo }
def w1c (hi lo : Nat) : Fld := { hi, lo, acc := .w1c }
def w1s (hi lo : Nat) (rst : Nat := 0) : Fld := { hi, lo, acc := .w1s, rst }

/-! ## The registers, block by block -/

/-- IDV (R6, R434, R443). -/
def regsIdv : List Reg := [
  { name := "IDV_DEVICE", kind := .idvDevice, base := 0x0, flds := [ro 31 16 0x5A38, ro 15 12 1, ro 11 8 1, ro 2 0] },
  { name := "IDV_GRADE", kind := .idvGrade, base := 0x4, flds := [ro 15 8, ro 1 0] },
  { name := "IDV_BOOT", base := 0x8, pkg := true, flds := [ro 31 28, ro 27 20, ro 15 0] },
  { name := "IDV_RESET", kind := .idvReset, base := 0xC, pkg := true, flds := [wo 31 16, wo 1 0] },
  { name := "IDV_MBOX", kind := .idvMbox, base := 0x10, pkg := true, flds := [rw 31 0] }]

/-- PWR (R414). -/
def regsPwr : List Reg := [
  { name := "PWR_STATUS", kind := .pwrStatus, base := 0x100000, flds := [ro 6 0] },
  { name := "PWR_LIMIT", kind := .pwrLimit, base := 0x100004, pkg := true, flds := [rw 10 0 0x5DC (.range 900 1800)] },
  { name := "PWR_LTR", kind := .pwrCtrl, base := 0x100008, pkg := true, flds := [rw 31 0] },
  { name := "PWR_CTRL", kind := .pwrCtrl, base := 0x10000C, pkg := true,
    flds := [rw 18 16 4 (.range 0 4), rwl 15 0 0x64 (.range 1 0xFFFF)] },
  { name := "PWR_STATE", base := 0x100010, pkg := true, flds := [ro 2 0] },
  { name := "PWR_BUDGET", base := 0x100014, flds := [ro 31 0 162500] },
  { name := "PWR_GRANTED", base := 0x100018, flds := [ro 31 0] },
  { name := "PWR_HELD", base := 0x10001C, flds := [ro 5 0] },
  { name := "PWR_THERM_CTRL", kind := .pwrTherm, base := 0x100020, pkg := true,
    flds := [rwl 23 16 0x5F (.range 70 100), rwl 15 8 0x6E (.range 95 110), rwl 0 0 1] },
  { name := "PWR_TEMP", base := 0x100024, flds := [ro 31 16, ro 15 0] },
  { name := "PWR_TEMP_MAX", kind := .pwrTempMax, base := 0x100028, flds := [rws 31 16, rws 15 0] },
  { name := "PWR_VIN", base := 0x100030, pkg := true, flds := [ro 15 0] },
  { name := "PWR_IIN", base := 0x100034, pkg := true, flds := [ro 15 0] },
  { name := "PWR_PIN", base := 0x100038, pkg := true, flds := [ro 15 0] },
  { name := "PWR_ENERGY", base := 0x100040, wide := true, pkg := true, flds := [ro 63 0] }]

/-- GCT (R322). -/
def regsGct : List Reg := [
  { name := "GCT_COUNT", kind := .gctCount, base := 0x200000, wide := true, flds := [ro 63 0] },
  { name := "GCT_LEVEL", base := 0x200008, pkg := true, flds := [rwl 2 2, rwl 1 0 1 (.range 0 2)] },
  { name := "GCT_SYNC_CTRL", kind := .gctSyncCtrl, base := 0x200010, pkg := true, flds := [wo 31 31, rwl 1 0 0 (.range 0 2)] },
  { name := "GCT_SYNC_DELAY", base := 0x200014, pkg := true, flds := [rwl 11 0] },
  { name := "GCT_SYNC_NEXT", base := 0x200018, wide := true, pkg := true, flds := [rw 63 0] },
  { name := "GCT_SYNC_STATUS", base := 0x200020, pkg := true, flds := [ro 31 31, w1c 30 30, w1c 29 29, ro 19 16, ro 15 0] },
  { name := "GCT_SYNC_LIMIT", base := 0x200024, pkg := true, flds := [rwl 11 0 0x3E8 (.range 0x10 0xFFF)] },
  { name := "GCT_TRIG_STAMP", base := 0x200028, wide := true, pkg := true, flds := [ro 63 0] },
  { name := "GCT_LAUNCH_AT", kind := .gctLaunchAt, base := 0x200030, wide := true, pkg := true, flds := [rw 63 0] },
  { name := "GCT_LAUNCH_CTRL", kind := .gctLaunchCtrl, base := 0x200038, pkg := true,
    flds := [w1s 31 31, w1s 30 30, ro 11 8, rw 2 0] },
  { name := "GCT_BUDGET", kind := .gctBudget, base := 0x200040, wide := true, pkg := true, flds := [rw 63 0] },
  { name := "GCT_STEP_CLOSE", kind := .gctStepClose, base := 0x200048, pkg := true, flds := [wo 2 0] },
  { name := "GCT_ROW_CTX", kind := .gctRowCtx, base := 0x20004C,
    flds := [rw 2 0, rw 5 3, rw 8 6, rw 11 9, rw 14 12, rw 17 15, rw 20 18, rw 23 21] },
  { name := "GCT_REC_CTRL", kind := .gctRecCtrl, base := 0x200050, pkg := true, flds := [rw 4 2, rw 1 0 0 (.range 0 2)] },
  { name := "GCT_REC_STATUS", base := 0x200054, flds := [ro 31 31, ro 30 30, ro 29 29, ro 28 28, ro 15 0] },
  { name := "GCT_REC_USED", base := 0x200058, wide := true, flds := [ro 63 0] },
  { name := "GCT_REGRADE_CTRL", kind := .gctRegradeCtrl, base := 0x200060, pkg := true, flds := [wo 31 16, wo 0 0] },
  { name := "GCT_REGRADE_STATUS", base := 0x200064, pkg := true, flds := [ro 9 8, ro 2 0] },
  { name := "GCT_REGRADE_MASK", base := 0x200068, wide := true, flds := [rw 39 0] },
  { name := "GCT_CTXn_STEP", kind := .gctStep, base := 0x200100, n := 8, stride := 0x20, wide := true, pkg := true,
    flds := [ro 63 0] },
  { name := "GCT_CTXn_SEED", kind := .gctSeed, base := 0x200108, n := 8, stride := 0x20, wide := true, pkg := true,
    flds := [rw 63 0] },
  { name := "GCT_CTXn_STATUS", kind := .gctCtxStatus, base := 0x200110, n := 8, stride := 0x20, pkg := true,
    flds := [ro 31 29, w1c 28 28, w1c 27 27, ro 26 26] },
  { name := "GCT_NDCk", base := 0x200200, n := 16, flds := [ro 31 0] },
  { name := "GCT_CMPk", base := 0x200300, n := 8, stride := 0x10, wide := true, flds := [rw 63 0] },
  { name := "GCT_CMPk_CTRL", kind := .gctCmpCtrl, base := 0x200308, n := 8, stride := 0x10, flds := [rw 31 31, ro 30 30] }]

/-- ICU and LCC (R396). -/
def regsIcu : List Reg := [
  { name := "ICU_SRCs_CFG", kind := .icuSrc, base := 0x300000, n := 1024, flds := [rw 31 31, rwl 4 0] },
  { name := "ICU_PENDw", kind := .icuPend, base := 0x301000, n := 32, flds := [w1s 31 0] },
  { name := "ICU_NEXTc", kind := .icuNext, base := 0x301100, n := 32, flds := [ro 31 31, ro 9 0] },
  { name := "ICU_ACK", kind := .icuAck, base := 0x301180, flds := [wo 9 0] },
  { name := "ICU_MASKj", kind := .icuMask, base := 0x301200, n := 4, flds := [ro 1 1, rw 0 0 1] },
  { name := "ICU_SUMj", kind := .icuSum, base := 0x301210, n := 4, flds := [ro 7 0] },
  { name := "ICU_EVQ_BASE", kind := .icuEvqBase, base := 0x301240, wide := true, flds := [rwl 63 5] },
  { name := "ICU_EVQ_CTRL", base := 0x301248, flds := [rwl 3 0 8 (.range 4 12)] },
  { name := "ICU_EVQ_TAIL", base := 0x30124C, flds := [ro 11 0] },
  { name := "ICU_EVQ_HEAD", kind := .icuEvqHead, base := 0x301250, flds := [rw 11 0] },
  { name := "ICU_EVQ_LOST", base := 0x301254, flds := [ro 31 0] },
  { name := "LCC_RUN", kind := .lccRun, base := 0x2100000, n2 := 4, stride2 := 0x40000, flds := [w1s 0 0] },
  { name := "LCC_DBG_CTRL", kind := .lccDbgCtrl, base := 0x2100004, n2 := 4, stride2 := 0x40000, flds := [wo 2 0] },
  { name := "LCC_DBG_STATUS", kind := .lccDbgStatus, base := 0x2100008, n2 := 4, stride2 := 0x40000,
    flds := [rws 2 2, ro 1 1, ro 0 0] },
  { name := "LCC_DBG_PC", kind := .lccDbgPc, base := 0x2100010, n2 := 4, stride2 := 0x40000, wide := true, flds := [ro 63 0] },
  { name := "LCC_CMD_BASE", kind := .lccBase, base := 0x2100020, n2 := 4, stride2 := 0x40000, wide := true, flds := [rw 63 6] },
  { name := "LCC_CMD_CTRL", base := 0x2100028, n2 := 4, stride2 := 0x40000, flds := [rw 3 0 6 (.range 4 10)] },
  { name := "LCC_CMD_TAIL", kind := .lccCmdTail, base := 0x210002C, n2 := 4, stride2 := 0x40000, flds := [rw 9 0] },
  { name := "LCC_CMD_HEAD", base := 0x2100030, n2 := 4, stride2 := 0x40000, flds := [ro 9 0] },
  { name := "LCC_CPL_BASE", kind := .lccBase, base := 0x2100038, n2 := 4, stride2 := 0x40000, wide := true, flds := [rw 63 6] },
  { name := "LCC_DBG_ALLOW", base := 0x2100100, pkg := true, flds := [rwl 0 0] },
  { name := "LCC_TRACE_CTRL", kind := .lccTrace, base := 0x2100104, pkg := true, flds := [rw 0 0] }]

/-- HBM (R243). -/
def regsHbm : List Reg := [
  { name := "HBM_STATUS", kind := .hbmStatus, base := 0x400000, n2 := 2, stride2 := 0x200000, flds := [ro 2 2, ro 1 1, ro 0 0] },
  { name := "HBM_CE_COUNT", base := 0x400008, n2 := 2, stride2 := 0x200000, flds := [ro 31 0] },
  { name := "HBM_CE_LIMIT", base := 0x40000C, n2 := 2, stride2 := 0x200000, flds := [rwl 31 0 0x1000] },
  { name := "HBM_UE_INFO", base := 0x400010, n2 := 2, stride2 := 0x200000,
    flds := [rws 31 31, rws 30 30, rws 29 27, rws 26 24, rws 23 23, rws 15 0] },
  { name := "HBM_UE_ADDR", base := 0x400018, n2 := 2, stride2 := 0x200000, wide := true, flds := [rws 63 0] },
  { name := "HBM_UE_STEP", base := 0x400020, n2 := 2, stride2 := 0x200000, wide := true, flds := [rws 63 0] },
  { name := "HBM_SCRUB_STATUS", base := 0x400028, n2 := 2, stride2 := 0x200000, flds := [ro 31 16, ro 15 0] },
  { name := "HBM_LEND_COUNT", base := 0x400030, n2 := 2, stride2 := 0x200000, flds := [ro 31 0] },
  { name := "HBM_FRAMEk", base := 0x500000, n := 8, pkg := true, flds := [rwl 31 0 0x94009400 .slots] },
  { name := "HBM_FRAME_CTRL", kind := .hbmFrameCtrl, base := 0x500020, pkg := true,
    flds := [ro 31 31 1, ro 23 16 0x50, ro 15 8 0x20, rwl 0 0] },
  { name := "HBM_SCRUB_CTRL", base := 0x500024, pkg := true, flds := [rwl 7 0 0x18 (.range 1 255)] },
  { name := "HBM_CAPTURE", base := 0x500028, pkg := true, flds := [rwl 4 0 1 (.range 0 16)] },
  { name := "HBM_CODEC_SAT", base := 0x500030, flds := [ro 31 0] },
  { name := "HBM_CODEC_NONFINITE", base := 0x500034, flds := [ro 31 0] },
  { name := "HBM_ALLOT_USED", kind := .hbmUsed, base := 0x500038, flds := [ro 31 0] },
  { name := "HBM_ALLOT_FREE", kind := .hbmFree, base := 0x50003C, flds := [ro 31 0] }]

/-- FAB (R288). -/
def regsFab : List Reg := [
  { name := "FAB_PORT_STATUS", kind := .fabPortStatus, base := 0x800000, n2 := 3, stride2 := 0x100000,
    flds := [ro 31 29, ro 28 26, ro 25 23, ro 1 1, ro 0 0] },
  { name := "FAB_PORT_CTRL", kind := .fabPortCtrl, base := 0x800004, n2 := 3, stride2 := 0x100000,
    flds := [wo 3 3, wo 2 2, rwl 1 1, rwl 0 0 1] },
  { name := "FAB_PORT_SHARE", base := 0x800008, n2 := 3, stride2 := 0x100000,
    flds := [rwl 19 16 0xA, rwl 15 12 3, rwl 11 8 2, rwl 7 4 1, rwl 3 0 0] },
  { name := "FAB_PORT_PEER", base := 0x80000C, n2 := 3, stride2 := 0x100000,
    flds := [ro 31 31, ro 30 30, ro 20 18, ro 17 16, ro 15 0] },
  { name := "FAB_PORT_PEER_FP", base := 0x800010, n2 := 3, stride2 := 0x100000, wide := true, flds := [ro 63 0] },
  { name := "FAB_PORT_FEC_CE", base := 0x800018, n2 := 3, stride2 := 0x100000, flds := [ro 31 0] },
  { name := "FAB_PORT_FEC_UE", base := 0x80001C, n2 := 3, stride2 := 0x100000, flds := [ro 31 0] },
  { name := "FAB_PORT_CRC_ERR", base := 0x800020, n2 := 3, stride2 := 0x100000, flds := [ro 31 0] },
  { name := "FAB_PORT_REPLAY", base := 0x800024, n2 := 3, stride2 := 0x100000, flds := [ro 31 0] },
  { name := "FAB_PORT_DOWNS", base := 0x800028, n2 := 3, stride2 := 0x100000, flds := [ro 31 0] },
  { name := "FAB_ID", kind := .fabId, base := 0xB00000, pkg := true, flds := [rw 31 31, rw 15 0] },
  { name := "FAB_MODE", base := 0xB00004, pkg := true, flds := [rwl 8 8, rwl 7 3, rwl 2 2, rwl 1 1, rwl 0 0] },
  { name := "FAB_VERSION", base := 0xB00008, flds := [ro 15 8 1, ro 7 0] },
  { name := "FAB_STATUS", base := 0xB0000C, flds := [w1c 2 2, w1c 1 1, w1c 0 0] },
  { name := "FAB_E2E_TIMEOUT", base := 0xB00010, pkg := true, flds := [rwl 31 0 0x4E20 (.range 0x3E8 0xFFFFFFFF)] },
  { name := "FAB_MC_STALL_LIMIT", base := 0xB00014, pkg := true, flds := [rwl 31 0 0x1E8480 (.range 0x3E8 0xFFFFFFFF)] },
  { name := "FAB_ABORT_SETTLE", base := 0xB00018, pkg := true, flds := [rwl 31 0 0x186A0 (.range 0x3E8 0xFFFFFFFF)] },
  { name := "FAB_WIN_STALE", base := 0xB0001C, flds := [ro 31 0] },
  { name := "FAB_FAILOVER_COUNT", base := 0xB00020, flds := [ro 31 0] },
  { name := "FAB_WIN_CMD", kind := .fabWinCmd, base := 0xB00024, flds := [wo 31 30, wo 7 0] },
  { name := "FAB_MC_REMOVE", kind := .fabMcRemove, base := 0xB00028, pkg := true, flds := [wo 7 0] },
  { name := "FAB_NBRn_BASE", base := 0xB00040, n := 8, stride := 8, flds := [rw 31 0] },
  { name := "FAB_NBRn_SIZE", base := 0xB00044, n := 8, stride := 8, flds := [rw 31 0] },
  { name := "FAB_OPQn_BASE", kind := .fabOpqBase, base := 0xB00100, n := 8, stride := 0x20, wide := true, pkg := true,
    flds := [rw 63 6] },
  { name := "FAB_OPQn_CTRL", kind := .fabOpqCtrl, base := 0xB00108, n := 8, stride := 0x20, pkg := true,
    flds := [wo 31 31, ro 30 30, rw 3 0 6 (.range 4 10)] },
  { name := "FAB_OPQn_TAIL", kind := .fabOpqTail, base := 0xB0010C, n := 8, stride := 0x20, pkg := true, flds := [rw 9 0] },
  { name := "FAB_OPQn_HEAD", base := 0xB00110, n := 8, stride := 0x20, pkg := true, flds := [ro 9 0] },
  { name := "FAB_WINw W0", kind := .fabWin0, base := 0xB01000, n := 256, stride := 16,
    flds := [ro 31 30, rw 29 29, rw 28 28, rw 27 27, rw 26 21, rw 20 18, ro 15 0] },
  { name := "FAB_WINw W1", kind := .fabWin, base := 0xB01004, n := 256, stride := 16, flds := [rw 31 0] },
  { name := "FAB_WINw W2", kind := .fabWin, base := 0xB01008, n := 256, stride := 16, flds := [rw 31 0] },
  { name := "FAB_WINw W3", kind := .fabWin, base := 0xB0100C, n := 256, stride := 16, flds := [rw 31 16, rw 15 0] },
  { name := "FAB_GRTg", kind := .fabRoute, base := 0xB02000, n := 512, flds := [rw 31 0] },
  { name := "FAB_MRTm", kind := .fabRoute, base := 0xB02800, n := 128, flds := [rw 31 0] }]

/-- HLK (R376). -/
def regsHlk : List Reg := [
  { name := "HLK_STATUS", kind := .hlkStatus, base := 0xC00000, flds := [ro 31 29, ro 28 28, ro 27 27, ro 26 24] },
  { name := "HLK_CTRL", kind := .hlkCtrl, base := 0xC00004, flds := [wo 31 31, rwl 0 0] },
  { name := "HLK_IFVERi", base := 0xC00010, n := 5, flds := [ro 31 24 1, ro 23 16, ro 15 8, ro 7 0] },
  { name := "HLK_COMMIT_FAIL", base := 0xC00030, flds := [ro 31 0] },
  { name := "HLK_ADM_BASE", kind := .hlkAdmBase, base := 0xC00040, n := 3, stride := 8, wide := true, flds := [rwl 63 6] },
  { name := "HLK_ADM_SIZES", base := 0xC00058,
    flds := [rwl 11 8 6 (.range 4 12), rwl 7 4 6 (.range 4 12), rwl 3 0 6 (.range 4 12)] },
  { name := "HLK_APERTUREk", base := 0xC00060, n := 4, stride := 8, wide := true, flds := [rw 63 32, rw 0 0] },
  { name := "HLK_HOST_TIMEOUT", base := 0xC00080, flds := [rwl 31 0 0x989680 (.range 0xF4240 0xFFFFFFFF)] },
  { name := "HLK_IRQ_COAL", base := 0xC00084, flds := [rwl 31 0 0x3E8] },
  { name := "HLK_REPLAY", base := 0xC00088, flds := [ro 31 0] },
  { name := "HLK_DOWNS", base := 0xC0008C, flds := [ro 31 0] },
  { name := "HLK_RINGr_HEAD", kind := .hlkRingHead, base := 0xC00100, n := 9, stride := 0x10, flds := [ro 31 31, ro 27 16, ro 11 0] },
  { name := "HLK_RINGr_LOST", base := 0xC00104, n := 9, stride := 0x10, flds := [ro 31 0] },
  { name := "CMD_TAIL", kind := .cmdTail, base := 0xC10000, n := 9, stride := 0x1000, flds := [rw 11 0] },
  { name := "CPL_HEAD", kind := .cplHead, base := 0xC10004, n := 9, stride := 0x1000, flds := [rw 11 0] },
  { name := "EV_HEAD", kind := .evHead, base := 0xC10008, n := 9, stride := 0x1000, flds := [rw 11 0] }]

/-- SEC (R434, R348). -/
def regsSec : List Reg := [
  { name := "SEC_BOOT_CTRL", kind := .secReady, base := 0xD00000, pkg := true, flds := [w1s 0 0] },
  { name := "SEC_FW_INFO", base := 0xD00004, pkg := true, flds := [ro 29 24, ro 21 16, ro 9 8, ro 7 4, ro 0 0] },
  { name := "SEC_FW_VERSION", base := 0xD00008, pkg := true, flds := [ro 31 0] },
  { name := "SEC_UPDATE_STATUS", kind := .secUpdate, base := 0xD00010, pkg := true, flds := [rws 31 29, rws 23 16, rws 9 0] },
  { name := "SEC_FW_MEASk", base := 0xD00020, n := 8, pkg := true, flds := [ro 31 0] },
  { name := "SEC_ID_FPk", base := 0xD00040, n := 8, pkg := true, flds := [ro 31 0] },
  { name := "SEC_ATT_FPk", base := 0xD00060, n := 8, pkg := true, flds := [ro 31 0] },
  { name := "SEC_CONFIGk", base := 0xD00080, n := 8, pkg := true, flds := [ro 31 0] },
  { name := "SEC_LOAD_CTRL", base := 0xD80000, pkg := true, flds := [rwl 3 0 2] },
  { name := "SEC_FETCH_TIMEOUT", base := 0xD80004, pkg := true, flds := [rwl 31 0 0x5F5E100 (.range 0xF4240 0xFFFFFFFF)] },
  { name := "SEC_CHECK_PERIOD", base := 0xD80008, pkg := true, flds := [rwl 11 0 0x3C (.range 1 3600)] },
  { name := "SEC_CHECK_PASSES", base := 0xD8000C, flds := [ro 31 0] },
  { name := "SEC_CTXn_LOAD", base := 0xD80100, n := 8, stride := 0x20, pkg := true,
    flds := [ro 31 29, ro 28 28, ro 27 27, ro 26 26, ro 25 25, ro 19 16, ro 15 0 0xFFFE] },
  { name := "SEC_CTXn_SLOTS", base := 0xD80104, n := 8, stride := 0x20, pkg := true, flds := [ro 31 16, ro 15 0] },
  { name := "SEC_CTXn_TAB", base := 0xD80108, n := 8, stride := 0x20, wide := true, flds := [ro 63 5] },
  { name := "SEC_CTXn_TABLEN", base := 0xD80110, n := 8, stride := 0x20, flds := [ro 16 0] },
  { name := "SEC_CTXn_LAST_OK", base := 0xD80118, n := 8, stride := 0x20, wide := true, pkg := true,
    flds := [ro 63 0 0xFFFFFFFFFFFFFFFF] }]

/-- CAR (R192). -/
def regsCar : List Reg := [
  { name := "CAR_STATUS", kind := .carStatus, base := 0xE00000, flds := [ro 11 8, ro 1 1, ro 0 0] },
  { name := "CAR_STALL_LIMIT", base := 0xE00008, flds := [rwl 31 0 0xF4240 (.range 0x2710 0xFFFFFFFF)] },
  { name := "CAR_STONE_RX", base := 0xE00010, wide := true, flds := [ro 63 0] },
  { name := "CAR_STONE_TX", base := 0xE00018, wide := true, flds := [ro 63 0] },
  { name := "CAR_DIGEST_ERR", base := 0xE00020, flds := [ro 31 0] },
  { name := "CAR_FAULT_INFO", base := 0xE00030, flds := [rws 31 31, rws 26 24, rws 23 16 0 (.range 1 3), rws 15 0] },
  { name := "CAR_FAULT_TENSOR", base := 0xE00034, flds := [rws 31 0] },
  { name := "CAR_FAULT_SEQ", base := 0xE00038, flds := [rws 31 0] },
  { name := "CAR_RINGn_STATE", kind := .carState, base := 0xE00100, n := 8, stride := 0x40, pkg := true,
    flds := [ro 31 29, ro 28 22, ro 21 14, ro 13 12, ro 11 11, ro 10 10] },
  { name := "CAR_RINGn_JOB", kind := .carJob, base := 0xE00104, n := 8, stride := 0x40, pkg := true, flds := [ro 31 0] },
  { name := "CAR_RINGn_STASH", kind := .carStash, base := 0xE00108, n := 8, stride := 0x40, pkg := true, flds := [ro 31 16, ro 15 0] },
  { name := "CAR_RINGn_STASH_STATE", kind := .carStashState, base := 0xE0010C, n := 8, stride := 0x40, pkg := true,
    flds := [ro 31 31, ro 30 30, ro 29 29, ro 15 0] },
  { name := "CAR_RINGn_STASH_WAITS", base := 0xE00110, n := 8, stride := 0x40, pkg := true, flds := [ro 31 0] },
  { name := "CAR_RINGn_GEN", kind := .carGen, base := 0xE00114, n := 8, stride := 0x40, pkg := true, flds := [ro 31 16, ro 15 0] },
  { name := "CAR_RINGn_Q_BASE", kind := .carQBase, base := 0xE00120, n := 8, stride := 0x40, wide := true, pkg := true,
    flds := [rw 63 5] },
  { name := "CAR_RINGn_Q_CTRL", kind := .carQCtrl, base := 0xE00128, n := 8, stride := 0x40, pkg := true,
    flds := [ro 31 31, ro 30 30, rw 3 0 8 (.range 4 12)] },
  { name := "CAR_RINGn_Q_TAIL", kind := .carQTail, base := 0xE0012C, n := 8, stride := 0x40, pkg := true, flds := [rw 11 0] },
  { name := "CAR_RINGn_Q_HEAD", base := 0xE00130, n := 8, stride := 0x40, pkg := true, flds := [ro 11 0] },
  { name := "CAR_RINGn_PMAP", kind := .carQBase, base := 0xE00138, n := 8, stride := 0x40, wide := true, flds := [rw 63 4] }]

/-- A tile register array. -/
def til (name : String) (kind : RegKind) (off : Nat) (flds : List Fld) (wide : Bool := false) (n : Nat := 1)
    (stride : Nat := 4) : Reg :=
  { name, kind, base := 0x1000000 + off, n, stride, n2 := 40, stride2 := 0x40000, wide, flds }

/-- TIL (R129, R97). -/
def regsTil : List Reg := [
  til "TIL_STATUS" .tilStatus 0x0 [w1c 9 9, w1c 8 8, ro 3 3, ro 2 2, ro 1 1, ro 0 0],
  til "TIL_STALL_LIMIT" .plain 0x8 [rwl 31 0 0x100000 (.range 0x1000 0xFFFFFFFF)],
  til "TIL_SQ_BASE" .plain 0x10 [rwl 63 5] true,
  til "TIL_SQ_CTRL" .plain 0x18 [rwl 3 0 6 (.range 4 10)],
  til "TIL_SQ_TAIL" .tilSqTail 0x1C [rw 10 0],
  til "TIL_SQ_HEAD" .plain 0x20 [ro 10 0],
  til "TIL_TCTXn_STATE" .tilTctx 0x40 [ro 31 29, ro 28 28, ro 27 24, ro 20 16, ro 15 8, ro 7 5] false 4 0x10,
  til "TIL_TCTXn_TASK" .tilTask 0x44 [ro 31 0] false 4 0x10,
  til "TIL_TCTXn_BLOCK" .tilBlock 0x48 [ro 31 31, ro 15 14, ro 13 0] false 4 0x10,
  til "TIL_REGIONn" .tilRegion 0x100 [rw 31 31, rw 30 30, rw 29 16, rw 13 0] false 16,
  til "TIL_TAG_CMD" .tilTagCmd 0x180 [wo 31 30, wo 29 16, wo 13 0],
  til "TIL_TAG_QUERY" .plain 0x184 [rw 13 0],
  til "TIL_TAG_STATE" .tilTagState 0x188 [ro 9 9, ro 7 4, ro 1 0],
  til "TIL_TMO_COUNT" .plain 0x190 [ro 31 0],
  til "TIL_SWITCH_COUNT" .plain 0x194 [ro 31 0],
  til "TIL_STALL_COUNT" .plain 0x198 [ro 31 0],
  til "TIL_GRID_CTRL" .plain 0x800 [rwl 22 16 0x7F, rwl 1 0 2 (.range 0 2)],
  til "TIL_GRID_STATUS" .tilGridStatus 0x804 [ro 5 5, ro 4 4, ro 3 2, ro 1 1, ro 0 0],
  til "TIL_GRID_RECHECK" .plain 0x808 [ro 31 0],
  til "TIL_GRID_FENCE_INFO" .plain 0x810 [rws 31 31, rws 11 8 0 (.range 0 2), rws 5 5, rws 4 3 0 (.range 0 2), rws 2 2, rws 1 0],
  til "TIL_GRID_FENCE_STEP" .plain 0x818 [rws 63 0] true,
  til "TIL_GRID_SELFTEST" .plain 0x820 [ro 31 31, ro 17 17, ro 16 16, ro 6 0]]

/-- A row engine register. -/
def row (name : String) (kind : RegKind) (off : Nat) (flds : List Fld) (wide : Bool := false) : Reg :=
  { name, kind, base := 0x2000000 + off, n2 := 8, stride2 := 0x10000, wide, flds }

/-- ROW (R220). -/
def regsRow : List Reg := [
  row "ROW_STATUS" .rowStatus 0x0 [ro 15 8, ro 3 3, ro 2 2, ro 1 1, ro 0 0],
  row "ROW_CTRL" .rowCtrl 0x4 [wo 0 0],
  row "ROW_FLAGS" .plain 0x8 [w1c 6 6, w1c 5 5, w1c 4 4, w1c 3 3, w1c 2 2, w1c 1 1, w1c 0 0],
  row "ROW_Q_BASE" .plain 0x10 [rwl 63 6] true,
  row "ROW_Q_CTRL" .plain 0x18 [rwl 3 0 8 (.range 4 12)],
  row "ROW_Q_TAIL" .rowTail 0x1C [rw 11 0],
  row "ROW_Q_HEAD" .plain 0x20 [ro 11 0],
  row "ROW_CQ_BASE" .plain 0x28 [rwl 63 4] true,
  row "ROW_SPILL_BASE" .rowSpillBase 0x30 [rw 63 16] true,
  row "ROW_SPILL_SIZE" .rowSpillSize 0x38 [rw 15 0],
  row "ROW_STAT_USE" .rowStatUse 0x3C [ro 27 16, ro 13 0],
  row "ROW_SPILL_COUNT" .plain 0x40 [ro 31 0]]

/-- The block of a die offset (R34), so that a search stays within one block's registers. -/
def regsAt (off : Nat) : List Reg :=
  if off < 0x100000 then regsIdv
  else if off < 0x200000 then regsPwr
  else if off < 0x300000 then regsGct
  else if off < 0x400000 then regsIcu
  else if off < 0x800000 then regsHbm
  else if off < 0xC00000 then regsFab
  else if off < 0xD00000 then regsHlk
  else if off < 0xE00000 then regsSec
  else if off < 0x1000000 then regsCar
  else if off < 0x1A00000 then regsTil
  else if off < 0x2000000 then []
  else if off < 0x2080000 then regsRow
  else if off < 0x2100000 then []
  else if off < 0x2200000 then regsIcu
  else []

/-- The first register of a list that holds an offset, with its indexes and whether the offset is its high word. -/
def findIn (off : Nat) : List Reg → Option (Reg × Nat × Nat × Bool)
  | [] => none
  | r :: rs =>
    match r.index off with
    | some (i, j, hi) => some (r, i, j, hi)
    | none => findIn off rs

/-- The register that a set-up address names; `none` where the offset is reserved or unbacked. -/
def findReg (addr : Nat) : Option (Reg × Nat × Nat × Bool) := findIn (addr % 0x4000000) (regsAt (addr % 0x4000000))

/-- The word an address reads as after reset (R20). LCC_RUN.GO is 1 on core 0 of die 0 (R396). -/
def resetWord (addr : Nat) : Word :=
  match findReg addr with
  | none => 0
  | some (r, _, _, hi) =>
    if addr == 0x2100000 then 1
    else BitVec.ofNat 32 (if hi then r.reset / 2 ^ 32 else r.reset)

/-- The address that holds a register: die 0 for package scope (R36). -/
def canon (addr : Nat) : Nat :=
  match findReg addr with
  | some (r, _, _, _) => if r.pkg then addr % 0x4000000 else addr
  | none => addr

end Sys2Proof.Machine
end

