-- ==== Sys2Proof/Machine/State.lean ====
section
/-! DEFINITION. The state of the package as plain data: one structure per unit, `State` and `State.reset`,
and the reasons a step can stop. Indexed unit state is a sorted association list that lists only what differs
from the default (`SMap`), so that equal machines are equal data and reset lists nothing. -/

namespace Sys2Proof.Machine

/-- A finite map from a unit number to unit state: keys strictly rising, entries at the default not listed. -/
abbrev SMap (α : Type) := List (Nat × α)

/-- The reasons a step can stop with a fault. None: the manual gives every access to an absent or unbacked
place its outcome (R14, R35, R138, R353), so no command of the block ends in a fault. -/
inductive Fault where
deriving DecidableEq, Repr

/-- The reasons a step can be refused. -/
inductive Refusal where
  /-- An arm of `exec` whose meaning is not written yet; safe, the machine stops there. -/
  | notModelled (mnemonic : String)
deriving DecidableEq, Repr

/-! ## Set-up space (R14–R20, R34–R37, R369–R375) -/

/-- An action of an arbitration window (R370). -/
inductive Act where
  /-- a set-up write by master `m` at `addr`; `hi` is the held high word that commits with a low word (R15) -/
  | write (m : Master) (addr : Nat) (v : Word) (hi : Option Word)
  /-- a command that begins -/
  | cmd (c : Nat)
  /-- the host's SETUP_COMMIT of that command, to lock at the window's end (R375) -/
  | lock (c : Nat)
deriving DecidableEq, Repr

/-- The set-up access path: per-master latches and held words, and the actions waiting for their window's end. -/
structure SetupS where
  /-- high words latched by a low-word read, by (master code, register) (R15) -/
  latches : List (Nat × Nat × Word) := []
  /-- high words held for a low-word write, by (master code, register) (R15) -/
  held : List (Nat × Nat × Word) := []
  /-- the waiting actions, oldest first, each with its window number (R370) -/
  acts : List (Nat × Act) := []
  /-- SETUP_COMMIT has taken effect (R375) -/
  committed : Bool := false
  /-- a SETUP_COMMIT waits for the end of its window -/
  locking : Bool := false
  /-- LCC_DBG_ALLOW.ALLOW at commit (R383) -/
  debugAllowed : Bool := false
  /-- NEW_VALID and SWAP_COMMITTED latched by a read of CAR_RINGn_GEN, by (master code, register) (R192) -/
  genLatch : List (Nat × Nat × Nat) := []
  /-- tick of the marks below: bits of W1C fields that hardware set, and bits that software wrote, by register (R19) -/
  marksAt : Nat := 0
  hwMarks : List (Nat × Nat) := []
  swMarks : List (Nat × Nat) := []
deriving DecidableEq, Repr

/-! ## HBM (R221–R242) -/

/-- One 64-byte unit of a write that waits for its slot (R228, R229). -/
structure WUnit where
  agent : Agent
  /-- number of the write the unit belongs to -/
  wid : Nat
  die : Nat
  /-- unit index H ÷ 64 -/
  unit : Nat
  off : Nat
  bytes : List Byte
  /-- the context on whose behalf it writes (R242) -/
  ctx : Option Nat := none
  /-- the work of the agent that it belongs to, as a number of its own plus 1; 0 where none ends with it (R237) -/
  work : Nat := 0
deriving DecidableEq, Repr

/-- A unit that was read, whose correction or failure is not yet recorded, and the context on whose behalf (R237, R389). -/
structure UeRead where
  agent : Agent
  die : Nat
  unit : Nat
  ctx : Option Nat := none
deriving DecidableEq, Repr

/-- One 64-byte unit that is read and waits for its slot (R224, R228): of read `rid`, or of the merge read of write `rid`
(R225). -/
structure RUnit where
  agent : Agent
  rid : Nat
  die : Nat
  unit : Nat
deriving DecidableEq, Repr

/-- An allotment (R240): one run of granules on each die. -/
structure Allot where
  ctx : Nat
  /-- 0 STONE, 1 REPL, 2 GRAD, 3 OPT, 4 ACT, 5 SPILL, 6 STAGE (the order of R240) -/
  cat : Nat
  /-- base H and granules, dies 0–7 -/
  runs : List (Nat × Nat)
deriving DecidableEq, Repr

/-- The sixteen HBM controllers and the allotment ledger. -/
structure HbmS where
  /-- write units not yet accepted, oldest first -/
  wq : List WUnit := []
  /-- units read and not yet carried by a slot, oldest first -/
  rq : List RUnit := []
  nextWid : Nat := 0
  /-- symbol errors a unit holds, by die × 2³² + unit: (symbol 0–67: m₀–m₆₇, 68–70: c₀–c₂; error value) -/
  upsets : SMap (List (Nat × Byte)) := []
  /-- correction queues, by 2·die + controller: unit indexes (R234) -/
  cq : SMap (List Nat) := []
  /-- corrections within the current sweep, by 2·die + controller (R234) -/
  sweepCe : SMap Nat := []
  /-- controller cycle of the last window that ran, plus 1, by (2·die + controller)·64 + pseudo-channel -/
  windows : SMap Nat := []
  /-- units scrubbed since reset, by (2·die + controller)·64 + pseudo-channel (R236) -/
  scrub : SMap Nat := []
  /-- controller cycle at which the maintenance epoch began (R235) -/
  epoch : Nat := 0
  /-- agent last served, by (2·die + controller)·3 + class; agent code + 1 (R228) -/
  rot : SMap Nat := []
  /-- the last slot that carried units: its controller cycle plus 1, the class it carries, the units it has carried,
  by 2·die + controller (R227, R228) -/
  slot : SMap (Nat × Nat × Nat) := []
  /-- HBM_UNCORRECTABLE raised: (die × 2³² + unit, context code) (R238) -/
  ueRaised : List (Nat × Nat) := []
  /-- units that were read and whose corrections or failures are not yet recorded -/
  ueWait : List UeRead := []
  allots : SMap Allot := []
  nextAllot : Nat := 0
deriving DecidableEq, Repr

/-! ## Outputs -/

/-- What leaves the package, as its far side sees it. -/
inductive Out where
  /-- a write to host memory: completion and event entries, results (R356, R361) -/
  | hostWrite (addr : Nat) (bytes : List Byte)
  /-- a write to host memory that access `a` waits for -/
  | hostStore (a addr : Nat) (bytes : List Byte)
  /-- a read of host memory that access `a` waits for -/
  | hostRead (a addr len : Nat)
  /-- an interrupt message on the host link (R366) -/
  | irq (vector : Nat)
  /-- an IDENT flit of the host link: 8 bytes of the identity key's fingerprint, the link protocol version's major and minor,
  the boot state (R350) -/
  | hostIdent (id : List Byte) (major minor boot : Nat)
  /-- read data returned to a master of the set-up space -/
  | regData (m : Master) (addr : Nat) (v : Word)
  /-- read data of an aperture access, and whether the access failed (R353, R354) -/
  | aperture (data : List Byte) (failed : Bool)
  /-- a frame of a fabric port's half, as its 1,072 bytes stand before FEC (R245) -/
  | frame (d k h : Nat) (bytes : List Byte)
  /-- bytes that the I3C target returns -/
  | i3c (bytes : List Byte)
  /-- the I3C target NACKs a transfer after its first byte (R437) -/
  | i3cNack
  /-- an I3C in-band interrupt with its data byte (R437) -/
  | ibi (b : Byte)
  /-- a request to the on-module power controller to remove the rails (R412) -/
  | railsOff
deriving DecidableEq, Repr

/-! ## Host interface (R349–R376) -/

/-- A ring set (R355). Doorbells, LOST counts are set-up registers. -/
structure RingS where
  cmdBase : Nat := 0
  cplBase : Nat := 0
  evBase : Nat := 0
  cmdLog : Nat := 0
  cplLog : Nat := 0
  evLog : Nat := 0
  /-- index of the next command fetched (R358) -/
  fetch : Nat := 0
  cplTail : Nat := 0
  cplPhase : Bool := true
  evTail : Nat := 0
  evPhase : Bool := true
  evNum : Nat := 0
  /-- events lost since the last EVENTS_LOST entry (R365) -/
  lost : Nat := 0
deriving DecidableEq, Repr

/-- A command that is fetched and not complete (R358). -/
structure Cmd where
  src : CmdSrc
  words : List Word
  /-- its position in its ring's order of fetch -/
  seqNo : Nat
  begun : Bool := false
  /-- what the command holds while it is at work: a phase, and counts -/
  phase : Nat := 0
  left : Nat := 0
  aux : Nat := 0
  /-- HBM writes of the command that must be visible before it completes (R139) -/
  wids : List Nat := []
deriving DecidableEq, Repr

/-- A write that came over the host link and waits for earlier ones (R354). -/
inductive LinkWr where
  | setup (addr : Nat) (v : Word) (size : Nat)
  | aperture (k off : Nat) (data : List Byte)
deriving DecidableEq, Repr

/-- What an outstanding host access is for. -/
inductive Purpose where
  /-- the result words of an ALLOT (R361), with its allotment ID -/
  | allotResult (id : Nat)
  /-- one 4 KiB piece of a COPY_IN: global address of the target -/
  | copyIn (ga : Nat)
  | copyOut
  /-- the formation record of a RING_FORM, the load record of a MODEL_LOAD or MODEL_SWAP, and a load's manifest (R163, R323,
  R324) -/
  | ringRecord
  | loadRecord
  | manifest
  | requestIn
  | requestOut
  /-- the nonce of an ATTEST_REPORT, and its report of that many bytes (R430) -/
  | nonce
  | report (len : Nat)
  /-- the image of a FW_UPDATE (R428) -/
  | firmware
deriving DecidableEq, Repr

/-- A host-memory access that waits for the adapter (R351). -/
structure Access where
  cmd : Nat
  purpose : Purpose
  write : Bool
  addr : Nat
  len : Nat
  /-- byte offset within the command's transfer -/
  off : Nat
  issued : Nat
deriving DecidableEq, Repr

/-- The Crewin link, the ring sets and the commands at work. -/
structure HostS where
  /-- 0 DOWN, 1 TRAIN, 2 IDENT, 3 UP (R350) -/
  link : Nat := 0
  /-- HOST_LINK_DOWN events still to be written to the admin event ring once UP: count and HLK_DOWNS (R351) -/
  downDue : List (Nat × Nat) := []
  /-- host writes that wait for earlier ones to take effect, in link order (R354) -/
  inOrder : List LinkWr := []
  /-- posts that wait for the link to be UP, oldest first (R351) -/
  held : List Out := []
  negotiated : Bool := false
  /-- open ring sets, by ring-set number -/
  rings : SMap RingS := []
  cmds : SMap Cmd := []
  nextCmd : Nat := 0
  /-- commands fetched so far, by command source -/
  fetched : SMap Nat := []
  accs : SMap Access := []
  nextAcc : Nat := 0
  /-- tick of the last interrupt message plus 1, by vector (R366) -/
  irqLast : SMap Nat := []
  /-- vectors with a message waiting (R366) -/
  irqWait : List Nat := []
  /-- sequence counter of the internal command ports (R382) -/
  coreSeq : Nat := 0
deriving DecidableEq, Repr

/-! ## Lantern cores and interrupts (R377–R392) -/

/-- A Lantern core as the package sees it (R377–R386). -/
structure CoreS where
  asleep : Bool := false
  /-- halted by debug (R383) -/
  halted : Bool := false
  /-- stopped by an abort within an abort (R380): only reset starts it again -/
  stopped : Bool := false
  /-- firmware until its own program leaves it (R377, R381; DESIGN CHOICE, log entry 132) -/
  mode : Config.CoreMode := .firmware
  mmu : Bool := false
  /-- a synchronous abort is being handled (R380) -/
  handling : Bool := false
  /-- a barrier waits until what the core has cleaned is visible (R379) -/
  fenced : Bool := false
  pc : DWord := 0
  /-- internal command port: completion ring position and PHASE (R382) -/
  cplTail : Nat := 0
  cplPhase : Bool := true
  /-- tick of the port's last doorbell (R382) -/
  bellAt : Nat := 0
deriving DecidableEq, Repr

/-- A die's event queue beside its registers (R389). -/
structure EvqS where
  num : Nat := 0
  phase : Bool := true
  /-- entries lost since the last EVENTS_LOST entry -/
  lost : Nat := 0
deriving DecidableEq, Repr

/-- A 64-byte line of the L2 caches (R377, R379): its bytes, and whether a store in it has not reached HBM. -/
structure L2Line where
  bytes : List Byte
  dirty : Bool := false
  /-- the core whose cache holds it -/
  core : Nat := 0
deriving DecidableEq, Repr

/-- The cores and the interrupt controllers. -/
structure IcuS where
  /-- pending sources, by die × 1,024 + source -/
  pend : SMap Bool := []
  /-- sources whose delivery signal has reached the target core -/
  signalled : SMap Bool := []
  evq : SMap EvqS := []
  cores : SMap CoreS := []
  /-- lines that the cores' L2 caches hold, by unit: the caches are coherent with one another, so that a line has one
  value (R379) -/
  l2 : SMap L2Line := []
  /-- bytes of trace written, by die (R390) -/
  trace : SMap Nat := []
deriving DecidableEq, Repr

/-! ## Tiles (R66–R129) -/

/-- A tag (R119): 0 EMPTY, 1 FILLING, 2 FULL, 3 DRAINING, and the hold count. -/
structure Tag where
  st : Nat := 0
  holds : Nat := 0
  /-- engine cycle of the last change, plus 1, and the state and hold count before that cycle: a change is seen from the
  next edge on (R123) -/
  chg : Nat := 0
  pst : Nat := 0
  pholds : Nat := 0
  /-- engine cycle of the last claim, plus 1: a slot admits one claim at an edge (R123) -/
  clm : Nat := 0
deriving DecidableEq, Repr

/-- What a claim of a slot is (R120, R121). -/
inductive ClaimKind where
  | peek | consume | fill | source
deriving DecidableEq, Repr

/-- A claim that stands: slot and kind. -/
structure Claim where
  slot : Nat
  kind : ClaimKind
deriving DecidableEq, Repr

/-- A streamed block: a FEED block in a Prism half (R147), or the rows of a row group in the same layout. -/
structure PBlock where
  stream : Nat
  tctx : Nat
  task : Nat
  group : Nat
  mode : Nat
  bytes : List Byte
deriving DecidableEq, Repr

/-- A stationary entry of the grid (R67, R76–R79, R87, R95), by physical column. -/
structure Entry where
  /-- 0 invalid, 1 loading, 2 usable -/
  st : Nat := 0
  owner : Nat := 0
  /-- index of the task that loaded it -/
  task : Nat := 0
  fmt : Nat := 0
  z4 : Bool := false
  elemSlot : Nat := 0
  scaleSlot : Nat := 0
  /-- cycle of its first load row -/
  since : Nat := 0
  /-- cycle from which a load row may be written: the last vector that selects it has passed (R78) -/
  useEnd : Nat := 0
  /-- a re-execution gives it back the bits it had, since another load has taken its place (R91) -/
  fixed : Bool := false
  /-- element encodings, cell column by cell column, 128 × 128 -/
  elems : List Nat := []
  scales : List Byte := []
  /-- the column that a Z4 load bypassed -/
  hole : Option Nat := none
  /-- mirror residues by cell of the mirror column and of the mirror row, four bands of 32 lanes each (R87) -/
  rhoRow : List Nat := []
  rhoCol : List Nat := []
  /-- tagged source slots held (R79) -/
  holds : List Nat := []
deriving DecidableEq, Repr

/-- A task that is accepted and has not ended. -/
structure Run where
  index : Nat
  desc : List Byte
  /-- the sub-grid table as read when the task starts (R111) -/
  tab : List Byte := []
  cq : Nat
  claims : List Claim := []
  loadsBegun : Bool := false
  /-- row groups issued, row groups drained -/
  issued : Nat := 0
  drained : Nat := 0
  /-- row groups in all -/
  groups : Nat := 0
  /-- vectors whose check result is not known -/
  unchecked : Nat := 0
  /-- the anchors of the task once known, one per sub-grid (R48) -/
  anchors : List Int := []
  /-- streamed blocks of the row groups whose products wait for the AUTO anchor, oldest first -/
  held : List PBlock := []
  /-- entries as the first row group used them (R91) -/
  srcs : List (Nat × Entry) := []
  /-- a re-execution has to load the task's entries again (R91) -/
  reload : Bool := false
  /-- task flags gathered so far, bits as in the record from bit 8 (R113) -/
  flags : Nat := 0
  reexec : Bool := false
  /-- a mismatch waits for re-execution (R91) -/
  failed : Bool := false
deriving DecidableEq, Repr

/-- A FEED descriptor begun for a row group of an uncommitted task (R148). -/
structure FeedLog where
  stream : Nat
  task : Nat
  group : Nat
  seq : Nat
  bytes : List Byte
deriving DecidableEq, Repr

/-- A task context (R103). -/
structure TaskCtx where
  /-- 0 IDLE, 1 FETCH, 2 WAIT_TAG, 3 READY, 4 ACTIVE, 5 HALTED -/
  st : Nat := 0
  ctx : Nat := 0
  entryBase : Nat := 0
  entryCount : Nat := 0
  list : Nat := 0
  count : Nat := 0
  cq : Nat := 0
  tmo : Nat := 0
  index : Nat := 0
  /-- a descriptor is read and is END, which waits for its own step -/
  atEnd : Bool := false
  /-- accepted tasks that have not committed, oldest first -/
  runs : List Run := []
  /-- entries that an accepted task loaded since the START (R77) -/
  loaded : List Nat := []
  /-- a chain is open since the task of this index, with its anchor (R53) -/
  chain : Option (Nat × Nat) := none
  /-- the first task of that chain has been given the grid: the chain keeps it (R75, R105) -/
  chainOn : Bool := false
  lastStatus : Nat := 0
  /-- cycle at which the armed timer began (R125) -/
  c0 : Option Nat := none
  /-- a slot of the claim set blocked at the sampling edge (R125) -/
  late : Bool := false
  /-- a HALT waits for the end of the row group: 1 the entry at the head of the start queue, 2 a job abort (R102) -/
  halting : Nat := 0
  /-- TIL_TCTXn_BLOCK: kind and slot -/
  block : Option (Nat × Nat) := none
  /-- the feed log, oldest first (R148) -/
  feedLog : List FeedLog := []
deriving DecidableEq, Repr

/-- One accumulator (R46, R51, R89): the guarded sum in units of 2^(A − 64), its marks, the flags its products set,
and its residue word. -/
structure Accu where
  q : Int := 0
  nan : Bool := false
  pinf : Bool := false
  ninf : Bool := false
  low : Bool := false
  ovf : Bool := false
  res : Nat := 0
deriving DecidableEq, Repr

/-- An accumulator half in use (R72–R74). -/
structure HalfS where
  tctx : Nat
  task : Nat
  group : Nat
  /-- the row group's last vector is added and no chain keeps the half: it may drain -/
  full : Bool := false
  anchors : List Int := []
  /-- accumulators by lane × 256 + slot -/
  acc : SMap Accu := []
deriving DecidableEq, Repr

/-- A vector whose check result is not known: task, its C and M (R88). -/
structure VecCheck where
  tctx : Nat
  task : Nat
  c : Nat
  m : Nat
  anchor : Int
deriving DecidableEq, Repr

/-- A fetched stream descriptor (R133). -/
structure SDesc where
  bytes : List Byte
  /-- queue slot 0 or 1 it came from -/
  qslot : Nat
  seq : Nat
  begun : Bool := false
  /-- re-issued from the feed log (R148) -/
  replay : Bool := false
  /-- the gate access was made (R139) -/
  gated : Bool := false
  /-- of a FEED block: the task and the row group that it is for (R147) -/
  feed : Option (Nat × Nat) := none
  /-- tile-side slots not yet claimed, in claim order -/
  todo : List Nat := []
  /-- tile-side slots claimed and not ended -/
  inflight : List Nat := []
  /-- indices of a GATHER or SCATTER -/
  idx : List Nat := []
  /-- the cause of R141 with which it is to end, once known; 0 none -/
  fail : Nat := 0
  /-- slots whose bytes have moved -/
  moved : List Nat := []
  /-- slots that an element at or past a bad index touches: their access does not end (R144) -/
  stuck : List Nat := []
  /-- bytes on their way: of a codec row by tile byte, of a whole-slot or remote write by global address, of a remote
  read by tile byte -/
  buf : SMap Byte := []
  /-- tags of remote accesses not yet answered -/
  remote : List Nat := []
  /-- reads of this package's HBM: the tile-side slot they are for, and their number -/
  reads : List (Nat × Nat) := []
  ended : Bool := false
deriving DecidableEq, Repr

/-- A stream of a tile (R130–R143). -/
structure StreamS where
  /-- halted on a descriptor of this task context (R141) -/
  halted : Option Nat := none
  q : List SDesc := []
  nextSlot : Nat := 0
  /-- queue slots claimed and not yet consumed -/
  slots : List Nat := []
  seq : Nat := 0
  /-- writes not yet visible: HBM write numbers, remote tags (R139) -/
  wids : List Nat := []
  acks : List Nat := []
  /-- what the stream waits on (0 a tile-side claim, 1 a gate, 2 a slot of a write's target, 3 a slot that is read), its
  descriptor's SEQ and the slot; the edges of that wait; the stall was reported (R143) -/
  blocked : Option (Nat × Nat × Nat) := none
  waited : Nat := 0
  stalled : Bool := false
deriving DecidableEq, Repr

/-- Rows of grid output on their way to a write stream (R137). -/
structure GridOut where
  stream : Nat
  tctx : Nat
  task : Nat
  /-- bytes by offset in the task's output: element rows, then scale rows -/
  cells : SMap Byte := []
  whole : Bool := false
deriving DecidableEq, Repr

/-- A tile. -/
structure TileS where
  tags : SMap Tag := []
  tctx : SMap TaskCtx := []
  entries : SMap Entry := []
  /-- halves in use, oldest first, at most two (R72) -/
  halves : List HalfS := []
  checks : List VecCheck := []
  /-- entries that a re-execution has put aside, to be loaded again behind it (R91) -/
  shelf : SMap Entry := []
  /-- cycle at which the loader is free (R76) -/
  loaderAt : Nat := 0
  /-- grid: 0 idle, 1 leave requested, 2 start ramp, full rate and hold, 4 stop ramp (R83), and when it began -/
  phase : Nat := 0
  phaseAt : Nat := 0
  /-- the row group that holds the grid has begun, and the units (entries or pairs) of it whose vectors have their slots -/
  streaming : Bool := false
  unit : Nat := 0
  /-- cycle after the issue slot of the last real vector -/
  endAt : Nat := 0
  /-- class of the period: 0 4-bit, 1 8-bit, 2 16-bit -/
  klass : Nat := 0
  /-- task context whose row group holds the grid -/
  cur : Option Nat := none
  /-- the task context at which the cyclic order stands, and whether the list of it that was given the grid goes on (R105,
  R106) -/
  last : Nat := 0
  lastOn : Bool := false
  /-- the last task had YIELD = 1 (R105) -/
  yielded : Bool := false
  fenced : Bool := false
  sqUe : Bool := false
  /-- TIL_STATUS.SCHED = ORDERED (R105) -/
  ordered : Bool := false
  /-- stalled edges since a row group last started; an episode is reported (R127) -/
  stallCount : Nat := 0
  episode : Bool := false
  streams : SMap StreamS := []
  prism : List PBlock := []
  gridOut : List GridOut := []
deriving DecidableEq, Repr

/-! ## Nalxia fabric (R244–R288) -/

/-- A message of the fabric (R246, R247). -/
structure Msg where
  /-- 0 weights, 1 activations, 2 remote memory, 3 control -/
  cls : Nat
  /-- TYPE of R247 -/
  ty : Nat
  dpkg : Nat := 0
  ddie : Nat := 0
  spkg : Nat := 0
  sdie : Nat := 0
  msn : Nat := 0
  transit : Bool := false
  /-- its grains, 64 bytes each -/
  bytes : List Byte
deriving DecidableEq, Repr

/-- Whose traffic a message is, to tell the owner that no path is left (R256). -/
inductive Owner where
  | none
  | stone (x : Nat)
  | stream (e q tag : Nat)
  | copy (x tag : Nat)
  | coll (x : Nat)
deriving DecidableEq, Repr

/-- A message that its sender retains until it is DELIVERED (R254). -/
structure TxMsg where
  msg : Msg
  own : Owner
  port : Nat
  sentAt : Nat
  /-- discarded by the receiver and marked for resending -/
  again : Bool := false
deriving DecidableEq, Repr

/-- The sending end of a stream of messages (R254, R265). -/
structure TxS where
  next : Nat := 0
  undel : List TxMsg := []
  /-- messages that wait for one of the 128 places, or for the retransmit store -/
  wait : List (Msg × Owner) := []
  port : Option Nat := none
  /-- a REJOIN came: choose a port anew once nothing is undelivered -/
  rechoose : Bool := false
  /-- the last DELIVERED of the stream said BACKPRESSURED (R283) -/
  backed : Bool := false
deriving DecidableEq, Repr

/-- A message at its target die, with the port and the pool whose credits it holds (R258). -/
structure InMsg where
  msg : Msg
  port : Nat
  pool : Nat
  quarters : Nat
  /-- a remote access that was checked and admitted, and waits for its slots (R271); a stone that has its place -/
  admitted : Bool := false
  /-- the window through which a waiting access was admitted -/
  win : Option Nat := none
  /-- a stone whose ring was dissolved while it arrived or was held: it is delivered to nobody (R166) -/
  gone : Bool := false
  /-- the HBM write of a multicast's grain, which holds it in the buffer until it is visible (R282) -/
  wid : Option Nat := none
deriving DecidableEq, Repr

/-- The receiving end of a stream of messages (R254). -/
structure RxS where
  expect : Nat := 0
  held : List InMsg := []
  /-- delivered since the last DELIVERED message, and the tick of the first of them -/
  count : Nat := 0
  since : Nat := 0
deriving DecidableEq, Repr

/-- A message on its way out of a port: quarters already sent. -/
structure QMsg where
  msg : Msg
  pool : Nat
  sent : Nat := 0
deriving DecidableEq, Repr

/-- A port, or a half of one (R250–R259). -/
structure PortS where
  /-- 0 OFF, 1 TRAIN, 2 IDENT, 3 UP, 4 DOWN, 5 FAILED -/
  st : Nat := 0
  cause : Nat := 0
  attempts : Nat := 0
  /-- failed since its last REJOIN (R265) -/
  failed : Bool := false
  /-- the peer's fabric minor version -/
  minor : Nat := 0
  /-- sequence number of the next new frame -/
  fseq : Nat := 0
  /-- frames kept for replay, oldest first (R253) -/
  replay : List (Nat × List Byte) := []
  /-- last frame received in order -/
  rxSeq : Option Nat := none
  /-- a NAK was sent and the frame it asks for has not come -/
  naking : Bool := false
  /-- NAKs received in a row for one frame -/
  naks : Nat := 0
  nakSeq : Nat := 0
  /-- messages being received, by class -/
  parts : SMap (Option InMsg) := []
  /-- quarters sent and not credited, by pool -/
  used : SMap Nat := []
  /-- credits to return, by pool -/
  owe : SMap Nat := []
  queue : List QMsg := []
  /-- quarter of the round, 0–63 (R259) -/
  round : Nat := 0
deriving DecidableEq, Repr

/-- An answer that a remote access waits for: its write number or its window (R271, R274). -/
structure RackS where
  die : Nat
  win : Option Nat
  wid : Nat
  msg : Msg
deriving DecidableEq, Repr

/-- A remote access of this package's own that waits for its answer (R274). -/
structure Pend where
  own : Owner
  /-- where read data go: a place in a scratchpad or in HBM, by global address -/
  dst : Nat
  len : Nat
  /-- bytes of read data that have arrived -/
  got : Nat := 0
deriving DecidableEq, Repr

/-- A fabric operation at work (R275–R284). -/
structure FabOp where
  desc : List Byte
  index : Nat
  /-- collective sequence number -/
  seqNo : Nat := 0
  /-- tags of remote accesses not yet answered -/
  tags : List Nat := []
  /-- write numbers not yet visible -/
  wids : List Nat := []
  /-- bytes on their way into tagged slots, by global address -/
  data : SMap Byte := []
  /-- pieces still to come or to be done: (die, phase, chunk, piece) -/
  todo : List (Nat × Nat × Nat × Nat) := []
  /-- offsets that members have reported to the root of a multicast: die, position, offset (R284) -/
  offs : List (Nat × Nat × Nat) := []
  /-- status and cause with which it ends, once set -/
  status : Option (Nat × Nat) := none
  /-- a job abort gave it that status, which the cause adopted at last decides (R286, R287) -/
  aborted : Bool := false
deriving DecidableEq, Repr

/-- The wait of a multicast's onward message for a credit (R283): its MSN, the tick from which it waits, and whether
MULTICAST_STALL was raised for it. -/
structure CastWait where
  msn : Nat
  since : Nat
  said : Bool := false
deriving DecidableEq, Repr

/-- A job abort that has not settled (R287): lowest step and cause seen, the tick of the halt. -/
structure AbortS where
  step : Nat
  cause : Nat
  haltAt : Nat
  /-- JOB_ID of the ring as the abort began -/
  job : Nat := 0
deriving DecidableEq, Repr

/-- The fabric of the package. -/
structure FabS where
  /-- ports by (3·die + k)·2 + half -/
  ports : SMap PortS := []
  /-- sending ends, by stream key -/
  tx : SMap TxS := []
  rx : SMap RxS := []
  /-- messages delivered to a die that its units have not taken, oldest first -/
  inbox : SMap (List InMsg) := []
  /-- messages that arrived outside P0 and wait for its return, with their die, oldest first (R409) -/
  early : List (Nat × InMsg) := []
  racks : List RackS := []
  /-- answers awaited, by tag -/
  pend : SMap Pend := []
  nextTag : Nat := 0
  /-- owners whose messages lost their last path and who are not told yet, each with the port that failed -/
  lost : List (Owner × Nat) := []
  ops : SMap FabOp := []
  /-- collectives executed since the context's ring was formed (R275) -/
  collSeq : SMap Nat := []
  /-- operation queues that are halted (R277) -/
  halted : SMap Bool := []
  /-- members removed from a multicast, by context, as 128 · collective number + position (R284) -/
  removed : SMap (List Nat) := []
  /-- onward sends of a multicast that wait for credits, by 8 · die + context (R283) -/
  stalls : SMap (Option CastWait) := []
  /-- multicasts that ended here well, by context: of its root what it sent may be asked for again, of another member how far it
  has got (R284) -/
  casts : SMap (List FabOp) := []
  /-- aborts in progress, by context -/
  aborts : SMap AbortS := []
deriving DecidableEq, Repr

/-! ## The weight carousel (R158–R192) -/

/-- A binding of a micro-batch (R183). -/
structure BindS where
  mb : Nat
  version : Nat
  gen : Nat
  /-- lanes on which an origin's LAST circuit for the micro-batch has ended here: 8 · ring position + die (R184) -/
  ended : List Nat := []
deriving DecidableEq, Repr

/-- A circuit of this package (R168, R171). -/
structure Circuit where
  no : Nat
  index : Nat
  desc : List Byte
  /-- the version and the generation of the binding it took -/
  version : Nat
  gen : Nat
  /-- by die: the SEQ of the next stone to emit, and the SEQ at which the circuit stops -/
  next : SMap Nat := []
  stop : SMap Nat := []
  /-- weight stones whose GRAD stones follow: die, header as sent, next g -/
  grads : List (Nat × List Byte × Nat) := []
  /-- headers sent and not yet home: die, header -/
  out : List (Nat × List Byte) := []
  /-- by die, the tensor's entry of the shard table as the circuit read it when it began (R343) -/
  ents : SMap (List Byte) := []
deriving DecidableEq, Repr

/-- An OPEN or COMMIT that has begun (R170, R185): it acts once every circuit below `after` has ended. -/
structure OpenS where
  version : Nat
  index : Nat
  desc : List Byte
  after : Nat := 0
  granted : Bool := false
deriving DecidableEq, Repr

/-- A ring (R163–R166) and its carousel queue. -/
structure RingC where
  /-- 0 IDLE, 1 FORMING, 2 READY, 3 RUNNING, 4 DRAINING, 5 BROKEN -/
  st : Nat := 0
  rcd : List Byte := []
  formAt : Nat := 0
  /-- the FORM token of its job has come (R165) -/
  heard : Bool := false
  /-- the job of another ring's FORM token that it has answered with ABORT -/
  abortFor : Option Nat := none
  /-- the command that forms the ring and is not complete -/
  cmd : Option Nat := none
  /-- dissolving commands that wait for IDLE -/
  dissolve : List Nat := []
  qfault : Bool := false
  circuits : Nat := 0
  live : List Circuit := []
  binds : SMap (Option BindS) := []
  /-- OPEN and COMMIT descriptors that have begun and not acted, in order -/
  acts : List OpenS := []
  opened : Option OpenS := none
  waits : Nat := 0
  /-- gate FILLs that are due and blocked: descriptor and CIRCUIT -/
  gates : List (List Byte × Nat) := []
  /-- by (2 · ring position + direction) · 8 + die: the circuit and the micro-batch of the last stone of another origin that
  was handled here, where it carries LAST (R184) -/
  lasts : SMap (Option (Nat × Nat)) := []
deriving DecidableEq, Repr

/-- A stone held by a die (R173–R180). -/
structure Stone where
  ctx : Nat
  header : List Byte
  payload : List Byte
  /-- 0 waits for its turn, 1 used, 2 sent onward and not yet DELIVERED -/
  st : Nat := 0
  /-- slots of its placement already filled, or blocks already added -/
  done : Nat := 0
  /-- what it waits for: 1 a slot, 2 a binding, 3 a credit, with a number that tells one wait from the next; the tick from which
  it waits; whether the wait has been told (R179) -/
  wait : Option (Nat × Nat) := none
  since : Nat := 0
  stallSaid : Bool := false
  /-- it came home and waits to be applied -/
  home : Bool := false
  /-- one of this package's own on its way out: it lies in the stone store and takes no place here (R254) -/
  own : Bool := false
deriving DecidableEq, Repr

/-! ## The loader (R323–R348) -/

/-- A load or swap in progress (R338–R342). -/
structure LoadJob where
  cmd : Nat
  swap : Bool
  record : List Byte
  man : List Byte := []
  /-- 1 manifest awaited, 2 in-place swap waiting, 3 fetching, 4 forwarded DONE, 5 failed and settling -/
  phase : Nat := 1
  /-- stash or generation slot that the model goes to -/
  slot : Nat := 0
  /-- GCT_CTXn_SEED at command time (R330) -/
  seed : Nat := 0
  allots : List Nat := []
  /-- ticks at which the attempts at the shard and at the REPLICATE set began, and how many there were (R339, R340) -/
  since : Nat := 0
  replSince : Nat := 0
  attempts : Nat := 1
  replAttempts : Nat := 1
  shardOk : Bool := false
  replOk : Bool := false
  /-- lane digests and part digests, by die -/
  lanes : List (List Byte) := []
  parts : List (List Byte) := []
  /-- REPLICATE bytes of a die's part that have come, by die -/
  replGot : SMap Nat := []
  /-- failing shard, status, detail, and the tick of the first failure or receipt -/
  fail : Option (Nat × Nat × Nat × Nat) := none
deriving DecidableEq, Repr

/-- A context's model (R182, R186, R343). -/
structure LoadS where
  /-- 0 no model, 1 TRAIN, 2 INFER -/
  kind : Nat := 0
  modelId : Nat := 0
  /-- generations (R186): current, incoming, whether one is incoming, and whether its commit point has passed -/
  genCur : Nat := 0
  genNew : Nat := 0
  newValid : Bool := false
  swapCommitted : Bool := false
  /-- stash versions (R182) -/
  vlo : Nat := 0
  vhi : Nat := 0
  /-- manifests and allotments, by slot; lane digests, by 8 · slot + die (R332) -/
  mans : SMap (List Byte) := []
  allots : SMap (List Nat) := []
  digests : SMap (List Byte) := []
  /-- by slot: the load record of its model, and the shard, ring members and JOB_ID at the load (R433) -/
  recs : SMap (List Byte) := []
  homes : SMap (Nat × Nat × Nat) := []
  job : Option LoadJob := none
  /-- number of the pass that runs or was last counted; the head's count is on its way round (R187) -/
  pass : Nat := 0
  counting : Bool := false
  /-- of the head: a generation that it has retired and that other members may still hold (R188) -/
  genOld : Option Nat := none
deriving DecidableEq, Repr

/-- A background pass of a die (R346): the tick at which it began, the slots it covers as (context, slot, version or
generation, step), and those that fell out. -/
structure CheckS where
  begun : Nat
  cover : List (Nat × Nat × Nat × Nat) := []
  /-- units of the pass that windows have read, and contexts that met an uncorrectable one (R346, R347) -/
  read : List Nat := []
  bad : List Nat := []
deriving DecidableEq, Repr

/-! ## Row engines (R204–R220) -/

/-- A statistics record (R213): where it lies, side memory or a granule of the spill area. -/
structure StatRec where
  mb : Nat
  layer : Nat
  sid : Nat
  kind : Nat
  rows : Nat
  rowFirst : Nat
  step : Nat
  vals : List (Nat × Nat)
  spill : Option Nat := none
deriving DecidableEq, Repr

/-- The descriptor that a row engine executes. -/
structure RowRun where
  desc : List Byte
  index : Nat
  qix : Nat
  /-- next row to claim; rows whose accesses have not ended -/
  row : Nat := 0
  claims : List (Nat × Claim) := []
  open_ : Bool := false
  gated : Bool := false
  flags : Nat := 0
  stats : List (Nat × Nat) := []
  /-- the record of a backward pass, or what ends the descriptor -/
  src : Option StatRec := none
  cause : Nat := 0
  blockedAt : Option Nat := none
  stalled : Bool := false
deriving DecidableEq, Repr

structure RowS where
  halted : Bool := false
  cause : Nat := 0
  executed : Nat := 0
  run : Option RowRun := none
  /-- records kept, oldest write first -/
  recs : List StatRec := []
deriving DecidableEq, Repr

/-! ## Timekeeping (R296–R322) -/

/-- An input that a closed step, or an armed context, holds (R300, R304). -/
structure HeldIn where
  ctx : Nat
  addr : Nat
  v : Word
  /-- written after the close of the step: it waits for the advance even where the context is still armed -/
  after : Bool := false
deriving DecidableEq, Repr

structure ClkS where
  /-- 1 ns ticks, which every timer counts; the model's own count, which no reset disturbs -/
  t : Nat := 0
  /-- GCT_COUNT (R296) -/
  count : Nat := 0
  /-- step counters, by context (R303) -/
  steps : SMap Nat := []
  /-- armed contexts whose step 0 is closed; contexts whose launch is to end at the next advance (R302, R304) -/
  closed : List Nat := []
  ends : List Nat := []
  /-- tiles on which a task context of a context ran during the step, by context (R303) -/
  ran : SMap (List Nat) := []
  /-- inputs held, in the order written (R304) -/
  held : List HeldIn := []
  /-- GCT_LAUNCH_AT at the launch, by context (R305) -/
  launchAt : SMap Nat := []
  /-- package sums of the nondeterminism counters at the last advance, by context (R313) -/
  ndcAt : SMap (List Nat) := []
  /-- sync: ARM waits for the next pulse; a count is acquired; expected count of the next pulse (R297) -/
  armed : Bool := false
  acquired : Bool := false
  expect : Nat := 0
  good : Nat := 0
  /-- the last window closed without its edge, and an edge that comes late is that pulse's; an edge that came early has
  counted as the expected pulse (R297) -/
  owed : Bool := false
  early : Bool := false
  /-- tick of the last edge recognised on SYNC_IN as a trigger (R299, R444) -/
  trigAt : Option Nat := none
  /-- ticks to insert (positive) or to remove in the interval that began at tick `adjustAt`, spread evenly -/
  adjust : Int := 0
  adjustAt : Nat := 0
  /-- the STEP record of die 0 up to which a log that overflowed replays: SEQ and TICK; `some none`: it has none (R314) -/
  replayStop : Option (Option (Nat × Nat)) := none
  /-- bytes of a record that a replay has presented so far to the command that reads it (R315) -/
  recordBuf : List Byte := []
  /-- context that holds compare unit 6 of die 0 (R318) -/
  unit6 : Option Nat := none
  /-- replay is armed or runs: bytes of each die's log consumed; the launched log's context -/
  recording : Bool := false
  replaying : Bool := false
  logAt : SMap Nat := []
  logNo : SMap Nat := []
  /-- the record of a die whose delay is counted: its SEQ plus 1 (R316) -/
  skewed : SMap Nat := []
  /-- dies whose replayed log has ended (R315) -/
  logDone : List Nat := []
deriving DecidableEq, Repr

/-! ## Boot, reset and management bus -/

structure BootS where
  inReset : Bool := false
  /-- tick of the last recognition or of power good, from which release is timed at the earliest (R440, R442); tick of the
  last release (R422) -/
  resetAt : Nat := 0
  releaseAt : Nat := 0
  /-- RST_N, WRST_N were low as they were last recognised and have not been seen to return; the reset follows power-up
  (R435, R440, R442) -/
  rstLow : Bool := false
  wrstLow : Bool := false
  fromPower : Bool := false
  /-- the reset in progress is a cold one -/
  resetCold : Bool := true
  /-- a reset that waits for a fuse burn to complete: 0 none, 1 warm, 2 cold (R321) -/
  dueReset : Nat := 0
  /-- IDV_RESET values accepted and not yet recognised: the tick, and the value of OP (R443) -/
  idvResets : List (Nat × Nat) := []
  /-- the GRADE fuses (R6); 0 is the 320-engine part, DESIGN CHOICE, log entry 2 -/
  grade : Nat := 0
  /-- fuses that a re-grade burnt: GRADE as the next cold reset reads it, and tile masks by die (R320) -/
  fuseGrade : Nat := 0
  fuseMasks : SMap Nat := []
  /-- in-band interrupts enabled by ENEC (R437) -/
  ibi : Bool := false
  /-- failures in a row of one bridge frame, by edge; a faulted bridge stops new commands (R26) -/
  bridges : SMap Nat := []
  bridgeFault : Bool := false
  /-- fuses: the security version and the revoked root slots (R416); 0 at reset is a DESIGN CHOICE, log entry 37 -/
  svn : Nat := 0
  revoke : Nat := 0
  /-- the security version that fuses are being burnt to (R421) -/
  svnBurn : Option Nat := none
  /-- the image header and signer record accepted in this boot, and those whose body copy is retained over a warm reset
  (R418, R419, R422): 192 and 256 bytes -/
  header : List Byte := []
  retained : List Byte := []
  /-- the boot in progress follows a warm reset -/
  warmBoot : Bool := false
  /-- the attestation key of this boot, and the alias certificate (R423, R424) -/
  attKey : Option Nat := none
  alias_ : List Byte := []
  /-- a firmware image that is staged and checked (R428) -/
  staged : List Byte := []
  /-- 64 KiB sectors of the boot flash that have been erased or programmed since delivery, by number (R417, R428) -/
  flash : SMap (List Byte) := []
  /-- bodies of the reports whose snapshot is taken and whose nonce is awaited, by command (R431) -/
  reports : SMap (List Byte) := []
  /-- the dynamic address on the management bus (R437) -/
  dynAddr : Option Nat := none
deriving DecidableEq, Repr

/-! ## Power -/

/-- A grid request for leave at a die's power manager (R403, R404). -/
structure LeaveReq where
  tile : Nat
  /-- charge in mW (R401) -/
  mw : Nat
  /-- tile cycle at which it was raised -/
  since : Nat
  held : Bool := false
deriving DecidableEq, Repr

/-- A grant of leave (R401). -/
structure LeaveGrant where
  /-- 0–39 a tile's grid, 40–41 reads and 42–43 writes of a controller, 44–46 a fabric port -/
  src : Nat
  mw : Nat
  /-- of a grid: the earliest cycle at which it reaches the tile; else the tick at which work was last pending -/
  due : Nat
  here : Bool := false
  /-- marked for return (R405) -/
  marked : Bool := false
  /-- of a grid: its stop ramp is over. Of a fabric port: it covers stones only, so it ends with the last of them (R401) -/
  ended : Bool := false
deriving DecidableEq, Repr

structure PwrS where
  rails : Bool := true
  /-- a thermal trip has occurred (R412) -/
  tripped : Bool := false
  /-- power state P0–P4 (R407) -/
  state : Nat := 0
  /-- leaving P1–P4, since tick `wakeAt` -/
  waking : Bool := false
  wakeAt : Nat := 0
  /-- tick from which the package has been idle (R408) -/
  idleSince : Nat := 0
  /-- requests that wait at each die's manager, in the order of R404, and grants, oldest first -/
  reqs : SMap (List LeaveReq) := []
  grants : SMap (List LeaveGrant) := []
  /-- by die: the manager cycle from which the next grid grant may be made, and the tile cycle from which it may arrive -/
  nextGrant : SMap Nat := []
  nextHere : SMap Nat := []
  trippedAt : Nat := 0
  /-- ticks from which the input has been below 38.0 V, at or above 38.5 V, above 44.0 V, within 44.0 V, and outside
  35.0–46.0 V (R410, R411) -/
  lowSince : Option Nat := none
  okSince : Option Nat := none
  highSince : Option Nat := none
  fineSince : Option Nat := none
  cutSince : Option Nat := none
  /-- the input has been above 44.0 V and not within it for 1 ms since -/
  highSaid : Bool := false
  /-- the last samples of input power in µW, newest first, at most 100; input energy in units of 10⁻⁸ mJ (R413) -/
  powers : List Nat := []
  energy : Nat := 0
  /-- tick at which the input rose to 38.0 V with the rails off (R442) -/
  vinAt : Option Nat := none
deriving DecidableEq, Repr

/-! ## The machine -/

/-- The state of the package. -/
structure State where
  /-- commands that wait, first in, first out -/
  pending : List Instr := []
  /-- set-up registers by address, those that differ from their reset word (R14, R20) -/
  regs : SMap Word := []
  setup : SetupS := {}
  /-- HBM bytes by die × 2³⁸ + H, as accepted by the controllers -/
  mem : List Host.Cell := []
  /-- scratchpad bytes by engine index × 3,145,728 + offset -/
  scr : List Host.Cell := []
  hbm : HbmS := {}
  host : HostS := {}
  icu : IcuS := {}
  /-- tiles, by engine index (R9) -/
  tiles : SMap TileS := []
  fab : FabS := {}
  /-- rings, by context -/
  rings : SMap RingC := []
  /-- models, by context -/
  loads : SMap LoadS := []
  /-- background passes, by die: the running one, and the tick at which the last began -/
  checks : SMap (Option CheckS) := []
  checkAt : SMap Nat := []
  /-- stones held, by die, in order of arrival (R179) -/
  stones : SMap (List Stone) := []
  /-- row engines, by die × 8 + engine -/
  rows : SMap RowS := []
  clk : ClkS := {}
  boot : BootS := {}
  pwr : PwrS := {}
  /-- what has left the package, newest first -/
  out : List Out := []
  /-- counts the free values taken, so that each is a fresh one; the model's own field -/
  freeCtr : Nat := 0
deriving DecidableEq, Repr

/-- The machine right after cold reset. -/
def State.reset : State := {}

end Sys2Proof.Machine
end

