-- ==== Sys2Proof/Machine/Ops.lean ====
section
/-! DEFINITION. The named operations over the state: maps, bytes, registers, HBM bytes and their error code,
the write queues, host posts, interrupts, events, command completion, and the arrival of a set-up write. -/

namespace Sys2Proof.Machine

/-- The outcome of a meaning. -/
abbrev Outcome := Host.Outcome State Fault Refusal

/-! ## Maps -/

def mapLookup {α : Type} : SMap α → Nat → Option α
  | [], _ => none
  | (k, v) :: r, n => if n = k then some v else mapLookup r n

def mapInsert {α : Type} : SMap α → Nat → α → SMap α
  | [], n, v => [(n, v)]
  | (k, w) :: r, n, v =>
    if n < k then (n, v) :: (k, w) :: r else if n = k then (n, v) :: r else (k, w) :: mapInsert r n v

def mapErase {α : Type} (m : SMap α) (n : Nat) : SMap α := m.filter fun e => e.1 != n

/-- The entry of `n`, or the default where it is not listed. -/
def mapGet {α : Type} (d : α) (m : SMap α) (n : Nat) : α := (mapLookup m n).getD d

/-- Writing the default removes the entry, so that equal maps are equal data. -/
def mapSet {α : Type} [DecidableEq α] (d : α) (m : SMap α) (n : Nat) (v : α) : SMap α :=
  if v = d then mapErase m n else mapInsert m n v

/-- The canonical form: keys strictly rising, no entry at the default. -/
def mapWf {α : Type} [DecidableEq α] (d : α) : SMap α → Bool
  | [] => true
  | [(_, v)] => v != d
  | (k, v) :: (k', v') :: r => k < k' && v != d && mapWf d ((k', v') :: r)

def mapMod {α : Type} [DecidableEq α] (d : α) (m : SMap α) (n : Nat) (f : α → α) : SMap α := mapSet d m n (f (mapGet d m n))

/-! ## Bytes (R13) -/

/-- The value of little-endian bytes. -/
def leNat : List Byte → Nat
  | [] => 0
  | b :: r => b.toNat + 256 * leNat r

/-- `n` little-endian bytes of a value. -/
def natLE : Nat → Nat → List Byte
  | 0, _ => []
  | n + 1, v => BitVec.ofNat 8 v :: natLE n (v / 256)

/-- The 32-bit word at byte offset `o`. -/
def wordAt (l : List Byte) (o : Nat) : Nat := leNat ((l.drop o).take 4)

/-- The 64-bit value at byte offset `o`. -/
def dwordAt (l : List Byte) (o : Nat) : Nat := leNat ((l.drop o).take 8)

def wordsLE (l : List Nat) : List Byte := (l.map (natLE 4)).flatten

/-- The 32-bit words of a byte list. -/
def toWords (n : Nat) (l : List Byte) : List Word := (List.range n).map fun i => BitVec.ofNat 32 (wordAt l (4 * i))

/-! ## Cells -/

/-- What a cell that nothing has written reads as. DESIGN CHOICE, log entry 1: the manual gives memory no contents
after power-on. -/
def emptyCell : Byte := 0

/-- The canonical form of a memory: addresses strictly rising, no entry equal to what an unlisted address reads as. -/
abbrev Memory.wf (m : List Host.Cell) : Prop := mapWf emptyCell m = true

def memGet (m : List Host.Cell) (a : Nat) : Byte := mapGet emptyCell m a
def memSet (m : List Host.Cell) (a : Nat) (b : Byte) : List Host.Cell := mapSet emptyCell m a b

def memRead (m : List Host.Cell) (a : Nat) : Nat → List Byte
  | 0 => []
  | n + 1 => memGet m a :: memRead m (a + 1) n

def memWrite (m : List Host.Cell) (a : Nat) : List Byte → List Host.Cell
  | [] => m
  | b :: r => memWrite (memSet m a b) (a + 1) r

/-- The cell of byte H of a die's HBM (R222). -/
def hbmCell (d h : Nat) : Nat := 2 ^ 38 * d + h

/-- Bytes of a scratchpad: 12,288 slots of 256 bytes (R116). -/
def scrSize : Nat := 0x300000

/-- The cell of byte `o` of a tile's scratchpad, by engine index (R9). -/
def scrCell (e o : Nat) : Nat := e * scrSize + o

def engine (d t : Nat) : Nat := d * 40 + t

def readScr (e o n : Nat) (s : State) : List Byte := memRead s.scr (scrCell e o) n
def writeScr (e o : Nat) (b : List Byte) (s : State) : State := { s with scr := memWrite s.scr (scrCell e o) b }

/-! ## Registers -/

/-- Set-up addresses by block (R34). -/
def aDie (d off : Nat) : Nat := 0x4000000 * d + off
def aIdv (d off : Nat) : Nat := aDie d off
def aPwr (d off : Nat) : Nat := aDie d (0x100000 + off)
def aGct (d off : Nat) : Nat := aDie d (0x200000 + off)
def aIcu (d off : Nat) : Nat := aDie d (0x300000 + off)
def aHbm (d c off : Nat) : Nat := aDie d (0x400000 + 0x200000 * c + off)
def aPort (d k off : Nat) : Nat := aDie d (0x800000 + 0x100000 * k + off)
def aFab (d off : Nat) : Nat := aDie d (0xB00000 + off)
def aHlk (off : Nat) : Nat := 0xC00000 + off
def aSec (d off : Nat) : Nat := aDie d (0xD00000 + off)
def aCar (d off : Nat) : Nat := aDie d (0xE00000 + off)
def aTil (d t off : Nat) : Nat := aDie d (0x1000000 + 0x40000 * t + off)
def aRow (d j off : Nat) : Nat := aDie d (0x2000000 + 0x10000 * j + off)
def aLcc (d j off : Nat) : Nat := aDie d (0x2100000 + 0x40000 * j + off)

/-- The stored word of a register (R20, R36). -/
def regW (s : State) (a : Nat) : Word := mapGet (resetWord a) s.regs (canon a)

def reg (s : State) (a : Nat) : Nat := (regW s a).toNat
def regF (s : State) (a hi lo : Nat) : Nat := bitsOf (reg s a) hi lo
def reg64 (s : State) (a : Nat) : Nat := reg s a + 2 ^ 32 * reg s (a + 4)

def putRegW (a : Nat) (v : Word) (s : State) : State := { s with regs := mapSet (resetWord a) s.regs (canon a) v }
def putReg (a v : Nat) (s : State) : State := putRegW a (BitVec.ofNat 32 v) s
def putReg64 (a v : Nat) (s : State) : State := putReg (a + 4) (v / 2 ^ 32) (putReg a v s)
def putRegF (a hi lo x : Nat) (s : State) : State := putReg a (setBits (reg s a) hi lo x) s

/-- A 32-bit counter that saturates. -/
def bumpBy (a n : Nat) (s : State) : State := putReg a (min 0xFFFFFFFF (reg s a + n)) s
def bump (a : Nat) (s : State) : State := bumpBy a 1 s
def bump64 (a : Nat) (s : State) : State := putReg64 a (reg64 s a + 1) s

/-- A field that counts and saturates at all ones. -/
def bumpF (a hi lo : Nat) (s : State) : State := putRegF a hi lo (min (2 ^ (hi + 1 - lo) - 1) (regF s a hi lo + 1)) s

/-- A nondeterminism counter of a die (R317). -/
def ndcCount (k d : Nat) (s : State) : State := bump (aGct d (0x200 + 4 * k)) s

/-! ## Hardware and software on one bit (R19) -/

def maskOf (l : List (Nat × Nat)) (a : Nat) : Nat := l.foldl (fun m e => if e.1 = a then m ||| e.2 else m) 0

/-- Bits of a register that hardware set, and that software wrote, in this cycle. -/
def hwSetNow (s : State) (a : Nat) : Nat := if s.setup.marksAt = s.clk.t then maskOf s.setup.hwMarks (canon a) else 0
def swSetNow (s : State) (a : Nat) : Nat := if s.setup.marksAt = s.clk.t then maskOf s.setup.swMarks (canon a) else 0

/-- The marks of this cycle. -/
def marksNow (s : State) : SetupS :=
  if s.setup.marksAt = s.clk.t then s.setup else { s.setup with marksAt := s.clk.t, hwMarks := [], swMarks := [] }

def markHw (a m : Nat) (s : State) : State :=
  { s with setup := { marksNow s with hwMarks := (marksNow s).hwMarks ++ [(canon a, m)] } }
def markSw (a m : Nat) (s : State) : State :=
  { s with setup := { marksNow s with swMarks := (marksNow s).swMarks ++ [(canon a, m)] } }

/-- Hardware sets bits of a W1C field: a clear in the same cycle leaves them set. -/
def hwSetF (a lo x : Nat) (s : State) : State := putReg a (reg s a ||| x * 2 ^ lo) (markHw a (x * 2 ^ lo) s)

/-- Hardware updates a register: bits that software wrote in the same cycle stand. -/
def hwPut (a v : Nat) (s : State) : State :=
  let m := swSetNow s a
  putReg a ((v &&& (0xFFFFFFFF - m)) ||| (reg s a &&& m)) s
def hwPut64 (a v : Nat) (s : State) : State := hwPut (a + 4) (v / 2 ^ 32) (hwPut a v s)
def hwPutF (a hi lo x : Nat) (s : State) : State := hwPut a (setBits (reg s a) hi lo x) s

/-! ## The machine as a whole -/

def State.now (s : State) : Nat := s.clk.t

/-- The package runs: its rails are up and no reset is in progress (R440). -/
def State.live (s : State) : Bool := s.pwr.rails && !s.boot.inReset

/-- An event of the running package: without its precondition it cannot occur, and nothing changes (log entry 3). -/
def onlyIf (p : State → Bool) (f : State → State) (s : State) : Outcome := if s.live && p s then .next (f s) else .next s

def emit (o : Out) (s : State) : State := { s with out := o :: s.out }

/-- Takes the next free-value number. -/
def freshNo (s : State) : Nat × State := (s.freeCtr, { s with freeCtr := s.freeCtr + 1 })

/-- The package ID (R260); 0 while none is assigned. -/
def pkgId (s : State) : Nat := if regF s (aFab 0 0) 31 31 = 1 then regF s (aFab 0 0) 15 0 else 0

/-- LEVEL fixed by GCT_LEVEL: 0 OPEN, 1 BITS, 2 TIME (R289). -/
def level (s : State) : Nat := regF s (aGct 0 8) 1 0

/-- Tiles of a die (R2). -/
def tilesPerDie (s : State) : Nat := if s.boot.grade = 0 then 40 else 36

/-- A timing-dependent choice is counted; at LEVEL_TIME the step of every launched context is timing-void (R306, R317). -/
def ndc (k d : Nat) (s : State) : State :=
  let s := ndcCount k d s
  if level s = 2 then
    (List.range 8).foldl (fun s x =>
      let a := aGct 0 (0x110 + 0x20 * x)
      if regF s a 31 29 = 2 || regF s a 31 29 = 3 then hwSetF a 28 1 s else s) s
  else s

/-- The HBM space that holds data (R222). -/
def hbmBytesPerDie : Nat := 192000000000

/-- A global address in this package's HBM: its die and H (R10, R222). -/
def gaHbm (s : State) (ga : Nat) : Option (Nat × Nat) :=
  let win := bitsOf ga 44 37
  let h := 2 ^ 37 * (win - 0x40) + bitsOf ga 36 0
  if bitsOf ga 63 48 = pkgId s && 0x40 ≤ win && h < hbmBytesPerDie then some (bitsOf ga 47 45, h) else none

/-! ## Power state wake (R409) -/

/-- A wake event: the package leaves P1–P4 after the state's exit latency. -/
def wakeEvent (s : State) : State :=
  if s.pwr.state = 0 || s.pwr.waking then s
  else { s with pwr := { s.pwr with waking := true, wakeAt := s.now } }

/-! ## HBM bytes and their code (R223, R232, R233) -/

/-- A product in GF(2⁸) with field polynomial 0x11D. -/
def gfMul (a b : Nat) : Nat :=
  let step (acc : Nat × Nat) (i : Nat) : Nat × Nat :=
    let p := if (b / 2 ^ i) % 2 = 1 then acc.1 ^^^ acc.2 else acc.1
    let a2 := acc.2 * 2
    (p, if a2 ≥ 256 then a2 ^^^ 0x11D else a2)
  ((List.range 8).foldl step (0, a)).1

/-- α to the power `n`, α = 0x02. -/
def gfPow : Nat → Nat
  | 0 => 1
  | n + 1 => gfMul (gfPow n) 2

/-- The power of x that symbol i holds in the codeword: m₀–m₆₇, then c₀–c₂. -/
def symDegree (i : Nat) : Nat := if i ≤ 67 then 70 - i else i - 68

/-- The symbol that holds a power of x. -/
def symOfDegree (p : Nat) : Nat := if p ≤ 2 then 68 + p else 70 - p

def syndrome (errs : List (Nat × Byte)) (k : Nat) : Nat :=
  errs.foldl (fun a e => a ^^^ gfMul e.2.toNat (gfPow (k * symDegree e.1))) 0

/-- Xors one symbol error into an error pattern. -/
def addErr (errs : List (Nat × Byte)) (i : Nat) (v : Byte) : List (Nat × Byte) :=
  let e := errs.find? (·.1 == i)
  let v' := (match e with | some x => x.2 | none => 0) ^^^ v
  let rest := errs.filter (·.1 != i)
  if v' = 0 then rest else mapInsert rest i v'

/-- What the decoder makes of a unit (R233): the errors left in what it delivers, and whether it counted a correction. -/
inductive Decoded where
  | delivered (left : List (Nat × Byte)) (corrected : Bool)
  | bad
deriving DecidableEq, Repr

def decodeErrs (errs : List (Nat × Byte)) : Decoded :=
  let s0 := syndrome errs 0
  let s1 := syndrome errs 1
  let s2 := syndrome errs 2
  if s0 = 0 && s1 = 0 && s2 = 0 then .delivered errs false
  else
    let p := (List.range 71).find? fun p => s1 == gfMul s0 (gfPow p) && s2 == gfMul s0 (gfPow (2 * p))
    match p with
    | some p =>
      if s0 = 0 then .bad
      else if 3 ≤ p && p ≤ 6 then .bad
      else .delivered (addErr errs (symOfDegree p) (BitVec.ofNat 8 s0)) true
    | none => .bad

/-- The controller of a byte of H (R223). -/
def ctrlOf (h : Nat) : Nat := ((h / 256) % 2 + (h / 32768) % 2) % 2

/-- The pseudo-channel of a byte of H (R223). -/
def pchanOf (h : Nat) : Nat := bitsOf h 14 9 ^^^ bitsOf h 21 16

/-- Key of a unit in the upset map. -/
def unitKey (d u : Nat) : Nat := 2 ^ 32 * d + u

def unitErrs (s : State) (d u : Nat) : List (Nat × Byte) := mapGet [] s.hbm.upsets (unitKey d u)

def unitBad (s : State) (d u : Nat) : Bool := decodeErrs (unitErrs s d u) == .bad

/-- A write of the whole unit by the agent waits: its own reads find those bytes, and no error (R229). -/
def ownWhole (a : Agent) (s : State) (d u : Nat) : Bool :=
  s.hbm.wq.any fun w => w.agent = a && w.die = d && w.unit = u && w.bytes.length = 64

/-- The agent's read of the unit is uncorrectable. -/
def badFor (a : Agent) (s : State) (d u : Nat) : Bool := unitBad s d u && !ownWhole a s d u

/-- Error value that a delivered unit still holds in byte `i`. -/
def leftErr (s : State) (d u i : Nat) : Byte :=
  match decodeErrs (unitErrs s d u) with
  | .delivered l _ => (match l.find? (·.1 == i) with | some e => e.2 | none => 0)
  | .bad => 0

/-- A byte of HBM as agent `a` reads it: its own waiting writes, else the accepted byte (R229), as decoded. -/
def hbmByte (a : Agent) (d h : Nat) (s : State) : Byte :=
  let own := s.hbm.wq.foldl (fun acc w =>
    if w.agent = a && w.die = d && w.unit = h / 64 && w.off ≤ h % 64 && h % 64 < w.off + w.bytes.length
    then some ((w.bytes.drop (h % 64 - w.off)).headD 0) else acc) none
  match own with
  | some b => b
  | none => memGet s.mem (hbmCell d h) ^^^ leftErr s d (h / 64) (h % 64)

def hbmPeek (a : Agent) (d h n : Nat) (s : State) : List Byte := (List.range n).map fun i => hbmByte a d (h + i) s

/-- The units that n bytes from H touch. -/
def unitsOf (h n : Nat) : List Nat := if n = 0 then [] else (List.range ((h + n - 1) / 64 - h / 64 + 1)).map (· + h / 64)

/-- Cuts bytes at 64-byte unit bounds. -/
def cutUnits (h : Nat) (b : List Byte) : List (Nat × Nat × List Byte) :=
  (unitsOf h b.length).map fun u =>
    let lo := max h (64 * u)
    (u, lo - 64 * u, (b.drop (lo - h)).take (64 * (u + 1) - lo))

/-- Queues units that are read at their controllers (R228). -/
def readUnits (a : Agent) (rid d : Nat) (us : List Nat) (s : State) : State :=
  { s with hbm := { s.hbm with rq := s.hbm.rq ++ us.map fun u => ({ agent := a, rid, die := d, unit := u } : RUnit) } }

/-- Queues a read of units; answers its number. -/
def postRead (a : Agent) (d : Nat) (us : List Nat) (s : State) : State × Nat :=
  let r := s.hbm.nextWid
  (readUnits a r d us { s with hbm := { s.hbm with nextWid := r + 1 } }, r)

/-- Every unit of read `r` has been carried. -/
def readServed (s : State) (r : Nat) : Bool := s.hbm.rq.all (·.rid != r)

/-- Queues a write at its controllers (R228), the merge reads of its partial units with it (R225). It is visible to
others once its units are accepted (R229). -/
def hbmWrite (a : Agent) (d h : Nat) (b : List Byte) (s : State) (ctx : Option Nat := none) (work : Nat := 0) : State :=
  let w := s.hbm.nextWid
  let us := (cutUnits h b).map fun (u, o, l) => ({ agent := a, wid := w, die := d, unit := u, off := o, bytes := l, ctx, work } : WUnit)
  readUnits a w d ((us.filter (·.bytes.length < 64)).map (·.unit)) { s with hbm := { s.hbm with wq := s.hbm.wq ++ us, nextWid := w + 1 } }

/-- The whole units that n bytes of a write touch, with the bytes in their places: the units as the agent reads them now, merged
with the write. -/
def mergedBytes (a : Agent) (d h : Nat) (b : List Byte) (s : State) : List Byte :=
  let lo := h / 64 * 64
  let old := hbmPeek a d lo (64 * (unitsOf h b.length).length) s
  old.take (h - lo) ++ b ++ old.drop (h - lo + b.length)

/-- Every unit of write `w` is accepted (R229). -/
def widVisible (s : State) (w : Nat) : Bool := s.hbm.wq.all (·.wid != w)

/-- Capture base and top of each die's HBM (R239). -/
def hbmTop : Nat := 191999967232
def captureBase (s : State) : Nat := hbmTop - 2 ^ 30 * regF s (aHbm 0 0 0x100028) 4 0
def reserveTop : Nat := 2147483648

/-! ## Host posts and interrupts (R356, R362–R366) -/

/-- Sends to the adapter, or waits for the link (R351). -/
def hostPost (o : Out) (s : State) : State :=
  if s.host.link = 3 then emit o s else { s with host := { s.host with held := s.host.held ++ [o] } }

/-- An interrupt message of a vector, coalesced by HLK_IRQ_COAL (R366). -/
def sendIrq (v : Nat) (s : State) : State :=
  let last := mapGet 0 s.host.irqLast v
  if last = 0 || last + reg s (aHlk 0x84) ≤ s.now + 1 then
    hostPost (.irq v) { s with host := { s.host with
      irqLast := mapSet 0 s.host.irqLast v (s.now + 1), irqWait := s.host.irqWait.filter (· ≠ v) } }
  else if s.host.irqWait.contains v then s
  else { s with host := { s.host with irqWait := s.host.irqWait ++ [v] } }

/-- The interrupt source of an event code (R384). -/
def eventSource (code : Nat) : Nat := 256 + 32 * (code / 256) + code % 32

/-- The catalogue of R394. -/
def eventCodes : List Nat := [0x0001, 0x0002, 0x0003, 0x0004, 0x0005, 0x0006, 0x0007, 0x0101, 0x0102, 0x0103, 0x0104,
  0x0201, 0x0202, 0x0203, 0x0204, 0x0301, 0x0302, 0x0303, 0x0304, 0x0305, 0x0306, 0x0307, 0x0401, 0x0402, 0x0403, 0x0501,
  0x0502, 0x0503, 0x0504, 0x0505, 0x0506, 0x0601, 0x0602, 0x0603, 0x0604, 0x0701, 0x0702, 0x0703, 0x0801, 0x0802, 0x0803,
  0x0804, 0x0901]

/-- The sources that R384 defines on a die. -/
def sourceDefined (d src : Nat) : Bool :=
  src < 32 || (d = 0 && ((32 ≤ src && src ≤ 40) || (64 ≤ src && src ≤ 67))) || (96 ≤ src && src ≤ 99)
    || eventCodes.any (fun c => eventSource c == src)

/-- The word and the bit of a source in ICU_PENDw. -/
def aPend (d src : Nat) : Nat := aIcu d (0x1000 + src / 32 * 4)

/-- Sets a source pending (R385). Sources 0–99 wake the package (R409). -/
def pendSource (d src : Nat) (s : State) : State :=
  if sourceDefined d src then
    let s := { s with icu := { s.icu with pend := mapSet false s.icu.pend (d * 1024 + src) true } }
    if src < 100 then wakeEvent s else s
  else s

/-- Hardware sets a source pending: an ACK of the same cycle leaves it so (R387). -/
def setPending (d src : Nat) (s : State) : State := pendSource d src (markHw (aPend d src) (2 ^ (src % 32)) s)

def clearPending (d src : Nat) (s : State) : State :=
  { s with icu := { s.icu with pend := mapSet false s.icu.pend (d * 1024 + src) false,
                               signalled := mapSet false s.icu.signalled (d * 1024 + src) false } }

/-! ## Events (R364, R365, R389, R390) -/

/-- What an event entry says beside its position. -/
structure Ev where
  die : Nat
  code : Nat
  /-- the context whose event ring it goes to; none, the admin ring -/
  ctx : Option Nat := none
  p0 : Nat := 0
  p1 : Nat := 0
  p2 : Nat := 0
  p3 : Nat := 0
  /-- the count at which it was raised, where that is not now -/
  at_ : Option Nat := none

/-- The 32 bytes of an entry (R364). -/
def evEntry (e : Ev) (phase : Bool) (num tick : Nat) : List Byte :=
  wordsLE [(if phase then 2 ^ 31 else 0) + e.die * 2 ^ 28 + (if e.ctx.isNone then 2 ^ 27 else 0) + e.ctx.getD 0 * 2 ^ 24 + e.code,
    num, tick, tick / 2 ^ 32, e.p0, e.p1, e.p2, e.p3]

/-- Moves a ring index on, inverting PHASE at a wrap (R356). -/
def ringNext (i log : Nat) (phase : Bool) : Nat × Bool :=
  if i + 1 = 2 ^ log then (0, !phase) else (i + 1, phase)

/-- An event ring has a free entry: one is kept free, so that TAIL + 1 = HEAD is full. -/
def evRoom (s : State) (r : Nat) (g : RingS) : Bool :=
  (g.evTail + 1) % 2 ^ g.evLog != regF s (aHlk (0x10008 + 0x1000 * r)) 11 0 % 2 ^ g.evLog

/-- Writes one entry into ring set r's event ring. -/
def evPut (r : Nat) (g : RingS) (e : Ev) (s : State) : State :=
  let b := evEntry e g.evPhase g.evNum (e.at_.getD s.clk.count)
  let (i, p) := ringNext g.evTail g.evLog g.evPhase
  let g' := { g with evTail := i, evPhase := p, evNum := g.evNum + 1 }
  sendIrq (2 * r + 1) (hostPost (.hostWrite (g.evBase + 32 * g.evTail) b)
    { s with host := { s.host with rings := mapInsert s.host.rings r g' } })

/-- The EVENTS_LOST entry that goes first once an entry is free (R365). -/
def evFlush (r : Nat) (s : State) : State :=
  match mapLookup s.host.rings r with
  | some g =>
    if g.lost ≠ 0 && evRoom s r g then
      evPut r { g with lost := 0 } { die := 0, code := 1, ctx := if r = 0 then none else some (r - 1), p0 := g.lost } s
    else s
  | none => s

/-- The event's copy for the host: its context's ring, else the admin ring (R364). A full ring loses it (R365). -/
def evHost (e : Ev) (s : State) : State :=
  let r := match e.ctx with | some c => c + 1 | none => 0
  let s := evFlush r s
  match mapLookup s.host.rings r with
  | none => s
  | some g =>
    if g.lost = 0 && evRoom s r g then evPut r g e s
    else bump (aHlk (0x104 + 0x10 * r)) { s with host := { s.host with rings := mapInsert s.host.rings r { g with lost := g.lost + 1 } } }

/-- Base of a die's event queue, where it lies wholly in the system reserve of a die (R389). -/
def evqBase (d : Nat) (s : State) : Option (Nat × Nat) :=
  match gaHbm s (reg64 s (aIcu d 0x1240)) with
  | some (d', h) => if h + 32 * 2 ^ regF s (aIcu d 0x1248) 3 0 ≤ reserveTop then some (d', h) else none
  | none => none

/-- A unit is read whose correction or failure is recorded at the next tick (R237). -/
def laterRead (a : Agent) (d u : Nat) (s : State) (ctx : Option Nat := none) : State :=
  { s with hbm := { s.hbm with ueWait := s.hbm.ueWait ++ [{ agent := a, die := d, unit := u, ctx }] } }

/-- Writes one entry into a die's event queue; `none` where the entry is lost (R389). Its merge read is made as it is raised,
so that the entry that is written is a whole unit (DEDUCED, log entry 125). -/
def evqPut (d : Nat) (e : Ev) (s : State) : Option State :=
  match evqBase d s with
  | none => none
  | some (d', h) =>
    let log := regF s (aIcu d 0x1248) 3 0
    let tail := reg s (aIcu d 0x124C)
    let q := mapGet {} s.icu.evq d
    let at_ := h + 32 * tail
    if (tail + 1) % 2 ^ log = reg s (aIcu d 0x1250) % 2 ^ log then none
    else if badFor (.icu (Fin.ofNat 8 d)) s d' (at_ / 64) then none
    else
      let (i, p) := ringNext tail log q.phase
      let q' := { q with num := q.num + 1, phase := p }
      let a := Agent.icu (Fin.ofNat 8 d)
      let b := mergedBytes a d' at_ (evEntry e q.phase q.num s.clk.count) s
      some (putReg (aIcu d 0x124C) i (hbmWrite a d' (at_ / 64 * 64) b
        (laterRead a d' (at_ / 64) { s with icu := { s.icu with evq := mapSet {} s.icu.evq d q' } })))

/-- The merge read of the unit that would hold a die's next entry is uncorrectable (R237, R389). -/
def evqBad (d : Nat) (s : State) : Option (Nat × Nat) :=
  match evqBase d s with
  | none => none
  | some (d', h) =>
    let log := regF s (aIcu d 0x1248) 3 0
    let tail := reg s (aIcu d 0x124C)
    let u := (h + 32 * tail) / 64
    if (tail + 1) % 2 ^ log ≠ reg s (aIcu d 0x1250) % 2 ^ log && badFor (.icu (Fin.ofNat 8 d)) s d' u then some (d', u) else none

/-- An entry whose place reads uncorrectable leaves that read to be recorded (R237). -/
def evqUe (d : Nat) (s : State) : State :=
  match evqBad d s with
  | some (d', u) => laterRead (.icu (Fin.ofNat 8 d)) d' u s
  | none => s

/-- The EVENTS_LOST entry of a die's queue, at the first moment it fits (R389). -/
def evqFlush (d : Nat) (s : State) : State :=
  let q := mapGet {} s.icu.evq d
  if q.lost = 0 then s
  else
    match evqPut d { die := d, code := 1, p0 := q.lost } s with
    | some s' => { s' with icu := { s'.icu with evq := mapSet {} s'.icu.evq d { (mapGet {} s'.icu.evq d) with lost := 0 } } }
    | none => s

def evqAdd (d : Nat) (e : Ev) (s : State) : State :=
  let s := evqFlush d s
  let q := mapGet {} s.icu.evq d
  match if q.lost = 0 then evqPut d e s else none with
  | some s' => s'
  | none =>
    let s := evqUe d s
    bump (aIcu d 0x1254) { s with icu := { s.icu with evq := mapSet {} s.icu.evq d { q with lost := q.lost + 1 } } }

/-- Performance trace keeps the entry in the die's capture region while EN = 1 and there is room (R390). -/
def traceAdd (d : Nat) (e : Ev) (s : State) : State :=
  let o := mapGet 0 s.icu.trace d
  if regF s (aLcc 0 0 0x104) 0 0 = 1 && captureBase s + o + 32 ≤ hbmTop then
    hbmWrite (.icu (Fin.ofNat 8 d)) d (captureBase s + o) (evEntry e true (o / 32) s.clk.count)
      { s with icu := { s.icu with trace := mapSet 0 s.icu.trace d (o + 32) } }
  else s

/-- The data byte of the in-band interrupt that an event raises (R437). -/
def ibiByte (code : Nat) : Option Byte :=
  if code = 0x0801 then some 1 else if code = 0x0802 then some 2 else if code = 0x0803 then some 3
  else if code = 0x0804 then some 4 else if code = 0x0007 then some 5 else none

def sendIbi (b : Byte) (s : State) : State := if s.boot.ibi then emit (.ibi b) s else s

/-- Raises an event on its die (R389): queue entry, interrupt source, host copy, trace, in-band interrupt. The host's
copy of HOST_LINK_DOWN waits for the link (R351). -/
def raise (e : Ev) (s : State) : State :=
  let s := evqAdd e.die e s
  let s := setPending e.die (eventSource e.code) s
  let s := if e.code = 6 then s else evHost e s
  let s := traceAdd e.die e s
  match ibiByte e.code with
  | some b => sendIbi b s
  | none => s

/-! ## Commands (R358–R362, R382) -/

def cmdWord (c : Cmd) (i : Nat) : Nat := (c.words.getD i 0).toNat
def cmdOp (c : Cmd) : Nat := bitsOf (cmdWord c 0) 31 24
def cmdFence (c : Cmd) : Bool := bitsOf (cmdWord c 0) 23 23 = 1
/-- Operand word Ai (R360). -/
def cmdA (c : Cmd) (i : Nat) : Nat := cmdWord c (4 + i)
def cmdA64 (c : Cmd) (i : Nat) : Nat := cmdA c i + 2 ^ 32 * cmdA c (i + 1)

/-- The context that a command acts on: its ring's, or CTX where the opcode or the port names it (R360, R382). -/
def cmdCtx (c : Cmd) : Nat :=
  match c.src with
  | .ring r => if r = 0 then bitsOf (cmdWord c 0) 21 19 else r - 1
  | .core _ => bitsOf (cmdWord c 0) 21 19

def getCmd (s : State) (c : Nat) : Option Cmd := mapLookup s.host.cmds c
def setCmd (c : Nat) (x : Cmd) (s : State) : State := { s with host := { s.host with cmds := mapInsert s.host.cmds c x } }
def modCmd (c : Nat) (f : Cmd → Cmd) (s : State) : State :=
  match getCmd s c with
  | some x => setCmd c (f x) s
  | none => s

def getCore (s : State) (c : Nat) : CoreS := mapGet {} s.icu.cores c
def setCore (c : Nat) (x : CoreS) (s : State) : State := { s with icu := { s.icu with cores := mapSet {} s.icu.cores c x } }

/-- The 16 bytes of a completion entry (R362). -/
def cplEntry (c : Cmd) (phase : Bool) (status detail : Nat) : List Byte :=
  wordsLE [(if phase then 2 ^ 31 else 0) + cmdOp c * 2 ^ 16 + status, cmdWord c 1, cmdWord c 2, detail]

/-- The access that a post to the adapter belongs to. -/
def accOf : Out → Option Nat
  | .hostRead a _ _ => some a
  | .hostStore a _ _ => some a
  | _ => none

/-- The accesses that are over: what of them still waits for the link is not sent (R351). -/
def dropAccs (sel : Nat → Access → Bool) (s : State) : State :=
  let gone := (s.host.accs.filter fun a => sel a.1 a.2).map (·.1)
  { s with host := { s.host with
    accs := s.host.accs.filter fun a => !sel a.1 a.2
    held := s.host.held.filter fun o => match accOf o with | some a => !gone.contains a | none => true } }

/-- The generation to which a request is bound that no unsettled swap precedes (R186). -/
def boundGen (s : State) (x : Nat) : Nat :=
  let l : LoadS := mapGet {} s.loads x
  if l.swapCommitted then l.genNew else l.genCur

/-- The binding of a request whose swap, command c of its ring, is not yet accepted or refused (R186). -/
def awaits (c : Nat) : Nat := 65536 + c

/-- A swap is settled: the requests fetched behind it are bound to generation g. -/
def bindRequests (c g : Nat) (s : State) : State :=
  { s with host := { s.host with
    cmds := s.host.cmds.map fun e => if cmdOp e.2 = 0x19 && e.2.aux = awaits c then (e.1, { e.2 with aux := g }) else e } }

/-- A command completes: its entry is written and it leaves the package (R358, R362, R366, R382). A swap that completes
without having been accepted leaves the requests behind it as they would be without it. -/
def completeCmd (c status detail : Nat) (s : State) : State :=
  match getCmd s c with
  | none => s
  | some x =>
    let s := if cmdOp x = 0x13 then bindRequests c (boundGen s (cmdCtx x)) s else s
    let s := dropAccs (fun _ a => a.cmd == c) { s with host := { s.host with cmds := mapErase s.host.cmds c } }
    match x.src with
    | .ring r =>
      match mapLookup s.host.rings r with
      | none => s
      | some g =>
        let b := cplEntry x g.cplPhase status detail
        let (i, p) := ringNext g.cplTail g.cplLog g.cplPhase
        let s := hostPost (.hostWrite (g.cplBase + 16 * g.cplTail) b)
          { s with host := { s.host with rings := mapInsert s.host.rings r { g with cplTail := i, cplPhase := p } } }
        if bitsOf (cmdWord x 0) 22 22 = 1 then sendIrq (2 * r) s else s
    | .core k =>
      let d := k.val / 4
      let j := k.val % 4
      let q := getCore s k
      let (i, p) := ringNext q.cplTail (regF s (aLcc d j 0x28) 3 0) q.cplPhase
      let b := cplEntry x q.cplPhase status detail
      let s1 := match gaHbm s (reg64 s (aLcc d j 0x38)) with
        | some (d', h) => hbmWrite (.core k) d' (h + 16 * q.cplTail) b s
        | none => s
      setPending d (96 + j) (setCore k { q with cplTail := i, cplPhase := p } s1)

/-! ## Set-up writes (R14–R18, R35–R37, R370) -/

/-- Master codes of R313. -/
def masterCode : Master → Nat
  | .bmc => 0
  | .host => 1
  | .core _ => 2
  | .fm => 3

/-- Latches and held words are kept for each core as a master of its own (R15). -/
def masterKey : Master → Nat
  | .core c => 16 + c.val
  | m => masterCode m

/-- The reach of a master in the set-up space (R34, R37); nothing lies beyond its 512 MiB. -/
def reaches (m : Master) (addr : Nat) : Bool :=
  let off := addr % 0x4000000
  addr < 0x20000000 && match m with
  | .bmc => off < 0x200000
  | .host | .core _ => true
  | .fm => 0x800000 ≤ off && off < 0xC00000

/-- The address is backed on this package (R35). -/
def backed (s : State) (addr : Nat) : Bool :=
  let d := addr / 0x4000000
  let off := addr % 0x4000000
  addr < 0x20000000 && (regsAt off != []) && !(d != 0 && 0xC00000 ≤ off && off < 0xD00000)
    && !(0x1000000 + 0x40000 * tilesPerDie s ≤ off && off < 0x1A00000)

/-- SETUP_ACCESS_DENIED (R37). No rule names the die that raises it: die 0, where the access enters (DESIGN CHOICE, log
entry 106). -/
def deny (m : Master) (addr : Nat) (s : State) : State := raise { die := 0, code := 4, p0 := addr, p1 := masterCode m } s

/-- The arbitration window of a tick (R370). -/
def windowOf (s : State) : Nat := s.clk.count / 40

def joinWindow (a : Act) (s : State) : State :=
  { s with setup := { s.setup with acts := s.setup.acts ++ [(windowOf s, a)] } }

def heldOf (s : State) (m : Master) (addr : Nat) : Option Word :=
  (s.setup.held.find? fun e => e.1 == masterKey m && e.2.1 == addr).map (·.2.2)

/-- The words of a window, and its state: 0 CLOSED, 1 OPEN, 2 CLOSING (R269). -/
def aWin (d w i : Nat) : Nat := aFab d (0x1000 + 16 * w + 4 * i)
def winState (s : State) (d w : Nat) : Nat := regF s (aWin d w 0) 31 30
/-- A CLOSE takes effect at the edge at which its write reaches the die, ahead of its arbitration window's end (R271). -/
def effWinClose (d w : Nat) (s : State) : State := if winState s d w = 1 then putRegF (aWin d w 0) 31 30 2 s else s

/-- A set-up write reaches its register block: reach, size, backing and scope are judged in that order; the high
word of a 64-bit register is held, a CLOSE of a fabric window acts unless the package is outside P0 (R409), any other write joins its arbitration window
(R14, R15, R35–R37, R271, R370). -/
def arriveRaw (m : Master) (addr : Nat) (v : Word) (size : Nat) (s : State) : State :=
  let s := wakeEvent s
  if !reaches m addr then deny m addr s
  else if size ≠ 4 || addr % 4 ≠ 0 || !backed s addr then s
  else
    match findReg addr with
    | none => s
    | some (r, _, _, hi) =>
      if r.pkg && 0x4000000 ≤ addr then s
      else if hi then
        let rest := s.setup.held.filter fun e => !(e.1 == masterKey m && e.2.1 == addr - 4)
        { s with setup := { s.setup with held := rest ++ [(masterKey m, addr - 4, v)] } }
      else if r.kind = .fabWinCmd && bitsOf v.toNat 31 30 = 2 && s.pwr.state = 0 then effWinClose (addr / 0x4000000) (bitsOf v.toNat 7 0) s
      else
        let h := if r.wide then heldOf s m addr else none
        let rest := s.setup.held.filter fun e => !(e.1 == masterKey m && e.2.1 == addr)
        joinWindow (.write m addr v h) { s with setup := { s.setup with held := rest } }

end Sys2Proof.Machine
end

