-- ==== Sys2Proof/Machine/Flags.lean ====
section
/-! DEFINITION. Numbers and flags: element formats and block scales (R39–R45), the windowed accumulator (R46–R52),
rounding at the grid boundary (R55), binary32 arithmetic with its sticky flags (R56, R58, R210), conversion to
narrower formats (R59–R63), the generator (R307–R309) and residues (R86). -/

namespace Sys2Proof.Machine

/-! ## Values -/

/-- A value of an element: finite sign, magnitude m × 2^e; or non-finite. -/
inductive Val where
  | fin (neg : Bool) (m : Nat) (e : Int)
  | inf (neg : Bool)
  | nan
deriving DecidableEq, Repr

/-- m × 2^k for k ≥ 0, the floor of m ÷ 2^(−k) otherwise. -/
def shiftNat (m : Nat) (k : Int) : Nat := if 0 ≤ k then m * 2 ^ k.toNat else m / 2 ^ (-k).toNat

/-- The bits below the cut of `shiftNat` are not all zero. -/
def shiftLost (m : Nat) (k : Int) : Bool := if 0 ≤ k then false else m % 2 ^ (-k).toNat != 0

/-- floor(log2 m) for m > 0. -/
def log2 (m : Nat) : Int := (Nat.log2 m : Int)

/-- Shape of a floating-point format (R39): special 0 has no Inf or NaN, 1 one NaN magnitude, 2 as IEEE 754. -/
structure FpFmt where
  eb : Nat
  mb : Nat
  bias : Nat
  special : Nat
deriving DecidableEq, Repr

def fpE2M1 : FpFmt := ⟨2, 1, 1, 0⟩
def fpE4M3 : FpFmt := ⟨4, 3, 7, 1⟩
def fpE5M2 : FpFmt := ⟨5, 2, 15, 2⟩
def fpBF16 : FpFmt := ⟨8, 7, 127, 2⟩
def fpFP16 : FpFmt := ⟨5, 10, 15, 2⟩
def fpFP32 : FpFmt := ⟨8, 23, 127, 2⟩

/-- The exponent of the smallest normal. -/
def FpFmt.emin (f : FpFmt) : Int := 1 - (f.bias : Int)

/-- Reads an encoding (R39, R40). -/
def FpFmt.decode (f : FpFmt) (x : Nat) : Val :=
  let s := bitsOf x (f.eb + f.mb) (f.eb + f.mb) = 1
  let e := bitsOf x (f.eb + f.mb - 1) f.mb
  let m := x % 2 ^ f.mb
  let top := 2 ^ f.eb - 1
  if f.special = 2 && e = top then (if m = 0 then .inf s else .nan)
  else if f.special = 1 && e = top && m = 2 ^ f.mb - 1 then .nan
  else if e = 0 then .fin s m (f.emin - f.mb)
  else .fin s (2 ^ f.mb + m) ((e : Int) - f.bias - f.mb)

/-- The canonical NaN of a format (R40). -/
def FpFmt.canonNan (f : FpFmt) : Nat :=
  if f.special = 1 then 2 ^ (f.eb + f.mb) - 1 else (2 ^ f.eb - 1) * 2 ^ f.mb + 2 ^ (f.mb - 1)

def FpFmt.signBit (f : FpFmt) (neg : Bool) : Nat := if neg then 2 ^ (f.eb + f.mb) else 0

/-- ±Inf of a format. -/
def FpFmt.infBits (f : FpFmt) (neg : Bool) : Nat := f.signBit neg + (2 ^ f.eb - 1) * 2 ^ f.mb

/-- The magnitude bits of the largest finite value. -/
def FpFmt.maxMag (f : FpFmt) : Nat :=
  if f.special = 2 then (2 ^ f.eb - 1) * 2 ^ f.mb - 1
  else if f.special = 1 then 2 ^ (f.eb + f.mb) - 2 else 2 ^ (f.eb + f.mb) - 1

/-- The unit in the last place at the magnitude m × 2^e, m > 0, as an exponent of 2. -/
def FpFmt.ulp (f : FpFmt) (m : Nat) (e : Int) : Int := max (e + log2 m) f.emin - f.mb

/-- The magnitude bits of k × 2^q, with q an ulp exponent of the format and k ≤ 2^(mb+1). It may pass `maxMag`. -/
def FpFmt.encodeMag (f : FpFmt) (k : Nat) (q : Int) : Nat := ((q - (f.emin - f.mb)).toNat) * 2 ^ f.mb + k

/-- Round to nearest, ties to even, to a multiple of 2^q: the multiple. -/
def rne (m : Nat) (k : Int) : Nat :=
  if 0 ≤ k then m * 2 ^ k.toNat
  else
    let d := 2 ^ (-k).toNat
    let fl := m / d
    let r := m % d
    if 2 * r > d || (2 * r = d && fl % 2 = 1) then fl + 1 else fl

/-- Formats of R110 by code. -/
def codeBits (c : Nat) : Nat := if c ≤ 1 then 4 else if c ≤ 7 then 8 else if c ≤ 9 then 16 else 32
def codeBlocked (c : Nat) : Bool := c = 0 || c = 1 || c = 5 || c = 6 || c = 7
/-- Bytes of one block of 32 elements (R44, R111). -/
def blockBytes (c : Nat) : Nat := if c ≤ 1 then 16 else 32

/-- The floating-point format of a code; none for the integer formats. -/
def codeFp (c : Nat) : Option FpFmt :=
  match c with
  | 0 => some fpE2M1
  | 2 | 5 => some fpE4M3
  | 3 | 6 => some fpE5M2
  | 8 => some fpBF16
  | 9 => some fpFP16
  | 10 => some fpFP32
  | _ => none

/-- Two's complement of n bits. -/
def signed (n x : Nat) : Int := if x % 2 ^ n < 2 ^ (n - 1) then (x % 2 ^ n : Int) else (x % 2 ^ n : Int) - 2 ^ n

/-- The value of an element under its scale byte; a plain element has scale byte 0x7F (R40–R43). -/
def decodeElem (c x scale : Nat) : Val :=
  if codeBlocked c && scale = 0xFF then .nan
  else
    let se : Int := if codeBlocked c then (scale : Int) - 127 else 0
    match codeFp c with
    | some f =>
      (match f.decode x with
       | .fin s m e => .fin s m (e + se)
       | v => v)
    | none =>
      let q := signed (codeBits c) x
      .fin (q < 0) q.natAbs (se + if c = 7 then -6 else 0)

/-! ## Block exponents (R47, R48) -/

/-- m of R47: the exponent bound of a blocked format at scale 2⁰. -/
def blockExpM (c : Nat) : Int :=
  match c with
  | 0 => 3
  | 1 => 4
  | 5 => 9
  | 6 => 16
  | _ => 2

/-- The lowest b of a format (R47, R48). -/
def lowestB (c : Nat) : Int :=
  if codeBlocked c then -127 + blockExpM c
  else match codeFp c with
    | some f => f.emin
    | none => 8

/-- The block exponent of a group of plain elements; none where every element is Inf or NaN (R47). -/
def plainB (c : Nat) (xs : List Nat) : Option Int :=
  match codeFp c with
  | none => some 8
  | some f =>
    let vs := xs.map f.decode
    if vs.all (fun v => match v with | .fin _ _ _ => false | _ => true) then none
    else
      some (vs.foldl (fun b v => match v with
        | .fin _ m e => if m = 0 then b else max b (max (e + log2 m) (f.emin - 1) + 1)
        | _ => b) f.emin)

/-- The block exponent of a group of 32 elements under a scale; none where the group takes no part (R47, R48). -/
def groupB (c scale : Nat) (xs : List Nat) : Option Int :=
  if codeBlocked c then (if scale = 0xFF then none else some ((scale : Int) - 127 + blockExpM c)) else plainB c xs

/-- The largest b over groups, or the format's lowest where none takes part (R48). -/
def operandB (c : Nat) (gs : List (Option Int)) : Int :=
  match gs.filterMap id with
  | [] => lowestB c
  | b :: bs => bs.foldl max b

/-! ## The accumulator (R46, R49–R52, R88, R89) -/

/-- q of the mirror checksums (R86). -/
def resQ : Nat := 2 ^ 61 - 1

/-- res(n × 2^e) (R86). -/
def resOf (n e : Int) : Nat :=
  ((n % (resQ : Int)) * (2 ^ (e % 61).toNat : Int) % (resQ : Int)).toNat

/-- rot(x, k) (R86). -/
def rotQ (x : Nat) (k : Int) : Nat := x * 2 ^ (k % 61).toNat % resQ

def resVal : Val → Nat
  | .fin s m e => resOf (if s then -(m : Int) else m) e
  | _ => 0

/-- The sum of one vector's products in one column before the accumulator: also the residue lane of R88. -/
structure Psum where
  p : Int := 0
  lane : Nat := 0
  nan : Bool := false
  pinf : Bool := false
  ninf : Bool := false
  low : Bool := false
  ovf : Bool := false
deriving DecidableEq, Repr

/-- The limits of the window in units of 2^(A − 64): 96 bits. -/
def winMax : Int := 2 ^ 95 - 1
def winMin : Int := -(2 ^ 95)

/-- One cell operation: a product joins a partial sum under anchor A (R49–R51, R71). -/
def addProduct (a : Int) (ps : Psum) (x w : Val) : Psum :=
  match x, w with
  | .nan, _ | _, .nan => { ps with nan := true }
  | .inf s, .inf t => if s != t then { ps with ninf := true } else { ps with pinf := true }
  | .inf s, .fin t m _ | .fin t m _, .inf s =>
    if m = 0 then { ps with nan := true }
    else if s != t then { ps with ninf := true } else { ps with pinf := true }
  | .fin s m e, .fin t n f =>
    let mag := m * n
    let k := e + f - (a - 64)
    let tr := shiftNat mag k
    let lost := shiftLost mag k
    let v : Int := if s != t then -(tr : Int) else tr
    let cl := if v > winMax then winMax else if v < winMin then winMin else v
    let exact := resOf (if s != t then -(mag : Int) else mag) (e + f)
    { ps with
      p := ps.p + cl
      lane := (ps.lane + exact + (resQ - rotQ (resOf cl 0) (a - 64))) % resQ
      low := ps.low || lost
      ovf := ps.ovf || cl != v }

/-- A column's partial sum is added into its accumulator (R54, R89). -/
def Accu.add (c : Accu) (ps : Psum) : Accu :=
  { q := c.q + ps.p, nan := c.nan || ps.nan, pinf := c.pinf || ps.pinf, ninf := c.ninf || ps.ninf,
    low := c.low || ps.low, ovf := c.ovf || ps.ovf, res := (c.res + resOf ps.p 0) % resQ }

/-- The residue word agrees with the guarded sum (R89). -/
def Accu.checks (c : Accu) : Bool := resOf c.q 0 = c.res

/-- Flags of a task (R52) and of conversion (R60–R62), in the bit order of the completion record from bit 8 (R113). -/
structure TFlags where
  low : Bool := false
  ovf : Bool := false
  nan : Bool := false
  inf : Bool := false
  f32Ovf : Bool := false
  f32Unf : Bool := false
  convSat : Bool := false
  convNonfinite : Bool := false
deriving DecidableEq, Repr

def TFlags.or (a b : TFlags) : TFlags :=
  ⟨a.low || b.low, a.ovf || b.ovf, a.nan || b.nan, a.inf || b.inf, a.f32Ovf || b.f32Ovf, a.f32Unf || b.f32Unf,
    a.convSat || b.convSat, a.convNonfinite || b.convNonfinite⟩

def bit (b : Bool) (n : Nat) : Nat := if b then 2 ^ n else 0

def TFlags.bits (f : TFlags) : Nat :=
  bit f.low 0 + bit f.ovf 1 + bit f.nan 2 + bit f.inf 3 + bit f.f32Ovf 4 + bit f.f32Unf 5 + bit f.convSat 6 +
    bit f.convNonfinite 7

/-! ## Binary32 (R38, R55, R58) -/

/-- Sticky flags of a row engine, bit order of ROW_FLAGS: NX 0, UF 1, OF 2, DZ 3, NV 4 (R216). -/
def fNX : Nat := 1
def fUF : Nat := 2
def fOF : Nat := 4
def fDZ : Nat := 8
def fNV : Nat := 16

/-- A binary32 result with the flags it raises. -/
structure F32 where
  bits : Nat
  fl : Nat := 0
deriving DecidableEq, Repr

def nan32 : Nat := 0x7FC00000
def inf32 (neg : Bool) : Nat := if neg then 0xFF800000 else 0x7F800000
def zero32 (neg : Bool) : Nat := if neg then 0x80000000 else 0

def val32 (x : Nat) : Val := fpFP32.decode x
def isNan32 (x : Nat) : Bool := val32 x = .nan
def neg32 (x : Nat) : Nat := if isNan32 x then nan32 else x ^^^ 0x80000000

/-- Rounds m × 2^e, m > 0, to binary32, with OF, UF after rounding, and NX (R58). -/
def round32 (neg : Bool) (m : Nat) (e : Int) : F32 :=
  let q := fpFP32.ulp m e
  let k := rne m (e - q)
  let inexact := shiftLost m (e - q)
  let mag := fpFP32.encodeMag k q
  let q' := e + log2 m - 23
  let k' := rne m (e - q')
  let tiny := (k' : Int) * 1 < 2 ^ 24 && q' + 23 < -126 || (k' = 2 ^ 24 && q' + 24 < -126)
  let s := fpFP32.signBit neg
  if mag > fpFP32.maxMag then { bits := inf32 neg, fl := fOF ||| fNX }
  else { bits := s + mag, fl := (if inexact then fNX else 0) ||| (if inexact && tiny then fUF else 0) }

/-- A finite value of either sign, rounded; an exact zero takes the given sign. -/
def roundInt32 (zneg : Bool) (n : Int) (e : Int) : F32 :=
  if n = 0 then { bits := zero32 zneg } else round32 (n < 0) n.natAbs e

/-- Two finite values on a common exponent. -/
def alignSum (s : Bool) (m : Nat) (e : Int) (t : Bool) (n : Nat) (f : Int) : Int × Int :=
  let g := min e f
  let a : Int := m * 2 ^ (e - g).toNat
  let b : Int := n * 2 ^ (f - g).toNat
  ((if s then -a else a) + (if t then -b else b), g)

def add32 (x y : Nat) : F32 :=
  match val32 x, val32 y with
  | .nan, _ | _, .nan => { bits := nan32 }
  | .inf s, .inf t => if s = t then { bits := inf32 s } else { bits := nan32, fl := fNV }
  | .inf s, _ | _, .inf s => { bits := inf32 s }
  | .fin s m e, .fin t n f =>
    let (r, g) := alignSum s m e t n f
    roundInt32 (s && t && m = 0 && n = 0) r g

def sub32 (x y : Nat) : F32 := add32 x (neg32 y)

def mul32 (x y : Nat) : F32 :=
  match val32 x, val32 y with
  | .nan, _ | _, .nan => { bits := nan32 }
  | .inf s, .inf t => { bits := inf32 (s != t) }
  | .inf s, .fin t m _ | .fin t m _, .inf s =>
    if m = 0 then { bits := nan32, fl := fNV } else { bits := inf32 (s != t) }
  | .fin s m e, .fin t n f => if m * n = 0 then { bits := zero32 (s != t) } else round32 (s != t) (m * n) (e + f)

/-- x × y + z, rounded once. -/
def fma32 (x y z : Nat) : F32 :=
  match val32 x, val32 y, val32 z with
  | .nan, _, _ | _, .nan, _ => { bits := nan32 }
  | .inf s, .fin t m _, c | .fin t m _, .inf s, c =>
    (match c with
     | .nan => { bits := nan32 }
     | c =>
       if m = 0 then { bits := nan32, fl := fNV }
       else match c with
         | .inf u => if u = (s != t) then { bits := inf32 u } else { bits := nan32, fl := fNV }
         | _ => { bits := inf32 (s != t) })
  | .inf s, .inf t, c =>
    (match c with
     | .nan => { bits := nan32 }
     | .inf u => if u = (s != t) then { bits := inf32 u } else { bits := nan32, fl := fNV }
     | _ => { bits := inf32 (s != t) })
  | _, _, .nan => { bits := nan32 }
  | _, _, .inf u => { bits := inf32 u }
  | .fin s m e, .fin t n f, .fin u p g =>
    let (r, h) := alignSum (s != t) (m * n) (e + f) u p g
    roundInt32 ((s != t) && u && m * n = 0 && p = 0) r h

def div32 (x y : Nat) : F32 :=
  match val32 x, val32 y with
  | .nan, _ | _, .nan => { bits := nan32 }
  | .inf _, .inf _ => { bits := nan32, fl := fNV }
  | .inf s, .fin t _ _ => { bits := inf32 (s != t) }
  | .fin s _ _, .inf t => { bits := zero32 (s != t) }
  | .fin s m e, .fin t n f =>
    if n = 0 then (if m = 0 then { bits := nan32, fl := fNV } else { bits := inf32 (s != t), fl := fDZ })
    else if m = 0 then { bits := zero32 (s != t) }
    else
      let m' := m * 2 ^ 64
      let q := 2 * (m' / n) + (if m' % n = 0 then 0 else 1)
      round32 (s != t) q (e - 65 - f)

/-- floor of the square root, bit by bit from 2^k down. -/
def isqrt (n : Nat) : Nat → Nat → Nat
  | 0, r => if (r + 1) * (r + 1) ≤ n then r + 1 else r
  | k + 1, r =>
    let c := r + 2 ^ (k + 1)
    isqrt n k (if c * c ≤ n then c else r)

/-- The square root of m × 2^e, m > 0, with a sticky bit below. -/
def sqrtMag (m : Nat) (e : Int) : Nat × Int :=
  let m' := (if e % 2 = 0 then m else 2 * m) * 2 ^ 80
  let e' := (if e % 2 = 0 then e else e - 1) - 80
  let r := isqrt m' 60 0
  (2 * r + (if r * r = m' then 0 else 1), e' / 2 - 1)

def sqrt32 (x : Nat) : F32 :=
  match val32 x with
  | .nan => { bits := nan32 }
  | .inf s => if s then { bits := nan32, fl := fNV } else { bits := inf32 false }
  | .fin s m e =>
    if m = 0 then { bits := zero32 s }
    else if s then { bits := nan32, fl := fNV }
    else let (r, f) := sqrtMag m e; round32 false r f

/-! ## The function unit (R210) -/

def recip32 (x : Nat) : F32 := div32 0x3F800000 x

/-- 1 ÷ √x, correctly rounded. -/
def rsqrt32 (x : Nat) : F32 :=
  match val32 x with
  | .nan => { bits := nan32 }
  | .inf s => if s then { bits := nan32, fl := fNV } else { bits := 0 }
  | .fin s m e =>
    if m = 0 then { bits := inf32 s, fl := fDZ }
    else if s then { bits := nan32, fl := fNV }
    else
      -- 1 ÷ √(m·2^e) = √(2^k ÷ m) · 2^((−k − e) ÷ 2) with k + e even
      let k : Nat := if e % 2 = 0 then 160 else 161
      let n := 2 ^ k / m
      let r := isqrt n 82 0
      let exact := r * r * m = 2 ^ k
      round32 false (2 * r + (if exact then 0 else 1)) ((-(k : Int) - e) / 2 - 1)

/-- T[j] = 2^(j ÷ 64), rounded to nearest even. -/
def expTable : List Nat := [
  0x3F800000, 0x3F8164D2, 0x3F82CD87, 0x3F843A29, 0x3F85AAC3, 0x3F871F62, 0x3F88980F, 0x3F8A14D5,
  0x3F8B95C2, 0x3F8D1ADF, 0x3F8EA43A, 0x3F9031DC, 0x3F91C3D3, 0x3F935A2B, 0x3F94F4F0, 0x3F96942D,
  0x3F9837F0, 0x3F99E046, 0x3F9B8D3A, 0x3F9D3EDA, 0x3F9EF532, 0x3FA0B051, 0x3FA27043, 0x3FA43516,
  0x3FA5FED7, 0x3FA7CD94, 0x3FA9A15B, 0x3FAB7A3A, 0x3FAD583F, 0x3FAF3B79, 0x3FB123F6, 0x3FB311C4,
  0x3FB504F3, 0x3FB6FD92, 0x3FB8FBAF, 0x3FBAFF5B, 0x3FBD08A4, 0x3FBF179A, 0x3FC12C4D, 0x3FC346CD,
  0x3FC5672A, 0x3FC78D75, 0x3FC9B9BE, 0x3FCBEC15, 0x3FCE248C, 0x3FD06334, 0x3FD2A81E, 0x3FD4F35B,
  0x3FD744FD, 0x3FD99D16, 0x3FDBFBB8, 0x3FDE60F5, 0x3FE0CCDF, 0x3FE33F89, 0x3FE5B907, 0x3FE8396A,
  0x3FEAC0C7, 0x3FED4F30, 0x3FEFE4BA, 0x3FF28177, 0x3FF5257D, 0x3FF7D0DF, 0x3FFA83B3, 0x3FFD3E0C]

/-- L[j] = log2(1 + j ÷ 64), rounded to nearest even. -/
def logTable : List Nat := [
  0x00000000, 0x3CB73CB4, 0x3D35D69C, 0x3D8759C5, 0x3DB31FB8, 0x3DDE4212, 0x3E0462C4, 0x3E19574F,
  0x3E2E00D2, 0x3E42615F, 0x3E567AF1, 0x3E6A4F72, 0x3E7DE0B6, 0x3E88983F, 0x3E92203D, 0x3E9B8926,
  0x3EA4D3C2, 0x3EAE00D2, 0x3EB7110E, 0x3EC0052B, 0x3EC8DDD4, 0x3ED19BB0, 0x3EDA3F60, 0x3EE2C97D,
  0x3EEB3A9F, 0x3EF39355, 0x3EFBD42B, 0x3F01FED4, 0x3F060828, 0x3F0A0650, 0x3F0DF989, 0x3F11E20F,
  0x3F15C01A, 0x3F1993E3, 0x3F1D5DA0, 0x3F211D84, 0x3F24D3C2, 0x3F28808C, 0x3F2C2411, 0x3F2FBE80,
  0x3F335004, 0x3F36D8CB, 0x3F3A58FF, 0x3F3DD0C8, 0x3F41404F, 0x3F44A7BA, 0x3F480731, 0x3F4B5ED7,
  0x3F4EAED0, 0x3F51F740, 0x3F553848, 0x3F587209, 0x3F5BA4A4, 0x3F5ED039, 0x3F61F4E5, 0x3F6512C7,
  0x3F6829FB, 0x3F6B3A9F, 0x3F6E44CD, 0x3F7148A1, 0x3F744636, 0x3F773DA4, 0x3F7A2F04, 0x3F7D1A71]

/-- The bits of an integer as binary32. -/
def int32 (n : Int) : Nat := (roundInt32 false n 0).bits

/-- floor(n × 2^e). -/
def floorScaled (n e : Int) : Int := if 0 ≤ e then n * 2 ^ e.toNat else n / 2 ^ (-e).toNat

def exp2_32 (t : Nat) : F32 :=
  match val32 t with
  | .nan => { bits := nan32 }
  | .inf s => { bits := if s then 0 else inf32 false }
  | .fin s m e =>
    let n : Int := if s then -(m : Int) else m
    if floorScaled n e ≥ 128 then { bits := inf32 false, fl := fOF ||| fNX }
    else if floorScaled n e < -150 then { bits := 0, fl := fUF ||| fNX }
    else
      let k := floorScaled n (e + 6)
      let j := (k % 64).toNat
      let f := let (r, g) := alignSum s m e (k ≥ 0) k.natAbs (-6); (roundInt32 false r g).bits
      let c1 := fma32 0x3D635847 f 0x3E75FDF0
      let c2 := fma32 c1.bits f 0x3F317218
      let q := mul32 c2.bits f
      let tj := expTable.getD j 0
      let r := fma32 tj q.bits tj
      let sc : F32 := match val32 r.bits with
        | .fin rs rm re => if rm = 0 then { bits := r.bits } else round32 rs rm (re + (k - j) / 64)
        | _ => { bits := r.bits }
      { bits := sc.bits, fl := c1.fl ||| c2.fl ||| q.fl ||| r.fl ||| sc.fl }

def exp32 (x : Nat) : F32 :=
  if x = inf32 true then { bits := 0 }
  else
    let p := mul32 x 0x3FB8AA3B
    let r := exp2_32 p.bits
    { bits := r.bits, fl := p.fl ||| r.fl }

def log32 (x : Nat) : F32 :=
  match val32 x with
  | .nan => { bits := nan32 }
  | .inf s => if s then { bits := nan32, fl := fNV } else { bits := inf32 false }
  | .fin s m e =>
    if m = 0 then { bits := inf32 true, fl := fDZ }
    else if s then { bits := nan32, fl := fNV }
    else
      let l := log2 m
      let n := e + l
      let mant := shiftNat m (23 - l)
      let j : Nat := (mant - 2 ^ 23) / 2 ^ 17
      let mbits := 0x3F800000 + (mant - 2 ^ 23)
      let c := int32 (64 + j)
      let cb := (mul32 c 0x3C800000).bits
      let d := sub32 mbits cb
      let z := div32 d.bits cb
      let q1 := fma32 0x3EF6384F z.bits 0xBF38AA3B
      let q2 := fma32 q1.bits z.bits 0x3FB8AA3B
      let q := mul32 q2.bits z.bits
      let a := add32 (int32 n) (logTable.getD j 0)
      let b := add32 a.bits q.bits
      let r := mul32 b.bits 0x3F317218
      { bits := r.bits, fl := d.fl ||| z.fl ||| q1.fl ||| q2.fl ||| q.fl ||| a.fl ||| b.fl ||| r.fl }

/-! ## The combining tree (R56) -/

/-- One level: adjacent pairs are added, an odd last one passes up. -/
def treeLevel : List Nat → List Nat × Nat
  | a :: b :: r =>
    let s := add32 a b
    let (t, fl) := treeLevel r
    (s.bits :: t, s.fl ||| fl)
  | l => (l, 0)

def treeRun : Nat → List Nat → Nat → F32
  | 0, l, fl => { bits := l.headD 0, fl }
  | n + 1, l, fl =>
    match l with
    | [] => { bits := 0, fl }
    | [x] => { bits := x, fl }
    | l => let (l', f) := treeLevel l; treeRun n l' (fl ||| f)

/-- The fixed tree of R56 over partials already in key order. -/
def tree32 (l : List Nat) : F32 := treeRun l.length l 0

/-- One FP32 partial of an output element under its key: engine, chunk. -/
structure Partial where
  engine : Nat
  chunk : Nat
  bits : Nat
deriving DecidableEq, Repr

/-- A partial enters a list in key order. -/
def putPartial (p : Partial) : List Partial → List Partial
  | [] => [p]
  | q :: l => if p.engine < q.engine || (p.engine = q.engine && p.chunk < q.chunk) then p :: q :: l else q :: putPartial p l

/-- The combination of partials, in whatever order they came. -/
def combineParts (ps : List Partial) : F32 := tree32 ((ps.foldl (fun l p => putPartial p l) []).map (·.bits))

/-! ## The generator (R308) -/

def rotl32 (x n : Nat) : Nat := (x * 2 ^ n % 2 ^ 32) ||| (x % 2 ^ 32 / 2 ^ (32 - n))

structure GenSt where
  a : Nat
  b : Nat
  c : Nat
  d : Nat

def genRound (k0 k1 : Nat) (g : GenSt) (r : Nat) : GenSt :=
  let kr := ((if r % 2 = 0 then k0 else k1) + (r + 1) * 0x9E3779B9) % 2 ^ 32
  let p := if r % 2 = 0 then 16 else 8
  let q := if r % 2 = 0 then 12 else 7
  let a := (g.a + (g.b ^^^ kr)) % 2 ^ 32
  let d := rotl32 (g.d ^^^ a) p
  let c := (g.c + d) % 2 ^ 32
  let b := rotl32 (g.b ^^^ c) q
  ⟨a, b, c, d⟩

/-- G(seed, step, tensor, index): 128 bits. -/
def gen (seed step tensor index : Nat) : Nat :=
  let k0 := seed % 2 ^ 32
  let k1 := seed / 2 ^ 32 % 2 ^ 32
  let g := (List.range 8).foldl (genRound k0 k1)
    ⟨index % 2 ^ 32, tensor % 2 ^ 32, step % 2 ^ 32, step / 2 ^ 32 % 2 ^ 32⟩
  g.a + g.b * 2 ^ 32 + g.c * 2 ^ 64 + g.d * 2 ^ 96

/-- The key of a conversion: how it rounds, and the generator's seed, step and tensor (R59, R63). -/
structure ConvKey where
  stoch : Bool := false
  seed : Nat := 0
  step : Nat := 0
  tensor : Nat := 0

def ConvKey.r (k : ConvKey) (index : Nat) : Nat := gen k.seed k.step k.tensor index % 2 ^ 16

/-! ## Conversion (R59–R63) -/

/-- An encoded element with the flags its conversion sets. -/
structure Conv where
  bits : Nat
  sat : Bool := false
  nonfinite : Bool := false

/-- The multiple of 2^q that the magnitude m × 2^e rounds to: nearest even, or by the generator (R59, R63). -/
def roundMag (k : ConvKey) (index m : Nat) (e q : Int) : Nat :=
  if k.stoch then
    let fl := shiftNat m (e - q)
    let t := shiftNat m (e - q + 16) - fl * 2 ^ 16
    if t + k.r index ≥ 2 ^ 16 then fl + 1 else fl
  else rne m (e - q)

/-- Rounds a finite value to a target code; the value is already divided by its block's scale (R60–R62). -/
def convFinite (c : Nat) (k : ConvKey) (index : Nat) (neg : Bool) (m : Nat) (e : Int) : Conv :=
  match codeFp c with
  | some f =>
    if m = 0 then { bits := f.signBit neg }
    else
      let q := f.ulp m e
      let mag := f.encodeMag (roundMag k index m e q) q
      if mag > f.maxMag then
        (if c = 8 || c = 9 || c = 10 then { bits := f.infBits neg } else { bits := f.signBit neg + f.maxMag, sat := true })
      else { bits := f.signBit neg + mag }
  | none =>
    let q : Int := if c = 7 then -6 else 0
    let w := codeBits c
    let mag := if m = 0 then 0 else roundMag k index m e q
    let hi := 2 ^ (w - 1) - 1
    if neg then
      (if mag > hi + 1 then { bits := hi + 1, sat := true } else { bits := (2 ^ w - mag) % 2 ^ w })
    else if mag > hi then { bits := hi, sat := true } else { bits := mag }

/-- A plain conversion of one value (R61, R62). -/
def convPlain (c : Nat) (k : ConvKey) (index : Nat) (v : Val) : Conv :=
  match v with
  | .fin s m e => convFinite c k index s m e
  | .inf s =>
    (match c with
     | 2 => { bits := 0x7F }
     | 4 => { bits := if s then 0x80 else 0x7F, nonfinite := true }
     | _ => match codeFp c with | some f => { bits := f.infBits s } | none => { bits := 0 })
  | .nan =>
    (match codeFp c with
     | some f => { bits := f.canonNan }
     | none => { bits := 0, nonfinite := true })

/-- e of R60: the exponent of the largest element binade. -/
def blockTopE (c : Nat) : Int :=
  match c with
  | 5 => 8
  | 6 => 15
  | 7 => 0
  | _ => 2

/-- A converted block: scale byte, element encodings, flags. -/
structure ConvBlock where
  scale : Nat
  elems : List Nat
  sat : Bool := false
  nonfinite : Bool := false

/-- Converts one block of 32 values to a blocked format (R60, R61). `ix` gives the generator index of an element. -/
def convBlockAt (c : Nat) (k : ConvKey) (ix : Nat → Nat) (vs : List Val) : ConvBlock :=
  if vs.any (fun v => match v with | .fin _ _ _ => false | _ => true) then
    { scale := 0xFF, elems := vs.map fun _ => 0, nonfinite := true }
  else
    let tops := vs.filterMap fun v => match v with
      | .fin _ m e => if m = 0 then none else some (e + log2 m)
      | _ => none
    match tops with
    | [] => { scale := 0, elems := vs.map fun _ => 0 }
    | t :: ts =>
      let x := ts.foldl max t - blockTopE c
      let s := (max 0 (min 254 (x + 127))).toNat
      let cs := vs.zipIdx.map fun (v, i) => match v with
        | .fin n m e => convFinite c k (ix i) n m (e - ((s : Int) - 127))
        | _ => { bits := 0 }
      { scale := s, elems := cs.map (·.bits), sat := cs.any (·.sat) }

/-- The same where the elements follow one another from `index`. -/
def convBlock (c : Nat) (k : ConvKey) (index : Nat) (vs : List Val) : ConvBlock := convBlockAt c k (index + ·) vs

/-! ## Leaving the grid (R55) -/

/-- The FP32 result of an accumulator under anchor A, with the flags of R52 that read-out adds. -/
def readOut (a : Int) (c : Accu) : Nat × TFlags :=
  let past := c.q > winMax || c.q < winMin
  let q := if c.q > winMax then winMax else if c.q < winMin then winMin else c.q
  let fl : TFlags := { low := c.low, ovf := c.ovf || past, nan := c.nan || (c.pinf && c.ninf), inf := c.pinf != c.ninf }
  if fl.nan then (nan32, fl)
  else if c.pinf then (inf32 false, fl)
  else if c.ninf then (inf32 true, fl)
  else if q = 0 then (0, fl)
  else
    let r := round32 (q < 0) q.natAbs (a - 64)
    let mag := r.bits % 2 ^ 31
    (r.bits, { fl with f32Ovf := mag = 0x7F800000, f32Unf := mag < 0x800000 })

/-! ## Element planes (R44) -/

/-- Element `i` of packed bytes of a format. -/
def elemAt (c : Nat) (bytes : List Byte) (i : Nat) : Nat :=
  match codeBits c with
  | 4 => let b := (bytes.getD (i / 2) 0).toNat; if i % 2 = 0 then b % 16 else b / 16
  | 8 => (bytes.getD i 0).toNat
  | 16 => leNat ((bytes.drop (2 * i)).take 2)
  | _ => leNat ((bytes.drop (4 * i)).take 4)

/-- All elements of packed bytes. -/
def unpackElems (c : Nat) : List Byte → List Nat
  | [] => []
  | b :: r =>
    if codeBits c = 4 then b.toNat % 16 :: b.toNat / 16 :: unpackElems c r
    else if codeBits c = 8 then b.toNat :: unpackElems c r
    else []

/-- Elements of 16 or 32 bits. -/
def unpackWide (w : Nat) (n : Nat) (l : List Byte) : List Nat := (List.range n).map fun i => leNat ((l.drop (w * i)).take w)

/-- `n` elements of a format from packed bytes. -/
def elems (c n : Nat) (l : List Byte) : List Nat :=
  if codeBits c ≤ 8 then (unpackElems c l).take n else unpackWide (codeBits c / 8) n l

def packNibbles : List Nat → List Byte
  | a :: b :: r => BitVec.ofNat 8 (a % 16 + 16 * (b % 16)) :: packNibbles r
  | [a] => [BitVec.ofNat 8 (a % 16)]
  | [] => []

/-- Packs element encodings of a format. -/
def packElems (c : Nat) (l : List Nat) : List Byte :=
  match codeBits c with
  | 4 => packNibbles l
  | 8 => l.map (BitVec.ofNat 8)
  | 16 => (l.map (natLE 2)).flatten
  | _ => (l.map (natLE 4)).flatten

/-- Bytes of `n` elements. -/
def elemBytes (c n : Nat) : Nat := n * codeBits c / 8

/-- Cuts a list into runs of k. -/
def chunks {α : Type} (k : Nat) : Nat → List α → List (List α)
  | 0, _ => []
  | n + 1, l => if l.isEmpty then [] else l.take k :: chunks k n (l.drop k)

/-- The values of a row of elements under its scale bytes, one per 32 elements. -/
def rowVals (c : Nat) (es : List Nat) (scales : List Byte) : List Val :=
  es.zipIdx.map fun (x, i) => decodeElem c x (if codeBlocked c then (scales.getD (i / 32) 0).toNat else 0x7F)

/-- A row of converted elements: packed elements, scale bytes and flags. -/
structure ConvRow where
  elems : List Byte
  scales : List Byte
  sat : Bool := false
  nonfinite : Bool := false

/-- Converts a row of values to a format, blocks along the row (R59–R62). A short last block is padded with zeros (R44). -/
def convRow (c : Nat) (k : ConvKey) (index : Nat) (vs : List Val) : ConvRow :=
  if codeBlocked c then
    let n := (vs.length + 31) / 32
    let pad := vs ++ List.replicate (32 * n - vs.length) (.fin false 0 0)
    let bs := (chunks 32 n pad).zipIdx.map fun (b, i) => convBlock c k (index + 32 * i) b
    { elems := packElems c (bs.map (·.elems)).flatten, scales := bs.map fun b => BitVec.ofNat 8 b.scale,
      sat := bs.any (·.sat), nonfinite := bs.any (·.nonfinite) }
  else
    let cs := vs.zipIdx.map fun (v, i) => convPlain c k (index + i) v
    { elems := packElems c (cs.map (·.bits)), scales := [], sat := cs.any (·.sat), nonfinite := cs.any (·.nonfinite) }

end Sys2Proof.Machine
end

