-- ==== Sys2Proof/Machine/Operands.lean ====
section
/-! DEFINITION. The operand forms: fields of start-queue entries, task descriptors, stream descriptors (R100, R108,
R111, R135), the local address map (R138) and the byte layout of the operand planes. -/

namespace Sys2Proof.Machine

/-- Bits hi to lo of the word at byte offset `o` of a descriptor. -/
def fld (b : List Byte) (o hi lo : Nat) : Nat := bitsOf (wordAt b o) hi lo

/-- The given bit ranges of a word are all zero. -/
def zeroBits (b : List Byte) (o : Nat) (rs : List (Nat × Nat)) : Bool := rs.all fun r => fld b o r.1 r.2 = 0

/-! ## Start queue entries (R100) -/

def sqOp (b : List Byte) : Nat := fld b 0 31 24
def sqTctx (b : List Byte) : Nat := fld b 0 19 18
def sqCount (b : List Byte) : Nat := fld b 0 16 12
def sqBase (b : List Byte) : Nat := fld b 0 11 8
def sqCtx (b : List Byte) : Nat := fld b 0 7 5
def sqList (b : List Byte) : Nat := dwordAt b 4
def sqTasks (b : List Byte) : Nat := wordAt b 0xC
def sqCq (b : List Byte) : Nat := dwordAt b 0x10
def sqTmo (b : List Byte) : Nat := wordAt b 0x18

/-- A START entry without a reserved value (R22, R101). -/
def sqFieldsOk (b : List Byte) : Bool :=
  zeroBits b 0 [(23, 20), (17, 17), (4, 0)] && sqCount b ≤ 16 && sqTasks b ≠ 0 && wordAt b 0x1C = 0

/-! ## Task descriptors (R108–R111) -/

def tdOp (b : List Byte) : Nat := fld b 0 31 24
def tdPack (b : List Byte) : Nat := fld b 0 23 22
def tdSwapped (b : List Byte) : Bool := fld b 0 21 21 = 1
def tdZ4 (b : List Byte) : Bool := fld b 0 20 20 = 1
def tdChain (b : List Byte) : Bool := fld b 0 19 19 = 1
def tdExplicit (b : List Byte) : Bool := fld b 0 18 18 = 1
def tdRound (b : List Byte) : Bool := fld b 0 17 17 = 1
def tdTmoArm (b : List Byte) : Bool := fld b 0 16 16 = 1
def tdYield (b : List Byte) : Bool := fld b 0 15 15 = 1
def tdNotify (b : List Byte) : Bool := fld b 0 14 14 = 1
def tdAnchor (b : List Byte) : Nat := fld b 0 9 0
def tdX (b : List Byte) : Nat := fld b 4 31 28
def tdW (b : List Byte) : Nat := fld b 4 27 24
def tdY (b : List Byte) : Nat := fld b 4 23 20
def tdXAcc (b : List Byte) : Nat := fld b 4 19 18
def tdXFeed (b : List Byte) : Bool := fld b 4 17 17 = 1
def tdXStream (b : List Byte) : Nat := fld b 4 16 15
def tdYStreamed (b : List Byte) : Bool := fld b 4 14 14 = 1
def tdYStream (b : List Byte) : Nat := fld b 4 13 13
def tdUse (b : List Byte) : Nat := fld b 8 31 16
def tdLoad (b : List Byte) : Nat := fld b 8 15 0
def tdWSS (b : List Byte) : Nat := fld b 0xC 29 16
def tdWS (b : List Byte) : Nat := fld b 0xC 13 0
def tdXPitch (b : List Byte) : Nat := fld b 0x18 31 16
def tdRows (b : List Byte) : Nat := fld b 0x18 15 0
def tdYPitch (b : List Byte) : Nat := fld b 0x1C 31 16
def tdSubtab (b : List Byte) : Nat := fld b 0x20 13 0
def tdTensor (b : List Byte) : Nat := wordAt b 0x24
def tdElemBase (b : List Byte) : Nat := wordAt b 0x28
def tdUser (b : List Byte) : Nat := wordAt b 0x38

/-- The set bits of a 16-bit mask, ascending. -/
def maskBits (m : Nat) : List Nat := (List.range 16).filter fun e => bitsOf m e e = 1

/-- The class of a task: 0 4-bit, 1 8-bit, 2 16-bit, the wider of its two operands (R64, R68). -/
def tdClass (b : List Byte) : Nat :=
  let w := max (codeBits (tdX b)) (codeBits (tdW b))
  if w = 4 then 0 else if w = 8 then 1 else 2

/-- The side of a sub-grid and the number of sub-grids along one edge (R81). -/
def tdSide (b : List Byte) : Nat := 128 / 2 ^ tdPack b
def tdEdge (b : List Byte) : Nat := 2 ^ tdPack b

/-- Rows of a row group (R81). -/
def tdGroup (b : List Byte) : Nat :=
  let g := 256 / 2 ^ tdPack b
  if tdSwapped b && tdClass b = 0 then g / 2 else g

/-- Entries, or pairs in the 4-bit class, that a task uses, each as its list of entries (R68). -/
def tdUnits (b : List Byte) : List (List Nat) :=
  if tdClass b = 0 then ((List.range 8).filter fun j => bitsOf (tdUse b) (2 * j) (2 * j) = 1).map fun j => [2 * j, 2 * j + 1]
  else (maskBits (tdUse b)).map fun e => [e]

/-- One grid or sub-grid of a task: its place and its operand fields (R111). -/
structure Sub where
  i : Nat
  j : Nat
  xss : Nat
  xs : Nat
  yss : Nat
  ys : Nat
  anchor : Nat
  rows : Nat
deriving DecidableEq, Repr

/-- The sub-grids of a task, in record order; one for an unpacked grid. `tab` is the sub-grid table. -/
def tdSubs (b tab : List Byte) : List Sub :=
  if tdPack b = 0 then
    [⟨0, 0, fld b 0x10 29 16, fld b 0x10 13 0, fld b 0x14 29 16, fld b 0x14 13 0, tdAnchor b, tdRows b⟩]
  else
    (List.range (tdEdge b * tdEdge b)).map fun k =>
      let r := (tab.drop (16 * k)).take 16
      ⟨k / tdEdge b, k % tdEdge b, fld r 0 29 16, fld r 0 13 0, fld r 4 29 16, fld r 4 13 0, fld r 8 25 16, fld r 8 15 0⟩

/-- Elements of a streamed row and of an output row (R111). -/
def tdXLen (b : List Byte) : Nat := if tdSwapped b then tdSide b else tdSide b * (maskBits (tdUse b)).length
def tdYLen (b : List Byte) : Nat := if tdSwapped b then tdSide b * (maskBits (tdUse b)).length else tdSide b

/-- Row groups of a task: batches of rows, and in swapped mode one group for each entry or pair within a batch, since
one entry's outputs fill a half (R72, R73, R80). DEDUCED, log entry 12. -/
def tdBatches (b : List Byte) (subs : List Sub) : Nat :=
  (subs.foldl (fun m s => max m s.rows) 0 + tdGroup b - 1) / tdGroup b
def tdGroups (b : List Byte) (subs : List Sub) : Nat :=
  if tdSwapped b then tdBatches b subs * (tdUnits b).length else tdBatches b subs

/-- The rows and the units (entries or pairs) of row group `g`. -/
def tdBatchOf (b : List Byte) (g : Nat) : Nat := if tdSwapped b then g / (tdUnits b).length else g
def tdUnitsOf (b : List Byte) (g : Nat) : List (List Nat) :=
  if tdSwapped b then ((tdUnits b)[g % (tdUnits b).length]?).toList else tdUnits b

/-- Rows of a sub-grid in a batch. -/
def subRows (b : List Byte) (s : Sub) (batch : Nat) : List Nat :=
  (List.range (min (tdGroup b) (s.rows - batch * tdGroup b))).map (· + batch * tdGroup b)

/-- Slots that the bytes [lo, lo + n) of a scratchpad touch. -/
def slotsOf (lo n : Nat) : List Nat := if n = 0 then [] else (List.range ((lo + n - 1) / 256 - lo / 256 + 1)).map (· + lo / 256)

/-- A list without repeats, ascending. -/
def sortedSet (l : List Nat) : List Nat := (l.foldl (fun m n => mapInsert m n ()) ([] : SMap Unit)).map (·.1)

/-- Byte ranges of row `t` of the streamed and the output planes (R111). -/
def xRange (b : List Byte) (s : Sub) (t : Nat) : Nat × Nat := (s.xs * 256 + t * tdXPitch b * 16, elemBytes (tdX b) (tdXLen b))
def xsRange (b : List Byte) (s : Sub) (t : Nat) : Nat × Nat :=
  if codeBlocked (tdX b) then (s.xss * 256 + t * tdXPitch b * 16 / blockBytes (tdX b), tdXLen b / 32) else (0, 0)
def yRange (b : List Byte) (s : Sub) (t : Nat) : Nat × Nat := (s.ys * 256 + t * tdYPitch b * 16, elemBytes (tdY b) (tdYLen b))
def ysRange (b : List Byte) (s : Sub) (t : Nat) : Nat × Nat :=
  if codeBlocked (tdY b) then (s.yss * 256 + t * tdYPitch b * 16 / blockBytes (tdY b), tdYLen b / 32) else (0, 0)

def rangeSlots (rs : List (Nat × Nat)) : List Nat := sortedSet (rs.map fun r => slotsOf r.1 r.2).flatten

/-- Slots that a task's rows read as streamed operand, for one batch. -/
def xSlots (b : List Byte) (subs : List Sub) (batch : Nat) : List Nat :=
  if tdXFeed b then []
  else rangeSlots (subs.map fun s => ((subRows b s batch).map fun t => [xRange b s t, xsRange b s t]).flatten).flatten

/-- Slots that a batch's output rows cover. -/
def ySlots (b : List Byte) (subs : List Sub) (batch : Nat) : List Nat :=
  if tdYStreamed b then []
  else rangeSlots (subs.map fun s => ((subRows b s batch).map fun t => [yRange b s t, ysRange b s t]).flatten).flatten

/-- Element and scale slots of the k-th loaded entry (R111). -/
def entryElems (fmt ws k : Nat) : List Nat :=
  let n := if codeBits fmt = 4 then 32 else if codeBits fmt = 8 then 64 else 128
  (List.range n).map (· + (ws + k * n))
def entryScales (fmt wss k : Nat) : List Nat := if codeBlocked fmt then (List.range 2).map (· + (wss + 2 * k)) else []
def entrySlots (fmt ws wss k : Nat) : List Nat := entryElems fmt ws k ++ entryScales fmt wss k

/-- The entries a task loads, each with its ordinal k. -/
def tdLoads (b : List Byte) : List (Nat × Nat) := (maskBits (tdLoad b)).zipIdx

/-! ## Stream descriptors (R135) -/

def sdOp (b : List Byte) : Nat := fld b 0 31 24
def sdTctx (b : List Byte) : Nat := fld b 0 23 22
def sdAcc (b : List Byte) : Nat := fld b 0 21 20
def sdGate (b : List Byte) : Nat := fld b 0 19 18
def sdAfter (b : List Byte) : Bool := fld b 0 17 17 = 1
def sdComplete (b : List Byte) : Bool := fld b 0 16 16 = 1
def sdCodec (b : List Byte) : Nat := fld b 0 15 14
def sdRound (b : List Byte) : Bool := fld b 0 13 13 = 1
def sdPrism (b : List Byte) : Nat := fld b 0 12 10
def sdIdx16 (b : List Byte) : Bool := fld b 0 9 9 = 1
def sdTclass (b : List Byte) : Nat := fld b 0 8 7
def sdElem (b : List Byte) : Nat := 2 ^ fld b 0 6 3
def sdGateSlot (b : List Byte) : Nat := fld b 4 29 16
def sdSlot (b : List Byte) : Nat := fld b 4 13 0
def sdMem (b : List Byte) : Nat := dwordAt b 8
def sdLen (b : List Byte) : Nat := wordAt b 0x10
def sdTilePitch (b : List Byte) : Nat := fld b 0x14 31 16 * 16
def sdRows (b : List Byte) : Nat := fld b 0x14 15 0
def sdMemPitch (b : List Byte) : Nat := wordAt b 0x18
def sdLimit (b : List Byte) : Nat := wordAt b 0x1C
def sdIdxAddr (b : List Byte) : Nat := dwordAt b 0x20
def sdGen (b : List Byte) : Nat := fld b 0x28 15 0
def sdTensor (b : List Byte) : Nat := wordAt b 0x2C
def sdCq (b : List Byte) : Nat := dwordAt b 0x30
def sdUser (b : List Byte) : Nat := wordAt b 0x38
def sdElemBase (b : List Byte) : Nat := wordAt b 0x3C

/-! ## The local map (R138) -/

/-- What a global address names. -/
inductive Place where
  | hbm (d h : Nat)
  | scr (d t off : Nat)
  | remote
  | refused
deriving DecidableEq, Repr

/-- Reads a global address as a stream does (R138): own package by the fixed map, else remote; a package with no
valid ID reaches no other. -/
def placeOf (s : State) (ga : Nat) : Place :=
  let win := bitsOf ga 44 37
  let d := bitsOf ga 47 45
  let off := bitsOf ga 36 0
  if bitsOf ga 63 48 ≠ pkgId s then (if regF s (aFab 0 0) 31 31 = 1 then .remote else .refused)
  else if win < 0x28 then (if win < tilesPerDie s && off < scrSize then .scr d win off else .refused)
  else if win < 0x40 then .refused
  else
    let h := 2 ^ 37 * (win - 0x40) + off
    if h < hbmBytesPerDie then .hbm d h else .refused

/-- Package, die of a global address (R10). -/
def gaPkg (ga : Nat) : Nat := bitsOf ga 63 48

/-- Where a run of n bytes lies, all of it in one place. -/
def placeRun (s : State) (ga n : Nat) : Place :=
  match placeOf s ga, placeOf s (ga + n - 1) with
  | .hbm d h, .hbm d' h' => if d = d' && h' = h + n - 1 then .hbm d h else .refused
  | .scr d t o, .scr d' t' o' => if d = d' && t = t' && o' = o + n - 1 then .scr d t o else .refused
  | .remote, .remote => if gaPkg ga = gaPkg (ga + n - 1) then .remote else .refused
  | _, _ => .refused

/-- The engine clock's cycle, 1.1 GHz (R11). DESIGN CHOICE, log entry 5: every island counts from reset in phase. -/
def cycleOf (s : State) : Nat := s.clk.t * 11 / 10

/-- The HBM controller's cycle, 1.25 GHz (R224). -/
def ctrlCycle (s : State) : Nat := s.clk.t * 5 / 4

/-- A context's step counter (R303). -/
def stepOf (s : State) (x : Nat) : Nat := mapGet 0 s.clk.steps x

def seedOf (s : State) (x : Nat) : Nat := reg64 s (aGct 0 (0x108 + 0x20 * x))

/-- The conversion key of a context's unit (R63). -/
def convKey (s : State) (x : Nat) (stoch : Bool) (tensor : Nat) : ConvKey :=
  { stoch, seed := seedOf s x, step := stepOf s x, tensor }

end Sys2Proof.Machine
end

