-- ==== Sys2Proof/Machine/Tags.lean ====
section
/-! DEFINITION. Scratchpad tags and regions (R116–R123), claims and their undoing (R107), task records (R113), and the
shared ends of tile and stream work that a halt, a fence or an abort brings about (R92, R102, R140–R142). -/

namespace Sys2Proof.Machine

/-! ## Tiles -/

def getTile (s : State) (e : Nat) : TileS := mapGet {} s.tiles e
def setTile (e : Nat) (x : TileS) (s : State) : State := { s with tiles := mapSet {} s.tiles e x }
def modTile (e : Nat) (f : TileS → TileS) (s : State) : State := setTile e (f (getTile s e)) s

def getTctx (s : State) (e n : Nat) : TaskCtx := mapGet {} (getTile s e).tctx n
def setTctx (e n : Nat) (x : TaskCtx) (s : State) : State := modTile e (fun t => { t with tctx := mapSet {} t.tctx n x }) s
def modTctx (e n : Nat) (f : TaskCtx → TaskCtx) (s : State) : State := setTctx e n (f (getTctx s e n)) s

def getStream (s : State) (e q : Nat) : StreamS := mapGet {} (getTile s e).streams q
def setStream (e q : Nat) (x : StreamS) (s : State) : State := modTile e (fun t => { t with streams := mapSet {} t.streams q x }) s
def modStream (e q : Nat) (f : StreamS → StreamS) (s : State) : State := setStream e q (f (getStream s e q)) s

def getEntry (s : State) (e i : Nat) : Entry := mapGet {} (getTile s e).entries i
def setEntry (e i : Nat) (x : Entry) (s : State) : State := modTile e (fun t => { t with entries := mapSet {} t.entries i x }) s

def getTag (s : State) (e slot : Nat) : Tag := mapGet {} (getTile s e).tags slot

/-- A tag with what it was before the cycle of its last change (R123). -/
def stampTag (now : Nat) (old x : Tag) : Tag :=
  if old.chg = now + 1 then { x with chg := now + 1, pst := old.pst, pholds := old.pholds }
  else { x with chg := now + 1, pst := old.st, pholds := old.holds }

/-- Every change of a tag. -/
def setTag (e slot : Nat) (x : Tag) (s : State) : State :=
  modTile e (fun t => { t with tags := mapSet {} t.tags slot (stampTag (cycleOf s) (getTag s e slot) x) }) s

/-! ## Regions (R116) -/

/-- The valid region that holds a slot: its number and whether it is tagged. -/
def regionOf (s : State) (e slot : Nat) : Option (Nat × Bool) :=
  let d := e / 40
  let t := e % 40
  ((List.range 16).find? fun n =>
    let a := aTil d t (0x100 + 4 * n)
    regF s a 31 31 = 1 && regF s a 13 0 ≤ slot && slot < regF s a 13 0 + regF s a 29 16).map fun n =>
      (n, regF s (aTil d t (0x100 + 4 * n)) 30 30 = 1)

def isTagged (s : State) (e slot : Nat) : Bool := match regionOf s e slot with | some (_, b) => b | none => false

/-- A set of slots lies below slot 12,276 and within one region; the slots in no region count as one (R112). -/
def oneRegion (s : State) (e : Nat) (l : List Nat) : Bool :=
  match l with
  | [] => true
  | a :: r => (a :: r).all fun x => x < 12276 && (regionOf s e x).map (·.1) = (regionOf s e a).map (·.1)

/-! ## The tag table (R121) -/

/-- The access proceeds in this state. -/
def claimOk (g : Tag) : ClaimKind → Bool
  | .peek | .source => (g.st = 2 || g.st = 3) && g.holds < 15
  | .consume => g.st = 2
  | .fill => g.st = 0 && g.holds = 0

/-- The change a claim makes. -/
def claimTag (g : Tag) : ClaimKind → Tag
  | .peek | .source => { g with holds := g.holds + 1 }
  | .consume => { g with st := 3 }
  | .fill => { g with st := 1 }

/-- The change at the end of the access. -/
def endTag (g : Tag) : ClaimKind → Tag
  | .peek => { g with holds := g.holds - 1 }
  | .source => g
  | .consume => { g with st := 0 }
  | .fill => { g with st := 2 }

/-- Undoing a claim (R107). -/
def undoTag (g : Tag) : ClaimKind → Tag
  | .peek | .source => { g with holds := g.holds - 1 }
  | .consume => { g with st := 2 }
  | .fill => { g with st := 0 }

/-- KIND of TIL_TCTXn_BLOCK for a blocked access: 1 where the hold count blocks, else 0. -/
def blockKind (g : Tag) : ClaimKind → Nat
  | .fill => if g.st = 0 && g.holds > 0 then 1 else 0
  | .peek | .source => if (g.st = 2 || g.st = 3) && g.holds ≥ 15 then 1 else 0
  | .consume => 0

/-- The tag as an evaluation at this edge sees it (R123). -/
def seenTag (s : State) (e slot : Nat) : Tag :=
  let g := getTag s e slot
  if g.chg = cycleOf s + 1 then { g with st := g.pst, holds := g.pholds } else g

/-- The slot can be claimed at this edge: its state before the edge lets the access proceed, and no other claim of it was
made at the edge (R121, R123). -/
def claimable (s : State) (e slot : Nat) (k : ClaimKind) : Bool :=
  claimOk (seenTag s e slot) k && (getTag s e slot).clm ≠ cycleOf s + 1

def doClaim (e : Nat) (c : Claim) (s : State) : State :=
  setTag e c.slot { claimTag (getTag s e c.slot) c.kind with clm := cycleOf s + 1 } s
def endClaim (e : Nat) (c : Claim) (s : State) : State := setTag e c.slot (endTag (getTag s e c.slot) c.kind) s
def undoClaim (e : Nat) (c : Claim) (s : State) : State := setTag e c.slot (undoTag (getTag s e c.slot) c.kind) s

def doClaims (e : Nat) (cs : List Claim) (s : State) : State := cs.foldl (fun s c => doClaim e c s) s
def endClaims (e : Nat) (cs : List Claim) (s : State) : State := cs.foldl (fun s c => endClaim e c s) s
def undoClaims (e : Nat) (cs : List Claim) (s : State) : State := cs.foldl (fun s c => undoClaim e c s) s

/-- A FILL, a CONSUME or a PEEK that begins and ends at this edge. -/
def fillNow (e slot : Nat) (s : State) : State := endClaim e ⟨slot, .fill⟩ (doClaim e ⟨slot, .fill⟩ s)
def consumeNow (e slot : Nat) (s : State) : State := endClaim e ⟨slot, .consume⟩ (doClaim e ⟨slot, .consume⟩ s)
def peekNow (e slot : Nat) (s : State) : State := endClaim e ⟨slot, .peek⟩ (doClaim e ⟨slot, .peek⟩ s)

/-! ## Writes by global address -/

/-- Writes bytes at a global address of this package; a scratchpad's tags stay as they are. A write to any other place
goes nowhere (log entry 40). -/
def writeGa (a : Agent) (ga : Nat) (b : List Byte) (s : State) (ctx : Option Nat := none) : State :=
  match placeOf s ga with
  | .hbm d h => hbmWrite a d h b s ctx
  | .scr d t o => writeScr (engine d t) o b s
  | _ => s

def agSeq (e : Nat) : Agent := .sequencer (Fin.ofNat 8 (e / 40)) (Fin.ofNat 40 (e % 40))
def agStream (e q : Nat) : Agent := .stream (Fin.ofNat 8 (e / 40)) (Fin.ofNat 40 (e % 40)) (Fin.ofNat 6 q)

/-! ## Task records and undoing (R107, R113) -/

/-- The 16 bytes of a task completion record. -/
def taskRecord (n : Nat) (reexec : Bool) (flags status index user tick : Nat) : List Byte :=
  wordsLE [n * 2 ^ 24 + bit reexec 16 + flags * 2 ^ 8 + status, index, user, tick]

/-- USER of a record that has no descriptor to take it from: a free value (log entry 97). -/
def unreadUser (s : State) : Nat × State :=
  let (k, s) := freshNo s
  ((Config.unreadUser k).toNat, s)

/-- A descriptor that was not read, as its record shows it. -/
def unreadDesc (s : State) : List Byte × State :=
  let (u, s) := unreadUser s
  (List.replicate 56 0 ++ wordsLE [u, 0], s)

/-- The record of a start that is refused or dropped (R101, R302). -/
def putStartRecord (e n ctx cq status : Nat) (s : State) : State :=
  let (u, s) := unreadUser s
  writeGa (agSeq e) (cq / 16 * 16) (taskRecord n false 0 status 0xFFFFFFFF u 0) s (some ctx)

/-- TASK_NOTIFY of a task whose record is written (R108). -/
def notifyTask (e n : Nat) (r : Run) (s : State) : State :=
  if tdNotify r.desc then
    raise { die := e / 40, code := 0x0101, ctx := some (getTctx s e n).ctx, p0 := e, p1 := n, p2 := r.index, p3 := tdUser r.desc } s
  else s

/-- Writes the record of a run that ends with a status; `tick` is 0 where it did not commit. -/
def putRecord (e n : Nat) (r : Run) (flags status tick : Nat) (s : State) : State :=
  notifyTask e n r (writeGa (agSeq e) (r.cq + 16 * r.index) (taskRecord n r.reexec flags status r.index (tdUser r.desc) tick)
    (modTctx e n (fun x => { x with lastStatus := status }) s) (some (getTctx s e n).ctx))

/-- The holds of an entry on its source slots are released. -/
def unholdEntry (e : Nat) (x : Entry) (s : State) : State := undoClaims e (x.holds.map fun h => ⟨h, .source⟩) s

/-- An entry becomes invalid and its holds are released (R79), with what a re-execution put aside of it. Vectors on their
way still keep a load off it (R78). -/
def dropEntry (e i : Nat) (s : State) : State :=
  let x := getEntry s e i
  let s := unholdEntry e (mapGet {} (getTile s e).shelf i) (unholdEntry e x s)
  setEntry e i { useEnd := x.useEnd } (modTile e (fun t => { t with shelf := mapErase t.shelf i }) s)

def dropEntries (e : Nat) (l : List Nat) (s : State) : State := l.foldl (fun s i => dropEntry e i s) s

/-- Entries that a task context owns and that hold something. -/
def ownedEntries (s : State) (e n : Nat) : List Nat :=
  (List.range 16).filter fun i => (getEntry s e i).st ≠ 0 && (getEntry s e i).owner = n

/-- The grid is taken from a task context; vectors that have not issued do not. -/
def freeGrid (e n : Nat) (s : State) : State :=
  let now := cycleOf s
  modTile e (fun t => if t.cur = some n then { t with cur := none, streaming := false, endAt := if t.streaming then min t.endAt now else t.endAt } else t) s

/-! ## Streams: claims and their records (R132, R137, R140–R142) -/

/-- The claim that a stream makes of its tile-side slots; none for untagged, FEED and GRID sides (R137). -/
def sdKind (q : Nat) (b : List Byte) : Option ClaimKind :=
  if q < 4 then (if sdAcc b = 1 then some .fill else none)
  else if sdAcc b = 1 then some .peek else if sdAcc b = 2 then some .consume else none

/-- A stream completion record (R140). -/
def streamRecord (q status cause seq : Nat) (b : List Byte) (tick : Nat) : List Byte :=
  wordsLE [cause * 2 ^ 16 + sdTctx b * 2 ^ 12 + q * 2 ^ 8 + status, seq, sdUser b, tick]

def putStreamRecord (e q status cause : Nat) (x : SDesc) (s : State) : State :=
  if sdComplete x.bytes && !x.replay then
    writeGa (agStream e q) (sdCq x.bytes) (streamRecord q status cause x.seq x.bytes s.clk.count) s (some (getTctx s e (sdTctx x.bytes)).ctx)
  else s

/-- The slot that holds queue slot k of stream q (R132). -/
def queueSlot (q k : Nat) : Nat := 12276 + 2 * q + k

/-- Queue slots all of whose descriptors have ended are consumed (R132, R142). -/
def tidyStream (e q : Nat) (s : State) : State :=
  let st := getStream s e q
  let done := st.slots.filter fun k => !st.q.any fun x => x.qslot == k && !x.replay && !x.ended
  let s := endClaims e (done.map fun k => ⟨queueSlot q k, .consume⟩) s
  setStream e q { st with slots := st.slots.filter fun k => !done.contains k } s

/-- A grid task's input or output goes through stream q: a read stream (0–3) or a write stream (4, 5). -/
def usesStream (q : Nat) (r : Run) : Bool :=
  tdOp r.desc = 1 && if q < 4 then tdXFeed r.desc && tdXStream r.desc = q else tdYStreamed r.desc && tdYStream r.desc = q - 4

/-- A task of the context has output for write stream q that no GRID descriptor has taken yet. -/
def sendsGrid (s : State) (e n q : Nat) (r : Run) : Bool :=
  usesStream q r && !tdChain r.desc && !(r.drained = r.groups && !(getTile s e).gridOut.any fun g => g.tctx = n && g.task = r.index)

/-- The GRID descriptors that a write stream has begun for a task context, each with the task whose output it takes: they take
the outputs in task-list order (R137). -/
def gridTakers (s : State) (e n q : Nat) : List (SDesc × Run) :=
  ((getStream s e q).q.filter fun x => x.begun && !x.ended && x.fail = 0 && sdAcc x.bytes = 3 && sdTctx x.bytes = n).zip
    ((getTctx s e n).runs.filter (sendsGrid s e n q))

/-- The GRID descriptors of tasks that are undone end ABORTED (R137). -/
def abortGridDescs (e n : Nat) (rs : List Run) (s : State) : State :=
  [4, 5].foldl (fun s q =>
    let gone := (gridTakers s e n q).filter fun p => rs.any (·.index == p.2.index)
    let s := gone.foldl (fun s p => putStreamRecord e q 4 0 p.1 s) s
    if gone.isEmpty then s
    else tidyStream e q (modStream e q (fun st => { st with q := gone.foldl (fun l p => l.erase p.1) st.q }) s)) s

/-! ## Undoing (R107) -/

/-- Undoes a run: claims, loads, accumulators, uncommitted outputs and its feed log (R107, R148). -/
def undoRun (e n : Nat) (r : Run) (s : State) : State :=
  let s := undoClaims e r.claims s
  let s := if r.loadsBegun then dropEntries e ((maskBits (tdLoad r.desc)).filter fun i => (getEntry s e i).owner = n) s else s
  freeGrid e n (modTile e (fun t =>
    { t with
      checks := t.checks.filter fun c => !(c.tctx == n && c.task == r.index)
      halves := t.halves.filter fun h => !(h.tctx == n && h.task == r.index)
      gridOut := t.gridOut.filter fun g => !(g.tctx == n && g.task == r.index)
      prism := t.prism.filter fun p => !(p.tctx == n && p.task == r.index) }) s)

/-- The task that runs now, or the tasks of the open chain (R107, R113). -/
def lastUnit (x : TaskCtx) : List Run :=
  match x.chain with
  | some (i, _) => x.runs.filter fun r => r.index ≥ i
  | none => (x.runs.getLast?).toList

/-- Ends runs without commit: each is undone and writes its record, with a status for each. -/
def endRunsBy (e n : Nat) (status : Run → Nat) (rs : List Run) (s : State) : State :=
  let s := rs.foldl (fun s r => putRecord e n r 0 (status r) 0 (undoRun e n r s)) (abortGridDescs e n rs s)
  modTctx e n (fun x => { x with
    runs := x.runs.filter (fun r => !rs.any (·.index == r.index))
    chain := none
    chainOn := false
    feedLog := x.feedLog.filter fun l => !rs.any (·.index == l.task) }) s

def endRuns (e n : Nat) (rs : List Run) (status : Nat) (s : State) : State := endRunsBy e n (fun _ => status) rs s

/-- A task context enters HALTED. -/
def haltedTctx (e n : Nat) (s : State) : State := modTctx e n (fun x => { x with st := 5, c0 := none, late := false, block := none, atEnd := false, halting := 0 }) s

/-- A task context becomes IDLE: its entries become invalid and its range is free (R102, R103); ENTRY_BASE and ENTRY_COUNT
then read 0 (DESIGN CHOICE, log entry 136). -/
def idleTctx (e n : Nat) (s : State) : State :=
  let s := dropEntries e (ownedEntries s e n) s
  let s := modTile e (fun t => if t.last = n then { t with lastOn := false } else t) s
  freeGrid e n (modTctx e n (fun x => { lastStatus := x.lastStatus, index := x.index, ctx := x.ctx }) s)

/-! ## Streams: ends and discards (R140–R142) -/

/-- Undoes the claims of a stream descriptor (R141). -/
def undoDesc (e q : Nat) (x : SDesc) (s : State) : State :=
  match sdKind q x.bytes with
  | some k => undoClaims e (x.inflight.map fun sl => ⟨sl, k⟩) s
  | none => s

/-- Discards the fetched descriptors of a task context (R142). -/
def discardStream (e n q : Nat) (s : State) : State :=
  let st := getStream s e q
  let gone := st.q.filter fun x => sdTctx x.bytes = n
  if gone.isEmpty then s
  else
    let s := gone.foldl (fun s x => if x.ended then s else putStreamRecord e q 4 0 x (undoDesc e q x s)) s
    let s := setStream e q { st with q := st.q.filter (fun x => sdTctx x.bytes ≠ n), halted := if st.halted = some n then none else st.halted } s
    tidyStream e q s

/-- The task whose descriptor is being read ends ABORTED (R102). -/
def abortFetch (e n : Nat) (s : State) : State :=
  let x := getTctx s e n
  let (b, s) := unreadDesc s
  putRecord e n { index := x.index, desc := b, cq := x.cq } 0 4 0 s

/-- HALT of a task context (R102, R142): its work is aborted and undone, its stream descriptors are discarded, and it
becomes IDLE. Uncommitted tasks behind the current one are aborted with it (DEDUCED, log entry 13). -/
def haltTctx (e n : Nat) (s : State) : State :=
  let x := getTctx s e n
  let s := if x.st = 0 then s else endRuns e n x.runs 4 s
  let s := if x.st = 1 && !x.atEnd then abortFetch e n s else s
  let s := (List.range 6).foldl (fun s q => discardStream e n q s) s
  if x.st = 0 then s else idleTctx e n s

/-- The run whose row groups the grid issues: the first with a row group not issued, else the last. -/
def curRun (x : TaskCtx) : Option Run :=
  match x.runs.find? fun r => r.issued < r.groups with
  | some r => some r
  | none => x.runs.getLast?

/-- The delivered FEED block of a run's next row group (R147). -/
def feedBlock (t : TileS) (n : Nat) (r : Run) : Option PBlock :=
  t.prism.find? fun p => p.stream == tdXStream r.desc && p.tctx == n && p.task == r.index && p.group == r.issued

/-- The tile's request for leave is held: its task context counts as READY, though it has the grid (R404). Its claims stand
meanwhile (DESIGN CHOICE, log entry 121). -/
def leaveHeld (s : State) (e : Nat) : Bool := (mapGet [] s.pwr.reqs (e / 40)).any fun q => q.tile = e % 40 && q.held

/-- A row group of the task context holds the grid and has all its streamed operand: it runs to its end (R75, R102). -/
def groupRuns (s : State) (e n : Nat) : Bool :=
  let t := getTile s e
  t.cur == some n && !leaveHeld s e && match curRun (getTctx s e n) with
    | some r => tdOp r.desc = 1 && !r.failed && r.issued < r.groups && (t.streaming || !tdXFeed r.desc || (feedBlock t n r).isSome)
    | none => false

/-- HALT by the entry at the head of the start queue (1) or by a job abort (2): it waits for the end of a row group that
runs (R102). -/
def haltWork (e n why : Nat) (s : State) : State :=
  if groupRuns s e n then modTctx e n (fun x => { x with halting := if x.halting = 1 then 1 else why }) s else haltTctx e n s

/-- Runs by task: each alone, or the tasks of a chain together. -/
def splitChains : List Run → List (List Run)
  | [] => []
  | r :: l => match splitChains l, tdChain r.desc with
    | c :: cs, true => (r :: c) :: cs
    | cs, _ => [r] :: cs

/-- The first task, or chain, that the stream feeds, and what runs after it (R141). -/
def fedUnits (q : Nat) (x : TaskCtx) : List (List Run) := (splitChains x.runs).dropWhile fun c => !c.any (usesStream q)

/-- Ends every task or chain that the stream feeds with STREAM_FAULT, and what else runs behind the first with ABORTED; the task
context halts (R141; DEDUCED, log entry 54). -/
def endFed (e q n : Nat) (s : State) : State :=
  let us := fedUnits q (getTctx s e n)
  let fed := (us.filter fun c => c.any (usesStream q)).flatten
  if us.isEmpty then s
  else haltedTctx e n (endRunsBy e n (fun r => if fed.any (·.index == r.index) then 7 else 4) us.flatten s)

/-- A stream halts at a descriptor that fails (R141): its claims are undone, the record is written, and STREAM_FAULT
is raised. Of every task context, the task that the stream feeds ends with STREAM_FAULT, whichever descriptor failed
(DEDUCED, log entry 107). -/
def streamFault (e q : Nat) (x : SDesc) (cause : Nat) (s : State) : State :=
  let st := getStream s e q
  let s := st.q.foldl (fun s y => undoDesc e q y s) s
  let s := putStreamRecord e q (if cause = 1 then 1 else 7) cause x s
  let s := modStream e q (fun st => { st with
    halted := some (sdTctx x.bytes)
    q := (st.q.map fun y => { y with todo := y.inflight ++ y.todo, inflight := [], ended := y.ended || y = x }) }) s
  let s := tidyStream e q s
  let n := sdTctx x.bytes
  let tx := getTctx s e n
  let s := (List.range 4).foldl (fun s k => endFed e q k s) s
  raise { die := e / 40, code := 0x0201, ctx := some tx.ctx, p0 := e, p1 := q + n * 16 + cause * 256, p2 := x.seq } s

/-! ## Fencing (R92) -/

/-- Fences a tile: every task context halts, its uncommitted work is undone, every entry becomes invalid. A task context that is
IDLE at the fence has nothing to halt and stays IDLE (DESIGN CHOICE, log entry 137). -/
def fenceTile (e n site : Nat) (desc : List Byte) (s : State) : State :=
  let d := e / 40
  let t := e % 40
  let s := (List.range 4).foldl (fun s k =>
    let x := getTctx s e k
    if x.st = 0 then s else haltedTctx e k (endRuns e k x.runs 5 s)) s
  let s := dropEntries e (List.range 16) s
  let s := (List.range 4).foldl (fun s k => freeGrid e k s) s
  let s := modTile e (fun t => { t with fenced := true, halves := [], checks := [] }) s
  let x := getTctx s e n
  let s := hwPut (aTil d t 0x810)
    (2 ^ 31 + site * 2 ^ 8 + bit (tdZ4 desc) 5 + tdPack desc * 2 ^ 3 + bit (tdSwapped desc) 2 + n) s
  let s := hwPut64 (aTil d t 0x818) (stepOf s x.ctx) s
  let st := stepOf s x.ctx
  raise { die := d, code := 0x0104, ctx := some x.ctx, p0 := e, p1 := n + site * 2 ^ 8, p2 := st, p3 := st / 2 ^ 32 } s

end Sys2Proof.Machine
end

