-- ==== Sys2Proof/Machine/Link.lean ====
section
/-! DEFINITION. The links of the Nalxia fabric: frames and their trailer (R245, R246), credits and rounds (R257–R259),
replay (R253), streams of messages (R254), routes (R262–R267), path failure (R256), and the sending of messages. -/

namespace Sys2Proof.Machine

/-! ## CRC-32 (R245) -/

/-- One byte through the reflected CRC-32 register. -/
def crcByte (c b : Nat) : Nat :=
  (List.range 8).foldl (fun x _ => if x % 2 = 1 then (x / 2) ^^^ 0xEDB88320 else x / 2) (c ^^^ b)

/-- The CRC-32 of IEEE 802.3. -/
def crc32 (l : List Byte) : Nat := (l.foldl (fun c b => crcByte c b.toNat) 0xFFFFFFFF) ^^^ 0xFFFFFFFF

/-! ## Messages -/

def grainsOf (m : Msg) : Nat := m.bytes.length / 64
def quartersOf (m : Msg) : Nat := (grainsOf m + 3) / 4

/-- Bytes padded with zeros to whole grains. -/
def padGrain (l : List Byte) : List Byte := l ++ List.replicate ((64 - l.length % 64) % 64) 0

/-- Word i of a message's first grain. -/
def headWord (m : Msg) (i : Nat) : Nat := wordAt m.bytes (4 * i)

/-- A control header grain (R248), with the fabric protocol version of this package. -/
def ctlGrain (cop grains job : Nat) (args : List Nat) : List Byte :=
  padGrain (wordsLE ([cop, 2 ^ 24 + grains * 2 ^ 8, job] ++ args))

/-- ARGi of a control message (R248). -/
def ctlArg (m : Msg) (i : Nat) : Nat := headWord m (3 + i)
def ctlOp (m : Msg) : Nat := headWord m 0
def ctlJob (m : Msg) : Nat := headWord m 2

/-- The opcodes of R249 with the grains that follow their header. -/
def copGrains (cop : Nat) : Option Nat :=
  if cop = 0x50 then some 4
  else if [0x01, 0x02, 0x10, 0x11, 0x12, 0x20, 0x30, 0x31, 0x40, 0x41, 0x51, 0x52, 0x60, 0x61, 0x62].contains cop then some 0
  else none

/-- A control message that has an effect (R248). IDENT is always read. -/
def ctlValid (m : Msg) : Bool :=
  ctlOp m = 1 || (copGrains (ctlOp m) = some (bitsOf (headWord m 1) 15 8) && bitsOf (headWord m 1) 31 24 = 1)

/-- Stone header fields (R161). -/
def hdr (b : List Byte) (o hi lo : Nat) : Nat := bitsOf (wordAt b o) hi lo

/-! ## Pools and shares (R257) -/

/-- The credit pool of a message: 0 weights, 1 activations, 2 remote memory, 3 control, 4 transit. -/
def poolOf (m : Msg) : Nat := if m.transit then 4 else m.cls

def aPortOf (p off : Nat) : Nat := aPort (p / 6) (p / 2 % 3) off
def isTorus (s : State) : Bool := regF s (aFab 0 4) 1 1 = 1

/-- The share of a pool in sixteenths. -/
def share (s : State) (p c : Nat) : Nat :=
  let a := aPortOf p 8
  if c = 0 then regF s a 19 16 else if c = 1 then regF s a 15 12 else if c = 2 then regF s a 11 8
  else if c = 3 then regF s a 7 4 else regF s a 3 0

/-- The credits of a pool in quarters: the far buffer is taken to be divided as this port's is (DESIGN CHOICE, log
entry 20). -/
def creditCap (s : State) (p c : Nat) : Nat := share s p c * (if isTorus s then 32 else 64)

def getPort (s : State) (p : Nat) : PortS := mapGet {} s.fab.ports p
def setPort (p : Nat) (x : PortS) (s : State) : State := { s with fab := { s.fab with ports := mapSet {} s.fab.ports p x } }
def modPort (p : Nat) (f : PortS → PortS) (s : State) : State := setPort p (f (getPort s p)) s

/-- A port is usable when it is UP and has not failed since its last REJOIN (R265). -/
def usable (s : State) (p : Nat) : Bool := (getPort s p).st = 3 && !(getPort s p).failed

/-! ## The budget of a die and what is charged to it (R400, R401) -/

/-- S < 1 on a die: VIN_LOW, WARN or ALERT_IN holds (R410). -/
def scaledDie (s : State) (d : Nat) : Bool :=
  regF s (aPwr d 0) 2 2 = 1 || regF s (aPwr d 0) 3 3 = 1 || regF s (aPwr d 0) 5 5 = 1

/-- B_d in mW (R400). -/
def budgetOf (s : State) (d : Nat) : Nat :=
  let b := regF s (aPwr 0 4) 10 0 * 125 - 25000
  if scaledDie s d then (if regF s (aPwr 0 0x20) 0 0 = 0 then b / 2 else b * 3 / 4) else b

def grantsOf (s : State) (d : Nat) : List LeaveGrant := mapGet [] s.pwr.grants d
def reqsOf (s : State) (d : Nat) : List LeaveReq := mapGet [] s.pwr.reqs d
def setGrants (d : Nat) (g : List LeaveGrant) (s : State) : State := { s with pwr := { s.pwr with grants := mapSet [] s.pwr.grants d g } }
def setReqs (d : Nat) (q : List LeaveReq) (s : State) : State := { s with pwr := { s.pwr with reqs := mapSet [] s.pwr.reqs d q } }

def sumMw (l : List LeaveGrant) : Nat := l.foldl (fun a g => a + g.mw) 0
/-- The outstanding charges of a die. -/
def charges (s : State) (d : Nat) : Nat := sumMw (grantsOf s d)

/-- Brings the registers of a die's manager up to date (R414). -/
def showPwr (d : Nat) (s : State) : State :=
  let held := ((reqsOf s d).filter (·.held)).length
  let s := putReg (aPwr d 0x14) (budgetOf s d) (putReg (aPwr d 0x18) (charges s d) (putReg (aPwr d 0x1C) held s))
  putRegF (aPwr d 0) 1 0 (2 * bit (scaledDie s d) 0 + bit (held ≠ 0) 0) s

/-- A stone sent is a burst of its port, for which the port takes leave: the grant of a stone before it is over, and a grant
that the port holds for other classes covers it (R171, R401, R402). After a thermal trip none is granted (R412). -/
def stoneLeave (p : Nat) (s : State) : State :=
  let d := p / 6
  let src := 44 + p / 2 % 3
  if s.pwr.tripped || (grantsOf s d).any (fun g => g.src = src && !g.ended) then s
  else showPwr d (setGrants d ((grantsOf s d).filter (·.src ≠ src) ++ [{ src, mw := 2250, due := s.now, here := true, ended := true }]) s)

/-! ## Frames (R245, R253, R259) -/

/-- One quarter of a frame. -/
structure Quarter where
  msg : Msg
  /-- first grain carried -/
  at_ : Nat

def bitrev6 (j : Nat) : Nat := (List.range 6).foldl (fun a i => a + bitsOf j i i * 2 ^ (5 - i)) 0

/-- The pool that owns quarter j of a round. -/
def ownerOf (s : State) (p j : Nat) : Nat :=
  let r := bitrev6 j
  ((List.range 5).foldl (fun (acc : Option Nat × Nat) c =>
    let w := 4 * share s p c
    (if acc.1.isNone && acc.2 ≤ r && r < acc.2 + w then some c else acc.1, acc.2 + w)) (none, 0)).1.getD 3

/-- The next message of a pool that may send a quarter: grains of two messages of one class never interleave (R246),
and the pool holds a credit (R258). -/
def candidate (s : State) (p c : Nat) (x : PortS) : Option QMsg :=
  if creditCap s p c ≤ mapGet 0 x.used c then none
  else (x.queue.filter fun q => q.pool = c && !x.queue.any fun r => r.sent ≠ 0 && r.msg.cls = q.msg.cls && r ≠ q).head?

/-- The quarter sent at the port's place in the round. -/
def takeQuarter (s : State) (p : Nat) (x : PortS) : PortS × Option Quarter :=
  let o := ownerOf s p x.round
  let pools := if regF s (aPortOf p 4) 1 1 = 1 then [o] else (List.range 5).map fun i => (o + i) % 5
  let x1 := { x with round := (x.round + 1) % 64 }
  match pools.findSome? fun c => candidate s p c x with
  | none => (x1, none)
  | some q =>
    let q' := { q with sent := q.sent + 1 }
    let rest := if q'.sent ≥ quartersOf q.msg then x.queue.erase q else x.queue.map fun y => if y = q then q' else y
    ({ x1 with queue := rest, used := mapMod 0 x.used q.pool (· + 1) }, some { msg := q.msg, at_ := 4 * q.sent })

/-- The three trailer words of quarter q: its bits of CLASS and QUARTER, and its route words. -/
def quarterWords (q : Option Quarter) : Nat × Nat × Nat × Nat :=
  match q with
  | none => (0, 0, 0, 0)
  | some x =>
    let n := grainsOf x.msg
    let fill := min 4 (n - x.at_) - 1
    let head := x.at_ = 0
    let tail := x.at_ + 4 ≥ n
    (x.msg.cls, bit true 4 + bit head 3 + bit tail 2 + fill,
      if head then x.msg.dpkg * 2 ^ 16 + x.msg.ddie * 2 ^ 13 + x.msg.sdie * 2 ^ 10 + bit x.msg.transit 9 + x.msg.ty * 2 ^ 4 else 0,
      if head then x.msg.spkg * 2 ^ 16 + x.msg.msn * 2 ^ 8 else 0)

/-- The 256 bytes of a quarter. -/
def quarterBytes (q : Option Quarter) : List Byte :=
  match q with
  | none => List.replicate 256 0
  | some x => let l := (x.msg.bytes.drop (64 * x.at_)).take 256; l ++ List.replicate (256 - l.length) 0

/-- The credits that a frame returns: at most 63 of each pool (R245). -/
def creditWord (x : PortS) : Nat :=
  let c (i : Nat) : Nat := min 63 (mapGet 0 x.owe i)
  c 4 * 2 ^ 24 + c 0 * 2 ^ 18 + c 1 * 2 ^ 12 + c 2 * 2 ^ 6 + c 3

def payCredits (x : PortS) : PortS :=
  { x with owe := (List.range 5).foldl (fun m i => mapMod 0 m i fun n => n - min 63 n) x.owe }

/-- A whole frame: grains and trailer. -/
def frameBytes (qs : List (Option Quarter)) (fseq : Nat) (ack : Option Nat) (nak resend : Bool) (credits : Nat) : List Byte :=
  let ws := qs.map quarterWords
  let cls := (ws.zipIdx.foldl (fun a w => a + w.1.1 * 2 ^ (20 + 2 * w.2)) 0)
  let qua := (ws.zipIdx.foldl (fun a w => a + w.1.2.1 * 2 ^ (5 * w.2)) 0)
  let body := (qs.map quarterBytes).flatten ++ wordsLE ([ack.getD 0 * 2 ^ 16 + fseq,
      bit ack.isSome 31 + bit nak 30 + bit resend 29 + cls + qua] ++ (ws.map fun w => [w.2.2.1, w.2.2.2]).flatten ++ [credits])
  body ++ natLE 4 (crc32 body)

/-- Emits a frame that carries no new quarter: acknowledgement, NAK and credits. It takes no new FSEQ and is not kept
for replay (DESIGN CHOICE, log entry 21). -/
def sendIdle (p : Nat) (nak : Bool) (s : State) : State :=
  let x := getPort s p
  let b := frameBytes [none, none, none, none] ((x.fseq + 65535) % 65536) x.rxSeq nak false (creditWord x)
  emit (.frame (p / 6) (p / 2 % 3) (p % 2) b) (setPort p (payCredits x) s)

/-- Sends one frame of waiting quarters; `none` when no quarter can go. -/
def sendFrame (p : Nat) (s : State) : State × Bool :=
  let x := getPort s p
  let (x', qs) := (List.range 4).foldl (fun (acc : PortS × List (Option Quarter)) _ =>
    let (y, q) := takeQuarter s p acc.1
    (y, acc.2 ++ [q])) (x, [])
  if qs.all (·.isNone) then (setPort p { x with round := x'.round } s, false)
  else
    let b := frameBytes qs x.fseq x.rxSeq false false (creditWord x')
    let y := payCredits { x' with fseq := (x.fseq + 1) % 65536, replay := x.replay ++ [(x.fseq, b)] }
    (emit (.frame (p / 6) (p / 2 % 3) (p % 2) b) (setPort p y s), true)

/-- Sends frames while a quarter can go and the replay buffer has room (R253). A round holds 16 frames, so 16 frames
without a quarter in STRICT mode mean that none can go. -/
def pumpLoop (p : Nat) : Nat → Nat → State → State
  | 0, _, s => s
  | _, 0, s => s
  | fuel + 1, dry + 1, s =>
    if (getPort s p).queue.isEmpty || 512 ≤ (getPort s p).replay.length then s
    else
      match sendFrame p s with
      | (s, true) => pumpLoop p fuel 16 s
      | (s, false) => pumpLoop p fuel dry s

/-- Sends what can go. A stone of which a part has gone is a burst under leave (R171). -/
def pump (p : Nat) (s : State) : State :=
  let x := getPort s p
  if x.st = 3 || x.st = 2 then
    let t := pumpLoop p (17 * (x.queue.foldl (fun a q => a + quartersOf q.msg) 0 + 1)) 16 s
    if x.queue.any fun q => q.msg.ty = 0 && !(getPort t p).queue.contains q then stoneLeave p t else t
  else s

/-- Returns the credits that a received message held (R258), and sends them. -/
def freeCredits (i : InMsg) (s : State) : State :=
  let s := modPort i.port (fun x => { x with owe := mapMod 0 x.owe i.pool (· + i.quarters) }) s
  if (getPort s i.port).st = 3 then sendIdle i.port false s else s

/-! ## Routes (R262–R267) -/

/-- The route entry of a package at a die. -/
def routeEntry (s : State) (d dpkg : Nat) : Nat :=
  if dpkg / 128 ≠ pkgId s / 128 then reg s (aFab d (0x2000 + 4 * (dpkg / 128))) else reg s (aFab d (0x2800 + 4 * (dpkg % 128)))

/-- The ports of a route entry, lowest bit first. -/
def entryPorts (s : State) (d e : Nat) : List Nat :=
  if bitsOf e 31 31 = 0 then []
  else if isTorus s then ((List.range 6).filter fun b => bitsOf e b b = 1).map fun b => 6 * d + b
  else ((List.range 3).filter fun b => bitsOf e b b = 1).map fun b => 6 * d + 2 * b

/-- FAB_PORT_STATUS of a port, from the states of its halves (R288). -/
def syncPort (d k : Nat) (s : State) : State :=
  let a := getPort s (6 * d + 2 * k)
  let b := getPort s (6 * d + 2 * k + 1)
  let u (x : PortS) : Nat := bit (x.st = 3 && !x.failed) 0
  putReg (aPort d k 0) (a.st * 2 ^ 29 + b.st * 2 ^ 26 + (if a.cause ≠ 0 then a.cause else b.cause) * 2 ^ 23 + 2 * u b + u a) s

def routePorts (s : State) (d dpkg : Nat) : List Nat := (entryPorts s d (routeEntry s d dpkg)).filter (usable s)

/-- The port on which a message would go, were every port usable: it names a path that is missing. -/
def wantedPort (s : State) (m : Msg) : Nat :=
  let first := 6 * m.sdie
  if m.ty = 0 && !isTorus s then first + 2 * (wordAt m.bytes 0x18 % 3)
  else ((entryPorts s m.sdie (routeEntry s m.sdie m.dpkg)).head?).getD first

/-- The port that the rules give a message now: R167 for a stone, R265 for any other. -/
def choosePort (s : State) (m : Msg) : Option Nat :=
  if m.ty = 0 then
    let seq := wordAt m.bytes 0x18
    if isTorus s then
      let l := routePorts s m.sdie m.dpkg
      if l.isEmpty then none else l[seq % l.length]?
    else ((List.range 3).map fun i => 6 * m.sdie + 2 * ((seq + i) % 3)).find? (usable s)
  else
    let l := routePorts s m.sdie m.dpkg
    if l.isEmpty then none else l[(m.ddie + m.cls) % l.length]?

/-! ## Sending (R254, R256) -/

def txKey (sdie dpkg ddie cls : Nat) : Nat := ((dpkg * 8 + ddie) * 8 + sdie) * 4 + cls
def rxKey (spkg sdie ddie cls : Nat) : Nat := ((spkg * 8 + sdie) * 8 + ddie) * 4 + cls

def getTx (s : State) (k : Nat) : TxS := mapGet {} s.fab.tx k
def setTx (k : Nat) (x : TxS) (s : State) : State := { s with fab := { s.fab with tx := mapSet {} s.fab.tx k x } }
def getRx (s : State) (k : Nat) : RxS := mapGet {} s.fab.rx k
def setRx (k : Nat) (x : RxS) (s : State) : State := { s with fab := { s.fab with rx := mapSet {} s.fab.rx k x } }

def enqueue (p : Nat) (m : Msg) (s : State) : State :=
  modPort p (fun x => { x with queue := x.queue ++ [{ msg := m, pool := poolOf m }] }) s

/-- An owner's messages have no path left: the port that failed is kept to be named. -/
def loseOwner (o : Owner) (p : Nat) (s : State) : State :=
  if o = .none then s else { s with fab := { s.fab with lost := s.fab.lost ++ [(o, p)] } }

/-- Bytes that a die keeps in its retransmit store (R254). Stones stay in their buffers or frames. -/
def retained (s : State) (d : Nat) : Nat :=
  s.fab.tx.foldl (fun a e => a + e.2.undel.foldl (fun a t => if t.msg.sdie = d && t.msg.ty ≠ 0 then a + t.msg.bytes.length else a) 0) 0

/-- A stream has a place for one message more. -/
def roomFor (s : State) (k : Nat) (m : Msg) : Bool :=
  (getTx s k).undel.length < 128 && (m.ty = 0 || retained s m.sdie + m.bytes.length ≤ 2097152)

/-- Sends a message of a stream that has room: numbers it, retains it, and queues it at its port (R254, R265). -/
def transmit (k : Nat) (m : Msg) (o : Owner) (s : State) : State :=
  let x := getTx s k
  let keep := m.ty ≠ 0 && !(x.rechoose && x.undel.isEmpty)
  let p := match x.port with
    | some q => if keep && usable s q then some q else choosePort s m
    | none => choosePort s m
  match p with
  | none => loseOwner o (wantedPort s m) s
  | some p =>
    let m' := { m with msn := x.next % 256 }
    enqueue p m' (setTx k { x with
      next := (x.next + 1) % 256, port := some p, rechoose := x.rechoose && !x.undel.isEmpty,
      undel := x.undel ++ [{ msg := m', own := o, port := p, sentAt := s.now }] } s)

/-- Every port of a die sends what it can. -/
def pumpDie (d : Nat) (s : State) : State := (List.range 6).foldl (fun s i => pump (6 * d + i) s) s

/-- Sends a message from a die of this package, or makes it wait for room. A package without a valid ID sends none. -/
def post (m : Msg) (o : Owner) (s : State) : State :=
  if regF s (aFab 0 0) 31 31 = 0 then s
  else
    let m := { m with spkg := pkgId s }
    let k := txKey m.sdie m.dpkg m.ddie m.cls
    if (getTx s k).wait.isEmpty && roomFor s k m then pumpDie m.sdie (transmit k m o s)
    else setTx k { (getTx s k) with wait := (getTx s k).wait ++ [(m, o)] } s

/-- Messages that waited for room go as room appears. -/
def drainLoop (k : Nat) : Nat → State → State
  | 0, s => s
  | n + 1, s =>
    match (getTx s k).wait with
    | (m, o) :: r => if roomFor s k m then drainLoop k n (transmit k m o (setTx k { (getTx s k) with wait := r } s)) else s
    | [] => s

def drainWait (d : Nat) (s : State) : State :=
  pumpDie d (s.fab.tx.foldl (fun s e => drainLoop e.1 e.2.wait.length s) s)

/-- A LINKLOCAL message to the far end of a link (R247). -/
def postLink (p : Nat) (bytes : List Byte) (s : State) : State :=
  pump p (enqueue p { cls := 3, ty := 7, spkg := pkgId s, sdie := p / 6, bytes } s)

/-- A control message from die `d` to the same die of a package. -/
def postCtl (d dpkg ddie cop job : Nat) (args : List Nat) (s : State) : State :=
  post { cls := 3, ty := 6, dpkg, ddie, sdie := d, bytes := ctlGrain cop 0 job args } .none s

/-! ## Rings, and the state of a multicast's chain (R163, R282–R284) -/

/-- The ring record of a context (R163), and what it says. -/
def ringOf (s : State) (x : Nat) : RingC := mapGet {} s.rings x
def setRing (x : Nat) (r : RingC) (s : State) : State := { s with rings := mapSet {} s.rings x r }
def modRing (x : Nat) (f : RingC → RingC) (s : State) : State := setRing x (f (ringOf s x)) s
def rcdN (b : List Byte) : Nat := fld b 4 7 0
def rcdJob (b : List Byte) : Nat := wordAt b 0
def rcdMember (b : List Byte) (i : Nat) : Nat := leNat ((b.drop (0x10 + 2 * i)).take 2)
def rcdMembers (b : List Byte) : List Nat := (List.range (rcdN b)).map (rcdMember b)
def ringMembers (s : State) (x : Nat) : List Nat := rcdMembers (ringOf s x).rcd
def ringN (s : State) (x : Nat) : Nat := rcdN (ringOf s x).rcd
def ringJob (s : State) (x : Nat) : Nat := if (ringOf s x).st = 0 then 0 else rcdJob (ringOf s x).rcd
def ringPos (s : State) (x : Nat) : Nat := (ringMembers s x).idxOf (pkgId s)

/-- The clockwise and the counter-clockwise successor (R165). -/
def ringNextPkg (s : State) (x dir : Nat) : Nat :=
  let n := ringN s x
  rcdMember (ringOf s x).rcd ((ringPos s x + (if dir = 0 then 1 else n - 1)) % n)

/-- Removed positions of one multicast. -/
def removedOf (s : State) (x seq : Nat) : List Nat :=
  ((mapGet [] s.fab.removed x).filter fun v => v / 128 = seq).map (· % 128)

/-- The package that sends this member the grains of a multicast: the one before it in the chain; the root has none. -/
def castFromPkg (s : State) (x seq root : Nat) : Option Nat :=
  let n := ringN s x
  let p := ringPos s x
  let gone := removedOf s x seq
  if p = root then none
  else (((List.range (n - 1)).map fun i => (p + n - 1 - i) % n).find? fun q => q = root || !gone.contains q).map (rcdMember (ringOf s x).rcd)

/-- This member's own onward send of a multicast waits for credits at a die: it is backpressured, and says so to the package
that sends it the grains (R283). -/
def mcWaits (s : State) (d src : Nat) : Bool :=
  s.fab.ports.any fun e => e.1 / 6 = d && e.2.queue.any fun q =>
    q.msg.ty = 5 && !q.msg.transit && hdr q.msg.bytes 8 31 24 = 0x54 && creditCap s e.1 q.pool ≤ mapGet 0 e.2.used q.pool &&
      (List.range 8).any fun x => headWord q.msg 0 = ringJob s x && (ringOf s x).st ≠ 0 &&
        castFromPkg s x (headWord q.msg 1) (hdr q.msg.bytes 8 6 0) = some src

/-- A DELIVERED message for a stream received here (R249, R254). -/
def sendDelivered (k : Nat) (gone : Option Nat) (s : State) : State :=
  let x := getRx s k
  let cls := k % 4
  let ddie := k / 4 % 8
  let sdie := k / 32 % 8
  let a0 := sdie + ddie * 2 ^ 4 + cls * 2 ^ 8 + bit gone.isSome 16 + bit (cls = 1 && mcWaits s ddie (k / 256)) 17
  let a1 := (x.expect + 255) % 256 + gone.getD 0 * 2 ^ 8
  postCtl ddie (k / 256) sdie 2 0 [a0, a1] (setRx k { x with count := 0, since := s.now } s)

/-- A message is at its die: its unit takes it from here. -/
def deliver (d : Nat) (i : InMsg) (s : State) : State :=
  { s with fab := { s.fab with inbox := mapMod [] s.fab.inbox d (· ++ [i]) } }

def inboxOf (s : State) (d : Nat) : List InMsg := mapGet [] s.fab.inbox d
/-- The messages of a die that its units may take: outside P0 none is served (R407, R409). -/
def served (s : State) (d : Nat) : List InMsg := if s.pwr.state = 0 then inboxOf s d else []
def dropIn (d : Nat) (i : InMsg) (s : State) : State := { s with fab := { s.fab with inbox := mapMod [] s.fab.inbox d (·.erase i) } }

/-- A unit takes a message: its credits return (R258). -/
def takeMsg (d : Nat) (i : InMsg) (s : State) : State := freeCredits i (dropIn d i s)

/-! ## Path failure (R256) -/

/-- The sending end of a stream, as a message without bytes. -/
def streamMsg (k : Nat) : Msg := { cls := k % 4, ty := 6, dpkg := k / 256, ddie := k / 32 % 8, sdie := k / 4 % 8, bytes := [] }

/-- The stream uses port p: its own, or that of a stone not yet DELIVERED. -/
def onPath (s : State) (p k : Nat) : Bool :=
  ((getTx s k).port = some p && k % 4 ≠ 0) || (getTx s k).undel.any (·.port = p)

/-- Drops all that a stream has to send, and notes its owners: it has no path left. -/
def dropStream (p k : Nat) (s : State) : State :=
  let x := getTx s k
  let s := setTx k { x with undel := [], wait := [], port := none } s
  (x.undel.map (·.own) ++ x.wait.map (·.2)).foldl (fun s o => loseOwner o p s) s

/-- The port to which a stream's undelivered message moves: one port for a stream, a port of its own for each stone. -/
def movedPort (s : State) (k : Nat) (m : Msg) : Option Nat := choosePort s (if m.ty = 0 then m else streamMsg k)

/-- Resends a stream's undelivered messages in MSN order on the ports that it moves to (R256). -/
def resendAll (k : Nat) (s : State) : State :=
  let x := getTx s k
  let again := x.undel.foldl (fun (acc : State × List TxMsg) t =>
    match movedPort acc.1 k t.msg with
    | some q => (enqueue q t.msg acc.1, acc.2 ++ [{ t with port := q, sentAt := acc.1.now, again := false }])
    | none => acc) (s, [])
  setTx k { x with undel := again.2, port := if k % 4 = 0 then (again.2.head?).map (·.port) else choosePort s (streamMsg k) } again.1

/-- A stream leaves port p: it moves, counts and resends what is undelivered, or has no path; `true` where it moved. -/
def moveStream (p k : Nat) (s : State) : State × Bool :=
  let x := getTx s k
  if !onPath s p k then (s, false)
  else if x.undel.any (fun t => (movedPort s k t.msg).isNone) || (k % 4 ≠ 0 && (choosePort s (streamMsg k)).isNone) then
    (dropStream p k s, false)
  else (ndc 5 (p / 6) (bump (aFab (p / 6) 0x20) (resendAll k s)), true)

/-- A path fails: its streams move and resend; PATH_FAILOVER is raised once, and the step is timing-void, where one moved. -/
def failPath (p : Nat) (s : State) : State :=
  let d := p / 6
  let s := syncPort d (p / 2 % 3) (modPort p (fun x => { x with failed := true, queue := [] }) s)
  let keys := (s.fab.tx.filter fun e => e.1 / 4 % 8 = d).map (·.1)
  let (s, n) := keys.foldl (fun (acc : State × Nat) k =>
    let (s, b) := moveStream p k acc.1
    (s, if b then acc.2 + 1 else acc.2)) (s, 0)
  pumpDie d (if n = 0 then s
    else raise { die := d, code := 0x0503, p0 := 3 * d + p / 2 % 3, p1 := p % 2, p2 := n } (hwSetF (aFab d 0xC) 2 1 s))

end Sys2Proof.Machine
end

