-- ==== Sys2Proof/Machine/Record.lean ====
section
/-! DEFINITION. The capture log of record mode (R310–R314): header, records, overflow and end. -/

namespace Sys2Proof.Machine

def agReplay (d : Nat) : Agent := .replay (Fin.ofNat 8 d)

/-- The context that GCT_REC_CTRL names. -/
def recCtx (s : State) : Nat := regF s (aGct 0 0x50) 4 2
def recMode (s : State) : Nat := regF s (aGct 0 0x50) 1 0

/-- The header of a die's log (R311). -/
def logHeader (s : State) (d : Nat) (records : Nat) (overflow : Bool) : List Byte :=
  let x := recCtx s
  let la := reg64 s (aGct 0 0x30)
  let budget := if level s = 2 then reg64 s (aGct 0 0x40) else 0
  let seed := seedOf s x
  let b := wordsLE [2 ^ 24 + d, ringJob s x, la, la / 2 ^ 32,
    pkgId s * 2 ^ 16 + level s * 2 ^ 14 + s.boot.grade * 2 ^ 12 + x * 2 ^ 9 + (ringN s x + 255) % 256, 0,
    seed, seed / 2 ^ 32, budget, budget / 2 ^ 32, records, bit overflow 0]
  b ++ List.replicate (256 - b.length) 0

/-- Bytes of a record with a payload of n bytes: the head, the payload padded to 64, and zeros up to the next start
(R312). -/
def recordSize (n : Nat) : Nat := (16 + (n + 63) / 64 * 64 + 63) / 64 * 64

/-- A record: 16-byte head and payload (R312). -/
def logRecordBytes (s : State) (kind seq : Nat) (payload : List Byte) : List Byte :=
  let tick := (s.clk.count + 2 ^ 64 - reg64 s (aGct 0 0x30)) % 2 ^ 64
  padGrain (wordsLE [kind * 2 ^ 24 + payload.length, seq, tick, tick / 2 ^ 32] ++ padGrain payload)

def logAtOf (s : State) (d : Nat) : Nat := mapGet 0 s.clk.logAt d
def logNoOf (s : State) (d : Nat) : Nat := mapGet 0 s.clk.logNo d

/-- Appends bytes to a die's log and counts them in GCT_REC_USED. -/
def logBytes (d : Nat) (b : List Byte) (s : State) : State :=
  let o := logAtOf s d
  putReg64 (aGct d 0x58) (o + b.length)
    (hbmWrite (agReplay d) d (captureBase s + o) b { s with clk := { s.clk with logAt := mapSet 0 s.clk.logAt d (o + b.length) } })

def logOne (d kind : Nat) (payload : List Byte) (s : State) : State :=
  let n := logNoOf s d
  logBytes d (logRecordBytes s kind n payload) { s with clk := { s.clk with logNo := mapSet 0 s.clk.logNo d (n + 1) } }

/-- Writes END on a die and completes its header (R311, R313); `past`: this die's log would have passed its region. -/
def logEnd (d reason : Nat) (past : Bool) (s : State) : State :=
  let s := logOne d 0x0F (natLE 4 reason) s
  putRegF (aGct d 0x54) 30 30 1 (hbmWrite (agReplay d) d (captureBase s) (logHeader s d (logNoOf s d) past) s)

/-- A record in progress ends on every die (R302). -/
def recordEnd (reason : Nat) (s : State) : State :=
  if s.clk.recording then
    let s := (List.range 8).foldl (fun s d => logEnd d reason false s) s
    { s with clk := { s.clk with recording := false } }
  else s

/-- Captures an input on die d (R310), or ends the log at the end of its region: capturing stops on every die, and the logs of
the other dies end there too (R314; their END is DEDUCED, log entry 131). -/
def capture (d kind : Nat) (payload : List Byte) (s : State) : State :=
  if !s.clk.recording then s
  else if captureBase s + logAtOf s d + recordSize payload.length + recordSize 4 ≤ hbmTop then
    logOne d kind payload s
  else
    let s := (List.range 8).foldl (fun s k => logEnd k 1 (k = d) s) (putRegF (aGct d 0x54) 31 31 1 s)
    let s := { s with clk := { s.clk with recording := false } }
    raise { die := d, code := 0x0604, ctx := some (recCtx s), p0 := d, p1 := recCtx s } s

/-! ## Set-up writes as inputs (R310, R313, R315) -/

/-- The die at which a master's access enters the package (R370). -/
def entryDie : Master → Nat
  | .core c => c.val / 4
  | _ => 0

/-- KIND under which the write of a register is logged for the recorded context: 1 a doorbell of the context, 7 any
other set-up write; 0 a doorbell of another context, which is not logged. -/
def writeKind (s : State) (addr : Nat) : Nat :=
  let x := recCtx s
  match findReg addr with
  | none => 0
  | some (r, i, j, _) =>
    match r.kind with
    | .tilSqTail => 1
    | .carQTail | .fabOpqTail => if i = x then 1 else 0
    | .rowTail => if regF s (aGct (addr / 0x4000000) 0x4C) (3 * j + 2) (3 * j) = x then 1 else 0
    | .cmdTail | .cplHead | .evHead => if i = x + 1 then 1 else 0
    | _ => 7

/-- The access reaches a register that exists (R35–R37). -/
def accessOk (s : State) (m : Master) (addr size : Nat) : Bool :=
  reaches m addr && size = 4 && addr % 4 = 0 && backed s addr && (match findReg addr with
    | some (r, _, _, _) => !(r.pkg && 0x4000000 ≤ addr)
    | none => false)

/-- The recorded context is launched. -/
def recLaunched (s : State) : Bool :=
  let st := regF s (aGct 0 (0x110 + 0x20 * recCtx s)) 31 29
  st = 2 || st = 3

/-- A live input is dropped while a replay runs. -/
def dropLive (d : Nat) (s : State) : State := bumpF (aGct d 0x54) 15 0 s

/-- A set-up write arrives: it is captured while its context is recorded, and dropped while a replay stands in for it. -/
def arriveNow (d : Nat) (m : Master) (addr : Nat) (v : Word) (size : Nat) (s : State) : State :=
  let k := if accessOk s m addr size then writeKind s addr else 0
  if s.clk.replaying && (k = 1 || (k = 7 && recLaunched s)) then dropLive d s
  else
    let body := natLE 4 addr ++ natLE 4 v.toNat
    let s := if k = 1 then capture d 1 body s
      else if k = 7 && recLaunched s then capture d 7 (body ++ [BitVec.ofNat 8 (masterCode m)]) s
      else s
    arriveRaw m addr v size s

/-- Bytes land at a global address; none where no memory of this package is. -/
def landBytes (a : Agent) (ga : Nat) (b : List Byte) (s : State) (ctx : Option Nat := none) : State :=
  match placeOf s ga with
  | .hbm d h => hbmWrite a d h b s ctx
  | .scr d t o => writeScr (engine d t) o b s
  | _ => s

/-- Bytes of the host land in package memory, by an aperture or by a command of a context (R310, R353): those of the
recorded context are captured, and dropped while a replay stands in. An aperture names no context: its bytes count as the
recorded one's (DEDUCED, log entry 117). -/
def hostBytes (a : Agent) (ctx : Option Nat) (ga : Nat) (b : List Byte) (s : State) : State :=
  let mine := match ctx with | some x => x == recCtx s | none => true
  if s.clk.replaying && mine then dropLive 0 s
  else landBytes a ga b (if mine then capture 0 3 (natLE 8 ga ++ b) s else s) ctx

/-- Bytes that a command of a context reads for itself, a record or a manifest, are inputs of the recorded context. They land
nowhere: the global address of their capture records is a free value (log entry 117). -/
def recordBytes (ctx : Nat) (b : List Byte) (s : State) : State :=
  if ctx = recCtx s then
    (chunks 4096 ((b.length + 4095) / 4096) b).foldl (fun s l => capture 0 3 (natLE 8 Config.recordAddress.toNat ++ l) s) s
  else s

/-- The global address that a byte of aperture k maps to, where the aperture is enabled and the target backed (R353). -/
def apertureAt (s : State) (k off n : Nat) : Option Nat :=
  let a := aHlk (0x60 + 8 * k)
  let ga := 2 ^ 32 * reg s (a + 4) + off
  if regF s a 0 0 = 1 then
    match placeRun s ga n with
    | .hbm _ _ => some ga
    | .scr _ _ _ => some ga
    | _ => none
  else none

/-- An aperture write takes effect where its aperture then maps it, or fails (R353, R354). -/
def apertureLand (k off : Nat) (b : List Byte) (s : State) : State :=
  match apertureAt s k off b.length with
  | some ga => emit (.aperture [] false) (hostBytes .host none ga b s)
  | none => emit (.aperture [] true) s

/-- A set-up write of the host may not take effect yet: an aperture write is not visible (R354, R139). -/
def apertureBusy (s : State) : Bool := s.hbm.wq.any (·.agent == .host)

/-- A set-up write of the host waits for its window's end. -/
def setupBusy (s : State) : Bool :=
  s.setup.acts.any fun a => match a.2 with | .write .host _ _ _ => true | _ => false

/-- The host writes that still wait. -/
def setOrder (l : List LinkWr) (s : State) : State := { s with host := { s.host with inOrder := l } }

/-- Host writes go on in link order as far as they can (R354); outside P0 they wait (R409). -/
def drainLink : List LinkWr → State → State
  | [], s => s
  | x :: r, s =>
    match x with
    | .setup addr v size => if apertureBusy s then s else drainLink r (arriveNow 0 .host addr v size (setOrder r s))
    | .aperture k off b => if setupBusy s then s else drainLink r (apertureLand k off b (setOrder r s))

def drainHost (s : State) : State := if s.pwr.state = 0 then drainLink s.host.inOrder s else s

/-- An interrupt from outside the package (R310, R384): sources 64–67. -/
def outsideIrq (d src : Nat) (s : State) : State :=
  if s.clk.replaying then dropLive d s
  else setPending d src (capture d 5 (natLE 2 src ++ natLE 2 d) s)

/-- A host write enters the link's order, and wakes the package. -/
def linkWrite (x : LinkWr) (s : State) : State := drainHost (wakeEvent { s with host := { s.host with inOrder := s.host.inOrder ++ [x] } })

/-- The package acts on a remote fabric manager's accesses: one is admitted, or discovery goes on (R249). -/
def fromManager (s : State) : Bool := regF s (aFab 0 4) 2 2 = 1 || regF s (aFab 0 0) 31 31 = 0

/-! ## Synchronous aborts of the cores (R377, R378, R380) -/

/-- A core stops on an abort within an abort (R380): LCC_DBG_PC and the cause are the core's own. -/
def coreFault (c : Nat) (s : State) : State :=
  let (n, s) := freshNo s
  let pc := Config.corePc n c
  let s := setCore c { (getCore s c) with pc, stopped := true } (putRegF (aLcc (c / 4) (c % 4) 8) 2 2 1 s)
  raise { die := c / 4, code := 0x0901, p0 := c, p1 := (Config.coreFaultCause n).toNat, p2 := pc.toNat, p3 := pc.toNat / 2 ^ 32 } s

/-- A core takes a synchronous abort: in firmware mode with an abort in hand it stops; else it goes on where and in the mode
in which its own book takes an abort. -/
def coreAbort (c : Nat) (s : State) : State :=
  let q := getCore s c
  if q.mode = .firmware && q.handling then coreFault c s
  else
    let (n, s) := freshNo s
    setCore c { q with pc := Config.corePc n c, mode := Config.coreMode n c, handling := true } s

/-- A core's access to the set-up space takes an abort: in user mode (R377), or where it breaks R14. -/
def coreBars (s : State) (c addr size : Nat) : Bool := (getCore s c).mode = .user || size ≠ 4 || addr % 4 ≠ 0

/-- A set-up write arrives on a die; the host's come over its link while that is UP, and keep link order (R350). -/
def arriveFrom (d : Nat) (m : Master) (addr : Nat) (v : Word) (size : Nat) (s : State) : State :=
  match m with
  | .host => if s.host.link = 3 then linkWrite (.setup addr v size) s else s
  | .fm => if fromManager s then arriveNow d m addr v size s else s
  | .core c => if coreBars s c.val addr size then coreAbort c.val s else arriveNow d m addr v size s
  | _ => arriveNow d m addr v size s

def arrive (m : Master) (addr : Nat) (v : Word) (size : Nat) (s : State) : State := arriveFrom (entryDie m) m addr v size s

/-- The same for a register by its address and a value, as the rows of the table name them. -/
def arriveAt (m : Master) (addr : Nat) (v : Word) (s : State) : Outcome := onlyIf (fun _ => true) (arrive m addr v 4) s

/-- Opens the logs at the arming of the recorded context. -/
def recordStart (s : State) : State :=
  let s := { s with clk := { s.clk with recording := true, logAt := [], logNo := [] } }
  (List.range 8).foldl (fun s d => logBytes d (logHeader s d 0 false) (putRegF (aGct d 0x54) 31 30 0 s)) s

end Sys2Proof.Machine
end

