-- ==== Sys2Proof/Machine/Halt.lean ====
section
/-! DEFINITION. Halting a context and aborting its job (R102, R142, R189, R217, R287, R302), step faults (R306), the
fabric's lost owners (R256), sending with that outcome, and demand reads of HBM with what they may halt
(R233, R234, R237, R238, R242). -/

namespace Sys2Proof.Machine

/-! ## Contexts -/

/-- A context is open (R374): its ring set is. -/
def ctxOpen (s : State) (x : Nat) : Bool := (mapLookup s.host.rings (x + 1)).isSome

/-- STATE of GCT_CTXn_STATUS: 0 not launched, 1 armed, 2 running, 3 closed, 4 stopped by abort (R322). -/
def aCtxSt (x : Nat) : Nat := aGct 0 (0x110 + 0x20 * x)
def ctxSt (s : State) (x : Nat) : Nat := regF s (aCtxSt x) 31 29
def setCtxSt (x v : Nat) (s : State) : State := putRegF (aCtxSt x) 31 29 v s
def launched (s : State) (x : Nat) : Bool := ctxSt s x = 2 || ctxSt s x = 3

/-- Some context is launched or armed (R302). -/
def anyLaunched (s : State) : Bool := (List.range 8).any fun x => launched s x || ctxSt s x = 1

/-- The inputs of a context are held: it is armed, or its step is closed (R300, R304). -/
def holdsInputs (s : State) (x : Nat) : Bool := ctxSt s x = 1 || ctxSt s x = 3

/-! ## The start queue (R99) -/

def sqHead (s : State) (e : Nat) : Nat := reg s (aTil (e / 40) (e % 40) 0x20)
def sqTail (s : State) (e : Nat) : Nat := regF s (aTil (e / 40) (e % 40) 0x1C) 10 0
def sqLog (s : State) (e : Nat) : Nat := regF s (aTil (e / 40) (e % 40) 0x18) 3 0
def sqAdvance (e : Nat) (s : State) : State :=
  putReg (aTil (e / 40) (e % 40) 0x20) ((sqHead s e + 1) % 2 ^ sqLog s e) s
def sqAddr (s : State) (e : Nat) : Nat := reg64 s (aTil (e / 40) (e % 40) 0x10) / 32 * 32 + 32 * sqHead s e

/-- Units are read whose corrections or failures are recorded at the next tick: within a halt no other may begin (R237). -/
def readLater (a : Agent) (ctx : Option Nat) (d : Nat) (us : List Nat) (s : State) : State :=
  us.foldl (fun s u => laterRead a d u s ctx) s

/-- A held START entry of the context at the head of a start queue is consumed without effect (R302); one that cannot be
read stays there (R115). -/
def dropStart (x e : Nat) (s : State) : State :=
  match gaHbm s (sqAddr s e) with
  | some (d, h) =>
    let b := hbmPeek (agSeq e) d h 32 s
    if sqHead s e = sqTail s e then s
    else if (unitsOf h 32).any (badFor (agSeq e) s d) then
      readLater (agSeq e) (some x) d (unitsOf h 32) (modTile e (fun t => { t with sqUe := true }) s)
    else if sqOp b = 0x20 && sqCtx b = x then
      readLater (agSeq e) (some x) d (unitsOf h 32) (sqAdvance e (putStartRecord e (sqTctx b) (sqCtx b) (sqCq b) 4 s))
    else s
  | none => s

/-! ## The end of a launch (R302) -/

/-- Held inputs of a context are discarded. -/
def discardHeld (x : Nat) (s : State) : State :=
  let heads := holdsInputs s x
  let s := { s with clk := { s.clk with held := s.clk.held.filter (·.ctx ≠ x) } }
  if heads then (List.range 320).foldl (fun s e => if e % 40 < tilesPerDie s then dropStart x e s else s) s else s

/-- The launch of a context ends: units released, a record in progress ended, STATE as given. -/
def endLaunch (x st reason : Nat) (s : State) : State :=
  let s := setCtxSt x st s
  let s := if s.clk.unit6 = some x then putRegF (aGct 0 0x368) 30 30 0 { s with clk := { s.clk with unit6 := none } } else s
  let s := if recCtx s = x then recordEnd reason { s with clk := { s.clk with replaying := false } } else s
  let s := putRegF (aCtxSt x) 26 26 0 { s with clk := { s.clk with
    closed := s.clk.closed.filter (· ≠ x), ends := s.clk.ends.filter (· ≠ x) } }
  hwPutF (aGct 0 0x38) 30 30 (bit (!s.clk.ends.isEmpty) 0) s

/-! ## Row engines (R217) -/

def getRow (s : State) (r : Nat) : RowS := mapGet {} s.rows r
def setRow (r : Nat) (x : RowS) (s : State) : State := { s with rows := mapSet {} s.rows r x }
def agRow (r : Nat) : Agent := .rowEngine (Fin.ofNat 8 (r / 8)) (Fin.ofNat 8 (r % 8))

/-- The context to which GCT_ROW_CTX maps a row engine. -/
def rowCtx (s : State) (r : Nat) : Nat := regF s (aGct (r / 8) 0x4C) (3 * (r % 8) + 2) (3 * (r % 8))

/-- Undoes the claims of a running descriptor. -/
def undoRow (x : RowRun) (s : State) : State := x.claims.foldl (fun s c => undoClaim c.1 c.2 s) s

/-- The completion record of a row engine descriptor (R216). -/
def putRowRecord (r : Nat) (x : RowRun) (status cause : Nat) (s : State) : State :=
  writeGa (agRow r) (reg64 s (aRow (r / 8) (r % 8) 0x28) / 16 * 16 + 16 * x.qix)
    (wordsLE [cause * 2 ^ 24 + x.flags * 2 ^ 16 + status, x.index, wordAt x.desc 0x3C, s.clk.count]) s (some (rowCtx s r))

/-- The row engine's part of a job abort. -/
def abortRow (r : Nat) (s : State) : State :=
  let x := getRow s r
  let s := match x.run with
    | some y => putRowRecord r y 4 0 (hwSetF (aRow (r / 8) (r % 8) 8) 0 y.flags (undoRow y (setRow r { x with run := none } s)))
    | none => s
  putReg (aRow (r / 8) (r % 8) 0x20) (regF s (aRow (r / 8) (r % 8) 0x1C) 11 0) s

/-! ## The end of a replay (R315) -/

/-- A die's log ends in the replay; with the last die's the job goes on with live inputs. -/
def replayEnd (d : Nat) (s : State) : State :=
  let s := putRegF (aGct d 0x54) 30 30 1 { s with clk := { s.clk with logDone := s.clk.logDone ++ [d] } }
  if (List.range 8).all s.clk.logDone.contains then
    putRegF (aCtxSt (recCtx s)) 26 26 0 { s with clk := { s.clk with replaying := false } }
  else s

/-! ## Fabric operation queues -/

/-- Opcode of a fabric operation descriptor (R275). -/
def foOp (b : List Byte) : Nat := fld b 0 31 24

def getOp (s : State) (x : Nat) : Option FabOp := mapLookup s.fab.ops x
def setOp (x : Nat) (o : FabOp) (s : State) : State := { s with fab := { s.fab with ops := mapInsert s.fab.ops x o } }
def modOp (x : Nat) (f : FabOp → FabOp) (s : State) : State :=
  match getOp s x with
  | some o => setOp x (f o) s
  | none => s

/-- The running operation is to end with a status, unless it already has one. -/
def failOp (x status cause : Nat) (s : State) : State :=
  modOp x (fun o => if o.status.isSome then o else { o with status := some (status, cause) }) s

/-- The status of an operation that a job abort ends: of a collective the abort's cause where R281 or R286 names it, of any
other ABORTED. -/
def abortStatus (o : FabOp) (cause : Nat) : Nat × Nat :=
  if foOp o.desc ≠ 0x50 && cause = 1 then (9, 8) else if foOp o.desc ≠ 0x50 && cause = 7 then (9, 9) else (4, 0)

/-- The operation at work is ended by a job abort with a cause; one that the abort has ended already takes the cause that is
adopted now. -/
def abortOp (x cause : Nat) (s : State) : State :=
  modOp x (fun o => if o.status.isNone || o.aborted then { o with status := some (abortStatus o cause), aborted := true } else o) s

/-- The operation queue is halted by a job abort. -/
def abortOpq (x cause : Nat) (s : State) : State :=
  abortOp x cause { s with fab := { s.fab with halted := mapSet false s.fab.halted x true } }

/-! ## Models and loads in progress (R341–R344) -/

def getLoad (s : State) (x : Nat) : LoadS := mapGet {} s.loads x
def setLoad (x : Nat) (l : LoadS) (s : State) : State := { s with loads := mapSet {} s.loads x l }
def modLoad (x : Nat) (f : LoadS → LoadS) (s : State) : State := setLoad x (f (getLoad s x)) s

def aLoad (d x off : Nat) : Nat := aSec d (0x80100 + 0x20 * x + off)
def slotValid (s : State) (x k : Nat) : Bool := regF s (aLoad 0 x 0) (28 - k) (28 - k) = 1
def slotVal (s : State) (x k : Nat) : Nat := if k = 0 then regF s (aLoad 0 x 4) 15 0 else regF s (aLoad 0 x 4) 31 16
def setSlotValid (x k : Nat) (v : Bool) (s : State) : State := putRegF (aLoad 0 x 0) (28 - k) (28 - k) (bit v 0) s
def setSlotVal (x k v : Nat) (s : State) : State := if k = 0 then putRegF (aLoad 0 x 4) 15 0 v s else putRegF (aLoad 0 x 4) 31 16 v s

/-- A load's STATE, S0_VALID and the like lie in SEC_CTXn_LOAD (R348). -/
def setLoadState (x v : Nat) (s : State) : State := putRegF (aLoad 0 x 0) 31 29 v s

def freeAllots (ids : List Nat) (s : State) : State :=
  { s with hbm := { s.hbm with allots := s.hbm.allots.filter fun a => !ids.contains a.1 } }

/-- Requests of a context bound to a generation complete with a status (R344). -/
def endRequests (x gen status detail : Nat) (s : State) : State :=
  ((s.host.cmds.filter fun c => c.2.begun && cmdOp c.2 = 0x19 && cmdCtx c.2 = x && c.2.aux = gen).map (·.1)).foldl
    (fun s c => completeCmd c status detail s) s

/-- Frees a context's model and invalidates its shard table (R345). -/
def unloadModel (x : Nat) (s : State) : State :=
  let l := getLoad s x
  let s := freeAllots (l.allots.map (·.2)).flatten s
  let s := (List.range 8).foldl (fun s d => putReg (aLoad d x 0x10) 0 s) s
  setLoadState x 0 (setSlotValid x 0 false (setSlotValid x 1 false
    (setLoad x { pass := l.pass, counting := l.counting, job := l.job } s)))

/-- A load in progress gives up what it holds. A swap beside its current generation leaves that in service; one in place
leaves no model, as it waits and after (R344). -/
def giveUpLoad (x : Nat) (j : LoadJob) (s : State) : State :=
  let l := getLoad s x
  let s := freeAllots j.allots s
  if j.swap && l.newValid && j.phase ≠ 2 then setLoadState x 2 (setLoad x { l with newValid := false, swapCommitted := false } s)
  else unloadModel x s

/-- A load fails: what it holds is freed, and the lowest failing shard is kept until it settles (R341). -/
def loadFail (x shard status detail : Nat) (s : State) : State :=
  let l := getLoad s x
  match l.job with
  | none => s
  | some j =>
    match j.fail with
    | some f =>
      if shard < f.1 then
        setLoad x { l with job := some { j with fail := some (shard, status, detail, f.2.2.2) } } (putRegF (aLoad 0 x 0) 15 0 shard s)
      else s
    | none =>
      let s := giveUpLoad x j (putRegF (aLoad 0 x 0) 15 0 shard s)
      modLoad x (fun l => { l with job := some { j with phase := 5, allots := [], fail := some (shard, status, detail, s.now) } }) s

/-- ARG0–ARG3 of the loader's tokens (R249): model, generation and version, digest of the manifest. -/
def loadArgs (j : LoadJob) : List Nat := [wordAt j.record 4, wordAt j.record 8, wordAt j.record 0x40, wordAt j.record 0x44]

/-- Sends ABORT round the ring. -/
def sendLoadAbort (x shard pos status : Nat) (j : LoadJob) (s : State) : State :=
  if ringN s x ≤ 1 then s
  else postCtl 0 (ringNextPkg s x 0) 0 0x52 (ringJob s x) (loadArgs j ++ [shard % 2 ^ 16 + pos * 2 ^ 16, status]) s

/-- This member fails its load and says so (R341). -/
def failHere (x shard status detail : Nat) (s : State) : State :=
  match (getLoad s x).job with
  | some j => loadFail x shard status detail (if j.fail.isSome then s else sendLoadAbort x shard (ringPos s x) status j s)
  | none => s

/-- An uncorrectable read on a die meets the load of a context (R339). -/
def loaderUe (x d : Nat) (s : State) : State :=
  match (getLoad s x).job with
  | some j => if j.phase = 3 then failHere x (ringPos s x) 0x29 d s else s
  | none => s

/-- Generation of a load record. -/
def recGen (b : List Byte) : Nat := bitsOf (wordAt b 8) 31 16

/-- The command of a load completes, and the requests that wait for a failed swap with it. -/
def endLoad (x status detail : Nat) (s : State) : State :=
  match (getLoad s x).job with
  | none => s
  | some j =>
    let s := completeCmd j.cmd status detail (modLoad x (fun l => { l with job := none }) s)
    if j.swap && status ≠ 0 then endRequests x (recGen j.record) status detail s else s

/-- The ring broke before the load committed (R342). -/
def loadLost (x : Nat) (s : State) : State :=
  match (getLoad s x).job with
  | some j => if j.phase = 5 then s else endLoad x 0x28 0 (giveUpLoad x j s)
  | none => s

/-! ## The job abort (R287) -/

/-- The tile part of the local halt: HALT to every task context of the context (R142). -/
def haltTiles (x : Nat) (s : State) : State :=
  (s.tiles.map (·.1)).foldl (fun s e => (List.range 4).foldl (fun s n =>
    if (getTctx s e n).ctx = x then haltWork e n 2 s else s) s) s

/-- Halts the context's work on this package. -/
def haltCtx (x cause : Nat) (s : State) : State :=
  let s := haltTiles x s
  let s := (List.range 64).foldl (fun s r => if rowCtx s r = x then abortRow r s else s) s
  let s := modRing x (fun r => if r.st = 0 then r else { r with st := 5 }) s
  let s := if (ringOf s x).st = 5 then loadLost x s else s
  abortOpq x cause s

/-- Sends JOB_ABORT to the members on every path: from every die, round the ring both ways, and directly in switched
cabling. -/
def sendAbort (x step cause : Nat) (forwarded : Bool) (s : State) : State :=
  let me := pkgId s
  let all := (ringMembers s x).filter (· ≠ me)
  let round := if all.isEmpty then [] else [ringNextPkg s x 0, ringNextPkg s x 1]
  let whom := if isTorus s || forwarded then sortedSet round else all
  whom.foldl (fun s m => (List.range 8).foldl (fun s d =>
    postCtl d m d 0x20 (ringJob s x) [step, step / 2 ^ 32, cause + ringPos s x * 2 ^ 8 + bit forwarded 15] s) s) s

/-- Commands of the context that ask for its abort complete (R361). -/
def abortCmds (s : State) (x : Nat) : List Nat :=
  (s.host.cmds.filter fun c => c.2.begun && cmdOp c.2 = 0x1A && cmdCtx c.2 = x).map (·.1)

/-- Requests of the context that its job will not serve any more complete with ABORTED (R363; DEDUCED, log entry 34). -/
def lostRequests (s : State) (x : Nat) : List Nat :=
  (s.host.cmds.filter fun c => c.2.begun && cmdOp c.2 = 0x19 && cmdCtx c.2 = x).map (·.1)

/-- The abort has settled: JOB_ABORTED, and the launch ends (R287, R302). -/
def settleAbort (x : Nat) (s : State) : State :=
  match mapLookup s.fab.aborts x with
  | none => s
  | some a =>
    let s := { s with fab := { s.fab with aborts := mapErase s.fab.aborts x } }
    let s := raise { die := 0, code := 0x0506, ctx := some x, p0 := x + a.cause * 2 ^ 8, p1 := a.job,
                     p2 := a.step, p3 := a.step / 2 ^ 32 } s
    let s := discardHeld x s
    let s := if launched s x then endLaunch x 4 2 s else s
    let s := (lostRequests s x).foldl (fun s c => completeCmd c 8 0 s) s
    (abortCmds s x).foldl (fun s c => completeCmd c 0 0 s) s

/-- A member detects a cause, or receives JOB_ABORT with step and cause: it halts locally, sends on, and settles at
once where it is the only member. While an abort is pending, a step or a cause that lowers what will be adopted is sent on
too, so that every member sees it (DEDUCED, log entry 112). -/
def startAbort (x step cause : Nat) (forwarded : Bool) (s : State) : State :=
  match mapLookup s.fab.aborts x with
  | some a =>
    if step < a.step || (step = a.step && cause < a.cause) then
      sendAbort x step cause forwarded (abortOp x cause
        { s with fab := { s.fab with aborts := mapInsert s.fab.aborts x { a with step, cause } } })
    else s
  | none =>
    let alone := (ringOf s x).st = 0 || ringN s x = 0
    let s := { s with fab := { s.fab with aborts := mapInsert s.fab.aborts x { step, cause, haltAt := s.now, job := ringJob s x } } }
    let s := haltCtx x cause s
    if alone then settleAbort x s else sendAbort x step cause forwarded s

def abortJob (x cause : Nat) (s : State) : State := startAbort x (stepOf s x) cause false s

/-- A step fault at LEVEL_TIME (R306). -/
def stepFault (x sub : Nat) (s : State) : State :=
  let st := stepOf s x
  let s := if sub = 1 then hwSetF (aCtxSt x) 27 1 s else s
  abortJob x 0x0A (raise { die := 0, code := 0x0602, ctx := some x, p0 := x, p1 := sub, p2 := st, p3 := st / 2 ^ 32 } s)

/-! ## The carousel's faults (R189) -/

/-- CAR_FAULT_INFO keeps a die's first fault. -/
def noteFault (d x code origin tensor seq : Nat) (s : State) : State :=
  if regF s (aCar d 0x30) 31 31 = 1 then s
  else hwPut (aCar d 0x30) (2 ^ 31 + x * 2 ^ 24 + code * 2 ^ 16 + origin)
    (hwPut (aCar d 0x34) tensor (hwPut (aCar d 0x38) seq s))

/-- The ring of a context becomes BROKEN and its job aborts. -/
def carFault (d x code origin tensor seq : Nat) (s : State) : State :=
  abortJob x (if code = 1 then 2 else if code = 2 then 3 else 4) (noteFault d x code origin tensor seq s)

/-- No path remains to a successor: RING_BROKEN names the context and the port (half) p that failed. -/
def pathBroken (x p : Nat) (s : State) : State :=
  noteFault (p / 6) x 3 0 0 0 (raise { die := p / 6, code := 0x0307, ctx := some x, p0 := x, p1 := 3 * (p / 6) + p / 2 % 3 } s)

/-! ## Owners whose messages have no path left (R256) -/

/-- The contexts whose stones have lost their last path and whose rings circulate, each with the port that failed. -/
def brokenRings (s : State) : List (Nat × Nat) :=
  (List.range 8).filterMap fun x =>
    if (ringOf s x).st = 0 || (ringOf s x).st = 5 then none else (s.fab.lost.find? (·.1 = .stone x)).map fun o => (x, o.2)

/-- Tells one owner; a ring is told by `tellAll`. -/
def tellLost (o : Owner) (s : State) : State :=
  match o with
  | .none | .stone _ => s
  | .stream e q tag =>
    { modStream e q (fun st => { st with
        q := st.q.map fun y => if y.remote.contains tag && y.fail = 0 then { y with fail := 8 } else y
        acks := st.acks.filter (· ≠ tag) }) s with
      fab := { s.fab with pend := mapErase s.fab.pend tag } }
  | .copy x tag => failOp x 9 8 { s with fab := { s.fab with pend := mapErase s.fab.pend tag } }
  | .coll x => abortJob x 1 s

/-- Tells every owner; an abort's own messages are control and lose no owner. RING_BROKEN is raised first and its abort
comes last, so that a collective whose data have no path ends with LINK_ABORT everywhere, the lower cause (R286, R287). -/
def tellAll (s : State) : State :=
  let rings := brokenRings s
  let lost := s.fab.lost
  let s := rings.foldl (fun s r => pathBroken r.1 r.2 s) { s with fab := { s.fab with lost := [] } }
  let s := lost.foldl (fun s o => tellLost o.1 s) s
  rings.foldl (fun s r => abortJob r.1 4 s) s

/-- Sends a message with an owner. -/
def send (m : Msg) (o : Owner) (s : State) : State := tellAll (post m o s)

/-! ## Demand reads of HBM (R233, R234, R237, R238, R242) -/

/-- The allotment that holds byte H of a die (R240). -/
def allotAt (s : State) (d h : Nat) : Option Allot :=
  (s.hbm.allots.find? fun a => match a.2.runs[d]? with
    | some (b, n) => b ≤ h && h < b + 65536 * n
    | none => false).map (·.2)

/-- The owning context of a unit (R242): a context, 0xFF the package, 0xFE none. `ctx` is the context on whose behalf
the read was made. -/
def ownerCtx (s : State) (d h : Nat) (ctx : Option Nat) : Nat :=
  if h < reserveTop then 0xFF
  else if captureBase s ≤ h && h < hbmTop then (if recMode s ≠ 0 then recCtx s else 0xFE)
  else match allotAt s d h with
    | some a => a.ctx
    | none => ctx.getD 0xFE

/-- AGENT of HBM_UE_INFO. -/
def agentCode : Agent → Nat
  | .stream .. => 0
  | .rowEngine .. => 1
  | .sequencer .. => 2
  | .carousel .. => 3
  | .core .. => 4
  | .host => 5
  | .command .. => 5
  | .remote => 6
  | .fabOp .. => 6
  | .loader .. => 5
  | .boot => 7
  | .icu .. => 7
  | .replay .. => 7

/-- The contexts that an uncorrectable unit of an owner code concerns: of the system reserve, every open one (R237). -/
def ueContexts (s : State) (owner : Nat) : List Nat :=
  if owner < 8 then [owner] else if owner = 0xFF then (List.range 8).filter (ctxOpen s) else []

/-- The event and the halts of one uncorrectable unit for one owner code, once for each unit and context until that context
is next opened (R238). -/
def ueOwner (d c u owner : Nat) (s : State) : State :=
  let key := (unitKey d u, owner)
  let new := (ueContexts s owner).filter fun x => !s.hbm.ueRaised.contains (unitKey d u, x)
  if s.hbm.ueRaised.contains key && new = [] then s
  else
    let s := { s with hbm := { s.hbm with ueRaised := (s.hbm.ueRaised.filter (· ≠ key)) ++ (key :: (new.filter (· ≠ owner)).map fun x => (unitKey d u, x)) } }
    let st := if owner < 8 then stepOf s owner else 0
    let s := raise { die := d, code := 0x0403, ctx := if owner < 8 then some owner else none,
                     p0 := d + (2 * d + c) * 2 ^ 8 + owner * 2 ^ 16, p1 := u, p2 := st, p3 := st / 2 ^ 32 } s
    new.foldl (fun s x => abortJob x 5 s) s

/-- Records and reports a failed read (R237, R238). -/
def markUe (a : Agent) (ctx : Option Nat) (d u : Nat) (s : State) : State :=
  let h := 64 * u
  let c := ctrlOf h
  let owner := ownerCtx s d h ctx
  let info := aHbm d c 0x10
  let sys := h < reserveTop || (captureBase s ≤ h && h < hbmTop)
  let s := if regF s info 31 31 = 1 then bumpF info 15 0 s
    else
      let st := if owner < 8 then stepOf s owner else 0
      hwPut info (2 ^ 31 + bit sys 30 + (if owner < 8 then owner else 0) * 2 ^ 27 + agentCode a * 2 ^ 24 + bit (owner = 0xFE) 23 + 1)
        (hwPut64 (aHbm d c 0x18) h (hwPut64 (aHbm d c 0x20) st s))
  ueOwner d c u owner s

/-- Counts a corrected read: HBM_CE_COUNT, the correction queue, and the notice of the sweep. -/
def markCe (d u : Nat) (demand : Bool) (s : State) : State :=
  let c := ctrlOf (64 * u)
  let k := 2 * d + c
  let s := bump (aHbm d c 8) s
  let q := mapGet [] s.hbm.cq k
  let n := mapGet 0 s.hbm.sweepCe k + 1
  let s := { s with hbm := { s.hbm with
    sweepCe := mapSet 0 s.hbm.sweepCe k n
    cq := if demand && q.length < 16 && !q.contains u then mapSet [] s.hbm.cq k (q ++ [u]) else s.hbm.cq } }
  let s := putRegF (aHbm d c 0) 2 2 (bit (16 ≤ (mapGet [] s.hbm.cq k).length) 0) s
  let lim := reg s (aHbm d c 0xC)
  if lim ≠ 0 && n = lim then raise { die := d, code := 0x0401, p0 := d, p1 := 2 * d + c } s else s

/-- One stored unit passes the decoder; `false` where it is uncorrectable. -/
def readStored (a : Agent) (ctx : Option Nat) (d u : Nat) (s : State) : State × Bool :=
  let e := unitErrs s d u
  if e.isEmpty then (s, true)
  else match decodeErrs e with
    | .bad => (markUe a ctx d u s, false)
    | .delivered _ true => (markCe d u true s, true)
    | .delivered _ false => (s, true)

/-- The same for an agent's own read, which finds the unit that it has written and that waits (R229). -/
def readUnit (a : Agent) (ctx : Option Nat) (d u : Nat) (s : State) : State × Bool :=
  if ownWhole a s d u then (s, true) else readStored a ctx d u s

/-- Units pass the decoder. -/
def decodeUnits (a : Agent) (ctx : Option Nat) (d : Nat) (us : List Nat) (s : State) : State × Bool :=
  us.foldl (fun (acc : State × Bool) u =>
    let (s, b) := readUnit a ctx d u acc.1
    (s, acc.2 && b)) (s, true)

/-- A demand read of n bytes: `none` where a unit is uncorrectable. Its units take their slots of the frame afterwards
(log entry 42). -/
def hbmRead (a : Agent) (ctx : Option Nat) (d h n : Nat) (s : State) : State × Option (List Byte) :=
  let bytes := hbmPeek a d h n s
  let (s, good) := decodeUnits a ctx d (unitsOf h n) s
  ((postRead a d (unitsOf h n) s).1, if good then some bytes else none)

/-- A read in a maintenance window takes no slot of the frame (R346). -/
def maintRead (a : Agent) (ctx : Option Nat) (d h n : Nat) (s : State) : State × Option (List Byte) :=
  let bytes := hbmPeek a d h n s
  let (s, good) := decodeUnits a ctx d (unitsOf h n) s
  (s, if good then some bytes else none)

/-- A demand read by global address. A place that is not this package's memory reads as zero bytes (log entry 40). -/
def readGa (a : Agent) (ctx : Option Nat) (ga n : Nat) (s : State) : State × Option (List Byte) :=
  match placeOf s ga with
  | .hbm d h => hbmRead a ctx d h n s
  | .scr d t o => (s, some (readScr (engine d t) o n s))
  | _ => (s, some (List.replicate n 0))

/-- A demand read whose failure first ends the reader's own work (R237, step 1). -/
def demand (a : Agent) (ctx : Option Nat) (d h n : Nat) (onBad : State → State) (onGood : List Byte → State → State) (s : State) : State :=
  if (unitsOf h n).any (badFor a s d) then (hbmRead a ctx d h n (onBad s)).1
  else
    match hbmRead a ctx d h n s with
    | (s, some b) => onGood b s
    | (s, none) => s

/-- The same by global address. -/
def demandGa (a : Agent) (ctx : Option Nat) (ga n : Nat) (onBad : State → State) (onGood : List Byte → State → State) (s : State) : State :=
  match placeOf s ga with
  | .hbm d h => demand a ctx d h n onBad onGood s
  | .scr d t o => onGood (readScr (engine d t) o n s) s
  | _ => onGood (List.replicate n 0) s

end Sys2Proof.Machine
end

