-- ==== Sys2Proof/Machine/Command.lean ====
section
/-! DEFINITION. How a command begins (R358–R361, R367, R370, R382): order, fences, the checks of its descriptor, and its
place in the arbitration window. -/

namespace Sys2Proof.Machine

/-- The operand words of an opcode; none for a reserved one (R361). -/
def opWords (op : Nat) : Option Nat :=
  match op with
  | 0x01 => some 5
  | 0x02 | 0x04 | 0x07 | 0x11 | 0x14 | 0x1A | 0x1B => some 0
  | 0x03 | 0x19 => some 7
  | 0x05 => some 6
  | 0x06 => some 3
  | 0x10 | 0x12 | 0x13 => some 2
  | 0x15 => some 4
  | 0x16 => some 1
  | 0x17 | 0x18 => some 5
  | _ => none

/-- The opcode is defined, and valid where the command stands (R361, R382). -/
def opAllowed (x : Cmd) : Bool :=
  (opWords (cmdOp x)).isSome && (match x.src with
    | .ring r => (cmdOp x < 0x10) == (r.val == 0)
    | .core _ => true)

/-- Byte offset of operand word Ai. -/
def offA (i : Nat) : Nat := 0x10 + 4 * i

/-- The offsets of operands that break a limit of their opcode (R355, R361, R367, R428, R430). -/
def badOperands (x : Cmd) : List Nat :=
  let a := cmdA x
  match cmdOp x with
  | 0x01 => ((List.range 5).filter fun i => a i / 2 ^ 16 ≠ 0).map offA
  | 0x03 =>
    (if a 0 % 64 ≠ 0 then [offA 0] else []) ++ (if a 2 % 16 ≠ 0 then [offA 2] else []) ++ (if a 4 % 32 ≠ 0 then [offA 4] else []) ++
      (if a 6 / 2 ^ 12 ≠ 0 || [0, 4, 8].any (fun s => !(4 ≤ bitsOf (a 6) (s + 3) s && bitsOf (a 6) (s + 3) s ≤ 12)) then [offA 6] else [])
  | 0x05 => if a 5 / 2 ≠ 0 then [offA 5] else []
  | 0x06 => if a 0 % 4096 ≠ 0 then [offA 0] else []
  | 0x15 => (if 2 ≤ a 0 && a 0 ≤ 5 then [] else [offA 0]) ++ (if a 1 = 0 then [offA 1] else [])
  | 0x17 | 0x18 => if a 4 = 0 then [offA 4] else []
  | 0x19 => if a 6 = 0 then [offA 6] else []
  | _ => []

def gaOfCopy (x : Cmd) : Nat := if cmdOp x = 0x17 then cmdA64 x 2 else cmdA64 x 0

/-- The bytes of a COPY lie on this package. -/
def copyPlaced (s : State) (x : Cmd) : Bool :=
  match placeRun s (gaOfCopy x) (cmdA x 4) with
  | .hbm _ _ => true
  | .scr _ _ _ => true
  | _ => false

/-- The allotment that a FREE names is one that its context may free (R361). -/
def freeable (s : State) (x : Cmd) : Bool :=
  match mapLookup s.hbm.allots (cmdA x 0) with
  | some a => a.ctx = cmdCtx x && 2 ≤ a.cat && a.cat ≤ 5
  | none => false

/-- The offset of an operand that the state of the package rules out: the address of a COPY, the allotment of a FREE. -/
def badNow (s : State) (x : Cmd) : Option Nat :=
  match cmdOp x with
  | 0x16 => if freeable s x then none else some (offA 0)
  | 0x17 => if copyPlaced s x then none else some (offA 2)
  | 0x18 => if copyPlaced s x then none else some (offA 0)
  | _ => none

/-- Byte offset of the first offending field of a descriptor (R22, R359, R360). What the state rules out counts here where
another operand is bad too; else it is judged as the command acts. -/
def cmdBad (s : State) (x : Cmd) : Option Nat :=
  match opWords (cmdOp x) with
  | none => some 0
  | some n =>
    let ring := match x.src with | .ring _ => true | .core _ => false
    let op := cmdOp x
    if !opAllowed x then some 0
    else if bitsOf (cmdWord x 0) 18 0 ≠ 0 || ((ring || op < 0x10) && op ≠ 3 && op ≠ 4 && bitsOf (cmdWord x 0) 21 19 ≠ 0) then some 0
    else if cmdWord x 3 ≠ 0 then some 0xC
    else
      let unused := ((List.range 10).filter fun i => n ≤ i && cmdA x i ≠ 0).map offA
      let all := unused ++ badOperands x ++ (if cmdWord x 14 ≠ 0 then [0x38] else []) ++ (if cmdWord x 15 ≠ 0 then [0x3C] else [])
      let all := if all.isEmpty then [] else all ++ (badNow s x).toList
      all.foldl (fun m o => match m with | some p => some (min p o) | none => some o) none

/-- The commands of a source that were fetched before a command and have not completed. -/
def earlierCmds (s : State) (x : Cmd) : List (Nat × Cmd) :=
  s.host.cmds.filter fun e => e.2.src = x.src && e.2.seqNo < x.seqNo

/-- IDV_BOOT.STAGE (R422): 0–7, 8 RECOVERY, 9 FAILED. -/
def bootStage (s : State) : Nat := regF s (aIdv 0 8) 31 28

/-- A core's port holds a command that is posted and that nothing keeps from being fetched. -/
def corePosted (s : State) (c : Core) : Bool :=
  let d := c.val / 4
  let j := c.val % 4
  let n := 2 ^ regF s (aLcc d j 0x28) 3 0
  regF s (aLcc d j 0x2C) 9 0 % n ≠ reg s (aLcc d j 0x30) % n && (s.host.cmds.all fun e => e.2.src ≠ .core c || e.2.begun)

/-- Among commands of cores' ports whose doorbells came in one tick, the lowest core's begins first (R382). -/
def coreTurn (s : State) (x : Cmd) : Bool :=
  match x.src with
  | .ring _ => true
  | .core k =>
    ((List.finRange 32).all fun l => k.val ≤ l.val || (getCore s l.val).bellAt ≠ (getCore s k.val).bellAt || !corePosted s l) &&
    s.host.cmds.all fun e => match e.2.src with
      | .ring _ => true
      | .core l => e.2.begun || k.val ≤ l.val || (getCore s l.val).bellAt ≠ (getCore s k.val).bellAt ||
          !((earlierCmds s e.2).all (fun f => f.2.begun)) || (cmdFence e.2 && !(earlierCmds s e.2).isEmpty)

/-- The command may begin now (R358; after a bridge fault none does, but that FAILED refuses them, R26, R427; after a re-grade none does, R320), and carries one of the given opcodes where its source admits it. -/
def canBegin (s : State) (c : Nat) (ok : Cmd → Bool) : Bool :=
  match getCmd s c with
  | some x => !x.begun && ok x && (!s.boot.bridgeFault || bootStage s = 9) && regF s (aGct 0 0x64) 9 8 ≠ 2 && coreTurn s x && (earlierCmds s x).all (fun e => e.2.begun) &&
      (!cmdFence x || (earlierCmds s x).isEmpty)
  | none => false

/-- Opcodes whose actions can contradict another master's (R371): those on a context, and its opening and closing. -/
def windowed (op : Nat) : Bool := op = 3 || op = 4 || (0x10 ≤ op && op ≤ 0x1B)

/-- The sequence number that an internal command port assigns as a command begins (R382). -/
def numberCore (c : Nat) (s : State) : State :=
  match getCmd s c with
  | some x =>
    match x.src with
    | .core k =>
      let d := k.val / 4
      let j := k.val % 4
      let n := 2 ^ regF s (aLcc d j 0x28) 3 0
      let s := putReg (aLcc d j 0x30) ((reg s (aLcc d j 0x30) + 1) % n) s
      let t := setCmd c { x with words := x.words.set 1 (BitVec.ofNat 32 s.host.coreSeq) } s
      { t with host := { t.host with coreSeq := (s.host.coreSeq + 1) % 2 ^ 32 } }
    | .ring _ => s
  | none => s

/-- A command begins: it is refused as it stands, waits for its window's end (R370), or acts where it is on no object of
R371. -/
def beginCmd (c : Nat) (act : Nat → State → State) (s : State) : State :=
  let s := modCmd c (fun x => { x with begun := true }) (numberCore c s)
  match getCmd s c with
  | none => s
  | some x =>
    if bootStage s = 9 && cmdOp x < 0x10 then completeCmd c 4 0 s
    else if bootStage s = 8 && (cmdOp x = 1 || cmdOp x = 5) then completeCmd c 4 0 s
    else if bootStage s ≠ 8 && !s.host.negotiated && cmdOp x = 2 then completeCmd c 4 0 s
    else if !s.host.negotiated && !([1, 5, 6].contains (cmdOp x)) then completeCmd c 2 0 s
    else
      match cmdBad s x with
      | some o => completeCmd c 1 o s
      | none =>
        if windowed (cmdOp x) then joinWindow (.cmd c) s else act c s

/-- COPY commands whose bytes have all moved and are visible complete (R361). -/
def settleCopies (s : State) : State :=
  (s.host.cmds.filter fun c => c.2.begun && cmdOp c.2 = 0x17 && c.2.phase = 2 && c.2.left = 0 && c.2.wids.all (widVisible s)).foldl
    (fun s c => completeCmd c.1 0 0 s) s

/-- A command that no row begins, since its opcode is reserved or not valid in its ring, is refused as it begins
(R22, R359). -/
def refuseReserved (s : State) : State :=
  (s.host.cmds.map (·.1)).foldl (fun s c => if canBegin s c (fun x => !opAllowed x) then beginCmd c (fun _ s => s) s else s) s

/-- The command, where it is one of the context's. -/
def ofCtx (s : State) (c : Nat) (x : Ctx) : Bool := (getCmd s c).any fun y => cmdCtx y = x.val

/-- The row of a command of one opcode. -/
def cmdRow (op c : Nat) (act : Nat → State → State) (s : State) : Outcome :=
  onlyIf (fun s => canBegin s c (fun x => opAllowed x && cmdOp x = op)) (fun s => refuseReserved (beginCmd c act s)) s

/-- The row of a command of one opcode that also names the context. -/
def ctxRow (op c : Nat) (x : Ctx) (act : Nat → State → State) (s : State) : Outcome :=
  if ofCtx s c x then cmdRow op c act s else onlyIf (fun _ => false) id s

end Sys2Proof.Machine
end

