-- ==== Sys2Proof/Machine/Crypto.lean ====
section
/-! DEFINITION. The digests and signatures that the manual takes from its standards: SHA-256 (FIPS 180-4), HMAC (FIPS
198-1) and ECDSA on P-256 (FIPS 186-5), with the encodings of R415. -/

namespace Sys2Proof.Machine

/-- Big-endian value of bytes, and big-endian bytes of a value. -/
def beNat (l : List Byte) : Nat := l.foldl (fun a b => a * 256 + b.toNat) 0
def natBE (n v : Nat) : List Byte := (natLE n v).reverse

/-! ## SHA-256 (R415)

The standard takes its constants from the roots of the first primes, and they are computed so here. The eight working
variables are four successive values of each of two sequences, and the message schedule is the window of the sixteen words
that come next. -/

/-- The whole part of the k-th root of x, where it is below 2^36: bit by bit from the top. -/
def wholeRoot (k x : Nat) : Nat := (List.range 36).foldr (fun i r => if (r + 2 ^ i) ^ k ≤ x then r + 2 ^ i else r) 0

/-- The first 32 bits after the point of the k-th root of p. -/
def rootFraction (k p : Nat) : Nat := wholeRoot k (p * 2 ^ (32 * k)) % 2 ^ 32

/-- The 64 primes below 312: none has a divisor from 2 to 17 but itself. -/
def shaPrimes : List Nat := (List.range 312).filter fun p => 2 ≤ p && (List.range 18).all fun q => q < 2 || p ≤ q || p % q ≠ 0

/-- The constants of the 64 rounds, and the first hash value. -/
def shaRounds : List Nat := shaPrimes.map (rootFraction 3)
def shaFirst : List Nat := (shaPrimes.take 8).map (rootFraction 2)

/-- A 32-bit word turned right by n: the word written twice, from bit n on. -/
def turned (n x : Nat) : Nat := x * (2 ^ 32 + 1) / 2 ^ n % 2 ^ 32

/-- Where the bits of e are set those of f, elsewhere those of g. -/
def pickBits (e f g : Nat) : Nat := (e &&& f) + ((2 ^ 32 - 1 - e) &&& g)

/-- The bits that two of three words have set. -/
def mostBits (a b c : Nat) : Nat := (a &&& b) ||| (c &&& (a ||| b))

/-- The words that come next: one is used, and the word sixteen places on joins them. -/
def nextWords (w : List Nat) : List Nat :=
  let one := w.getD 1 0
  let late := w.getD 14 0
  w.drop 1 ++ [(w.headD 0 + w.getD 9 0 + (turned 7 one ^^^ turned 18 one ^^^ one / 8) +
    (turned 17 late ^^^ turned 19 late ^^^ late / 1024)) % 2 ^ 32]

/-- One round: a new value of either sequence. -/
def shaTurn (st : List Nat × List Nat × List Nat) (k : Nat) : List Nat × List Nat × List Nat :=
  match st with
  | ([a, b, c, d], [e, f, g, h], w) =>
    let t := h + k + w.headD 0 + pickBits e f g + (turned 6 e ^^^ turned 11 e ^^^ turned 25 e)
    let u := mostBits a b c + (turned 2 a ^^^ turned 13 a ^^^ turned 22 a)
    ([(t + u) % 2 ^ 32, a, b, c], [(t + d) % 2 ^ 32, e, f, g], nextWords w)
  | _ => st

/-- One block of 64 bytes. -/
def shaBlock (hash : List Nat) (block : List Byte) : List Nat :=
  let (p, q, _) := shaRounds.foldl shaTurn (hash.take 4, hash.drop 4, (List.range 16).map fun i => beNat ((block.drop (4 * i)).take 4))
  List.zipWith (fun x y => (x + y) % 2 ^ 32) hash (p ++ q)

/-- The message with its padding and its length in bits, a whole number of blocks. -/
def shaMessage (l : List Byte) : List Byte :=
  l ++ [0x80] ++ List.replicate (63 - (l.length + 8) % 64) 0 ++ natBE 8 (8 * l.length)

/-- The 32-byte SHA-256 digest. -/
def sha256 (l : List Byte) : List Byte :=
  let m := shaMessage l
  (((List.range (m.length / 64)).foldl (fun h i => shaBlock h ((m.drop (64 * i)).take 64)) shaFirst).map (natBE 4)).flatten

/-- HMAC-SHA-256. -/
def hmac (key msg : List Byte) : List Byte :=
  let k0 := if key.length > 64 then sha256 key else key
  let k := k0 ++ List.replicate (64 - k0.length) 0
  sha256 (k.map (· ^^^ 0x5C) ++ sha256 (k.map (· ^^^ 0x36) ++ msg))

/-! ## P-256 -/

def pP : Nat := 2 ^ 256 - 2 ^ 224 + 2 ^ 192 + 2 ^ 96 - 1
def pN : Nat := 0xFFFFFFFF00000000FFFFFFFFFFFFFFFFBCE6FAADA7179E84F3B9CAC2FC632551
def pB : Nat := 0x5AC635D8AA3A93E7B3EBBD55769886BC651D06B0CC53B0F63BCE3C3E27D2604B
def pGx : Nat := 0x6B17D1F2E12C4247F8BCE6E563A440F277037D812DEB33A0F4A13945D898C296
def pGy : Nat := 0x4FE342E2FE1A7F9B8EE7EB4A7C0F9E162BCE33576B315ECECBB6406837BF51F5

/-- x to the power e modulo m, over the 256 bits of e. -/
def modPow (x e m : Nat) : Nat :=
  (List.range 256).reverse.foldl (fun a i => let a := a * a % m; if bitsOf e i i = 1 then a * x % m else a) 1

def modInv (x m : Nat) : Nat := modPow (x % m) (m - 2) m

/-- An affine point; none is the point at infinity. -/
abbrev Pt := Option (Nat × Nat)

def ptAdd (a b : Pt) : Pt :=
  match a, b with
  | none, q => q
  | p, none => p
  | some (x1, y1), some (x2, y2) =>
    if x1 = x2 && (y1 + y2) % pP = 0 then none
    else
      let l := if x1 = x2 then (3 * x1 * x1 + pP - 3) * modInv (2 * y1) pP % pP
        else (y2 + pP - y1) * modInv (x2 + pP - x1) pP % pP
      let x3 := (l * l + 2 * pP - x1 - x2) % pP
      some (x3, (l * (x1 + pP - x3) + pP - y1) % pP)

def ptMul (k : Nat) (p : Pt) : Pt :=
  (List.range 256).reverse.foldl (fun a i => let a := ptAdd a a; if bitsOf k i i = 1 then ptAdd a p else a) none

def ptG : Pt := some (pGx, pGy)

/-- The 65-byte public key of a secret. -/
def pubOf (d : Nat) : List Byte :=
  match ptMul d ptG with
  | some (x, y) => 0x04 :: (natBE 32 x ++ natBE 32 y)
  | none => List.replicate 65 0

/-- Reads a 65-byte public key: a point of the curve. -/
def readPub (b : List Byte) : Pt :=
  let x := beNat ((b.drop 1).take 32)
  let y := beNat ((b.drop 33).take 32)
  if b.length = 65 && b.headD 0 = 0x04 && x < pP && y < pP && y * y % pP = (x * x * x + (pP - 3) * x + pB) % pP then some (x, y)
  else none

/-- r and s of an ECDSA signature of a digest with a nonce. -/
def ecdsaPair (d z nonce : Nat) : Nat × Nat :=
  let k := nonce % (pN - 1) + 1
  let r := match ptMul k ptG with | some (x, _) => x % pN | none => 0
  (r, modInv k pN * ((z + r * d) % pN) % pN)

/-- The first draw of a nonce, from draw i on, for which neither r nor s is 0 (FIPS 186-5). -/
def ecdsaDraw (d z : Nat) (nonce : Nat → Nat) : Nat → Nat → Nat × Nat
  | 0, i => ecdsaPair d z (nonce i)
  | n + 1, i =>
    let p := ecdsaPair d z (nonce i)
    if p.1 = 0 || p.2 = 0 then ecdsaDraw d z nonce n (i + 1) else p

/-- An ECDSA signature of a message: r, then s (R415). As many nonces are drawn as it takes, up to the order of the group. -/
def ecdsaSign (d : Nat) (nonce : Nat → Nat) (msg : List Byte) : List Byte :=
  let p := ecdsaDraw d (beNat (sha256 msg)) nonce pN 0
  natBE 32 p.1 ++ natBE 32 p.2

/-- Verifies a 64-byte signature over a message under a public key. -/
def ecdsaVerify (pub msg sig : List Byte) : Bool :=
  let r := beNat (sig.take 32)
  let s := beNat ((sig.drop 32).take 32)
  let z := beNat (sha256 msg)
  match readPub pub with
  | none => false
  | some q =>
    if r = 0 || s = 0 || r ≥ pN || s ≥ pN then false
    else
      let w := modInv s pN
      match ptAdd (ptMul (z * w % pN) ptG) (ptMul (r * w % pN) (some q)) with
      | some (x, _) => x % pN = r
      | none => false

end Sys2Proof.Machine
end

