-- ==== Sys2Proof/Machine/Leave.lean ====
section
/-! DEFINITION. Leave to start (R400–R405): the budget of a die, its grants and the requests that wait for one, and the
return of grants that no longer fit. -/

namespace Sys2Proof.Machine

/-- The charge of a class of grid issue: 0 4-bit, 1 8-bit, 2 16-bit (R401). -/
def gridMw (k : Nat) : Nat := if k = 0 then 2400 else if k = 1 then 2000 else 1700

/-- The grid grant that a tile holds. -/
def gridGrant (s : State) (e : Nat) : Option LeaveGrant := (grantsOf s (e / 40)).find? fun g => g.src = e % 40

def modGrant (d src : Nat) (f : LeaveGrant → LeaveGrant) (s : State) : State :=
  setGrants d ((grantsOf s d).map fun g => if g.src = src then f g else g) s

/-- The task context with an open chain that has the grid. -/
def chainHolder (s : State) (e : Nat) : Option Nat :=
  (List.range 4).find? fun n => (getTctx s e n).chain.isSome && (getTctx s e n).chainOn

/-! ## The period of issue (R83) -/

/-- RAMP of a tile, in cycles. -/
def rampCycles (s : State) (d t : Nat) : Nat := 32 + 16 * regF s (aTil d t 0x800) 1 0

/-- End of the start ramp. -/
def rampEnd (s : State) (e : Nat) : Nat := (getTile s e).phaseAt + rampCycles s (e / 40) (e % 40)

/-- End of the hold: null vectors are issued for 8 cycles behind the last real vector, or behind the start ramp. -/
def holdEnd (s : State) (e : Nat) : Nat := max (getTile s e).endAt (rampEnd s e) + 8

/-- A period of issue goes straight to its stop ramp, once its start ramp and its real vectors are over. -/
def stopPeriod (e : Nat) (s : State) : State :=
  let at_ := max (cycleOf s) (max (getTile s e).endAt (rampEnd s e))
  modTile e (fun t => { t with phase := 4, phaseAt := at_ }) s

/-- The tile must return its grant before its next row group: marked, and not inside an open chain (R405). -/
def mustReturn (s : State) (e : Nat) : Bool :=
  (match gridGrant s e with | some g => g.marked | none => false) && (chainHolder s e).isNone

/-- At a row-group boundary, a period of issue whose grant is marked goes to its stop ramp. -/
def returnIfMarked (e : Nat) (s : State) : State :=
  if mustReturn s e && (getTile s e).phase = 2 && !(getTile s e).streaming then stopPeriod e s else s

/-- Marks grid grants, newest first, until the charges that remain unmarked fit; each counts in POWER_HOLD. -/
def markReturns (d : Nat) (s : State) : State :=
  let b := budgetOf s d
  let gs := grantsOf s d
  let step (acc : Nat × List Nat) (g : LeaveGrant) : Nat × List Nat :=
    if acc.1 ≤ b || 40 ≤ g.src || g.marked then acc else (acc.1 - g.mw, acc.2 ++ [g.src])
  let (_, new) := gs.reverse.foldl step (sumMw (gs.filter fun g => !g.marked), [])
  let s := setGrants d (gs.map fun g => if new.contains g.src then { g with marked := true } else g) s
  new.foldl (fun s t => returnIfMarked (d * 40 + t) (ndc 8 d s)) s

/-- The manager looks at its oldest request: it is granted at most every 4 cycles, or everything that waits is held,
each request counted once (R403, R404). After a thermal trip nothing is granted (R412). -/
def leavePump (d : Nat) (s : State) : State :=
  match reqsOf s d with
  | [] => s
  | q :: rest =>
    let now := cycleOf s
    if s.pwr.tripped || now < mapGet 0 s.pwr.nextGrant d then s
    else if charges s d + q.mw ≤ budgetOf s d then
      let g : LeaveGrant := { src := q.tile, mw := q.mw, due := (if q.held then now else q.since) + 10 }
      let s := setReqs d rest (setGrants d (grantsOf s d ++ [g]) s)
      { s with pwr := { s.pwr with nextGrant := mapSet 0 s.pwr.nextGrant d (now + 4) } }
    else
      let n := ((q :: rest).filter fun r => !r.held).length
      let s := setReqs d ((q :: rest).map fun r => { r with held := true }) s
      (List.range n).foldl (fun s _ => ndc 8 d s) s

/-- The manager's work at an edge, with its registers. -/
def manage (d : Nat) (s : State) : State := showPwr d (leavePump d s)

/-- The budget of a die has changed: grants that no longer fit are marked, and requests are looked at again (R405). -/
def rebudget (d : Nat) (s : State) : State := manage d (markReturns d s)

/-- A request enters its place: oldest first, and in ascending engine index at one edge (R404). -/
def insertReq (q : LeaveReq) : List LeaveReq → List LeaveReq
  | [] => [q]
  | r :: l => if q.since < r.since || (q.since = r.since && q.tile < r.tile) then q :: r :: l else r :: insertReq q l

/-- A charge is released (R401). -/
def release (d src : Nat) (s : State) : State := manage d (setGrants d ((grantsOf s d).filter fun g => g.src ≠ src) s)

end Sys2Proof.Machine
end

