-- ==== Sys2Proof/Machine/Claims.lean ====
section
/-! DEFINITION. Claim sets and the choice of the task context that is given the grid (R103–R106, R123). -/

namespace Sys2Proof.Machine

/-- Slots that the k-th loaded entry is read from: a 16-bit Z4 load leaves the slot of source column 127 out (R95, R111). -/
def sourceSlots (b : List Byte) (k : Nat) : List Nat :=
  let es := entryElems (tdW b) (tdWS b) k
  (if tdZ4 b && codeBits (tdW b) = 16 then es.dropLast else es) ++ entryScales (tdW b) (tdWSS b) k

/-- The claims that the next row group of a run still needs (R104). A slot that an earlier row group of the task claimed
stands claimed and is not claimed again (DESIGN CHOICE, log entry 98). -/
def claimSet (s : State) (e : Nat) (r : Run) : List Claim :=
  let b := r.desc
  let subs := tdSubs b r.tab
  let batch := tdBatchOf b r.issued
  let last := !tdChain b
  let xs := (xSlots b subs batch).map fun sl => ({ slot := sl, kind := if tdXAcc b = 1 then .consume else .peek } : Claim)
  let ys := if last then (ySlots b subs batch).map fun sl => ({ slot := sl, kind := .fill } : Claim) else []
  let ws := if r.loadsBegun then []
    else ((tdLoads b).map fun (_, k) => sourceSlots b k).flatten.map fun sl => ({ slot := sl, kind := .source } : Claim)
  ((if tdOp b = 1 then xs ++ ys else []) ++ ws).filter fun c => isTagged s e c.slot && !r.claims.contains c

/-- The lowest slot of a claim set that cannot be claimed at this edge. -/
def blocking (s : State) (e : Nat) (cs : List Claim) : Option Claim :=
  (cs.filter fun c => !claimable s e c.slot c.kind).foldl
    (fun m c => match m with | some x => if c.slot < x.slot then some c else some x | none => some c) none

/-- TIL_TCTXn_BLOCK for a blocking claim: KIND and SLOT. -/
def blockOf (s : State) (e : Nat) (c : Claim) : Nat × Nat := (blockKind (seenTag s e c.slot) c.kind, c.slot)

/-- The claim that keeps a task context's next row group waiting. -/
def blockedOn (s : State) (e n : Nat) : Option Claim :=
  match (getTctx s e n).runs.getLast? with
  | some r => blocking s e (claimSet s e r)
  | none => none

/-- READY with every slot of its claim set claimable at this edge. -/
def canClaim (s : State) (e n : Nat) : Bool :=
  (getTctx s e n).st = 3 && match (getTctx s e n).runs.getLast? with
    | some r => tdOp r.desc ≠ 0x03 && (blocking s e (claimSet s e r)).isNone
    | none => false

/-- The task context that ORDERED gives the grid next (R105). -/
def orderedNext (t : TileS) (get : Nat → TaskCtx) : Option Nat :=
  let alive (n : Nat) : Bool := (get n).st ≠ 0 && (get n).st ≠ 5
  if alive t.last && !t.yielded then some t.last
  else ((List.range 4).map fun k => (t.last + 1 + k) % 4).find? alive

/-- A READY task context may be given the grid (R105, R126). -/
def mayHave (s : State) (e n : Nat) : Bool :=
  match chainHolder s e with
  | some m => n = m
  | none => if (getTile s e).ordered then orderedNext (getTile s e) (getTctx s e) = some n else true

/-- The task context that the scheduling mode gives the grid (R75, R105). -/
def chooseTctx (s : State) (e : Nat) : Option Nat :=
  let t := getTile s e
  match chainHolder s e with
  | some m => if canClaim s e m then some m else none
  | none =>
    if t.ordered then
      match orderedNext t (getTctx s e) with
      | some n => if canClaim s e n then some n else none
      | none => none
    else ((List.range 4).map fun k => (t.last + (if t.yielded then 1 else 0) + k) % 4).find? (canClaim s e)

/-- The task context to which the sequencer gives the grid at this edge. -/
def nextHolder (s : State) (e : Nat) : Option Nat :=
  let t := getTile s e
  if t.cur.isNone && !t.fenced && !(List.range 4).any (fun n => (getTctx s e n).runs.any (·.failed)) then chooseTctx s e else none

/-- The tile sequencer claims the slot at this edge: it goes before every other agent (R123). -/
def seqTakes (s : State) (e slot : Nat) : Bool :=
  match nextHolder s e with
  | some n => (match (getTctx s e n).runs.getLast? with
    | some r => (claimSet s e r).any (·.slot == slot)
    | none => false)
  | none => false

end Sys2Proof.Machine
end

