-- ==== Sys2Proof/Machine/Stones.lean ====
section
/-! DEFINITION. The stones that a die holds: their headers, their turn, their bindings, the slots that they place into or
consume (R161, R173, R175, R179, R180, R183), and the slots that the carousel claims at an edge (R123). -/

namespace Sys2Proof.Machine

def agCar (d : Nat) : Agent := .carousel (Fin.ofNat 8 d)

/-! ## Stone headers (R161, R162) -/

def shKind (h : List Byte) : Nat := hdr h 0 31 28
def shNopay (h : List Byte) : Bool := hdr h 0 27 27 = 1
def shDir (h : List Byte) : Nat := hdr h 0 26 26
def shLast (h : List Byte) : Bool := hdr h 0 25 25 = 1
def shLane (h : List Byte) : Nat := hdr h 0 24 22
def shFmt (h : List Byte) : Nat := hdr h 0 21 18
def shBlocks (h : List Byte) : Nat := hdr h 0 17 10
def shModel (h : List Byte) : Nat := wordAt h 4
def shVersion (h : List Byte) : Nat := hdr h 8 15 0
def shTensor (h : List Byte) : Nat := wordAt h 0xC
def shOrigin (h : List Byte) : Nat := hdr h 0x10 31 16
def shMb (h : List Byte) : Nat := hdr h 0x10 15 0
def shGen (h : List Byte) : Nat := hdr h 0x14 31 16
def shPos (h : List Byte) : Nat := hdr h 0x14 6 0
def shSeq (h : List Byte) : Nat := wordAt h 0x18
def shBlock0 (h : List Byte) : Nat := wordAt h 0x1C
def shJob (h : List Byte) : Nat := wordAt h 0x20
def shCircuit (h : List Byte) : Nat := wordAt h 0x24
def shFrag (h : List Byte) : List Byte := (h.drop 0x28).take 8

/-- Element bytes and scale bytes of an entry block in a format (R158). -/
def blockElemBytes (f : Nat) : Nat := if codeBits f = 4 then 8192 else if codeBits f = 8 then 16384 else if codeBits f = 16 then 32768 else 65536
def blockScaleBytes (f : Nat) : Nat := if codeBlocked f then 512 else 0
def payloadBytes (f b : Nat) : Nat := b * (blockElemBytes f + blockScaleBytes f)

/-! ## Stones held (R173, R179) -/

def stonesOf (s : State) (d : Nat) : List Stone := mapGet [] s.stones d
def setStones (d : Nat) (l : List Stone) (s : State) : State := { s with stones := mapSet [] s.stones d l }

/-- Messages of a die's own rx streams held early, and those delivered and not taken, of type STONE. -/
def waitingStones (s : State) (d : Nat) : List InMsg :=
  ((s.fab.rx.filter fun e => e.1 % 4 = 0 && e.1 / 4 % 8 = d).map (·.2.held.filter (!·.gone))).flatten ++ (inboxOf s d).filter (·.msg.ty = 0)

/-- Stones that are still arriving on a die's ports. -/
def arrivingStones (s : State) (d : Nat) : List InMsg :=
  ((s.fab.ports.filter fun e => e.1 / 6 = d).map fun e => (e.2.parts.filterMap (·.2)).filter fun i => i.msg.ty = 0 && i.msg.dpkg = pkgId s && !i.gone).flatten

/-- Stones at a die that the carousel has not taken yet. -/
def untaken (s : State) (d : Nat) : List InMsg := waitingStones s d ++ arrivingStones s d

def headerOf (i : InMsg) : List Byte := i.msg.bytes.take 64
def hasPayload (i : InMsg) : Bool := !shNopay (headerOf i)

/-- Stone buffers in use, and entries of the header queue in use. An own stone on its way out takes neither (R254). -/
def buffersUsed (s : State) (d : Nat) : Nat :=
  ((stonesOf s d).filter fun x => !x.own && !x.payload.isEmpty).length + ((untaken s d).filter fun i => i.admitted && hasPayload i).length
def headersUsed (s : State) (d : Nat) : Nat :=
  ((stonesOf s d).filter fun x => !x.own && x.payload.isEmpty).length + ((untaken s d).filter fun i => i.admitted && !hasPayload i).length

/-- A place for a stone, with or without payload. -/
def stoneRoom (s : State) (d : Nat) (pay : Bool) : Bool := if pay then buffersUsed s d < 8 else headersUsed s d < 64

/-- Order of the stones of one origin and direction. -/
def stoneKey (h : List Byte) : Nat := ((shCircuit h * 2 ^ 32 + shSeq h) * 16 + shKind h) * 2 ^ 32 + shBlock0 h

/-- Two headers of one ring, origin and direction. -/
def sameFlow (a b : List Byte) : Bool := shJob a = shJob b && shOrigin a = shOrigin b && shDir a = shDir b

/-- Every predecessor of a stone of its origin and direction has been handled (R173): none is held here in its turn, and
none waits here for a place. -/
def isFirst (s : State) (d : Nat) (x : Stone) : Bool :=
  let before (h : List Byte) : Bool := sameFlow x.header h && stoneKey h < stoneKey x.header
  ((stonesOf s d).all fun y => y.home || 2 ≤ y.st || !before y.header) && (untaken s d).all fun i => !before (headerOf i)

def stoneAt (s : State) (d b : Nat) : Option Stone := (stonesOf s d)[b]?

/-! ## Bindings (R183) -/

def bindOf (s : State) (x mb : Nat) : Option BindS :=
  match mapGet none (ringOf s x).binds (mb % 64) with
  | some b => if b.mb = mb then some b else none
  | none => none

/-! ## Carousel descriptors (R169) -/

def cdOp (b : List Byte) : Nat := fld b 0 31 24
def cdDir (b : List Byte) : Nat := fld b 0 23 23
def cdLast (b : List Byte) : Bool := fld b 0 22 22 = 1
def cdAcc (b : List Byte) : Bool := fld b 0 21 21 = 1
def cdGate (b : List Byte) : Bool := fld b 0 20 20 = 1
def cdTensor (b : List Byte) : Nat := wordAt b 4
def cdMb (b : List Byte) : Nat := fld b 8 31 16
def cdVersion (b : List Byte) : Nat := fld b 8 15 0
def cdGen (b : List Byte) : Nat := fld b 0xC 31 16
def cdFirst (b : List Byte) : Nat := wordAt b 0x10
def cdCount (b : List Byte) : Nat := wordAt b 0x14
def cdGateEngine (b : List Byte) : Nat := engine (fld b 0x18 31 29) (fld b 0x18 28 23)
def cdGateSlot (b : List Byte) : Nat := fld b 0x18 13 0

/-! ## Placement and contributions (R175, R180) -/

/-- A stone's placement-map entry: RECORDS and BLOCKS_TOTAL (R175). -/
def pmapAt (s : State) (d x tensor : Nat) : Nat := reg64 s (aCar d (0x138 + 0x40 * x)) / 16 * 16 + 16 * (tensor / 2 ^ 16 * 64 + tensor % 2 ^ 16)

/-- One slot of a placement: engine, slot, bytes. -/
structure PlaceSlot where
  e : Nat
  slot : Nat
  bytes : List Byte

/-- The 256-byte pieces of a block. -/
def slotPieces (e slot : Nat) (l : List Byte) : List PlaceSlot :=
  (List.range (l.length / 256)).map fun i => ⟨e, slot + i, (l.drop (256 * i)).take 256⟩

/-- The placement of a weight stone, from its block records (8 bytes a block). -/
def placement (d : Nat) (x : Stone) (recs : List Byte) : List PlaceSlot :=
  let f := shFmt x.header
  let n := shBlocks x.header
  let eb := blockElemBytes f
  ((List.range n).map fun i =>
    let r := (recs.drop (8 * i)).take 8
    if fld r 0 31 31 = 1 then []
    else
      let e := engine d (fld r 0 29 24)
      slotPieces e (fld r 0 13 0) ((x.payload.drop (i * eb)).take eb) ++
        (if codeBlocked f then slotPieces e (fld r 4 13 0) ((x.payload.drop (n * eb + 512 * i)).take 512) else [])).flatten

def canPlace (s : State) (d b : Nat) : Bool :=
  match stoneAt s d b with
  | some x => x.st = 0 && !x.home && shKind x.header ≠ 3 && isFirst s d x && (bindOf s x.ctx (shMb x.header)).isSome &&
      [2, 3, 4].contains (ringOf s x.ctx).st
  | none => false

/-- The 256 contribution slots of block i of a stone; none where it has no contribution. -/
def contrib (d : Nat) (recs : List Byte) (i : Nat) : Option (Nat × List Nat) :=
  let r := (recs.drop (8 * i)).take 8
  if fld r 0 31 31 = 1 || fld r 0 30 30 = 0 then none
  else some (engine d (fld r 0 29 24), (List.range 256).map (· + fld r 4 29 16))

/-- A GRAD stone without payload takes a buffer with its first contribution (R179); in a ring of one member it came from no
header queue and takes none. -/
def gradRoom (s : State) (d : Nat) (x : Stone) : Bool := !x.payload.isEmpty || ringN s x.ctx = 1 || stoneRoom s d true

def canAdd (s : State) (d b : Nat) : Bool :=
  match stoneAt s d b with
  | some x => x.st = 0 && !x.home && shKind x.header = 3 && isFirst s d x && (bindOf s x.ctx (shMb x.header)).isSome &&
      [2, 3, 4].contains (ringOf s x.ctx).st
  | none => false

/-- A home GRAD stone may be applied: no earlier BWD circuit of its tensor is unfinished. -/
def canApply (s : State) (d b : Nat) : Bool :=
  match stoneAt s d b with
  | some x => x.home && [2, 3, 4].contains (ringOf s x.ctx).st &&
      (ringOf s x.ctx).live.all fun c => !(c.no < shCircuit x.header && cdOp c.desc = 0x31 && cdTensor c.desc = shTensor x.header)
  | none => false

/-! ## What the carousel claims at an edge (R123) -/

/-- Bytes of this package as the carousel of a die would read them. -/
def carPeek (s : State) (d ga n : Nat) : List Byte :=
  match placeOf s ga with
  | .hbm d' h => hbmPeek (agCar d) d' h n s
  | .scr d' t o => readScr (engine d' t) o n s
  | _ => List.replicate n 0

/-- The block records of a stone. -/
def blockRecords (s : State) (d : Nat) (x : Stone) : List Byte :=
  carPeek s d (dwordAt (carPeek s d (pmapAt s d x.ctx (shTensor x.header)) 16) 0 + 8 * shBlock0 x.header) (8 * shBlocks x.header)

/-- A stone that is placed claims the slot at this edge: it fills in order, up to the first slot that blocks. -/
def placeTakes (s : State) (d b e slot : Nat) (x : Stone) : Bool :=
  canPlace s d b && (((placement d x (blockRecords s d x)).drop x.done).takeWhile fun p => claimable s p.e p.slot .fill).any
    fun p => p.e = e && p.slot = slot

/-- A GRAD stone consumes the slot at this edge: one of the next block that it adds. -/
def addTakes (s : State) (d b e slot : Nat) (x : Stone) : Bool :=
  (canAdd s d b || canApply s d b) && gradRoom s d x &&
    ((List.range (shBlocks x.header - x.done)).findSome? fun i => contrib d (blockRecords s d x) (x.done + i)).any fun c =>
      c.1 = e && c.2.contains slot && c.2.all fun sl => claimable s e sl .consume

/-- The carousel claims the slot at this edge, for a gate, a placement or a gradient. -/
def carTakes (s : State) (e slot : Nat) : Bool :=
  (List.range 8).any (fun x => (ringOf s x).gates.any fun g => cdGateEngine g.1 = e && cdGateSlot g.1 = slot) ||
    (stonesOf s (e / 40)).zipIdx.any fun (x, b) => placeTakes s (e / 40) b e slot x || addTakes s (e / 40) b e slot x

end Sys2Proof.Machine
end

