-- ==== Sys2Proof/Machine/Tile.lean ====
section
/-! DEFINITION. The tile sequencer's rows: start queue, task descriptors, the grid given, timeouts and stalls, regions and
tag commands (chapter 4). -/

namespace Sys2Proof.Machine

/-! ## Small reads -/

def engineOf (d : Die) (t : TileId) : Nat := engine d t

/-- The start queue holds an entry that can be read (R99, R115). -/
def sqWaiting (e : Nat) (s : State) : Bool := sqHead s e ≠ sqTail s e && !(getTile s e).sqUe

/-- Reads the head entry (R99). An uncorrectable read leaves it at the head and sets SQ_UE (R115). -/
def sqRead (e : Nat) (f : List Byte → State → State) (s : State) : State :=
  demandGa (agSeq e) none (sqAddr s e) 32 (fun s => modTile e (fun x => { x with sqUe := true }) s) f s

def setRun (e n : Nat) (r : Run) (s : State) : State :=
  modTctx e n (fun x => { x with runs := x.runs.map fun y => if y.index = r.index then r else y }) s

def runSubs (r : Run) : List Sub := tdSubs r.desc r.tab

/-! ## START and HALT (R99–R102) -/

def effTilSqTail (d t : Nat) (s : State) : State := modTile (engine d t) (fun x => { x with sqUe := false }) s

def execTilSqTail (m : Master) (d : Die) (t : TileId) (v : Word) (s : State) : Outcome :=
  arriveAt m (aTil d t 0x1C) v s

/-- The start is refused (R101). -/
def startBad (s : State) (e : Nat) (b : List Byte) : Bool :=
  sqOp b ≠ 0x20 || !sqFieldsOk b || sqBase b + sqCount b > 16 || sqList b % 64 ≠ 0 || sqCq b % 16 ≠ 0 ||
    (List.range 4).any fun n =>
      let x := getTctx s e n
      x.st ≠ 0 && x.entryCount ≠ 0 && sqCount b ≠ 0 && x.entryBase < sqBase b + sqCount b && sqBase b < x.entryBase + x.entryCount

/-- Acts on a START entry for an IDLE task context (R101). -/
def takeStart (e : Nat) (b : List Byte) (s : State) : State :=
  let n := sqTctx b
  let fenced := (getTile s e).fenced
  if fenced || startBad s e b then
    let st := if fenced then 6 else 1
    sqAdvance e (putStartRecord e n (sqCtx b) (sqCq b) st (modTctx e n (fun x => { x with lastStatus := st }) s))
  else
    let s := { s with clk := { s.clk with ran := mapMod [] s.clk.ran (sqCtx b) fun l => if l.contains e then l else l ++ [e] } }
    sqAdvance e (setTctx e n
      { st := 1, ctx := sqCtx b, entryBase := sqBase b, entryCount := sqCount b, list := sqList b, count := sqTasks b,
        cq := sqCq b, tmo := sqTmo b, lastStatus := (getTctx s e n).lastStatus } s)

def execStart (d : Die) (t : TileId) (s : State) : Outcome :=
  onlyIf (sqWaiting (engineOf d t)) (fun s =>
    let e := engineOf d t
    sqRead e (fun b s =>
      if sqOp b = 0x21 then s
      else if sqOp b = 0x20 && ((getTctx s e (sqTctx b)).st ≠ 0 || holdsInputs s (sqCtx b)) then s
      else takeStart e b s) s) s

/-- A HALT that has to wait for the end of a row group stays at the head until then (R102). -/
def execHalt (d : Die) (t : TileId) (s : State) : Outcome :=
  onlyIf (sqWaiting (engineOf d t)) (fun s =>
    let e := engineOf d t
    sqRead e (fun b s =>
      if sqOp b ≠ 0x21 then s
      else
        let s := haltWork e (sqTctx b) 1 s
        if (getTctx s e (sqTctx b)).halting = 0 then sqAdvance e s else s) s) s

/-! ## Descriptors (R112) -/

/-- Reserved bits and values of a task descriptor (R16, R22, R108–R110). -/
def tdReserved (b : List Byte) : Bool :=
  !([0x01, 0x02, 0x03, 0x0F].contains (tdOp b)) || tdPack b = 3 || !zeroBits b 0 [(13, 10)] || tdX b > 9 || tdW b > 9 ||
    tdY b > 10 || tdXAcc b > 1 || !zeroBits b 4 [(12, 0)] || !zeroBits b 0xC [(31, 30), (15, 14)] ||
    !zeroBits b 0x10 [(31, 30), (15, 14)] || !zeroBits b 0x14 [(31, 30), (15, 14)] || !zeroBits b 0x1C [(15, 12)] ||
    !zeroBits b 0x20 [(31, 14)] || wordAt b 0x2C ≠ 0 || wordAt b 0x30 ≠ 0 || wordAt b 0x34 ≠ 0 || wordAt b 0x3C ≠ 0

/-- All slots of the streamed operand, and of the output, over every batch. -/
def allX (b : List Byte) (subs : List Sub) : List (List Nat) :=
  subs.map fun s => rangeSlots ((List.range s.rows).map fun t => xRange b s t)
def allXs (b : List Byte) (subs : List Sub) : List (List Nat) :=
  subs.map fun s => rangeSlots ((List.range s.rows).map fun t => xsRange b s t)
def allY (b : List Byte) (subs : List Sub) : List (List Nat) :=
  subs.map fun s => rangeSlots ((List.range s.rows).map fun t => yRange b s t)
def allYs (b : List Byte) (subs : List Sub) : List (List Nat) :=
  subs.map fun s => rangeSlots ((List.range s.rows).map fun t => ysRange b s t)

/-- Byte ranges in ascending order of their starts, joined where they meet: start and end. -/
def joinRanges (rs : List (Nat × Nat)) : List (Nat × Nat) :=
  (rs.foldl (fun (acc : List (Nat × Nat)) r => match acc with
    | (a, b) :: l => if r.1 ≤ b then (a, max b (r.1 + r.2)) :: l else (r.1, r.1 + r.2) :: acc
    | [] => [(r.1, r.1 + r.2)]) []).reverse

/-- An output plane in a tagged region fills whole slots (R112, R120). -/
def wholeSlots (s : State) (e : Nat) (rs : List (Nat × Nat)) : Bool :=
  !(rangeSlots rs).any (isTagged s e) ||
    (joinRanges (rs.filter (·.2 ≠ 0))).all fun r => r.1 % 256 = 0 && r.2 % 256 = 0

/-- Reserved bits of the sub-grid table (R111, R112). -/
def subtabBad (b tab : List Byte) : Bool :=
  tdPack b ≠ 0 && (List.range (tdEdge b * tdEdge b)).any fun k =>
    let r := (tab.drop (16 * k)).take 16
    !zeroBits r 0 [(31, 30), (15, 14)] || !zeroBits r 4 [(31, 30), (15, 14)] || !zeroBits r 8 [(31, 26)] || wordAt r 0xC ≠ 0

/-- A pitch that cuts the blocks of a plane in the scratchpad (R111). The rule names X_PITCH; that a Y_PITCH of the kind is
refused too, and that both are refused as MALFORMED, is the model's (DESIGN CHOICE, log entry 99). -/
def pitchBad (f pitch : Nat) : Bool := codeBlocked f && pitch * 16 % blockBytes f ≠ 0

/-- The entry rules of R77. -/
def entriesBad (x : TaskCtx) (b : List Byte) : Bool :=
  let use := maskBits (tdUse b)
  let load := maskBits (tdLoad b)
  let inRange (i : Nat) : Bool := x.entryBase ≤ i && i < x.entryBase + x.entryCount
  let pairs (m : Nat) : Bool := (List.range 8).all fun j => bitsOf m (2 * j) (2 * j) = bitsOf m (2 * j + 1) (2 * j + 1)
  !use.all inRange || !load.all inRange || (tdOp b = 1 && !load.all use.contains) ||
    (tdClass b = 0 && (!pairs (tdUse b) || !pairs (tdLoad b) || x.entryBase % 2 = 1 || x.entryCount % 2 = 1)) ||
    use.any fun i => !load.contains i && !x.loaded.contains i

/-- The anchors of a task as one number, to compare the tasks of a chain (R53). -/
def anchorKey (subs : List Sub) : Nat := subs.foldl (fun a s => a * 1024 + s.anchor) 1

/-- Products per output that a task adds (R112). -/
def tdProducts (b : List Byte) : Nat := 128 * (maskBits (tdUse b)).length

/-- The runs of the open chain. -/
def chainRuns (x : TaskCtx) : List Run := match x.chain with | some _ => lastUnit x | none => []

/-- A GRID or LOAD descriptor breaks a rule of R112. A chained task has one row group, so in SWAPPED it uses one entry or
pair (R75; DEDUCED, log entry 12). -/
def taskBad (s : State) (e : Nat) (x : TaskCtx) (b tab : List Byte) : Bool :=
  let subs := tdSubs b tab
  let chained := tdChain b || x.chain.isSome
  let groups := tdGroups b subs
  let grid := tdOp b = 1
  (chained && (!tdExplicit b || (match x.chain with | some (_, k) => k ≠ anchorKey subs | none => false))) ||
  (chained && groups > 1) ||
  ((chainRuns x).foldl (fun a r => a + tdProducts r.desc) (tdProducts b) > 2 ^ 24) ||
  entriesBad x b || (tdZ4 b && tdPack b ≠ 0) ||
  (grid && (tdUse b = 0 || (tdRows b = 0 && tdPack b = 0))) || (tdOp b = 2 && tdUse b ≠ 0) ||
  (tdPack b ≠ 0 && tdRows b ≠ 0) ||
  (tdPack b ≠ 0 && (!oneRegion s e (slotsOf (tdSubtab b * 256) (16 * tdEdge b * tdEdge b)) || isTagged s e (tdSubtab b) ||
    subs.any (fun u => u.rows > tdGroup b * 256))) ||
  (grid && !tdXFeed b && pitchBad (tdX b) (tdXPitch b)) || (grid && !tdYStreamed b && pitchBad (tdY b) (tdYPitch b)) ||
  subtabBad b tab ||
  (grid && !tdXFeed b && !((allX b subs).all (oneRegion s e) && (allXs b subs).all (oneRegion s e))) ||
  (grid && !tdYStreamed b && !((allY b subs).all (oneRegion s e) && (allYs b subs).all (oneRegion s e))) ||
  !((tdLoads b).all fun (_, k) =>
      oneRegion s e (entryElems (tdW b) (tdWS b) k) && oneRegion s e (entryScales (tdW b) (tdWSS b) k) &&
      (entrySlots (tdW b) (tdWS b) (tdWSS b) k).all (· < 12276)) ||
  (tdXFeed b && (chainRuns x).foldl (fun a r => a + r.groups) groups > 512) ||
  (tdXAcc b = 1 && (tdXFeed b || !(allX b subs ++ allXs b subs).all (fun l => l.all (isTagged s e)))) ||
  (grid && !tdYStreamed b && !subs.all (fun u =>
    wholeSlots s e ((List.range u.rows).map (yRange b u)) && wholeSlots s e ((List.range u.rows).map (ysRange b u))))

/-- A task context's next claim set is evaluated: WAIT_TAG, with the timer armed as it enters it, or READY (R103, R104,
R125). -/
def waitOrReady (e n : Nat) (s : State) : State :=
  let x := getTctx s e n
  match x.runs.getLast? with
  | none => s
  | some r =>
    match blocking s e (claimSet s e r) with
    | some c =>
      let arm := tdTmoArm r.desc && x.tmo ≠ 0
      setTctx e n { x with
        st := 2
        block := some (blockOf s e c)
        c0 := if arm then (if x.c0.isSome then x.c0 else some (cycleOf s)) else none } s
    | none => setTctx e n { x with st := 3, c0 := none, late := false, block := none } s

/-- Moves past an accepted task whose issue is over: to the next descriptor, or to wait for the last commit, which shows
as ACTIVE (R103; DESIGN CHOICE, log entry 100). -/
def nextTask (e n : Nat) (s : State) : State :=
  modTctx e n (fun x => if x.index + 1 < x.count then { x with st := 1, index := x.index + 1 } else { x with st := 4 }) s

/-- A descriptor is refused, or could not be read: the context halts and the record says why (R112, R115). The tasks of an
open chain end with the same status (DESIGN CHOICE, log entry 101). -/
def refuseTask (e n status : Nat) (b : List Byte) (s : State) : State :=
  let x := getTctx s e n
  let s := if x.chain.isSome then endRuns e n (lastUnit x) status s else s
  haltedTctx e n (putRecord e n { index := x.index, desc := b, cq := x.cq } 0 status 0 s)

/-- Acts on a task descriptor as read. MARK and END are no Z4 tasks, whatever their Z4 and PACK fields say (R96: DESIGN CHOICE,
log entry 135). -/
def takeDescriptor (e n : Nat) (b : List Byte) (s : State) : State :=
  let x := getTctx s e n
  let tab := readScr e (tdSubtab b * 256) (16 * tdEdge b * tdEdge b) s
  if tdReserved b then refuseTask e n 1 b s
  else if tdOp b = 0x0F then setTctx e n { x with atEnd := true } s
  else if tdOp b = 0x03 then
    setTctx e n { x with st := 3, runs := x.runs ++ [{ index := x.index, desc := b, cq := x.cq }] } s
  else if taskBad s e x b tab then refuseTask e n 1 b s
  else
    let r : Run := { index := x.index, desc := b, tab, cq := x.cq, groups := if tdOp b = 1 then tdGroups b (tdSubs b tab) else 0 }
    let ch := if tdChain b && x.chain.isNone then some (x.index, anchorKey (tdSubs b tab)) else x.chain
    waitOrReady e n (setTctx e n { x with
      runs := x.runs ++ [r], chain := ch, loaded := sortedSet (x.loaded ++ maskBits (tdLoad b)) } s)

def execDescriptorFetch (d : Die) (t : TileId) (n : Tctx) (s : State) : Outcome :=
  onlyIf (fun s => (getTctx s (engineOf d t) n).st = 1 && !(getTctx s (engineOf d t) n).atEnd) (fun s =>
    let e := engineOf d t
    let x := getTctx s e n
    demandGa (agSeq e) (some x.ctx) (x.list + 64 * x.index) 64 (fun s => let (b, s) := unreadDesc s; refuseTask e n 8 b s) (takeDescriptor e n) s) s

/-! ## MARK and END (R109) -/

/-- The list ends after its last task (R103). -/
def endIfLast (e n : Nat) (r : Run) (s : State) : State :=
  if r.index + 1 = (getTctx s e n).count then idleTctx e n s else s

def execTaskMark (d : Die) (t : TileId) (n : Tctx) (s : State) : Outcome :=
  onlyIf (fun s => match (getTctx s (engineOf d t) n).runs with
    | r :: _ => tdOp r.desc = 0x03 && (getTctx s (engineOf d t) n).st = 3
    | [] => false) (fun s =>
    let e := engineOf d t
    match (getTctx s e n).runs with
    | r :: rest =>
      let s := nextTask e n (modTctx e n (fun x => { x with runs := rest }) s)
      let s := putRecord e n r 0 0 (s.clk.count % 2 ^ 32) s
      let s := modTile e (fun t => if t.last = n.val then { t with yielded := tdYield r.desc } else t) s
      endIfLast e n r s
    | [] => s) s

def execEndTask (d : Die) (t : TileId) (n : Tctx) (s : State) : Outcome :=
  onlyIf (fun s => (getTctx s (engineOf d t) n).atEnd && (getTctx s (engineOf d t) n).runs.isEmpty)
    (fun s => idleTctx (engineOf d t) n s) s

/-! ## The grid is given (R104–R106) -/

def execTaskContextReady (d : Die) (t : TileId) (n : Tctx) (s : State) : Outcome :=
  onlyIf (fun s => (getTctx s (engineOf d t) n).st = 2 && !(getTctx s (engineOf d t) n).late)
    (fun s => waitOrReady (engineOf d t) n s) s

/-! ## Waiting that ends (R122, R125–R128) -/

/-- A task context's claim set blocked at the sampling edge: the task or the open chain is undone, the task context halts
with the lowest blocking slot in TIL_TCTXn_BLOCK, and the event names it (R125). -/
def execTagTimeout (d : Die) (t : TileId) (n : Tctx) (s : State) : Outcome :=
  onlyIf (fun s => (getTctx s (engineOf d t) n).st = 2 && (getTctx s (engineOf d t) n).late) (fun s =>
    let e := engineOf d t
    let x := getTctx s e n
    match x.runs.getLast?, x.block with
    | some r, some blk =>
      let s := haltedTctx e n (endRuns e n (lastUnit x) 2 s)
      let s := modTctx e n (fun x => { x with block := some blk }) s
      let s := raise { die := d, code := 0x0102, ctx := some x.ctx, p0 := e, p1 := n, p2 := r.index, p3 := blk.2 } s
      let s := ndc 1 d (bump (aTil d t 0x190) s)
      if level s = 2 then stepFault x.ctx 2 s else s
    | _, _ => s) s

/-- The grid issues vectors, real or in the hold of R83, at cycle `now`. -/
def issuingAt (s : State) (e now : Nat) : Bool :=
  let t := getTile s e
  t.streaming || (t.phase = 2 && now < holdEnd s e) || (t.phase = 4 && now < t.phaseAt)

/-- The tile is stalled at an edge (R126). -/
def stalledAt (s : State) (e now : Nat) : Bool :=
  let t := getTile s e
  t.cur.isNone && !issuingAt s e now && t.halves.all (fun h => !h.full)
    && (List.range 4).all (fun n => !((getTctx s e n).st = 3 && mayHave s e n) && (getTctx s e n).st ≠ 1)
    && (List.range 4).any (fun n => (getTctx s e n).st = 2)

/-- Lowest blocking slot of a task context in WAIT_TAG, for the event (R394). -/
def stallSlot (s : State) (e n : Nat) : Nat :=
  let x := getTctx s e n
  if x.st = 2 then (match x.block with | some (_, sl) => sl | none => 0xFFFF) else 0xFFFF

/-- The count of stalled edges has reached its limit: the episode is reported, and an open chain is ended (R127). -/
def execTileStall (d : Die) (t : TileId) (s : State) : Outcome :=
  onlyIf (fun s =>
    let x := getTile s (engineOf d t)
    !x.episode && 0 < x.stallCount && reg s (aTil d t 0x8) ≤ x.stallCount) (fun s =>
    let e := engineOf d t
    let waiting := (List.range 4).foldl (fun a n => a + bit ((getTctx s e n).st = 2) n) 0
    let s := raise { die := d, code := 0x0103, p0 := e, p1 := waiting,
                     p2 := stallSlot s e 0 + stallSlot s e 1 * 2 ^ 16, p3 := stallSlot s e 2 + stallSlot s e 3 * 2 ^ 16 } s
    let s := bump (aTil d t 0x198) (modTile e (fun x => { x with episode := true }) s)
    match chainHolder s e with
    | some n =>
      let x := getTctx s e n
      let s := haltedTctx e n (endRuns e n (lastUnit x) 3 s)
      modTctx e n (fun y => { y with block := x.block }) s
    | none => s) s

/-! ## What each edge does (R103, R105, R122, R123, R125, R127) -/

/-- A task context whose claim set is evaluated at an edge: one that is READY falls back where a slot blocks; one that waits
shows the lowest blocking slot, and is late where it still blocks at the sampling edge. `old` is the edge before. -/
def edgeTctx (e n old : Nat) (s : State) : State :=
  let x := getTctx s e n
  let due := match x.c0 with | some c => old < c + x.tmo + 1 && c + x.tmo + 1 ≤ cycleOf s | none => false
  let moved := due || (getTile s e).tags.any fun g => old < g.2.chg
  if x.st = 3 && moved && (blockedOn s e n).isSome then waitOrReady e n s
  else if x.st = 2 && moved && !x.late then
    match blockedOn s e n with
    | some c => setTctx e n { x with block := some (blockOf s e c), late := due } s
    | none => s
  else s

/-- Under ORDERED the grid passes on as soon as its holder's turn is over (R105). -/
def edgeOrder (e : Nat) (s : State) : State :=
  modTile e (fun t =>
    match orderedNext t (fun n => mapGet {} t.tctx n) with
    | some n => if t.ordered && (n ≠ t.last || t.yielded) then { t with last := n, lastOn := false, yielded := false } else t
    | none => t) s

/-- Counts the stalled edges after `old`. -/
def edgeStall (e old : Nat) (s : State) : State :=
  let n := ((List.range (cycleOf s - old)).filter fun k => stalledAt s e (old + 1 + k)).length
  if n = 0 then s else modTile e (fun t => { t with stallCount := t.stallCount + n }) s

/-! ## Regions and tag commands (R118, R121) -/

/-- A stream of the tile is active (R134). -/
def streamActive (s : State) (e : Nat) : Bool := (List.range 6).any fun q => (getStream s e q).q.any fun x => !x.ended

/-- A region write is dropped (R118). -/
def regionBad (s : State) (e n v : Nat) : Bool :=
  let d := e / 40
  let t := e % 40
  let base := bitsOf v 13 0
  let count := bitsOf v 29 16
  let valid := bitsOf v 31 31 = 1
  (List.range 4).any (fun k => (getTctx s e k).st ≠ 0) || streamActive s e ||
    (valid && (count = 0 || base + count > 12288 ||
      (List.range 16).any fun k =>
        let a := aTil d t (0x100 + 4 * k)
        k ≠ n && regF s a 31 31 = 1 && regF s a 13 0 < base + count && base < regF s a 13 0 + regF s a 29 16))

def effTilRegion (d t n v : Nat) (s : State) : State :=
  let e := engine d t
  if regionBad s e n v then hwSetF (aTil d t 0) 8 1 s
  else
    let s := putReg (aTil d t (0x100 + 4 * n)) (setBits v 15 14 0) s
    if bitsOf v 31 30 = 3 then
      modTile e (fun x => { x with tags := x.tags.filter fun g => !(bitsOf v 13 0 ≤ g.1 && g.1 < bitsOf v 13 0 + bitsOf v 29 16) }) s
    else s

def execTilRegion (m : Master) (d : Die) (t : TileId) (n : Fin 16) (v : Word) (s : State) : Outcome :=
  arriveAt m (aTil d t (0x100 + 4 * n.val)) v s

/-- The range of a tag command lies in one tagged region. -/
def oneTagged (s : State) (e base count : Nat) : Bool :=
  let l := (List.range count).map (· + base)
  count ≠ 0 && base + count ≤ 12288 && l.all (isTagged s e) &&
    l.all fun x => (regionOf s e x).map (·.1) = (regionOf s e base).map (·.1)

/-- SET_FULL (op 1) and SET_EMPTY (op 2); the other codes are no command (R121). -/
def effTagCmd (d t op count base : Nat) (s : State) : State :=
  let e := engine d t
  let slots := (List.range count).map (· + base)
  let okFull := slots.all fun x => (getTag s e x).st = 0 || (getTag s e x).st = 2
  let okEmpty := slots.all fun x => ((getTag s e x).st = 0 || (getTag s e x).st = 2) && (getTag s e x).holds = 0
  if op = 1 then
    if oneTagged s e base count && okFull then
      slots.foldl (fun s x => setTag e x { (getTag s e x) with st := 2 } s) s
    else hwSetF (aTil d t 0) 9 1 s
  else if op = 2 then
    if oneTagged s e base count && okEmpty then
      slots.foldl (fun s x => setTag e x { (getTag s e x) with st := 0 } s) s
    else hwSetF (aTil d t 0) 9 1 s
  else s

/-- The word of a tag command. -/
def tagCmdWord (op : Nat) (count base : BitVec 14) : Word := BitVec.ofNat 32 (op * 2 ^ 30 + count.toNat * 2 ^ 16 + base.toNat)

def execSetFull (m : Master) (d : Die) (t : TileId) (count base : BitVec 14) (s : State) : Outcome :=
  arriveAt m (aTil d t 0x180) (tagCmdWord 1 count base) s

def execSetEmpty (m : Master) (d : Die) (t : TileId) (count base : BitVec 14) (s : State) : Outcome :=
  arriveAt m (aTil d t 0x180) (tagCmdWord 2 count base) s

end Sys2Proof.Machine
end

