-- ==== Sys2Proof/Machine/Grid.lean ====
section
/-! DEFINITION. The systolic grid's rows: stationary entries, row groups, the activity ramp, mirror checks and
re-execution, draining and commit (chapter 3). -/

namespace Sys2Proof.Machine

/-! ## Stationary entries (R76–R79) -/

/-- Entries in the order of loading: one at a time, or both of a pair at once where both are 4-bit (R76). -/
def loadUnits (es : List Nat) (four : Nat → Bool) : List (List Nat) :=
  es.filterMap fun e =>
    let p := e / 2 * 2
    if es.contains p && es.contains (p + 1) && four p && four (p + 1) then (if e = p then some [p, p + 1] else none) else some [e]

/-- Cycle of the first load row of each entry, from the cycle at which the loader is free, and the cycle at which it is
free again: 128 rows to an entry or a pair, and none before the vectors that select the old entry have passed (R76, R78). -/
def loadPlan (free : Nat) (useEnd : Nat → Nat) (us : List (List Nat)) : List (Nat × Nat) × Nat :=
  us.foldl (fun acc u =>
    let t := u.foldl (fun m e => max m (useEnd e)) acc.2
    (acc.1 ++ u.map fun e => (e, t), t + 128)) ([], free)

/-- Plans loads of a tile's entries from now on. -/
def planLoads (s : State) (e : Nat) (es : List Nat) (four : Nat → Bool) : List (Nat × Nat) × Nat :=
  loadPlan (max (cycleOf s) (getTile s e).loaderAt) (fun i => (getEntry s e i).useEnd) (loadUnits es four)

/-- The cycle planned for an entry. -/
def plannedAt (p : List (Nat × Nat) × Nat) (i : Nat) : Nat := (mapLookup p.1 i).getD p.2

def setLoader (e c : Nat) (s : State) : State := modTile e (fun t => { t with loaderAt := c }) s

/-- Begins the loads of a run: each entry takes its new source and holds its tagged source slots. -/
def beginLoads (e n : Nat) (r : Run) (s : State) : State :=
  let b := r.desc
  let p := planLoads s e (maskBits (tdLoad b)) fun _ => codeBits (tdW b) = 4
  let s := (tdLoads b).foldl (fun s (i, k) =>
    let s := dropEntry e i s
    let w := if codeBits (tdW b) = 4 then 32 else if codeBits (tdW b) = 8 then 64 else 128
    setEntry e i { st := 1, owner := n, task := r.index, fmt := tdW b, z4 := tdZ4 b, elemSlot := tdWS b + k * w, scaleSlot := tdWSS b + 2 * k,
                   since := plannedAt p i, useEnd := (getEntry s e i).useEnd, holds := (sourceSlots b k).filter (isTagged s e) } s) s
  setRun e n { r with loadsBegun := true, claims := r.claims.filter fun c => c.kind ≠ .source } (setLoader e p.2 s)

/-- BYPASS_COL of a tile (R95). -/
def bypassCol (s : State) (e : Nat) : Nat := regF s (aTil (e / 40) (e % 40) 0x800) 22 16

/-- A list by physical column from one by source column, with nothing in column b: logical column c < b is physical
column c, the others are one further on (R95). -/
def putBypass {α : Type} (b : Nat) (none_ : α) (l : List α) : List α := l.take b ++ [none_] ++ (l.take 127).drop b

/-- An entry's values, cell column by cell column (R69). -/
def entryCols (x : Entry) : List (List Val) :=
  (chunks 128 128 x.elems).zipIdx.map fun (col, c) =>
    col.zipIdx.map fun (v, r) => decodeElem x.fmt v (if codeBlocked x.fmt then (x.scales.getD (4 * c + r / 32) 0).toNat else 0x7F)

/-- Rows of equal length become columns. -/
def transposeL {α : Type} (n : Nat) (rows : List (List α)) : List (List α) :=
  (List.range n).map fun i => rows.filterMap (·[i]?)

/-- Residue sums of lines of 128 cells, in four bands of 32 (R82, R87). -/
def bandRho (lines : List (List Val)) : List Nat :=
  (lines.map fun l => (chunks 32 4 l).map fun band => band.foldl (fun a v => (a + resVal v) % resQ) 0).flatten

/-- The mirror residues of an entry, from its cells (R87). -/
def withRho (x : Entry) : Entry :=
  let cols := entryCols x
  { x with rhoRow := bandRho (transposeL 128 cols), rhoCol := bandRho cols }

/-- The bits of an entry as its source slots hold them now (R111), by physical column (R95), with the mirror residues
(R87). An entry that a re-execution gives back what it had keeps its bits. -/
def captureEntry (s : State) (e : Nat) (x : Entry) : Entry :=
  if x.fixed then { x with st := 2 }
  else
    let es := elems x.fmt 16384 (readScr e (x.elemSlot * 256) (elemBytes x.fmt 16384) s)
    let sc := if codeBlocked x.fmt then readScr e (x.scaleSlot * 256) 512 s else []
    if x.z4 then
      let b := bypassCol s e
      withRho { x with st := 2, hole := some b, elems := (putBypass b (List.replicate 128 0) (chunks 128 128 es)).flatten,
                       scales := (putBypass b (List.replicate 4 0) (chunks 4 128 sc)).flatten }
    else withRho { x with st := 2, elems := es, scales := sc }

/-- The last load row of an entry was written 4 cycles ago; its partner of a 4-bit pair comes with it (R76). -/
def execEntryUsable (d : Die) (t : TileId) (i : Fin 16) (s : State) : Outcome :=
  onlyIf (fun s => (getEntry s (engineOf d t) i).st = 1 && (getEntry s (engineOf d t) i).since + 132 ≤ cycleOf s) (fun s =>
    let e := engineOf d t
    let x := getEntry s e i
    let s' := setEntry e i (captureEntry s e x) s
    let j := if i.val % 2 = 0 then i.val + 1 else i.val - 1
    let y := getEntry s' e j
    if codeBits x.fmt = 4 && y.st = 1 && codeBits y.fmt = 4 && y.since = x.since then setEntry e j (captureEntry s' e y) s' else s') s

/-- A LOAD task begins its loads and lets the grid go (R109). -/
def execLoad (d : Die) (t : TileId) (s : State) : Outcome :=
  onlyIf (fun s => match (getTile s (engineOf d t)).cur with
    | some n => (match curRun (getTctx s (engineOf d t) n) with | some r => tdOp r.desc = 2 && !r.loadsBegun | none => false)
    | none => false) (fun s =>
    let e := engineOf d t
    match (getTile s e).cur with
    | some n =>
      (match curRun (getTctx s e n) with
       | some r =>
         let s := beginLoads e n r s
         nextTask e n (modTile e (fun t => { t with cur := none, yielded := tdYield r.desc }) s)
       | none => s)
    | none => s) s

/-! ## The cells of a task (R69, R80–R82, R95) -/

/-- The physical columns that a task sees, in logical order: all 128, or for a Z4 task all but the bypassed one (R95). -/
def seenCols (b : List Byte) (byp : Nat) : List Nat := if tdZ4 b then (List.range 128).filter (· ≠ byp) else List.range 128

/-- The physical columns of a sub-grid. -/
def subColNos (b : List Byte) (byp : Nat) (u : Sub) : List Nat := ((seenCols b byp).drop (u.j * tdSide b)).take (tdSide b)

/-- The cells of a sub-grid: columns of s values. -/
def subCols (b : List Byte) (byp : Nat) (u : Sub) (cols : List (List Val)) : List (List Val) :=
  (subColNos b byp u).map fun c => ((cols.getD c []).drop (u.i * tdSide b)).take (tdSide b)

/-- Groups of 32 along K of an entry within a sub-grid, for its block exponents (R47, R48). The column that a Z4 load left
empty holds no group. -/
def entryGroups (b : List Byte) (byp : Nat) (u : Sub) (x : Entry) : List (Option Int) :=
  let sd := tdSide b
  let cols := chunks 128 128 x.elems
  (((subColNos b byp u).filter fun c => x.hole ≠ some c).map fun c =>
    (List.range (sd / 32)).map fun k =>
      let r := u.i * sd + 32 * k
      groupB x.fmt (x.scales.getD (4 * c + r / 32) 0).toNat (((cols.getD c []).drop r).take 32)).flatten

/-! ## Streamed rows (R69, R80, R111, R147, R197) -/

/-- One streamed row as elements and scale bytes. -/
structure XRow where
  es : List Nat
  scales : List Byte

def xRowVals (f : Nat) (x : XRow) : List Val := rowVals f x.es x.scales

def xRowGroups (f : Nat) (x : XRow) : List (Option Int) :=
  (chunks 32 x.es.length x.es).zipIdx.map fun (g, i) => groupB f (x.scales.getD i 0).toNat g

/-- Elements of a vector that a task reads: a Z4 task in SWAPPED leaves the last one out (R95). -/
def readLen (b : List Byte) : Nat := if tdZ4 b && tdSwapped b then 127 else tdXLen b

/-- The block exponents of the part of a row that a task reads (R48, R95). A group of which a Z4 task leaves element 127
unread counts by the elements that it reads (DESIGN CHOICE, log entry 102). -/
def readGroups (b : List Byte) (x : XRow) : List (Option Int) := xRowGroups (tdX b) { x with es := x.es.take (readLen b) }

/-- Bytes of one row of a pass-through block: elements, scales. -/
def feedRowBytes (b : List Byte) : Nat × Nat :=
  (elemBytes (tdX b) (tdXLen b), if codeBlocked (tdX b) then tdXLen b / 32 else 0)

/-- The rows of a row group in the scratchpad (R111), in the layout of a pass-through block: for each sub-grid its element
rows, then its scale rows. -/
def slotBlock (s : State) (e n : Nat) (r : Run) (g : Nat) : PBlock :=
  let b := r.desc
  { stream := 0, tctx := n, task := r.index, group := g, mode := 0
    bytes := ((tdSubs b r.tab).map fun u =>
      let rows := subRows b u (tdBatchOf b g)
      (rows.map fun t => readScr e (xRange b u t).1 (xRange b u t).2 s).flatten ++
        (rows.map fun t => readScr e (xsRange b u t).1 (xsRange b u t).2 s).flatten).flatten }

/-- Bytes of one source tile (R197). -/
def tileBytes (b : List Byte) : Nat :=
  let n := tdSide b
  elemBytes (tdX b) (n * n) + (if codeBlocked (tdX b) then n * n / 32 else 0)

/-- Bands of n rows in a batch of a sub-grid. -/
def bandsOf (b : List Byte) (u : Sub) (batch : Nat) : Nat := ((subRows b u batch).length + tdSide b - 1) / tdSide b

/-- Tiles of one sub-grid's part of a transposing block. -/
def tilesOf (b : List Byte) (u : Sub) (batch : Nat) : Nat :=
  bandsOf b u batch * (if tdSwapped b then 1 else (maskBits (tdUse b)).length)

/-- Bytes of one sub-grid's part of a block. -/
def subBytes (b : List Byte) (u : Sub) (batch mode : Nat) : Nat :=
  if mode = 0 then (subRows b u batch).length * ((feedRowBytes b).1 + (feedRowBytes b).2) else tilesOf b u batch * tileBytes b

/-- The length of the block that a row group reads (R147, R197). -/
def feedBytes (b : List Byte) (subs : List Sub) (g mode : Nat) : Nat :=
  subs.foldl (fun a u => a + subBytes b u (tdBatchOf b g) mode) 0

/-- Rows of one sub-grid from its part of a pass-through block (R147). -/
def passRows (b : List Byte) (n : Nat) (part : List Byte) : List XRow :=
  let (eb, sb) := feedRowBytes b
  (List.range n).map fun k =>
    { es := elems (tdX b) (tdXLen b) ((part.drop (k * eb)).take eb), scales := (part.drop (n * eb + k * sb)).take sb }

/-- Rows of one sub-grid from turned tiles (R197): vector k of a tile carries element k of every source row. The scale
of an element is that of its own source block, so each row is given as values. Every format of the grid is turned (R196 and
the table of R197 disagree: DESIGN CHOICE, log entry 138). -/
def turnedVals (b : List Byte) (u : Sub) (batch : Nat) (part : List Byte) : List (List Val) :=
  let n := tdSide b
  let f := tdX b
  let bands := bandsOf b u batch
  let w := if tdSwapped b then 1 else if tdClass b = 0 then 2 else 1
  let ents := if tdSwapped b then 1 else (maskBits (tdUse b)).length
  let tileVals (i : Nat) : List (List Val) :=
    let tb := (part.drop (i * tileBytes b)).take (tileBytes b)
    let es := chunks n n (elems f (n * n) tb)
    let sc := tb.drop (elemBytes f (n * n))
    transposeL n (es.zipIdx.map fun (row, r) => rowVals f row ((sc.drop (r * (n / 32))).take (n / 32)))
  let perEntry : List (List (List Val)) := (List.range ents).map fun k =>
    ((List.range bands).map fun bd => tileVals ((k / w * bands + bd) * w + k % w)).flatten
  (List.range (subRows b u batch).length).map fun t => (perEntry.map fun l => l.getD t []).flatten

/-- The values of a sub-grid's streamed rows of a row group, and their block exponents. -/
structure Streamed where
  rows : List (List Val)
  groups : List (Option Int)

/-- The block exponents of the tiles of a part: the source blocks that the part's vectors read (R48, R195). A tile of the last
band may hold more features than there are rows left: a block that lies behind them is not read, and one that they end in
counts by its elements before their end (DESIGN CHOICE, log entry 102). -/
def turnedGroups (b : List Byte) (u : Sub) (batch : Nat) (part : List Byte) : List (Option Int) :=
  let n := tdSide b
  let w := if !tdSwapped b && tdClass b = 0 then 2 else 1
  ((List.range (tilesOf b u batch)).map fun i =>
    let tb := (part.drop (i * tileBytes b)).take (tileBytes b)
    let sc := tb.drop (elemBytes (tdX b) (n * n))
    let left := (subRows b u batch).length - i / w % bandsOf b u batch * n
    (((chunks n n (elems (tdX b) (n * n) tb)).take (readLen b)).zipIdx.map fun (row, r) =>
      xRowGroups (tdX b) { es := row.take left, scales := (sc.drop (r * (n / 32))).take (n / 32) }).flatten).flatten

/-- Cuts a block into the parts of the sub-grids. -/
def feedParts (b : List Byte) (subs : List Sub) (batch mode : Nat) (bytes : List Byte) : List (List Byte) :=
  (subs.foldl (fun (acc : List (List Byte) × List Byte) u =>
    let n := subBytes b u batch mode
    (acc.1 ++ [acc.2.take n], acc.2.drop n)) ([], bytes)).1

/-- A block as each sub-grid streams it. -/
def streamedOf (r : Run) (p : PBlock) : List Streamed :=
  let b := r.desc
  let subs := runSubs r
  let batch := tdBatchOf b p.group
  (subs.zip (feedParts b subs batch p.mode p.bytes)).map fun (u, part) =>
    if p.mode = 0 then
      let rows := passRows b (subRows b u batch).length part
      { rows := rows.map (xRowVals (tdX b)), groups := (rows.map (readGroups b)).flatten }
    else { rows := turnedVals b u batch part, groups := turnedGroups b u batch part }

/-- The anchors of a task, one per sub-grid (R48): AUTO takes the groups of every block that the task reads. -/
def anchorsOf (s : State) (e : Nat) (r : Run) (ps : List PBlock) : List Int :=
  let b := r.desc
  let xs := ps.map (streamedOf r)
  (runSubs r).zipIdx.map fun (u, k) =>
    if tdExplicit b then signed 10 u.anchor
    else
      operandB (tdX b) ((xs.filterMap (·[k]?)).map (·.groups)).flatten +
        operandB (tdW b) ((maskBits (tdUse b)).map fun i => entryGroups b (bypassCol s e) u (getEntry s e i)).flatten

/-! ## Products, sums and checks of a row group (R68–R73, R80–R82, R87, R88, R95) -/

/-- A dot product in the cells of one line. -/
def dot (a : Int) (ps : Psum) (xs ws : List Val) : Psum := (xs.zip ws).foldl (fun p q => addProduct a p q.1 q.2) ps

/-- One vector's partial sums by lane, with its check: C and M of R88. -/
structure VecOut where
  sums : List (Nat × Psum)
  c : Nat
  m : Nat

def vecCheck (a : Int) (sums : List (Nat × Psum)) : Nat :=
  sums.foldl (fun c x => (c + rotQ (resOf x.2.p 0) (a - 64) + x.2.lane) % resQ) 0

/-- The mirror residues of a line of cells, summed over the bands of a sub-grid. -/
def bandSum (rho : List Nat) (line lo n : Nat) : Nat :=
  (List.range n).foldl (fun a k => (a + rho.getD (4 * line + lo + k) 0) % resQ) 0

/-- The residues that a sub-grid's vectors meet in the mirror, in the order of their elements: by row in FORWARD, by column
in SWAPPED. A Z4 task's exclude the bypassed column, in an entry of a native load too (DESIGN CHOICE, log entry 103). -/
def mirrorRho (b : List Byte) (byp : Nat) (u : Sub) (x : Entry) : List Nat :=
  let sd := tdSide b
  let w := sd / 32
  if tdSwapped b then (subColNos b byp u).map fun c => bandSum x.rhoCol c (u.i * w) w
  else (List.range sd).map fun r =>
    let all := bandSum x.rhoRow (u.i * sd + r) (u.j * w) w
    if tdZ4 b && x.hole ≠ some byp then
      let v := x.elems.getD (byp * 128 + r) 0
      let sc := if codeBlocked x.fmt then (x.scales.getD (4 * byp + r / 32) 0).toNat else 0x7F
      (all + (resQ - resVal (decodeElem x.fmt v sc))) % resQ
    else all

/-- The mirror's result: each streamed element by the residue of the line it crosses (R88). -/
def mirror (xs : List Val) (rho : List Nat) : Nat :=
  (xs.zip rho).foldl (fun m q => (m + resVal q.1 * q.2) % resQ) 0

/-- An entry's cells and mirror residues as a sub-grid's vectors meet them. -/
structure CellsOf where
  cols : List (List Val)
  rho : List Nat

def cellsOf (b : List Byte) (byp : Nat) (u : Sub) (x : Entry) : CellsOf :=
  { cols := subCols b byp u (entryCols x), rho := mirrorRho b byp u x }

/-- One vector of a sub-grid against the entries of a unit; `ks` are their ordinals among the used entries. -/
def vector (b : List Byte) (u : Sub) (a : Int) (row : List Val) (ks : List Nat) (cells : List CellsOf) : VecOut :=
  let sd := tdSide b
  if tdSwapped b then
    let xs := if tdZ4 b then row.take 127 else row
    let sums := (cells.zipIdx.map fun (q, w) =>
      (transposeL sd q.cols).zipIdx.map fun (line, r) => (w * 128 + u.i * sd + r, dot a {} xs line)).flatten
    { sums, c := vecCheck a sums, m := cells.foldl (fun m q => (m + mirror xs q.rho) % resQ) 0 }
  else
    let parts := ks.map fun k => (row.drop (k * sd)).take sd
    let n := (match cells with | q :: _ => q.cols.length | [] => 0)
    let sums := (List.range n).map fun c =>
      (u.j * sd + c, (parts.zip cells).foldl (fun ps q => dot a ps q.1 (q.2.cols.getD c [])) {})
    { sums, c := vecCheck a sums, m := (parts.zip cells).foldl (fun m q => (m + mirror q.1 q.2.rho) % resQ) 0 }

/-- Slot of an output within a half (R72, R82). -/
def bankSlot (b : List Byte) (u : Sub) (pos : Nat) : Nat := (if tdSwapped b then u.j else u.i) * tdGroup b + pos

/-- Streams one row group: the accumulators of its half and the checks of its vectors, in issue order (R73). -/
def streamGroup (s : State) (e n : Nat) (r : Run) (p : PBlock) (as : List Int) (acc : SMap Accu) : SMap Accu × List VecCheck :=
  let b := r.desc
  let used := maskBits (tdUse b)
  let byp := bypassCol s e
  (((runSubs r).zip ((streamedOf r p).zip as)).foldl (fun (st : SMap Accu × List VecCheck) (u, x, a) =>
    (tdUnitsOf b p.group).foldl (fun st es =>
      let cells := es.map fun i => cellsOf b byp u (getEntry s e i)
      let ks := es.map fun i => used.idxOf i
      x.rows.zipIdx.foldl (fun st (row, pos) =>
        let v := vector b u a row ks cells
        let acc := v.sums.foldl (fun m (lane, ps) =>
          let k := lane * 256 + bankSlot b u pos
          mapInsert m k ((mapGet {} m k).add ps)) st.1
        (acc, st.2 ++ [{ tctx := n, task := r.index, c := v.c, m := v.m, anchor := a }])) st) st) (acc, []))

/-! ## Row groups (R73–R75, R78, R83) -/

/-- Cycles of the issue slots within a start ramp, from its begin: duty k/8 in step k, at `cost` credits a vector (R83). -/
def rampSlots (ramp cost : Nat) : List Nat :=
  ((List.range ramp).foldl (fun (acc : Nat × List Nat) j =>
    let c := acc.1 + (j / (ramp / 8) + 1)
    if cost ≤ c then (c - cost, acc.2 ++ [j]) else (c, acc.2)) (0, [])).2

/-- The hop period of a class (R68). -/
def hopOf (k : Nat) : Nat := if k = 2 then 2 else 1

/-- Issue cycle of the k-th vector of a row group that is ready at `now`, in a period whose start ramp began at `p` (R83). -/
def issueAt (p ramp h now k : Nat) : Nat :=
  let rs := (rampSlots ramp (8 * h)).filter fun j => now ≤ p + j
  match rs[k]? with
  | some j => p + j
  | none =>
    let full := p + ramp
    full + h * ((now - full + h - 1) / h + (k - rs.length))

/-- The runs that stand or fall with a task: its chain (R90, R91). -/
def unitOf (x : TaskCtx) (task : Nat) : List Run :=
  match x.runs.find? (·.index == task) with
  | none => []
  | some r =>
    let back := (x.runs.filter (·.index < task)).reverse.takeWhile fun y => tdChain y.desc
    let fwd := (x.runs.filter (·.index > task))
    let ahead := if tdChain r.desc then (fwd.takeWhile fun y => tdChain y.desc) ++ ((fwd.dropWhile fun y => tdChain y.desc).take 1) else []
    back.reverse ++ [r] ++ ahead

/-- The sums of an AUTO task of several row groups wait for its anchor, until the last of them has streamed (R48; DESIGN
CHOICE, log entry 104). -/
def defers (r : Run) : Bool := !tdExplicit r.desc && r.anchors = [] && 1 < r.groups

/-- A half for the row group: the chain's own, or a free one (R72, R75). Products that wait for their anchor need none. -/
def halfFor (t : TileS) (n : Nat) (x : TaskCtx) (r : Run) : Option (Option HalfS) :=
  match t.halves.find? fun h => h.tctx == n && !h.full && (unitOf x r.index).any (·.index == h.task) with
  | some h => some (some h)
  | none => if t.halves.length < 2 || defers r then some none else none

/-- The next vectors of a run that holds the grid are ready: those of its next row group, with a half and its FEED block, or
of the next unit of the row group that has begun. Their entries are usable (R75, R78). -/
def vectorsReady (s : State) (e n : Nat) (r : Run) : Bool :=
  let t := getTile s e
  r.issued < r.groups && !r.failed && r.loadsBegun && !r.reload &&
    (match (tdUnitsOf r.desc r.issued)[if t.streaming then t.unit else 0]? with
     | some u => u.all fun i => (getEntry s e i).st = 2
     | none => false) &&
    (t.streaming || ((halfFor t n (getTctx s e n) r).isSome && (!tdXFeed r.desc || (feedBlock t n r).isSome)))

/-- Those vectors can issue now: in a period of issue of their class or a heavier one that has not run out its hold (R83),
and not on a grant that is to go back first (R405, R412). -/
def canIssue (s : State) (e n : Nat) (r : Run) : Bool :=
  let t := getTile s e
  vectorsReady s e n r && t.phase = 2 && cycleOf s < holdEnd s e && !s.pwr.tripped &&
    (t.streaming || (t.klass ≤ tdClass r.desc && !mustReturn s e))

/-- The run that holds a tile's grid. -/
def gridRun (s : State) (e : Nat) : Option (Nat × Run) :=
  match (getTile s e).cur with
  | some n => (match curRun (getTctx s e n) with | some r => if tdOp r.desc = 1 then some (n, r) else none | none => none)
  | none => none

/-- Vectors that are ready ask for leave where no period runs, and end one of a lighter class, or on a marked grant, at a
row-group boundary (R83, R85, R405). -/
def wantPeriod (e : Nat) (s : State) : State :=
  match gridRun s e with
  | some (n, r) =>
    let t := getTile s e
    let k := tdClass r.desc
    if !vectorsReady s e n r then s
    else if t.phase = 0 then setTile e { t with phase := 1, klass := k, phaseAt := cycleOf s } s
    else if t.phase = 2 && !t.streaming && (k < t.klass || mustReturn s e) then stopPeriod e s
    else s
  | none => s

/-- The vectors of the next unit take their issue slots, one for every row (R73, R83), behind those that have theirs. -/
def issueUnit (e : Nat) (r : Run) (s : State) : State :=
  let t := getTile s e
  let b := r.desc
  let h := hopOf (tdClass b)
  let rows := (runSubs r).foldl (fun m u => max m (subRows b u (tdBatchOf b r.issued)).length) 0
  let last := issueAt t.phaseAt (rampCycles s (e / 40) (e % 40)) h (max (cycleOf s) t.endAt) (rows - 1)
  let u := ((tdUnitsOf b r.issued)[t.unit]?).getD []
  let s := u.foldl (fun s i => setEntry e i { (getEntry s e i) with useEnd := last + h * 254 + 1 } s) s
  modTile e (fun t => { t with unit := t.unit + 1, endAt := last + h }) s

/-- Units take their slots as long as their vectors are ready. -/
def issueUnits (e n : Nat) (r : Run) : Nat → State → State
  | 0, s => s
  | k + 1, s => if canIssue s e n r then issueUnits e n r k (issueUnit e r s) else s

/-- A row group begins. The stall count starts again (R127). -/
def startGroup (e : Nat) (n : Nat) (r : Run) (s : State) : State :=
  issueUnits e n r 16 (modTile e (fun t => { t with streaming := true, unit := 0, stallCount := 0, episode := false }) s)

/-- A run whose claims stand is to be issued again (R91). -/
def mustReissue (x : TaskCtx) : Bool :=
  match curRun x with
  | some r => r.reexec && r.loadsBegun && r.issued < r.groups
  | none => false

/-- Entries that a re-execution put aside are loaded again, each from its own source (R91). -/
def restoreShelf (e : Nat) (s : State) : State :=
  let sh := (getTile s e).shelf
  if sh.isEmpty then s
  else
    let p := planLoads s e (sh.map (·.1)) fun i => codeBits (mapGet ({} : Entry) sh i).fmt = 4
    let s := sh.foldl (fun s x => setEntry e x.1 { x.2 with
      st := if x.2.st = 0 then 0 else 1, since := max x.2.since (plannedAt p x.1), useEnd := (getEntry s e x.1).useEnd } s) s
    modTile e (fun t => { t with shelf := [], loaderAt := p.2 }) s

/-- After a row group: the next one of the task is evaluated, or the task's issue is over (R103). Behind a re-execution
the task context goes on where it was. -/
def afterGroup (e n : Nat) (r : Run) (s : State) : State :=
  let x := getTctx s e n
  if x.index ≠ r.index && mustReissue x then s
  else
    let s := freeGrid e n (if mustReissue x then s else restoreShelf e s)
    if x.index ≠ r.index then s
    else if r.issued < r.groups then waitOrReady e n s
    else
      let s := modTctx e n (fun x => if tdChain r.desc then x else { x with chain := none, chainOn := false }) s
      nextTask e n (modTile e (fun t => { t with yielded := tdYield r.desc }) s)

/-- Adds one row group's products into its half: the accumulators, and the checks of its vectors. -/
def formGroup (e n : Nat) (r : Run) (as : List Int) (p : PBlock) (s : State) : State :=
  let t := getTile s e
  let h0 := match halfFor t n (getTctx s e n) r with
    | some (some h) => h
    | _ => { tctx := n, task := r.index, group := p.group }
  let (acc, cs) := streamGroup s e n r p as h0.acc
  let h := { h0 with task := r.index, group := p.group, full := !tdChain r.desc, anchors := as, acc }
  let s := setTile e { t with halves := t.halves.filter (fun y => y ≠ h0) ++ [h], checks := t.checks ++ cs } s
  modTctx e n (fun x => { x with runs := x.runs.map fun y =>
    if y.index = r.index then { y with unchecked := y.unchecked + cs.length, anchors := as, held := y.held.erase p } else y }) s

/-- A half that the row group which is streaming is to fill. -/
def halfAwaited (s : State) (e : Nat) : Nat :=
  match gridRun s e with
  | some (n, r) => bit ((getTile s e).streaming && !defers r && halfFor (getTile s e) n (getTctx s e n) r = some none) 0
  | none => 0

/-- The first task context's task with row groups whose products wait, the anchor being known (R48). -/
def heldNext (s : State) (e : Nat) : Option (Nat × Run) :=
  (List.range 4).findSome? fun n =>
    ((getTctx s e n).runs.find? fun r => r.anchors ≠ [] && r.held ≠ []).map fun r => (n, r)

/-- Products that waited for their anchor are added, each row group's as a half is free for it (R72; log entry 104). -/
def formHeld (e : Nat) : Nat → State → State
  | 0, s => s
  | k + 1, s =>
    if 2 ≤ (getTile s e).halves.length + halfAwaited s e then s
    else match heldNext s e with
      | some (n, r) => (match r.held with
        | p :: _ => formHeld e k (formGroup e n r r.anchors p s)
        | [] => s)
      | none => s

/-- A row group has issued its last vector. Its products are added with the task's anchor, once that is known; a HALT that
waited is acted on (R102); a marked grant goes back (R405). -/
def endGroup (e n : Nat) (r : Run) (s : State) : State :=
  let fed := if tdXFeed r.desc then feedBlock (getTile s e) n r else none
  let p := fed.getD (slotBlock s e n r r.issued)
  let s := modTile e (fun t => { t with streaming := false, prism := match fed with | some p => t.prism.erase p | none => t.prism }) s
  let ps := r.held ++ [p]
  let r' := { r with issued := r.issued + 1, held := if defers r then ps else r.held
                     srcs := if r.srcs.isEmpty then (maskBits (tdUse r.desc)).map fun i => (i, getEntry s e i) else r.srcs }
  let s := setRun e n r' s
  let s := if !defers r then formGroup e n r (if r.anchors = [] then anchorsOf s e r ps else r.anchors) p s
    else if r'.issued < r.groups then s
    else formHeld e 2 (setRun e n { r' with anchors := anchorsOf s e r ps } s)
  let w := (getTctx s e n).halting
  let s := if w = 0 then afterGroup e n r' s
    else if w = 1 then sqAdvance e (haltTctx e n (freeGrid e n s))
    else haltTctx e n (freeGrid e n s)
  returnIfMarked e s

/-- A row group that has begun goes on: further units take their slots, and it ends behind the last of them. After a thermal
trip no further vector is issued, and the row group stays as it is (R412). -/
def edgeGroup (e : Nat) (s : State) : State :=
  match gridRun s e with
  | some (n, r) =>
    if (getTile s e).streaming && !s.pwr.tripped then
      let s := issueUnits e n r 16 s
      let t := getTile s e
      if (tdUnitsOf r.desc r.issued).length ≤ t.unit && t.endAt ≤ cycleOf s then endGroup e n r s else s
    else s
  | none => s

/-- A re-executed run loads the entries it used again: an entry that is still the same load from its source slots, one in
whose place another load stands with the bits it had, while the other is put aside (R91; DESIGN CHOICE, log entry 105). -/
def reloadRun (e n : Nat) (r : Run) (s : State) : State :=
  let same (a b : Entry) : Bool := a.st ≠ 0 && a.owner == b.owner && a.task == b.task && a.elemSlot == b.elemSlot
  let old := if r.srcs.isEmpty then (maskBits (tdUse r.desc)).map fun i => (i, getEntry s e i) else r.srcs
  let p := planLoads s e (old.map (·.1)) fun i => codeBits (mapGet ({} : Entry) old i).fmt = 4
  let s := old.foldl (fun s (i, x) =>
    let now := getEntry s e i
    let sh := (getTile s e).shelf
    let at_ (y : Entry) : Entry := { y with st := 1, since := plannedAt p i, useEnd := now.useEnd }
    if same now x then setEntry e i (at_ now) s
    else match mapLookup sh i with
      | some y =>
        if same y x then setEntry e i (at_ y) (modTile e (fun t => { t with shelf := mapErase t.shelf i }) s)
        else setEntry e i (at_ { x with fixed := true, holds := [] }) s
      | none => setEntry e i (at_ { x with fixed := true, holds := [] })
          (if now.st = 0 then s else modTile e (fun t => { t with shelf := mapInsert t.shelf i now }) s)) s
  setRun e n { r with reload := false } (setLoader e p.2 s)

/-- What a GRID task that holds the grid does next: it loads its entries, begins a row group once it can, or ends it at its
cycle. A task without rows has no row group and is over at once (R111). -/
def gridWork (e n : Nat) (r : Run) (s : State) : State :=
  let begin_ (r : Run) (s : State) : State :=
    if r.groups = 0 then afterGroup e n r s
    else if canIssue s e n r then startGroup e n r s
    else s
  if (getTile s e).streaming then edgeGroup e s
  else if r.reload then reloadRun e n r s
  else if !r.loadsBegun then
    let s := beginLoads e n r s
    match curRun (getTctx s e n) with
    | some r => begin_ r s
    | none => s
  else begin_ r s

def execGrid (d : Die) (t : TileId) (s : State) : Outcome :=
  onlyIf (fun s => (gridRun s (engineOf d t)).isSome) (fun s =>
    let e := engineOf d t
    match gridRun s e with
    | some (n, r) => wantPeriod e (gridWork e n r s)
    | none => s) s

/-! ## The grid is given (R104–R106) -/

/-- READY task contexts that lost a slot at this edge wait for it (R103, R123). -/
def reviewReady (e : Nat) (s : State) : State :=
  (List.range 4).foldl (fun s n =>
    if (getTctx s e n).st = 3 && (blockedOn s e n).isSome then waitOrReady e n s else s) s

def execGridAssign (d : Die) (t : TileId) (s : State) : Outcome :=
  onlyIf (fun s => (nextHolder s (engineOf d t)).isSome) (fun s =>
    let e := engineOf d t
    match nextHolder s e with
    | none => s
    | some n =>
      let tl := getTile s e
      let x := getTctx s e n
      let was := getTctx s e tl.last
      let switch := tl.lastOn && !tl.ordered && (chainHolder s e).isNone && n ≠ tl.last && !tl.yielded && (was.st = 1 || was.st = 2)
      match x.runs.getLast? with
      | none => s
      | some r =>
        let cs := claimSet s e r
        let s := doClaims e cs s
        let s := setTctx e n { x with st := 4, c0 := none, late := false, block := none, chainOn := x.chain.isSome } s
        let s := setRun e n { r with claims := r.claims ++ cs } s
        let s := modTile e (fun t => { t with cur := some n, last := n, lastOn := true, yielded := false }) s
        let s := if switch then ndc 0 d (bump (aTil d t 0x194) s) else s
        wantPeriod e (reviewReady e s)) s

/-! ## The activity ramp (R83–R85) -/

/-- Null vectors were issued for 8 cycles, after a row group or after the start ramp, and no real vector came. -/
def execHoldExpiry (d : Die) (t : TileId) (s : State) : Outcome :=
  onlyIf (fun s =>
    let x := getTile s (engineOf d t)
    x.phase = 2 && holdEnd s (engineOf d t) ≤ cycleOf s) (fun s =>
    modTile (engineOf d t) (fun x => { x with phase := 4, phaseAt := cycleOf s }) s) s

/-- The stop ramp ends: the grant of leave ends with it, and a row group that waits asks for a new period. -/
def execStopRampEnd (d : Die) (t : TileId) (s : State) : Outcome :=
  onlyIf (fun s =>
    let x := getTile s (engineOf d t)
    x.phase = 4 && x.phaseAt + rampCycles s d t ≤ cycleOf s) (fun s =>
    let e := engineOf d t
    wantPeriod e (modTile e (fun x => { x with phase := 0 }) (modGrant d t (fun g => { g with ended := true }) s))) s

/-! ## Checks, re-execution and fencing (R88–R92) -/

/-- Contexts with work on a tile. -/
def tileContexts (s : State) (e : Nat) : List Nat :=
  sortedSet ((List.range 4).filterMap fun n => if (getTctx s e n).st ≠ 0 then some (getTctx s e n).ctx else none)

/-- A checksum mismatch: the first starts a re-execution, a second fences the tile (R91, R92). -/
def mismatch (e n task site : Nat) (s : State) : State :=
  let us := unitOf (getTctx s e n) task
  if us.any (·.reexec) then
    let xs := tileContexts s e
    let desc := ((us.find? (·.index == task)).map (·.desc)).getD []
    xs.foldl (fun s x => abortJob x 6 s) (fenceTile e n site desc s)
  else us.foldl (fun s r => setRun e n { r with failed := true } s) s

/-- The check unit's result for the oldest unchecked vector. `upset`: a column and the bit of its partial sum that
flipped on the way. -/
def execCheckResult (d : Die) (t : TileId) (upset : Option (Nat × Nat)) (s : State) : Outcome :=
  onlyIf (fun s => !(getTile s (engineOf d t)).checks.isEmpty) (fun s =>
    let e := engineOf d t
    match (getTile s e).checks with
    | [] => s
    | k :: rest =>
      let s := modTile e (fun x => { x with checks := rest }) s
      let c := match upset with
        | some (_, bit) => (k.c + rotQ (resOf (2 ^ bit) 0) (k.anchor - 64)) % resQ
        | none => k.c
      if c = k.m then
        match (getTctx s e k.tctx).runs.find? (·.index == k.task) with
        | some r => setRun e k.tctx { r with unchecked := r.unchecked - 1 } s
        | none => s
      else mismatch e k.tctx k.task 0 s) s

/-- A task context with a mismatch waiting, when no other task's row group is in progress. The grid is its own at once, where
another task context's chain is open too (R75, R91: DESIGN CHOICE, log entry 134). -/
def reexecTctx (s : State) (e : Nat) : Option Nat :=
  (List.range 4).find? fun n => (getTctx s e n).runs.any (·.failed) &&
    (match (getTile s e).cur with
     | none => true
     | some m => m = n && (match curRun (getTctx s e n) with | some r => r.failed | none => true))

/-- The streams re-issue the logged FEED descriptors of the tasks that run again before any they have not begun; a block of
theirs that is on its way is begun anew behind them (R148). -/
def reissueFeed (e n : Nat) (us : List Run) (s : State) : State :=
  let ours (task : Nat) : Bool := us.any (·.index == task)
  (List.range 4).foldl (fun s q =>
    let st := getStream s e q
    let mine (y : SDesc) : Bool := y.begun && !y.ended && !y.replay && y.fail = 0 && sdTctx y.bytes = n &&
      (match y.feed with | some f => ours f.1 | none => false)
    let flying := st.q.filterMap fun y => if mine y then y.feed else none
    let (back, again) := ((getTctx s e n).feedLog.filter fun l => l.stream = q && ours l.task).partition fun l => flying.contains (l.task, l.group)
    let fresh := st.q.map fun y => if mine y then { bytes := y.bytes, qslot := y.qslot, seq := y.seq, gated := y.gated } else y
    let begun := fresh.takeWhile (·.begun)
    let reps := again.map fun l => ({ bytes := l.bytes, qslot := 0, seq := l.seq, replay := true, gated := true, feed := some (l.task, l.group) } : SDesc)
    modTctx e n (fun x => { x with feedLog := x.feedLog.filter fun l => !back.contains l })
      (setStream e q { st with q := begun ++ reps ++ fresh.drop begun.length } s)) s

/-- A run from its first vector again, with the same anchor. -/
def again (r : Run) : Run :=
  { r with issued := 0, drained := 0, unchecked := 0, flags := 0, held := [], reexec := true, reload := r.loadsBegun, failed := false }

def execGridReexec (d : Die) (t : TileId) (s : State) : Outcome :=
  onlyIf (fun s => (reexecTctx s (engineOf d t)).isSome) (fun s =>
    let e := engineOf d t
    match reexecTctx s e with
    | none => s
    | some n =>
      let us := (getTctx s e n).runs.filter (·.failed)
      let first := us.filter fun r => (unitOf (getTctx s e n) r.index).head? = some r
      let mine (task : Nat) : Bool := us.any (·.index == task)
      let s := modTile e (fun x => { x with
        halves := x.halves.filter fun h => !(h.tctx == n && mine h.task)
        checks := x.checks.filter fun c => !(c.tctx == n && mine c.task)
        gridOut := x.gridOut.filter fun g => !(g.tctx == n && mine g.task)
        prism := x.prism.filter fun p => !(p.tctx == n && mine p.task) }) (freeGrid e n s)
      let s := modTile e (fun x => { x with cur := some n }) s
      let s := us.foldl (fun s r => setRun e n (again r) s) s
      let s := reissueFeed e n us s
      first.foldl (fun s _ => ndc 2 d (bump (aTil d t 0x808) s)) s) s

/-! ## Draining a half (R74, R89, R111) -/

/-- Output elements before a sub-grid's, in the generator index (R111). -/
def subBase (b : List Byte) (subs : List Sub) (k : Nat) : Nat := (subs.take k).foldl (fun a u => a + u.rows * tdYLen b) 0

/-- The values of the outputs of one row of a row group, from its lanes. -/
def rowOutputs (b : List Byte) (u : Sub) (h : HalfS) (a : Int) (pos : Nat) : List (Nat × TFlags) :=
  let sd := tdSide b
  let lanes := if tdSwapped b then
      (if tdClass b = 0 then (List.range sd).map (· + u.i * sd) ++ (List.range sd).map (· + (128 + u.i * sd))
       else (List.range sd).map (· + u.i * sd))
    else (List.range sd).map (· + u.j * sd)
  lanes.zipIdx.map fun (l, i) =>
    if tdZ4 b && !tdSwapped b && i = 127 then (0, {}) else readOut a (mapGet {} h.acc (l * 256 + bankSlot b u pos))

/-- One converted piece of an output row: offset in elements from the row's start. -/
structure OutPiece where
  sub : Nat
  row : Nat
  off : Nat
  conv : ConvRow
  fl : TFlags

def drainPieces (s : State) (e n : Nat) (r : Run) (h : HalfS) : List OutPiece :=
  let b := r.desc
  let subs := runSubs r
  let batch := tdBatchOf b h.group
  let used := maskBits (tdUse b)
  let off := if tdSwapped b then (((tdUnitsOf b h.group).headD []).headD 0 |> used.idxOf) * tdSide b else 0
  let key := convKey s (getTctx s e n).ctx (tdRound b) (tdTensor b)
  (subs.zipIdx.map fun (u, k) =>
    (subRows b u batch).zipIdx.map fun (t, pos) =>
      let outs := rowOutputs b u h (h.anchors.getD k 0) pos
      let fl := outs.foldl (fun (a : TFlags) x => a.or x.2) ({} : TFlags)
      let idx := tdElemBase b + subBase b subs k + t * tdYLen b + off
      let cv := convRow (tdY b) key idx (outs.map fun x => val32 x.1)
      { sub := k, row := t, off, conv := cv, fl := TFlags.or fl { convSat := cv.sat, convNonfinite := cv.nonfinite } }).flatten

/-- Bytes set from an offset on. -/
def putCells (c : SMap Byte) (o : Nat) (bs : List Byte) : SMap Byte :=
  ((List.range bs.length).zip bs).foldl (fun c p => mapInsert c (o + p.1) p.2) c

/-- Writes a piece to the output slots, or towards the write stream: all elements, then all scale bytes (R111, R137; DESIGN
CHOICE, log entry 122). -/
def writePiece (e n : Nat) (r : Run) (p : OutPiece) (s : State) : State :=
  let b := r.desc
  let subs := runSubs r
  let eo := elemBytes (tdY b) p.off
  let so := p.off / 32
  if tdYStreamed b then
    let rowB := elemBytes (tdY b) (tdYLen b)
    let total := subs.foldl (fun a u => a + u.rows * rowB) 0
    let before := (subs.take p.sub).foldl (fun a u => a + u.rows * rowB) 0
    let beforeS := (subs.take p.sub).foldl (fun a u => a + u.rows * (tdYLen b / 32)) 0
    let put (c : List Host.Cell) : List Host.Cell :=
      putCells (putCells c (before + p.row * rowB + eo) p.conv.elems) (total + beforeS + p.row * (tdYLen b / 32) + so) p.conv.scales
    modTile e (fun t =>
      match t.gridOut.find? fun g => g.tctx == n && g.task == r.index with
      | some g => { t with gridOut := t.gridOut.map fun y => if y = g then { g with cells := put g.cells } else y }
      | none => { t with gridOut := t.gridOut ++ [{ stream := tdYStream b, tctx := n, task := r.index, cells := put [] }] }) s
  else
    match subs[p.sub]? with
    | none => s
    | some u =>
      let s := writeScr e ((yRange b u p.row).1 + eo) p.conv.elems s
      if p.conv.scales.isEmpty then s else writeScr e ((ysRange b u p.row).1 + so) p.conv.scales s

/-- The half's accumulators with one bit of a guarded sum flipped, for `accUpset` (accumulator key, bit). -/
def upsetHalf (h : HalfS) (u : Option (Nat × Nat)) : HalfS :=
  match u with
  | some (k, bit) => { h with acc := mapInsert h.acc k { (mapGet {} h.acc k) with q := (mapGet {} h.acc k).q + 2 ^ bit } }
  | none => h

def execHalfDrained (d : Die) (t : TileId) (accUpset rndUpset : Option (Nat × Nat)) (s : State) : Outcome :=
  onlyIf (fun s => (getTile s (engineOf d t)).halves.any (·.full)) (fun s =>
    let e := engineOf d t
    match (getTile s e).halves.find? (·.full) with
    | none => s
    | some h0 =>
      let h := upsetHalf h0 accUpset
      let n := h.tctx
      let s := formHeld e 2 (modTile e (fun x => { x with halves := x.halves.erase h0 }) s)
      if !h.acc.all (·.2.checks) then mismatch e n h.task 1 s
      else if rndUpset.isSome then mismatch e n h.task 2 s
      else
        match (getTctx s e n).runs.find? (·.index == h.task) with
        | none => s
        | some r =>
          let ps := drainPieces s e n r h
          let s := ps.foldl (fun s p => writePiece e n r p s) s
          let fl := ps.foldl (fun a p => a ||| p.fl.bits) r.flags
          let r' := { r with drained := r.drained + 1, flags := fl }
          let s := setRun e n r' s
          let s := if r'.drained = r'.groups then
              modTile e (fun x => { x with gridOut := x.gridOut.map fun g => if g.tctx = n && g.task = r.index then { g with whole := true } else g }) s
            else s
          s) s

/-! ## Commit (R90) -/

/-- The oldest task or chain of a task context, if every check of it has passed and its write stream has taken what it
sends there (R137, R141). A chain that is still open when its list is over never commits (R109; DESIGN CHOICE, log entry
123). -/
def commitUnit (s : State) (e n : Nat) : Option (List Run) :=
  let x := getTctx s e n
  match x.runs with
  | [] => none
  | r :: _ =>
    let us := if tdChain r.desc && tdOp r.desc = 1 then (x.runs.takeWhile fun y => tdChain y.desc) ++ ((x.runs.dropWhile fun y => tdChain y.desc).take 1) else [r]
    let closed := match us.getLast? with | some l => !tdChain l.desc || tdOp l.desc ≠ 1 | none => false
    let ready (y : Run) : Bool :=
      tdOp y.desc ≠ 0x03 && !y.failed && y.unchecked = 0 && y.held.isEmpty && y.issued = y.groups && y.loadsBegun &&
        (tdChain y.desc || y.drained = y.groups) && !(getTile s e).gridOut.any (fun g => g.tctx == n && g.task == y.index) &&
        (maskBits (tdLoad y.desc)).all (fun i =>
          let x := getEntry s e i
          !(x.st = 1 && x.owner = n && x.task = y.index))
    if closed && us.all ready then some us else none

/-- The commit of one task: its claims end, its record is written. Flags go to the last task of a chain (R113). -/
def commitRun (e n : Nat) (flags : Nat) (r : Run) (s : State) : State :=
  let s := endClaims e r.claims s
  putRecord e n r flags 0 (s.clk.count % 2 ^ 32) s

def execTaskCommit (d : Die) (t : TileId) (n : Tctx) (s : State) : Outcome :=
  onlyIf (fun s => (commitUnit s (engineOf d t) n).isSome) (fun s =>
    let e := engineOf d t
    match commitUnit s e n with
    | none => s
    | some us =>
      let all := us.foldl (fun a r => a ||| r.flags) 0
      let log := (getTctx s e n).feedLog.filter fun l => !us.any (·.index == l.task)
      let s := modTctx e n (fun x => { x with runs := x.runs.drop us.length, feedLog := log }) s
      let s := us.foldl (fun s r => commitRun e n (if some r = us.getLast? then all else 0) r s) s
      match us.getLast? with
      | some r => endIfLast e n r s
      | none => s) s

end Sys2Proof.Machine
end

