-- ==== Sys2Proof/Machine/Remote.lean ====
section
/-! DEFINITION. Requests to other packages' memory (R155, R156, R273, R274): their checks before a byte leaves, and
the messages. -/

namespace Sys2Proof.Machine

def isNeighbourMode (s : State) : Bool := regF s (aFab 0 4) 0 0 = 1

def gaDie (ga : Nat) : Nat := bitsOf ga 47 45

/-- Remote head grain (R274). -/
def remoteHead (op status gen len ga tag rjob : Nat) : List Byte :=
  padGrain (wordsLE [op * 2 ^ 24 + status * 2 ^ 16 + gen, len, ga, ga / 2 ^ 32, tag, rjob])

/-- The cause with which a remote access of a context ends before any byte leaves; 0 where it may go (R155, R156). -/
def remoteBad (s : State) (ctx : Nat) (write : Bool) (gen ga : Nat) : Nat :=
  if isNeighbourMode s then
    let r := ringOf s ctx
    let nbr := r.st ≠ 0 && (gaPkg ga = ringNextPkg s ctx 0 || gaPkg ga = ringNextPkg s ctx 1)
    if !write || gen ≠ 0 then 1 else if !nbr then 5 else 0
  else 0

/-- Cuts a run of bytes into messages of at most 4,096 bytes that end on 256-byte bounds of the target. -/
def cutMessages : Nat → Nat → List Byte → List (Nat × List Byte)
  | 0, _, _ => []
  | n + 1, ga, l =>
    if l.isEmpty then []
    else
      let k := 4096 - ga % 256
      (ga, l.take k) :: cutMessages n (ga + (l.take k).length) (l.drop k)

def newTag (p : Pend) (s : State) : State × Nat :=
  let t := s.fab.nextTag
  ({ s with fab := { s.fab with nextTag := (t + 1) % 2 ^ 32, pend := mapInsert s.fab.pend t p } }, t)

/-- Sends one RWRITE of at most 4,096 bytes; answers its tag. -/
def sendRWrite (sdie cls ctx gen ga : Nat) (data : List Byte) (own : Nat → Owner) (s : State) : State × Nat :=
  let (s, t) := newTag { own := own s.fab.nextTag, dst := ga, len := data.length } s
  let rjob := if isNeighbourMode s then ringJob s ctx else 0
  let m : Msg := { cls, ty := 1, dpkg := gaPkg ga, ddie := gaDie ga, sdie,
                   bytes := remoteHead 1 0 gen data.length ga t rjob ++ padGrain data }
  (post m (own t) s, t)

/-- Sends one RREAD of at most 4,096 bytes; answers its tag. -/
def sendRRead (sdie ga dst len : Nat) (own : Nat → Owner) (s : State) : State × Nat :=
  let (s, t) := newTag { own := own s.fab.nextTag, dst, len } s
  (post { cls := 2, ty := 2, dpkg := gaPkg ga, ddie := gaDie ga, sdie, bytes := remoteHead 2 0 0 len ga t 0 } (own t) s, t)

end Sys2Proof.Machine
end

