-- ==== Sys2Proof/Machine/RowEngine.lean ====
section
/-! DEFINITION. The row engines (R204–R217): their descriptors, the row functions, statistics records and spilling,
claims, and the rows of the table that run them. -/

namespace Sys2Proof.Machine

/-! ## Descriptor fields (R205) -/

def rdOp (b : List Byte) : Nat := fld b 0 31 24
def rdIn (b : List Byte) : Nat := fld b 0 23 20
def rdOut (b : List Byte) : Nat := fld b 0 19 16
def rdRound (b : List Byte) : Bool := fld b 0 15 15 = 1
def rdComplete (b : List Byte) : Bool := fld b 0 14 14 = 1
def rdGate (b : List Byte) : Nat := fld b 0 13 12
def rdConsume (b : List Byte) : Bool := fld b 0 11 11 = 1
def rdKeep (b : List Byte) : Bool := fld b 0 10 10 = 1
def rdFree (b : List Byte) : Bool := fld b 0 9 9 = 1
def rdGacc (b : List Byte) : Bool := fld b 0 8 8 = 1
def rdRms (b : List Byte) : Bool := fld b 0 7 6 = 1
def rdMask (b : List Byte) : Bool := fld b 0 5 5 = 1
def rdFunc (b : List Byte) : Nat := fld b 0 4 2
/-- TILE and SLOT of the operand word at byte offset `o`. -/
def rdTile (b : List Byte) (o : Nat) : Nat := fld b o 29 24
def rdSlot (b : List Byte) (o : Nat) : Nat := fld b o 13 0
def rdRows (b : List Byte) : Nat := fld b 0x18 31 16
def rdLen (b : List Byte) : Nat := fld b 0x18 15 0
/-- Pitches in bytes: SRC, AUX, DST by the offset of their operand word. -/
def rdPitch (b : List Byte) (o : Nat) : Nat :=
  16 * (if o = 4 then fld b 0x1C 31 16 else if o = 8 then fld b 0x20 31 16 else fld b 0x1C 15 0)
def rdMb (b : List Byte) : Nat := fld b 0x20 15 0
def rdSid (b : List Byte) : Nat := fld b 0x24 31 24
def rdLayer (b : List Byte) : Nat := fld b 0x24 15 0
def rdRowFirst (b : List Byte) : Nat := wordAt b 0x28
def rdKeyFirst (b : List Byte) : Nat := wordAt b 0x2C
def rdScalar (b : List Byte) : Nat := wordAt b 0x30
def rdTensor (b : List Byte) : Nat := wordAt b 0x34
def rdElemBase (b : List Byte) : Nat := wordAt b 0x38

/-! ## Operands (R205–R207) -/

/-- An operand row: the operand word's offset, the row and the operand's row count, the format (none: FP32 planes that
carry no code), the bytes of its elements, and the access. -/
structure RowPlane where
  o : Nat
  r : Nat
  n : Nat
  fmt : Option Nat
  bytes : Nat
  kind : ClaimKind

/-- Byte ranges of an operand row: elements, then scale bytes. -/
def planeRanges (b : List Byte) (p : RowPlane) : (Nat × Nat) × (Nat × Nat) :=
  let pitch := rdPitch b p.o
  let base := rdSlot b p.o * 256
  let el := (base + p.r * pitch, p.bytes)
  match p.fmt with
  | some f =>
    if codeBlocked f then
      let s0 := rdSlot b p.o + (p.n * pitch + 255) / 256
      (el, (s0 * 256 + p.r * pitch / blockBytes f, (rdLen b + 31) / 32))
    else (el, (0, 0))
  | none => (el, (0, 0))

/-- The operand rows that DST row `t` reads and writes. A read AUX row is peeked. -/
def rowPlanes (b : List Byte) (t : Nat) : List RowPlane :=
  let op := rdOp b
  let n := rdLen b
  let rows := rdRows b
  let inB := elemBytes (rdIn b) n
  let outB := elemBytes (rdOut b) n
  let sk : ClaimKind := if rdConsume b then .consume else .peek
  if op = 0x4A then []
  else if op = 0x47 then
    ((List.range (rdKeyFirst b)).map fun i => (⟨4, i * rows + t, rdKeyFirst b * rows, some (rdIn b), inB, sk⟩ : RowPlane)) ++
      [⟨0xC, t, rows, some (rdOut b), outB, .fill⟩]
  else if op = 0x46 then
    [⟨4, t, rows, none, 16 * n, sk⟩, ⟨0xC, t, rows, none, 12 * n, .fill⟩, ⟨8, t, rows, some (rdOut b), outB, .fill⟩]
  else
    [⟨4, t, rows, some (rdIn b), inB, sk⟩, ⟨0xC, t, rows, some (rdOut b), outB, .fill⟩] ++
      (if [0x41, 0x43, 0x45, 0x49].contains op then [⟨8, t, rows, some (rdIn b), inB, .peek⟩] else [])

/-- Bytes of PAR that an opcode reads. -/
def parBytes (b : List Byte) : Nat :=
  match rdOp b with
  | 0x42 => 8 * rdLen b
  | 0x43 => 16 * rdLen b
  | 0x46 => 36
  | _ => 0

/-- The tagged slots that row `t` touches, each with its engine and access. -/
def rowClaims (s : State) (d : Nat) (b : List Byte) (t : Nat) : List (Nat × Claim) :=
  (rowPlanes b t).foldl (fun acc p =>
    let e := engine d (rdTile b p.o)
    let (x, y) := planeRanges b p
    (slotsOf x.1 x.2 ++ slotsOf y.1 y.2).foldl (fun acc sl =>
      if isTagged s e sl && !acc.contains (e, ⟨sl, p.kind⟩) then acc ++ [(e, ⟨sl, p.kind⟩)] else acc) acc) []

/-! ## Checks (R205, R206, R217) -/

/-- Fields that an opcode does not use are 0. IN_FMT belongs to SRC and AUX, which OPT reads too, and SCALAR to NORM, both ways:
they may be set there (DESIGN CHOICE, log entry 140). -/
def rowUnusedOk (b : List Byte) : Bool :=
  let op := rdOp b
  let only (ops : List Nat) (v : Nat) : Bool := v = 0 || ops.contains op
  let data := [0x40, 0x41, 0x42, 0x43, 0x44, 0x45, 0x46, 0x47, 0x48, 0x49]
  only data (fld b 0 23 15) && only data (fld b 0 11 11) && only [0x42, 0x44] (fld b 0 10 10) && only [0x43, 0x45] (fld b 0 9 9) &&
    only [0x43] (fld b 0 8 8) && only [0x42, 0x43] (fld b 0 7 6) && only [0x44, 0x45] (fld b 0 5 5) &&
    only [0x40, 0x41] (fld b 0 4 2) && only data (wordAt b 4) && only [0x41, 0x43, 0x45, 0x46, 0x49] (wordAt b 8) &&
    only data (wordAt b 0xC) && only [0x42, 0x43, 0x46] (wordAt b 0x10) && only data (fld b 0x18 15 0) &&
    only data (wordAt b 0x1C) && only [0x41, 0x43, 0x45, 0x46, 0x49] (fld b 0x20 31 16) &&
    only [0x42, 0x43, 0x44, 0x45, 0x4A] (fld b 0x20 15 0) && only [0x42, 0x43, 0x44, 0x45, 0x4A] (wordAt b 0x24) &&
    only [0x42, 0x43, 0x44, 0x45, 0x4A] (wordAt b 0x28) && only [0x44, 0x45, 0x47] (wordAt b 0x2C) &&
    only [0x42, 0x43, 0x44, 0x45] (wordAt b 0x30) && only data (wordAt b 0x34) && only data (wordAt b 0x38)

/-- No reserved bit or value. -/
def rowReservedOk (b : List Byte) : Bool :=
  zeroBits b 0 [(1, 0)] && [4, 8, 0xC, 0x10, 0x14].all (fun o => zeroBits b o [(31, 30), (23, 14)]) &&
    zeroBits b 0x24 [(23, 16)] && rdIn b ≤ 10 && rdOut b ≤ 10 && rdGate b ≠ 3 && fld b 0 7 6 ≤ 1 && rdFunc b ≤ 2 &&
    rdRows b ≠ 0 && (rdOp b = 0x4A || rdLen b ≠ 0)

/-- An operand stays below slot 12,276, in a tile of the die, with its pitch a multiple of the block. -/
def planeOk (s : State) (b : List Byte) (p : RowPlane) : Bool :=
  let last := { p with r := p.n - 1 }
  let (x, y) := planeRanges b last
  rdTile b p.o < tilesPerDie s && x.1 + x.2 ≤ 12276 * 256 &&
    (match p.fmt with
     | some f => !codeBlocked f || (rdPitch b p.o % blockBytes f = 0 && rdLen b % 32 = 0 && y.1 + y.2 ≤ 12276 * 256)
     | none => true)

/-- The descriptor is MALFORMED (R22, R205–R207, R217). -/
def rowMalformed (s : State) (d : Nat) (b : List Byte) : Bool :=
  let op := rdOp b
  let par := rdSlot b 0x10 * 256
  !(0x40 ≤ op && op ≤ 0x4A && rowReservedOk b && rowUnusedOk b) ||
    (op = 0x47 && !(2 ≤ rdKeyFirst b && rdKeyFirst b ≤ 16)) ||
    !(rowPlanes b 0).all (planeOk s b) ||
    (parBytes b ≠ 0 && (!(rdTile b 0x10 < tilesPerDie s) || par + parBytes b > 12276 * 256 ||
      (slotsOf par (parBytes b)).any (isTagged s (engine d (rdTile b 0x10))))) ||
    (rdGate b ≠ 0 && !(rdTile b 0x14 < tilesPerDie s && isTagged s (engine d (rdTile b 0x14)) (rdSlot b 0x14)))

/-! ## Row arithmetic (R208–R212) -/

/-- One operation after another: the flags of both. -/
def F32.bind (a : F32) (f : Nat → F32) : F32 := let b := f a.bits; { bits := b.bits, fl := a.fl ||| b.fl }

/-- Widening to binary32 (R208): exact, but for a magnitude beyond the range. -/
def widen32 (v : Val) : F32 :=
  match v with
  | .nan => { bits := nan32 }
  | .inf n => { bits := inf32 n }
  | .fin n m e => if m = 0 then { bits := zero32 n } else let r := round32 n m e; { r with fl := r.fl &&& fOF }

def one32 : Nat := 0x3F800000

/-- The bits and the flags of a list of results. -/
def bitsFl (l : List F32) : List Nat × Nat := (l.map (·.bits), l.foldl (fun a x => a ||| x.fl) 0)

/-- Lane sums from +0.0, combined by the tree of R56 (R209). `f i acc` adds element i to its lane. -/
def laneSum (n : Nat) (f : Nat → Nat → F32) : F32 :=
  let lanes := (List.range 64).map fun l =>
    (List.range ((n + 63 - l) / 64)).foldl (fun (a : F32) k => a.bind (f (l + 64 * k))) { bits := 0 }
  let (bs, fl) := bitsFl lanes
  let r := tree32 bs
  { r with fl := r.fl ||| fl }

/-- Σ of a row. -/
def sumRow (l : List Nat) : F32 := laneSum l.length fun i a => add32 a (l.getD i 0)

/-- A dot product, one fused multiply-add for each term. -/
def dotRow (l m : List Nat) : F32 := laneSum l.length fun i a => fma32 (l.getD i 0) (m.getD i 0) a

/-- Order key of a number that is no NaN; −0 lies below +0. -/
def ordKey (x : Nat) : Int := if x < 2 ^ 31 then (x : Int) else -((x - 2 ^ 31 : Nat) : Int) - 1

/-- The maximum of a row (R209). -/
def maxRow (l : List Nat) : Nat :=
  if l.any isNan32 then nan32
  else l.foldl (fun m x => if ordKey m < ordKey x then x else m) (inf32 true)

/-- What a row operation makes of a row: outputs, flags, and the two statistics values. -/
structure RowRes where
  out : List Nat
  fl : Nat := 0
  stat : Nat × Nat := (0, 0)

/-- x − μ, or x itself for RMS. -/
def centre (rms : Bool) (mu : Nat) (x : List Nat) : List Nat × Nat := if rms then (x, 0) else bitsFl (x.map fun v => sub32 v mu)

def normFwd (rms : Bool) (eps : Nat) (gamma beta x : List Nat) : RowRes :=
  let n := int32 x.length
  let mu : F32 := if rms then { bits := 0 } else (sumRow x).bind fun t => div32 t n
  let (d, f1) := centre rms mu.bits x
  let var := (dotRow d d).bind fun t => div32 t n
  let rstd := var.bind fun v => (add32 v eps).bind rsqrt32
  let (y, f2) := bitsFl ((d.zip (gamma.zip beta)).map fun (v, g, b) =>
    (mul32 v rstd.bits).bind fun h => if rms then mul32 h g else fma32 h g b)
  { out := y, fl := mu.fl ||| f1 ||| rstd.fl ||| f2, stat := (mu.bits, rstd.bits) }

/-- dx, and the new dγ and dβ where they accumulate. -/
def normBwd (rms gacc : Bool) (mu rstd : Nat) (gamma dgamma dbeta x dy : List Nat) : RowRes × List Nat × List Nat :=
  let n := int32 x.length
  let (d, f1) := centre rms mu x
  let (xh, f2) := bitsFl (d.map fun v => mul32 v rstd)
  let (g, f3) := bitsFl ((dy.zip gamma).map fun (a, b) => mul32 a b)
  let a : F32 := if rms then { bits := 0 } else (sumRow g).bind fun t => div32 t n
  let b := (dotRow g xh).bind fun t => div32 t n
  let (dx, f4) := bitsFl ((g.zip xh).map fun (u, h) =>
    (sub32 u a.bits).bind fun w => (fma32 (neg32 h) b.bits w).bind fun r => mul32 rstd r)
  let (dg, f5) := if gacc then bitsFl ((dy.zip (xh.zip dgamma)).map fun (u, h, c) => fma32 u h c) else (dgamma, 0)
  let (db, f6) := if gacc then bitsFl ((dbeta.zip dy).map fun (c, u) => add32 c u) else (dbeta, 0)
  ({ out := dx, fl := f1 ||| f2 ||| f3 ||| a.fl ||| b.fl ||| f4 ||| f5 ||| f6 }, dg, db)

/-- x = α × s, with −Inf where the causal mask hides an element. -/
def smaxX (alpha : Nat) (hidden : Nat → Bool) (v : List Nat) : List Nat × Nat :=
  let (x, f) := bitsFl (v.map fun a => mul32 alpha a)
  (x.zipIdx.map fun (a, j) => if hidden j then inf32 true else a, f)

/-- p of a row from m and lg. -/
def smaxP (m lg : Nat) (x : List Nat) : List Nat × Nat :=
  if m = inf32 true then (x.map fun _ => 0, 0)
  else bitsFl (x.map fun a => (sub32 a m).bind fun u => (sub32 u lg).bind exp32)

def smaxFwd (alpha : Nat) (hidden : Nat → Bool) (v : List Nat) : RowRes :=
  let (x, f1) := smaxX alpha hidden v
  let m := maxRow x
  let lg : F32 := if m = inf32 true then { bits := inf32 true }
    else
      let (es, f) := bitsFl (x.map fun a => (sub32 a m).bind exp32)
      let l := (sumRow es).bind log32
      { l with fl := l.fl ||| f }
  let (p, f2) := smaxP m lg.bits x
  { out := p, fl := f1 ||| lg.fl ||| f2, stat := (m, lg.bits) }

def smaxBwd (alpha m lg : Nat) (hidden : Nat → Bool) (v dp : List Nat) : RowRes :=
  let (x, f1) := smaxX alpha hidden v
  let (p, f2) := smaxP m lg x
  let dd := dotRow p dp
  let (ds, f3) := bitsFl ((p.zip dp).map fun (a, b) =>
    (sub32 b dd.bits).bind fun u => (mul32 a u).bind fun w => mul32 alpha w)
  { out := ds, fl := f1 ||| f2 ||| dd.fl ||| f3 }

def sig32 (u : Nat) : F32 := (exp32 (neg32 u)).bind fun t => (add32 one32 t).bind recip32

/-- x > 0, for x that is no NaN. -/
def pos32 (x : Nat) : Bool := 0 < x && x < 2 ^ 31

/-- u of SILU and GELU_S. -/
def actU (func x : Nat) : F32 := if func = 2 then mul32 0x3FD9DB23 x else { bits := x }

def act32 (func x : Nat) : F32 :=
  if func = 0 then { bits := if isNan32 x then nan32 else if pos32 x then x else 0 }
  else (actU func x).bind fun u => (sig32 u).bind fun r => mul32 x r

def actBwd32 (func x dy : Nat) : F32 :=
  if func = 0 then { bits := if isNan32 x then nan32 else if pos32 x then dy else 0 }
  else (actU func x).bind fun u => (sig32 u).bind fun r =>
    (sub32 one32 r).bind fun a => (mul32 u a).bind fun b => (add32 one32 b).bind fun c => (mul32 r c).bind fun e => mul32 dy e

/-- The optimiser update of one element: w′, m′, v′ and flags (R212). -/
def opt32 (p : List Nat) (w m v g : Nat) : (Nat × Nat × Nat) × Nat :=
  let c (i : Nat) : Nat := p.getD i 0
  let m1 := (mul32 (c 2) g).bind fun t => fma32 (c 1) m t
  let v1 := (mul32 (c 4) g).bind fun t => (mul32 t g).bind fun t => fma32 (c 3) v t
  let num := mul32 m1.bits (c 5)
  let den := (mul32 v1.bits (c 6)).bind fun t => (sqrt32 t).bind fun t => add32 t (c 7)
  let u := div32 num.bits den.bits
  let w1 := (fma32 (c 8) w u.bits).bind fun t => fma32 (neg32 (c 0)) t w
  ((w1.bits, m1.bits, v1.bits), m1.fl ||| v1.fl ||| num.fl ||| den.fl ||| u.fl ||| w1.fl)

/-! ## Reading and writing rows -/

/-- The elements of an operand row, widened, with flags. -/
def loadRow (s : State) (d : Nat) (b : List Byte) (p : RowPlane) : List Nat × Nat :=
  let e := engine d (rdTile b p.o)
  let (x, y) := planeRanges b p
  let f := p.fmt.getD 10
  bitsFl ((rowVals f (elems f (rdLen b) (readScr e x.1 x.2 s)) (readScr e y.1 y.2 s)).map widen32)

/-- n FP32 numbers from a byte of a scratchpad. -/
def loadF32 (s : State) (e o n : Nat) : List Nat := (List.range n).map fun i => leNat (readScr e (o + 4 * i) 4 s)

/-- Converts a row to OUT_FMT and writes it; the conversion flags go to bits 5 and 6 (R208, R216). -/
def storeRow (d x : Nat) (b : List Byte) (p : RowPlane) (t : Nat) (l : List Nat) (s : State) : State × Nat :=
  let e := engine d (rdTile b p.o)
  let (a, c) := planeRanges b p
  let f := p.fmt.getD 10
  let r := convRow f (convKey s x (rdRound b) (rdTensor b)) (rdElemBase b + t * rdLen b) (l.map val32)
  (writeScr e c.1 (r.scales.take c.2) (writeScr e a.1 r.elems s), bit r.sat 5 + bit r.nonfinite 6)

/-! ## Statistics records (R213–R215) -/

def recGranules (rows : Nat) : Nat := (16 + 8 * rows + 63) / 64

def recKey (r : StatRec) : Nat × Nat × Nat × Nat := (r.mb, r.layer, r.sid, r.rowFirst)
def rdKey (b : List Byte) : Nat × Nat × Nat × Nat := (rdMb b, rdLayer b, rdSid b, rdRowFirst b)

/-- Side-memory granules in use. -/
def sideUsed (l : List StatRec) : Nat := l.foldl (fun a r => if r.spill.isNone then a + recGranules r.rows else a) 0

/-- The 64-byte granules of a record (R213). -/
def recBytes (r : StatRec) : List Byte :=
  let b := wordsLE ([r.mb * 2 ^ 16 + r.layer, r.sid * 2 ^ 24 + r.kind * 2 ^ 22 + r.rows, r.rowFirst, r.step] ++
    (r.vals.map fun v => [v.1, v.2]).flatten)
  b ++ List.replicate (64 * recGranules r.rows - b.length) 0

/-- The values of a record read back. -/
def recVals (rows : Nat) (b : List Byte) : List (Nat × Nat) :=
  (List.range rows).map fun k => (wordAt b (0x10 + 8 * k), wordAt b (0x14 + 8 * k))

/-- The lowest free run of n granules in a spill area of m granules: right after some spilled record, or at 0. -/
def spillRun (l : List StatRec) (m n : Nat) : Option Nat :=
  let used := l.filterMap fun r => r.spill.map fun a => (a, recGranules r.rows)
  let fits (a : Nat) : Bool := a + n ≤ m && used.all fun (u, k) => a + n ≤ u || u + k ≤ a
  ((0 :: used.map fun (u, k) => u + k).filter fits).foldl (fun m a => match m with
    | some x => some (min x a)
    | none => some a) none

/-- The spill area of a row engine, where it lies in HBM of its die: H and granules. -/
def spillArea (s : State) (r : Nat) : Option (Nat × Nat) :=
  let a := 65536 * (reg64 s (aRow (r / 8) (r % 8) 0x30) / 65536)
  let n := regF s (aRow (r / 8) (r % 8) 0x38) 15 0 * 1024
  match gaHbm s a with
  | some (d, h) => if d = r / 8 && h + 64 * n ≤ hbmBytesPerDie then some (h, n) else none
  | none => none

/-- Spills resident records, oldest write first, until n granules fit in side memory; `false` where they cannot. -/
def makeRoom (r n : Nat) : Nat → State → State × Bool
  | 0, s => (s, false)
  | fuel + 1, s =>
    let l := (getRow s r).recs
    if sideUsed l + n ≤ 8192 then (s, true)
    else
      match l.find? (·.spill.isNone), spillArea s r with
      | some x, some (h, m) =>
        (match spillRun l m (recGranules x.rows) with
         | none => (s, false)
         | some a =>
           let s := hbmWrite (agRow r) (r / 8) (h + 64 * a) (recBytes x) s (some (rowCtx s r))
           let s := bump (aRow (r / 8) (r % 8) 0x40) s
           makeRoom r n fuel (setRow r { (getRow s r) with recs := l.map fun y => if y = x then { x with vals := [], spill := some a } else y } s))
      | _, _ => (s, false)

/-! ## Running a descriptor (R205, R207) -/

def rowTail (s : State) (r : Nat) : Nat := regF s (aRow (r / 8) (r % 8) 0x1C) 11 0
def rowHead (s : State) (r : Nat) : Nat := reg s (aRow (r / 8) (r % 8) 0x20)
def rowLog (s : State) (r : Nat) : Nat := regF s (aRow (r / 8) (r % 8) 0x18) 3 0
def rowAddr (s : State) (r : Nat) : Nat := reg64 s (aRow (r / 8) (r % 8) 0x10) / 64 * 64 + 64 * rowHead s r

/-- The queue is not halted, nothing executes, and a descriptor is posted. -/
def rowReady (s : State) (r : Nat) : Bool :=
  !(getRow s r).halted && (getRow s r).run.isNone && rowHead s r ≠ rowTail s r % 2 ^ rowLog s r

/-- The descriptor at the head. -/
def rowNext (s : State) (r : Nat) : List Byte :=
  match gaHbm s (rowAddr s r) with
  | some (d, h) => hbmPeek (agRow r) d h 64 s
  | none => List.replicate 64 0

/-- The head's bytes are uncorrectable. -/
def rowNextBad (s : State) (r : Nat) : Bool :=
  match gaHbm s (rowAddr s r) with
  | some (d, h) => (unitsOf h 64).any (badFor (agRow r) s d)
  | none => false

def modRun (r : Nat) (f : RowRun → RowRun) (s : State) : State :=
  match (getRow s r).run with
  | some x => setRow r { (getRow s r) with run := some (f x) } s
  | none => s

/-- The claims that the running descriptor needs next: its gate, or its next row's slots that it does not hold. -/
def rowWants (s : State) (r : Nat) (x : RowRun) : List (Nat × Claim) :=
  let d := r / 8
  if !x.gated then [(engine d (rdTile x.desc 0x14), ⟨rdSlot x.desc 0x14, if rdGate x.desc = 2 then .consume else .peek⟩)]
  else (rowClaims s d x.desc x.row).filter fun c => !x.claims.contains c

/-- The first of the wanted claims that is blocked, by tile and slot. -/
def rowBlocker (s : State) (r : Nat) (x : RowRun) : Option (Nat × Claim) :=
  ((rowWants s r x).filter fun c => !claimable s c.1 c.2.slot c.2.kind).foldl (fun m c => match m with
    | some y => if c.1 < y.1 || (c.1 = y.1 && c.2.slot < y.2.slot) then some c else some y
    | none => some c) none

/-- The descriptor waits for a claim: of its gate, or of its next row (STAT_FREE has none). -/
def rowWaits (x : RowRun) : Bool := x.cause = 0 && !x.open_ && (!x.gated || (x.row < rdRows x.desc && rdOp x.desc ≠ 0x4A))

/-- A row engine of a lower number than `j` on the slot's die claims the slot at this edge (R123). -/
def rowTakes (s : State) (e slot j : Nat) : Bool :=
  (List.range j).any fun i =>
    let r := e / 40 * 8 + i
    match (getRow s r).run with
    | some x => rowWaits x && (rowWants s r x).any (fun c => c.1 = e && c.2.slot = slot) && (rowBlocker s r x).isNone
    | none => false

/-- The first wanted claim that is blocked, or that an agent before this row engine takes at this edge (R123). -/
def rowBarred (s : State) (r : Nat) (x : RowRun) : Option (Nat × Claim) :=
  (rowBlocker s r x).or ((rowWants s r x).find? fun c => seqTakes s c.1 c.2.slot || rowTakes s c.1 c.2.slot (r % 8))

/-- Claims the next row, or waits for it. -/
def claimRow (r : Nat) (s : State) : State :=
  match (getRow s r).run with
  | none => s
  | some x =>
    if !rowWaits x then s
    else
      match rowBarred s r x with
      | some _ => modRun r (fun x => { x with blockedAt := x.blockedAt.or (some (cycleOf s)) }) s
      | none =>
        let cs := rowWants s r x
        let s := cs.foldl (fun s c => doClaim c.1 c.2 s) s
        modRun r (fun x => { x with claims := x.claims ++ cs, open_ := true, blockedAt := none, stalled := false }) s

/-- The kind code of a record that an opcode keeps. -/
def rdStatKind (b : List Byte) : Nat := if rdOp b = 0x44 then 2 else bit (rdRms b) 0

/-- The record that a forward pass keeps. -/
def keptRec (s : State) (r : Nat) (x : RowRun) : StatRec :=
  let b := x.desc
  { mb := rdMb b, layer := rdLayer b, sid := rdSid b, kind := rdStatKind b, rows := rdRows b, rowFirst := rdRowFirst b,
    step := stepOf s (rowCtx s r) % 2 ^ 32, vals := x.stats }

/-- Ends the running descriptor: statistics, flags, record, and the halt of a faulting queue. -/
def finishRow (r : Nat) (s : State) : State :=
  let y := getRow s r
  match y.run with
  | none => s
  | some x =>
    let b := x.desc
    let ok := x.cause = 0
    let recs :=
      if ok && (rdOp b = 0x42 || rdOp b = 0x44) && rdKeep b then y.recs ++ [keptRec s r x]
      else if ok && (rdOp b = 0x43 || rdOp b = 0x45) && rdFree b then y.recs.filter fun q => some q != x.src
      else y.recs
    let s := undoRow x s
    let s := setRow r { y with run := none, recs, halted := !ok, cause := x.cause } s
    let a := aRow (r / 8) (r % 8) 8
    let s := hwSetF a 0 x.flags s
    let s := if rdComplete b || !ok then putRowRecord r x (if ok then 0 else if x.cause = 1 then 1 else 8) x.cause s else s
    if ok then s
    else raise { die := r / 8, code := 0x0203, ctx := some (rowCtx s r), p0 := r / 8, p1 := r % 8, p2 := x.qix, p3 := x.cause } s

/-- The statistics work before the first row: replaces, finds, reads back or frees the keyed record (R214, R215). A
cause that ends the descriptor is left in the run; an uncorrectable read of a spilled record ends it at once, before the
job that it aborts (R217, R237). -/
def rowStats (r : Nat) (s : State) : State :=
  match (getRow s r).run with
  | none => s
  | some x =>
    let b := x.desc
    let op := rdOp b
    let y := getRow s r
    let found := y.recs.find? fun q => recKey q = rdKey b
    let exact := y.recs.find? fun q => recKey q = rdKey b && q.rows = rdRows b
    let fail (c : Nat) (s : State) : State := modRun r (fun x => { x with cause := c }) s
    if op = 0x4A then setRow r { y with recs := y.recs.filter fun q => some q != exact } s
    else if (op = 0x42 || op = 0x44) && rdKeep b then
      if found.isNone && 2048 ≤ y.recs.length then fail 4 s
      else
        match makeRoom r (recGranules (rdRows b)) 2049 (setRow r { y with recs := y.recs.filter fun q => some q != found } s) with
        | (s, false) => fail 3 s
        | (s, true) => s
    else if op = 0x43 || op = 0x45 then
      match exact with
      | none => fail 2 s
      | some q =>
        match q.spill with
        | none => modRun r (fun x => { x with src := some q }) s
        | some a =>
          match makeRoom r (recGranules q.rows) 2049 s, spillArea s r with
          | (s, true), some (h, _) =>
            demand (agRow r) (some (rowCtx s r)) (r / 8) (h + 64 * a) (64 * recGranules q.rows) (fun s => finishRow r (fail 5 s)) (fun bytes s =>
              let q' := { q with vals := recVals q.rows bytes, spill := none }
              let z := getRow s r
              modRun r (fun x => { x with src := some q' }) (setRow r { z with recs := z.recs.map fun w => if w = q then q' else w } s)) s
          | (s, _), _ => fail 3 s
    else s

/-- Passes the gate where it can, then does the statistics work and claims the first row. -/
def passGate (r : Nat) (s : State) : State :=
  match (getRow s r).run with
  | none => s
  | some x =>
    if x.gated then claimRow r s
    else if rdGate x.desc = 0 then claimRow r (rowStats r (modRun r (fun x => { x with gated := true }) s))
    else
      match rowBarred s r x with
      | some _ => modRun r (fun x => { x with blockedAt := x.blockedAt.or (some (cycleOf s)) }) s
      | none =>
        let s := (rowWants s r x).foldl (fun s c => endClaim c.1 c.2 (doClaim c.1 c.2 s)) s
        claimRow r (rowStats r (modRun r (fun x => { x with gated := true, blockedAt := none, stalled := false }) s))

/-- Takes the descriptor at the head as the one that executes; a MALFORMED one ends before its gate. -/
def takeRow (r : Nat) (b : List Byte) (cause : Nat) (s : State) : State :=
  let y := getRow s r
  let q := rowHead s r
  let s := putReg (aRow (r / 8) (r % 8) 0x20) ((q + 1) % 2 ^ rowLog s r) s
  setRow r { y with executed := y.executed + 1, run := some { desc := b, index := y.executed, qix := q, cause } } s

def beginRowDesc (r : Nat) (s : State) : State :=
  let b := rowNext s r
  if rowMalformed s (r / 8) b then takeRow r b 1 s
  else passGate r (takeRow r b 0 s)

/-- The row of an opcode: the descriptor at the head of the queue carries it, and begins. -/
def rowOpcode (op : Nat) (d : Die) (j : RowId) (s : State) : Outcome :=
  onlyIf (fun s => rowReady s (d * 8 + j) && !rowNextBad s (d * 8 + j) && rdOp (rowNext s (d * 8 + j)) = op) (fun s =>
    let r := d * 8 + j
    demandGa (agRow r) (some (rowCtx s r)) (rowAddr s r) 64 id (fun _ s => beginRowDesc r s) s) s

def execAct (d : Die) (j : RowId) (s : State) : Outcome := rowOpcode 0x40 d j s
def execActBwd (d : Die) (j : RowId) (s : State) : Outcome := rowOpcode 0x41 d j s
def execNormFwd (d : Die) (j : RowId) (s : State) : Outcome := rowOpcode 0x42 d j s
def execNormBwd (d : Die) (j : RowId) (s : State) : Outcome := rowOpcode 0x43 d j s
def execSmaxFwd (d : Die) (j : RowId) (s : State) : Outcome := rowOpcode 0x44 d j s
def execSmaxBwd (d : Die) (j : RowId) (s : State) : Outcome := rowOpcode 0x45 d j s
def execOpt (d : Die) (j : RowId) (s : State) : Outcome := rowOpcode 0x46 d j s
def execReduce (d : Die) (j : RowId) (s : State) : Outcome := rowOpcode 0x47 d j s
def execConvert (d : Die) (j : RowId) (s : State) : Outcome := rowOpcode 0x48 d j s
def execAdd (d : Die) (j : RowId) (s : State) : Outcome := rowOpcode 0x49 d j s
def execStatFree (d : Die) (j : RowId) (s : State) : Outcome := rowOpcode 0x4A d j s

/-- A blocked gate or row whose slots can be claimed now. -/
def rowCanClaim (s : State) (r : Nat) : Bool :=
  match (getRow s r).run with
  | some x => rowWaits x && x.blockedAt.isSome && (rowBarred s r x).isNone
  | none => false

def execRowClaim (d : Die) (j : RowId) (s : State) : Outcome :=
  onlyIf (fun s => rowCanClaim s (d * 8 + j)) (passGate (d * 8 + j)) s

/-! ## The end of a row (R120, R206, R208–R212) -/

/-- Computes row t and writes it; answers the flags and the statistics pair. -/
def computeRow (r : Nat) (x : RowRun) (s : State) : State × Nat × (Nat × Nat) :=
  let d := r / 8
  let c := rowCtx s r
  let b := x.desc
  let t := x.row
  let n := rdLen b
  let ps := rowPlanes b t
  let src := ps.filter (·.o = 4)
  let pDst := (ps.find? (·.o = 0xC)).getD ⟨0xC, t, rdRows b, some 10, 4 * n, .fill⟩
  let pAux := (ps.find? (·.o = 8)).getD ⟨8, t, rdRows b, some 10, 4 * n, .peek⟩
  let pSrc := (src.head?).getD ⟨4, t, rdRows b, some 10, 4 * n, .peek⟩
  let pe := engine d (rdTile b 0x10)
  let pa := rdSlot b 0x10 * 256
  let hidden (k : Nat) : Bool := rdMask b && rdKeyFirst b + k > rdRowFirst b + t
  let st := match x.src with | some q => q.vals.getD t (0, 0) | none => (0, 0)
  let put (o : RowRes) (fl : Nat) (s : State) : State × Nat × (Nat × Nat) :=
    let (s, f) := storeRow d c b pDst t o.out s
    (s, fl ||| o.fl ||| f, o.stat)
  if rdOp b = 0x46 then
    let e := engine d (rdTile b 4)
    let (a, _) := planeRanges b pSrc
    let all := loadF32 s e a.1 (4 * n)
    let par := loadF32 s pe pa 9
    let rs := (List.range n).map fun i => opt32 par (all.getD i 0) (all.getD (n + i) 0) (all.getD (2 * n + i) 0) (all.getD (3 * n + i) 0)
    let fl := rs.foldl (fun a q => a ||| q.2) 0
    let ws := rs.map (·.1.1)
    let (da, _) := planeRanges b pDst
    let s := writeScr (engine d (rdTile b 0xC)) da.1 (wordsLE (ws ++ rs.map (·.1.2.1) ++ rs.map (·.1.2.2))) s
    let (s, f) := storeRow d c b pAux t ws s
    (s, fl ||| f, (0, 0))
  else
    let rows := src.map (loadRow s d b)
    let fl := rows.foldl (fun a q => a ||| q.2) 0
    let v := (rows.head?.map (·.1)).getD []
    let (w, fw) := if (ps.any fun p => p.o = 8) then loadRow s d b pAux else ([], 0)
    let fl := fl ||| fw
    match rdOp b with
    | 0x40 => let (o, f) := bitsFl (v.map (act32 (rdFunc b))); put { out := o, fl := f } fl s
    | 0x41 => let (o, f) := bitsFl ((v.zip w).map fun (a, q) => actBwd32 (rdFunc b) a q); put { out := o, fl := f } fl s
    | 0x42 => put (normFwd (rdRms b) (rdScalar b) (loadF32 s pe pa n) (loadF32 s pe (pa + 4 * n) n) v) fl s
    | 0x43 =>
      let (o, dg, db) := normBwd (rdRms b) (rdGacc b) st.1 st.2 (loadF32 s pe pa n) (loadF32 s pe (pa + 8 * n) n)
        (loadF32 s pe (pa + 12 * n) n) v w
      let s := if rdGacc b then writeScr pe (pa + 12 * n) (wordsLE db) (writeScr pe (pa + 8 * n) (wordsLE dg) s) else s
      put o fl s
    | 0x44 => put (smaxFwd (rdScalar b) hidden v) fl s
    | 0x45 => put (smaxBwd (rdScalar b) st.1 st.2 hidden v w) fl s
    | 0x47 =>
      let (o, f) := bitsFl ((List.range n).map fun i => combineParts (rows.zipIdx.map fun (q, k) => { engine := 0, chunk := k, bits := q.1.getD i 0 }))
      put { out := o, fl := f } fl s
    | 0x49 => let (o, f) := bitsFl ((v.zip w).map fun (a, q) => add32 a q); put { out := o, fl := f } fl s
    | _ => put { out := v } fl s

/-- A row ends: it is computed and written, the slots that no later row touches end their accesses, and the next row
is claimed where it can be. -/
def endRow (r : Nat) (s : State) : State :=
  match (getRow s r).run with
  | none => s
  | some x =>
    let (s, fl, st) := computeRow r x s
    let later := ((List.range (rdRows x.desc - x.row - 1)).map fun k => rowClaims s (r / 8) x.desc (x.row + 1 + k)).flatten
    let (keep, done) := x.claims.partition fun c => later.contains c
    let s := done.foldl (fun s c => endClaim c.1 c.2 s) s
    claimRow r (modRun r (fun x => { x with row := x.row + 1, open_ := false, claims := keep, flags := x.flags ||| fl, stats := x.stats ++ [st] }) s)

def execRowSlotEnd (d : Die) (j : RowId) (s : State) : Outcome :=
  onlyIf (fun s => match (getRow s (d * 8 + j)).run with | some x => x.open_ && x.cause = 0 | none => false) (endRow (d * 8 + j)) s

/-! ## The end of a descriptor (R216, R217) -/

/-- The running descriptor is done, or has failed. -/
def rowDone (x : RowRun) : Bool := x.cause ≠ 0 || (x.gated && !x.open_ && (rdOp x.desc = 0x4A || x.row ≥ rdRows x.desc))

def rowOpDefined (b : List Byte) : Bool := 0x40 ≤ rdOp b && rdOp b ≤ 0x4A

/-- A descriptor ends: one that executes and is done, or the head of the queue whose bytes are uncorrectable or whose
opcode is reserved, which begins and ends at once. -/
def execRowDescriptorEnd (d : Die) (j : RowId) (s : State) : Outcome :=
  onlyIf (fun s => let r := d * 8 + j
    (match (getRow s r).run with | some x => rowDone x | none => false) ||
      (rowReady s r && (rowNextBad s r || !rowOpDefined (rowNext s r)))) (fun s =>
    let r := d.val * 8 + j.val
    if (getRow s r).run.isSome then finishRow r s
    else demandGa (agRow r) (some (rowCtx s r)) (rowAddr s r) 64
      (fun s => finishRow r (takeRow r (List.replicate 64 0) 5 s)) (fun b s => finishRow r (takeRow r b 1 s)) s) s

/-! ## Waiting, the doorbell and the spill registers (R205, R207, R215, R217) -/

def rowStallDue (s : State) (r : Nat) : Bool :=
  match (getRow s r).run with
  | some x => !x.stalled && (match x.blockedAt, rowBlocker s r x with
      | some c, some b => c + reg s (aTil (r / 8) (b.1 % 40) 8) ≤ cycleOf s
      | _, _ => false)
  | none => false

def execRowStall (d : Die) (j : RowId) (s : State) : Outcome :=
  onlyIf (fun s => rowStallDue s (d * 8 + j)) (fun s =>
    let r := d.val * 8 + j.val
    match (getRow s r).run with
    | none => s
    | some x =>
      match rowBlocker s r x with
      | none => s
      | some b => raise { die := d, code := 0x0204, ctx := some (rowCtx s r), p0 := d, p1 := j, p2 := x.qix, p3 := b.1 % 40 * 2 ^ 16 + b.2.slot }
          (modRun r (fun x => { x with stalled := true }) s)) s

def execRowQTail (m : Master) (d : Die) (j : RowId) (v : Word) (s : State) : Outcome := arriveAt m (aRow d j 0x1C) v s

/-- ROW_CTRL.RESUME. -/
def effRowCtrl (d j v : Nat) (s : State) : State :=
  let r := d * 8 + j
  if bitsOf v 0 0 = 1 && (getRow s r).halted then setRow r { (getRow s r) with halted := false, cause := 0 } s else s

def execRowResume (m : Master) (d : Die) (j : RowId) (s : State) : Outcome := arriveAt m (aRow d j 4) 1 s

def rowSpilled (s : State) (r : Nat) : Bool := (getRow s r).recs.any (·.spill.isSome)

/-- ROW_SPILL_BASE, as R215 lets it take effect; `v` is the whole 64-bit value. -/
def effRowSpillBase (d j v : Nat) (s : State) : State :=
  let r := d * 8 + j
  if (getRow s r).run.isNone && !rowSpilled s r then putReg64 (aRow d j 0x30) (65536 * (v / 65536)) s else s

def effRowSpillSize (d j v : Nat) (s : State) : State :=
  let r := d * 8 + j
  let n := bitsOf v 15 0
  if (getRow s r).run.isNone && (getRow s r).recs.all (fun q => match q.spill with | some a => a + recGranules q.rows ≤ n * 1024 | none => true) then
    putReg (aRow d j 0x38) n s
  else s

def execRowSpillBase (m : Master) (d : Die) (j : RowId) (lo : Word) (s : State) : Outcome := arriveAt m (aRow d j 0x30) lo s
def execRowSpillSize (m : Master) (d : Die) (j : RowId) (v : Word) (s : State) : Outcome := arriveAt m (aRow d j 0x38) v s

end Sys2Proof.Machine
end

