-- ==== Sys2Proof/Machine/Streams.lean ====
section
/-! DEFINITION. The stream rows (chapter 5) and the shadow-store codec (R199–R203, R231). -/

namespace Sys2Proof.Machine

/-! ## Pieces of a descriptor -/

/-- One run of bytes: tile byte, memory address (none: a sentinel's zeros, R144), length. -/
structure Piece where
  tile : Nat
  mem : Option Nat
  len : Nat
deriving DecidableEq, Repr

/-- The runs of a descriptor in order (R136, R144, R145). -/
def pieces (x : SDesc) : List Piece :=
  let b := x.bytes
  let base := sdSlot b * 256
  match sdOp b with
  | 0x10 => [⟨base, some (sdMem b), sdLen b⟩]
  | 0x11 => (List.range (sdRows b)).map fun r => ⟨base + r * sdTilePitch b, some (sdMem b + r * sdMemPitch b), sdLen b⟩
  | 0x12 | 0x13 =>
    let one := if sdIdx16 b then 0xFFFF else 0xFFFFFFFF
    x.idx.zipIdx.map fun (v, j) =>
      ⟨base + j * sdTilePitch b, if v = one then none else some (sdMem b + v * sdMemPitch b), sdElem b⟩
  | _ => []

/-- Bytes that a descriptor moves with every index in range. -/
def sdTotal (b : List Byte) : Nat := if sdOp b = 0x12 || sdOp b = 0x13 then sdLen b * sdElem b else sdLen b * max 1 (sdRows b)

/-- Keeps the first of equal entries. -/
def keepFirst (l : List Nat) : List Nat := (l.foldl (fun (a : List Nat) n => if a.contains n then a else n :: a) []).reverse

/-- The tile-side slots in claim order (R133); FEED and GRID sides have none. -/
def tileSlots (q : Nat) (x : SDesc) : List Nat :=
  if (q < 4 && sdAcc x.bytes = 2) || (q ≥ 4 && sdAcc x.bytes = 3) then []
  else keepFirst ((pieces x).map fun p => slotsOf p.tile p.len).flatten

/-- The part of a piece in a slot: offset within the piece and length. -/
def partIn (p : Piece) (slot : Nat) : Nat × Nat :=
  let lo := max p.tile (slot * 256)
  let hi := min (p.tile + p.len) (slot * 256 + 256)
  (lo - p.tile, hi - lo)

/-- The pieces that touch a slot, each with its part. -/
def partsOf (x : SDesc) (slot : Nat) : List (Piece × Nat × Nat) :=
  (pieces x).filterMap fun p => let (o, n) := partIn p slot; if n = 0 then none else some (p, o, n)

/-- Pieces joined where one ends at the address at which the next begins. -/
def memRuns (ps : List Piece) : List (Nat × Nat) :=
  (ps.foldl (fun (acc : List (Nat × Nat)) p =>
    match p.mem, acc with
    | some m, (a, n) :: r => if a + n = m then (a, n + p.len) :: r else (m, p.len) :: (a, n) :: r
    | some m, [] => [(m, p.len)]
    | none, _ => acc) []).reverse

/-! ## Places -/

def placeRuns (s : State) (x : SDesc) : List (Nat × Nat × Place) :=
  (memRuns (pieces x)).map fun (a, n) => (a, n, if n = 0 then placeOf s a else placeRun s a n)

/-- Some byte of a run in a scratchpad lies in a tagged region. -/
def runTagged (s : State) (p : Place) (n : Nat) : Bool :=
  match p with
  | .scr d t o => (slotsOf o n).any (isTagged s (engine d t))
  | _ => false

/-! ## The codec (R199–R203) -/

/-- Source and image formats of a codec. -/
def codecSrc (c : Nat) : Nat := if c = 1 then 8 else 2
def codecImg (c : Nat) : Nat := if c = 1 then 5 else 0

/-- Elements of a source row of L bytes. -/
def codecElems (c l : Nat) : Nat := if c = 1 then l / 2 else l

/-- Image bytes of a source row, padded to 64. -/
def imageBytes (c l : Nat) : Nat := (l / 2 + codecElems c l / 32 + 63) / 64 * 64

/-- Narrows a source row: its image, and the blocks that saturated and that were non-finite. -/
def narrow (c : Nat) (k : ConvKey) (index : Nat) (row : List Byte) : List Byte × Nat × Nat :=
  let n := codecElems c row.length
  let vs := (elems (codecSrc c) n row).map fun v => decodeElem (codecSrc c) v 0x7F
  let bs := (chunks 32 (n / 32) vs).zipIdx.map fun (g, i) => convRow (codecImg c) k (index + 32 * i) g
  let img := (bs.map (·.elems)).flatten ++ (bs.map (·.scales)).flatten
  (img ++ List.replicate (imageBytes c row.length - img.length) 0,
    (bs.filter (·.sat)).length, (bs.filter (·.nonfinite)).length)

/-- Expands an image to its source row of L bytes, and the non-finite blocks (R202). A value past the target's largest magnitude
is converted as any other is (R59), and no saturated block is counted (DESIGN CHOICE, log entry 139). -/
def expand (c l : Nat) (img : List Byte) : List Byte × Nat :=
  let n := codecElems c l
  let es := elems (codecImg c) n (img.take (l / 2))
  let sc := (img.drop (l / 2)).take (n / 32)
  let vs := rowVals (codecImg c) es sc
  let k : ConvKey := { stoch := false, seed := 0, step := 0, tensor := 0 }
  (packElems (codecSrc c) (vs.map fun v => (convPlain (codecSrc c) k 0 v).bits),
    (sc.filter (· = 0xFF)).length)

/-- Counts codec blocks on the image's die (R231). -/
def countCodec (d sat nonf : Nat) (s : State) : State := bumpBy (aHbm d 0 0x100030) sat (bumpBy (aHbm d 0 0x100034) nonf s)

/-! ## Fetching (R132, R133) -/

def strE (d : Die) (t : TileId) : Nat := engine d t

/-- The context on whose behalf a descriptor runs. -/
def sdCtx (s : State) (e : Nat) (b : List Byte) : Nat := (getTctx s e (sdTctx b)).ctx

/-- Both queue slots lie in a tagged region: else the stream does nothing (R132). -/
def queueTagged (s : State) (e q : Nat) : Bool := isTagged s e (queueSlot q 0) && isTagged s e (queueSlot q 1)

/-- The stream is not halted and its queue lies in tagged slots (R132, R141). -/
def streamRuns (s : State) (e q : Nat) : Bool := (getStream s e q).halted.isNone && queueTagged s e q

def canFetchStream (e q : Nat) (s : State) : Bool :=
  let st := getStream s e q
  streamRuns s e q && st.slots.length < 2 && claimable s e (queueSlot q st.nextSlot) .consume

def execStreamDescriptorFetch (d : Die) (t : TileId) (q : Strm) (s : State) : Outcome :=
  onlyIf (canFetchStream (strE d t) q) (fun s =>
    let e := strE d t
    let st := getStream s e q
    let sl := queueSlot q st.nextSlot
    let b := readScr e (sl * 256) 256 s
    let (ds, seq) := (List.range 4).foldl (fun (acc : List SDesc × Nat) k =>
      let c := (b.drop (64 * k)).take 64
      (acc.1 ++ [{ bytes := c, qslot := st.nextSlot, seq := acc.2 }], if sdOp c = 0 then acc.2 else acc.2 + 1)) ([], st.seq)
    doClaim e ⟨sl, .consume⟩ (setStream e q { st with
      q := st.q ++ ds, seq, slots := st.slots ++ [st.nextSlot], nextSlot := 1 - st.nextSlot } s)) s

/-! ## Checks (R135–R138, R141, R144, R145, R155, R156, R196, R200) -/

/-- The opcode is defined, and allowed on this kind of stream. -/
def sdOpOk (q : Nat) (b : List Byte) : Bool :=
  match sdOp b with
  | 0x10 | 0x11 => true
  | 0x12 => q < 4
  | 0x13 | 0x14 => q ≥ 4
  | _ => false

/-- Reserved bits and values, and fields that the opcode does not use. -/
def sdReserved (q : Nat) (b : List Byte) : Bool :=
  let op := sdOp b
  let feed := q < 4 && sdAcc b = 2
  sdGate b = 3 || sdCodec b = 3 || sdTclass b = 3 || (q < 4 && sdAcc b = 3) || !zeroBits b 0 [(2, 0)] ||
    !zeroBits b 4 [(31, 30), (15, 14)] || !zeroBits b 0x28 [(31, 16)] || sdCq b % 16 ≠ 0 || sdPrism b > 3 ||
    (sdPrism b ≠ 0 && !feed) ||
    ((op = 0x10 || op = 0x11) && (sdIdx16 b || fld b 0 6 3 ≠ 0 || sdLimit b ≠ 0 || sdIdxAddr b ≠ 0)) ||
    (op = 0x10 && (wordAt b 0x14 ≠ 0 || sdMemPitch b ≠ 0)) ||
    ((op = 0x12 || op = 0x13 || op = 0x14) && (sdRows b ≠ 0 || sdCodec b ≠ 0 || sdRound b || sdTensor b ≠ 0 || sdElemBase b ≠ 0)) ||
    (op = 0x14 && (sdAcc b ≠ 0 || sdSlot b ≠ 0 || sdLen b ≠ 0 || wordAt b 0x14 ≠ 0 || sdMemPitch b ≠ 0 || sdLimit b ≠ 0 ||
      sdIdxAddr b ≠ 0 || sdIdx16 b || fld b 0 6 3 ≠ 0))

/-- Fields out of range or misaligned. -/
def sdRange (b : List Byte) : Bool :=
  let op := sdOp b
  ((op = 0x10 || op = 0x11) && sdLen b % 16 ≠ 0) || (op = 0x11 && (sdRows b = 0 || sdMemPitch b % 4 ≠ 0)) ||
    ((op = 0x12 || op = 0x13) && (sdLen b = 0 || sdLen b > 65536 || fld b 0 6 3 < 2 || fld b 0 6 3 > 12 ||
      sdMemPitch b % 4 ≠ 0 || sdIdxAddr b % (if sdIdx16 b then 2 else 4) ≠ 0)) ||
    (op = 0x12 && sdTilePitch b < sdElem b)

/-- The address names HBM of this package, backed or not: WIN 0x40–0xFF (R138, R222). -/
def namesHbm (s : State) (ga : Nat) : Bool :=
  match placeOf s ga with
  | .hbm _ _ => true
  | .refused => gaPkg ga = pkgId s && 0x40 ≤ bitsOf ga 44 37
  | _ => false

/-- The codec's own conditions (R200). -/
def codecBad (s : State) (b : List Byte) : Bool :=
  sdCodec b ≠ 0 &&
    ((sdOp b ≠ 0x10 && sdOp b ≠ 0x11) || !namesHbm s (sdMem b) ||
      sdLen b % 64 ≠ 0 ||
      (sdOp b = 0x11 && (sdMemPitch b < imageBytes (sdCodec b) (sdLen b) || sdMemPitch b % 64 ≠ 0)))

/-- A tile-side extent past slot 12,275. -/
def sdExtent (q : Nat) (b : List Byte) : Bool :=
  let last := match sdOp b with
    | 0x11 => (sdRows b - 1) * sdTilePitch b + sdLen b
    | 0x12 | 0x13 => (sdLen b - 1) * sdTilePitch b + sdElem b
    | 0x10 => sdLen b
    | _ => 0
  !((q < 4 && sdAcc b = 2) || (q ≥ 4 && sdAcc b = 3)) && sdSlot b * 256 + last > 12276 * 256

/-- The cause with which a descriptor ends before its first claim, from its own fields; 0 for none. -/
def sdCheck (s : State) (e q : Nat) (x : SDesc) : Nat :=
  let b := x.bytes
  let whole : SDesc := { x with idx := if sdOp b = 0x12 || sdOp b = 0x13 then List.replicate (sdLen b) 0 else [] }
  let tagged := sdKind q b
  if !sdOpOk q b || sdReserved q b || sdRange b || codecBad s b || sdExtent q b then 1
  else if tagged.isSome && sdOp b ≠ 0x14 && !(tileSlots q whole).all (isTagged s e) then 1
  else if sdGate b ≠ 0 && !isTagged s e (sdGateSlot b) then 1
  else if (sdOp b = 0x12 || sdOp b = 0x13) && placeOf s (sdIdxAddr b) = .remote then 1
  else if sdOp b = 0x13 && placeOf s (sdMem b) = .remote then 1
  else if q < 4 && sdAcc b = 2 &&
      sdTotal b > 131072 then 7
  else 0

/-- The runs of memory that a descriptor reaches, each with its place: with the codec, the image of each row. -/
def memPlaces (s : State) (x : SDesc) : List (Nat × Nat × Place) :=
  let b := x.bytes
  if sdOp b = 0x14 then [(sdMem b, 256, placeRun s (sdMem b) 256)]
  else if sdCodec b ≠ 0 then
    let n := max 1 (imageBytes (sdCodec b) (sdLen b))
    (pieces x).filterMap fun p => p.mem.map fun m => (m, n, placeRun s m n)
  else placeRuns s x

/-- A write's run from byte o of a scratchpad covers every tagged slot that it touches whole (R138). -/
def wholeTagged (s : State) (e o n : Nat) : Bool :=
  (slotsOf o n).all fun sl => !isTagged s e sl || (o ≤ 256 * sl && 256 * (sl + 1) ≤ o + n)

/-- The cause from the places that the descriptor's runs name (R138, R145, R155, R156). A NOTE that names HBM is refused
(DESIGN CHOICE, log entry 108). -/
def sdPlaceCheck (s : State) (e q : Nat) (x : SDesc) : Nat :=
  let b := x.bytes
  (memPlaces s x).foldl (fun c (a, n, p) =>
    if c ≠ 0 then c
    else match p with
      | .hbm _ _ => if sdOp b = 0x14 then 6 else 0
      | .scr d t o => if sdCodec b ≠ 0 || (q ≥ 4 && !wholeTagged s (engine d t) o n) then 6 else 0
      | .remote => if sdTclass b = 0 || sdOp b = 0x13 then 1 else remoteBad s (sdCtx s e b) (q ≥ 4) (sdGen b) a
      | .refused => 6) 0

/-! ## What a stream moves next (R133, R137–R139) -/

def isFeed (q : Nat) (b : List Byte) : Bool := q < 4 && sdAcc b = 2
def isGrid (q : Nat) (b : List Byte) : Bool := q ≥ 4 && sdAcc b = 3

/-- Bytes of the buffer from a key on. -/
def bufBytes (m : SMap Byte) (k n : Nat) : List Byte := (List.range n).map fun i => mapGet 0 m (k + i)
def bufPut (m : SMap Byte) (k : Nat) (l : List Byte) : SMap Byte := l.zipIdx.foldl (fun m (b, i) => mapInsert m (k + i) b) m
def bufDrop (m : SMap Byte) (k n : Nat) : SMap Byte := m.filter fun e => !(k ≤ e.1 && e.1 < k + n)
def bufHas (m : SMap Byte) (k n : Nat) : Bool := (List.range n).all fun i => (mapLookup m (k + i)).isSome

/-- The bytes of a write cut at slot bounds, so that each piece lies in one slot. -/
def cutSlots (ga : Nat) (b : List Byte) : List (Nat × List Byte) :=
  (slotsOf ga b.length).map fun k =>
    let lo := max ga (256 * k)
    (lo, (b.drop (lo - ga)).take (256 * (k + 1) - lo))

/-- The tagged target slots that a buffer covers whole, among those that the new parts touch. -/
def wholeTargets (s : State) (buf : SMap Byte) (ps : List (Nat × List Byte)) : List (Nat × Nat × Nat) :=
  (keepFirst (ps.map fun (ga, b) => (slotsOf ga b.length)).flatten).filterMap fun k =>
    match placeOf s (k * 256) with
    | .scr d t o => if isTagged s (engine d t) (o / 256) && bufHas buf (k * 256) 256 then some (k * 256, engine d t, o / 256) else none
    | _ => none

/-- The parts of a write with those to scratchpads cut at slot bounds. -/
def cutParts (s : State) (ps : List (Nat × List Byte)) : List (Nat × List Byte) :=
  ps.flatMap fun (ga, b) => match placeOf s ga with | .scr _ _ _ => cutSlots ga b | _ => [(ga, b)]

/-- A part of a write waits in the buffer: it is remote, or lies in a tagged slot, which is filled whole (R138). -/
def partHeld (s : State) (ga : Nat) : Bool :=
  match placeOf s ga with
  | .remote => true
  | .scr d t o => isTagged s (engine d t) (o / 256)
  | _ => false

/-- The buffer with the parts of a write that wait in it, and the tagged slots that it then covers whole. -/
def planFills (s : State) (x : SDesc) (ps : List (Nat × List Byte)) : SMap Byte × List (Nat × Nat × Nat) :=
  let held := ps.filter fun p => partHeld s p.1
  let buf := held.foldl (fun m (ga, b) => bufPut m ga b) x.buf
  (buf, wholeTargets s buf held)

/-- The slot whose bytes a write stream's descriptor moves next: its slots go in claim order. -/
def nextOut (x : SDesc) : Option Nat := x.inflight.find? fun sl => !x.moved.contains sl

/-- The parts of a write stream's slot, as they leave. -/
def slotData (s : State) (e : Nat) (x : SDesc) (slot : Nat) : List (Nat × List Byte) :=
  (partsOf x slot).filterMap fun (p, o, n) => p.mem.map fun m => (m + o, readScr e (p.tile + o) n s)

/-- A block's parts, each with its offset in the block. -/
def feedParts' (x : SDesc) : List (Piece × Nat × Nat) :=
  ((pieces x).foldl (fun (acc : List (Piece × Nat × Nat) × Nat) p => (acc.1 ++ [({ p with tile := acc.2 }, 0, p.len)], acc.2 + p.len)) ([], 0)).1

/-- The grid output that a GRID descriptor takes: the oldest of its task context for its stream, once whole (R137). -/
def gridDue (s : State) (e q : Nat) (x : SDesc) : Option GridOut :=
  match (getTile s e).gridOut.find? fun g => g.stream = q - 4 && g.tctx = sdTctx x.bytes with
  | some g => if g.whole then some g else none
  | none => none

/-- The rows of a grid output, each with the piece of the descriptor that takes it. -/
def gridRows (x : SDesc) (g : GridOut) : List (Piece × List Byte) :=
  ((pieces x).foldl (fun (acc : List (Piece × List Byte) × List Byte) p =>
    (acc.1 ++ [(p, acc.2.take p.len)], acc.2.drop p.len)) ([], g.cells.map (·.2))).1

/-- The parts of a grid output, as they leave. -/
def gridData (x : SDesc) (g : GridOut) : List (Nat × List Byte) :=
  (gridRows x g).filterMap fun (p, b) => p.mem.map fun m => (m, b)

/-- The slot of another tile that a write stream's next bytes wait for. -/
def blockedTarget (s : State) (e q : Nat) (x : SDesc) : Option Nat :=
  let data := if isGrid q x.bytes then (match gridDue s e q x with | some g => gridData x g | none => [])
    else (match nextOut x with | some sl => slotData s e x sl | none => [])
  if sdCodec x.bytes ≠ 0 then none
  else ((planFills s x (cutParts s data)).2.find? fun (_, e', sl) => !claimable s e' sl .fill).map fun f => f.2.2

/-- The first tagged slot of a scratchpad that parts are read from and that cannot be peeked. -/
def peekBlocked (s : State) (ps : List (Piece × Nat × Nat)) : Option Nat :=
  ps.findSome? fun (p, o, n) => p.mem.bind fun m =>
    match placeOf s m with
    | .scr d t off => (slotsOf (off + o) n).find? fun k => isTagged s (engine d t) k && !claimable s (engine d t) k .peek
    | _ => none

/-- The slot of a scratchpad that a read stream's next bytes wait for. -/
def blockedSource (s : State) (q : Nat) (x : SDesc) : Option Nat :=
  if isFeed q x.bytes then peekBlocked s (feedParts' x)
  else (x.inflight.filter fun sl => !x.moved.contains sl).findSome? fun sl => peekBlocked s (partsOf x sl)

/-- The first claim of a begun descriptor, of a slot that its bytes come from or go to, that blocks: what it is for (2 a target,
3 a source), the descriptor's SEQ, the slot (R133, R143). -/
def blockedMove (s : State) (e q : Nat) : Option (Nat × Nat × Nat) :=
  ((getStream s e q).q.filter fun x => x.begun && !x.ended && x.fail = 0).findSome? fun x =>
    (if q < 4 then blockedSource s q x else blockedTarget s e q x).map fun sl => (if q < 4 then 3 else 2, x.seq, sl)

/-! ## Claims (R133) -/

/-- Replaces a descriptor of a stream. -/
def setDesc (e q : Nat) (x y : SDesc) (s : State) : State :=
  modStream e q (fun st => { st with q := st.q.map fun z => if z = x then y else z }) s

/-- Slots of a stream in flight. -/
def flying (st : StreamS) : Nat := st.q.foldl (fun a x => a + x.inflight.length) 0

/-- Units of HBM that a part reads: with the codec, its row's image. -/
def partHbm (s : State) (x : SDesc) (p : Piece) (o n : Nat) : Option (Nat × Nat × Nat) :=
  match p.mem with
  | none => none
  | some m =>
    match placeOf s m with
    | .hbm d h => if sdCodec x.bytes = 0 then some (d, h + o, n) else some (d, h, imageBytes (sdCodec x.bytes) p.len)
    | _ => none

/-- The units that the run of bytes from `o` of a piece is the first to touch (R225): a codec row's image goes with its
first bytes. -/
def newUnits (x : SDesc) (h o n : Nat) : List Nat :=
  if sdCodec x.bytes ≠ 0 then (if o = 0 then unitsOf h n else [])
  else (unitsOf h n).filter fun u => o = 0 || u ≠ (h - 1) / 64

/-- Queues the HBM reads of a part for a slot (R131). -/
def issueHbm (e q : Nat) (slot : Nat) (p : Piece) (o n : Nat) (x : SDesc) (s : State) : State × SDesc :=
  match partHbm s x p o n with
  | some (d, h, k) =>
    let us := newUnits x h o k
    if us.isEmpty then (s, x)
    else
      let (s, r) := postRead (agStream e q) d us s
      (s, { x with reads := x.reads ++ [(slot, r)] })
  | none => (s, x)

/-- Sends the remote reads of a part, and queues its HBM reads, for a slot just claimed. Reads of other packages travel
in the class of their message type (R247; log entry 109). -/
def issuePart (e q slot : Nat) (p : Piece) (o n at_ : Nat) (x : SDesc) (s : State) : State × SDesc :=
  match p.mem with
  | some m =>
    if placeOf s m = .remote then
      let (s, ts, _) := (cutMessages (n / 16 + 1) (m + o) (List.replicate n 0)).foldl (fun (a : State × List Nat × Nat) (ga, l) =>
        let (s, t) := sendRRead (e / 40) ga a.2.2 l.length (fun t => .stream e q t) a.1
        (s, a.2.1 ++ [t], a.2.2 + l.length)) (s, [], at_)
      (s, { x with remote := x.remote ++ ts })
    else issueHbm e q slot p o n x s
  | none => (s, x)

/-- The reads of a slot just claimed. -/
def issueReads (e q : Nat) (x : SDesc) (slot : Nat) (s : State) : State × SDesc :=
  (partsOf x slot).foldl (fun acc (p, o, n) => issuePart e q slot p o n (p.tile + o) acc.2 acc.1) (s, x)

/-- The claim that a stream makes next of its tile-side slots: none while a claim that it makes elsewhere blocks (R133). -/
def nextClaim (s : State) (e q : Nat) : Option (Nat × ClaimKind) :=
  let st := getStream s e q
  if (blockedMove s e q).isSome then none
  else match st.q.find? fun x => x.begun && !x.todo.isEmpty with
  | some x => if flying st < 64 then (sdKind q x.bytes).map fun k => (x.todo.headD 0, k) else none
  | none => none

/-- An agent before stream q claims the slot at this edge (R123): the sequencer, a row engine, a stream of a lower
number. -/
def takenBefore (s : State) (e q slot : Nat) : Bool :=
  seqTakes s e slot || rowTakes s e slot 8 || (List.range q).any fun p =>
    streamRuns s e p && match nextClaim s e p with | some (sl, k) => sl = slot && claimable s e sl k | none => false

/-- The slot can be claimed by stream q at this edge (R121, R123). -/
def streamMay (s : State) (e q slot : Nat) (k : ClaimKind) : Bool := claimable s e slot k && !takenBefore s e q slot

/-- One claim of the oldest descriptor that has slots to claim; `none` where nothing can be claimed now. -/
def claimOne (e q : Nat) (s : State) : Option State :=
  let st := getStream s e q
  match st.q.find? fun x => x.begun && !x.todo.isEmpty with
  | none => none
  | some x =>
    match x.todo with
    | [] => none
    | sl :: rest =>
      if flying st ≥ 64 || (blockedMove s e q).isSome then none
      else
        let ok := match sdKind q x.bytes with | some k => streamMay s e q sl k | none => true
        if !ok then none
        else
          let s := match sdKind q x.bytes with | some k => doClaim e ⟨sl, k⟩ s | none => s
          let y := { x with todo := rest, inflight := x.inflight ++ [sl] }
          if q < 4 then
            let (s, y) := issueReads e q y sl s
            some (setDesc e q x y s)
          else some (setDesc e q x y s)

def claimLoop (e q : Nat) : Nat → State → State
  | 0, s => s
  | n + 1, s => match claimOne e q s with | some s' => claimLoop e q n s' | none => s

/-- Claims what can be claimed. -/
def tryClaims (e q : Nat) (s : State) : State := tellAll (claimLoop e q 64 s)

def execStreamSlotClaim (d : Die) (t : TileId) (q : Strm) (s : State) : Outcome :=
  onlyIf (fun s => streamRuns s (strE d t) q && (claimOne (strE d t) q s).isSome) (tryClaims (strE d t) q) s

/-! ## Beginning a descriptor (R133, R139, R144–R148) -/

/-- The next descriptor to begin: the first not begun, with every earlier one past its claims, none of which blocks, and none
of them about to halt the stream (R133, R141). -/
def nextDesc (s : State) (e q : Nat) : Option SDesc :=
  let st := getStream s e q
  if !streamRuns s e q || (blockedMove s e q).isSome then none
  else
    match st.q.find? fun x => !x.begun with
    | some x => if (st.q.takeWhile (·.begun)).all (fun y => y.todo.isEmpty && y.fail = 0) then some x else none
    | none => none

/-- Every write of the stream's earlier descriptors is visible (R139). -/
def streamVisible (s : State) (e q : Nat) : Bool :=
  let st := getStream s e q
  st.wids.all (widVisible s) && st.acks.isEmpty &&
    (st.q.takeWhile (·.begun)).all (fun x => x.todo.isEmpty && x.inflight.isEmpty && !(q ≥ 4 && sdAcc x.bytes = 3))

/-- Prism halves taken: blocks delivered and not used, and blocks on their way. -/
def prismUsed (s : State) (e : Nat) : Nat :=
  (getTile s e).prism.length + (List.range 4).foldl (fun a q =>
    a + ((getStream s e q).q.filter fun x => x.begun && !x.ended && sdAcc x.bytes = 2 && x.fail = 0).length) 0

/-- The task and row group that the next FEED block of a stream is for: the first, in task-list and row-group order, of
the descriptor's task context that names the stream and has no block yet (R147). -/
def feedNext (s : State) (e q : Nat) (b : List Byte) : Option (Run × Nat) :=
  let x := getTctx s e (sdTctx b)
  if x.st = 5 then none
  else
    ((x.runs.filter fun r => tdOp r.desc = 1 && tdXFeed r.desc && tdXStream r.desc = q).flatMap fun r =>
      (List.range r.groups).map fun g => (r, g)).find? fun (r, g) =>
        !x.feedLog.any fun l => l.stream = q && l.task = r.index && l.group = g

/-- A FEED block does not match the row group that it is for (R147, R196). -/
def feedMismatch (r : Run) (g : Nat) (x : SDesc) : Bool :=
  sdTotal x.bytes ≠ feedBytes r.desc (runSubs r) g (sdPrism x.bytes) ||
    (sdPrism x.bytes ≠ 0 && sdPrism x.bytes ≠ tdPack r.desc + 1)

/-- A FEED descriptor takes the row group that its block is for, and enters the feed log (R148). -/
def takeFeed (e q : Nat) (x : SDesc) (s : State) : State × SDesc :=
  if !isFeed q x.bytes || x.replay then (s, x)
  else
    match feedNext s e q x.bytes with
    | none => (s, x)
    | some (r, g) =>
      let y := { x with feed := some (r.index, g), fail := if feedMismatch r g x then 7 else 0 }
      (modTctx e (sdTctx x.bytes) (fun t => { t with
        feedLog := t.feedLog ++ [{ stream := q, task := r.index, group := g, seq := x.seq, bytes := x.bytes }] }) s, y)

/-- Starts a descriptor whose checks have passed: its slots are listed and claimed as far as they can be. An index out of
range ends a FEED block with INDEX_RANGE (R144). -/
def startDesc (e q : Nat) (x : SDesc) (idx : List Nat) (fail : Nat) (s : State) : State :=
  let (s, y0) := takeFeed e q { x with begun := true, idx } s
  let c := if isFeed q x.bytes && fail ≠ 0 then fail else if y0.fail ≠ 0 then y0.fail else sdPlaceCheck s e q y0
  if c ≠ 0 then setDesc e q x { y0 with fail := c } s
  else
    let all := tileSlots q { y0 with idx := if fail = 2 then List.replicate (sdLen x.bytes) 0 else idx }
    let todo := tileSlots q y0
    let tail := if fail = 2 then
        keepFirst ((pieces { y0 with idx := List.replicate (sdLen x.bytes) 0 }).drop idx.length |>.map fun p => slotsOf p.tile p.len).flatten
      else []
    let y := { y0 with todo, fail, stuck := todo.filter fun sl => tail.contains sl && all.contains sl }
    let s := setDesc e q x y s
    let s := if isFeed q x.bytes then
        let (s, z, _) := (pieces y).foldl (fun (acc : State × SDesc × Nat) p =>
          let (s, z) := issuePart e q 0 p 0 p.len acc.2.2 acc.2.1 acc.1
          (s, z, acc.2.2 + p.len)) (s, y, 0)
        setDesc e q y z s
      else s
    tryClaims e q s

/-- Reads the indices of a GATHER or SCATTER, cut before the first that is out of range (R144). -/
def takeIndices (e q : Nat) (x : SDesc) (bytes : List Byte) (s : State) : State :=
  let b := x.bytes
  let w := if sdIdx16 b then 2 else 4
  let one := if sdIdx16 b then 0xFFFF else 0xFFFFFFFF
  let idx := unpackWide w (sdLen b) bytes
  let good := idx.takeWhile fun v => v = one || v < sdLimit b
  startDesc e q x good (if good.length < idx.length then 2 else 0) s

/-- Fails a descriptor before its first claim. -/
def failDesc (e q : Nat) (x : SDesc) (cause : Nat) (s : State) : State := setDesc e q x { x with begun := true, fail := cause } s

def beginIndexed (e q : Nat) (x : SDesc) (s : State) : State :=
  let b := x.bytes
  let n := sdLen b * (if sdIdx16 b then 2 else 4)
  match placeRun s (sdIdxAddr b) n with
  | .hbm d h =>
    demand (agStream e q) (some (sdCtx s e b)) d h n (streamFault e q x 3) (takeIndices e q x) s
  | .scr d t o => takeIndices e q x (readScr (engine d t) o n s) s
  | _ => failDesc e q x 6 s

/-- What a NOTE puts into the slot: USER and zeros (R136). -/
def noteBytes (b : List Byte) : List Byte := natLE 4 (sdUser b) ++ List.replicate 252 0

/-- The tagged slot of this package that a NOTE fills; into an untagged slot it is a plain write (R138). -/
def noteTarget (s : State) (x : SDesc) : Option (Nat × Nat) :=
  match placeRun s (sdMem x.bytes) 256 with
  | .scr d t o => if isTagged s (engine d t) (o / 256) then some (engine d t, o / 256) else none
  | _ => none

/-- A slot can be claimed at this edge by the carousel: the sequencer, the row engines and the tile's streams go before
(R123). -/
def carMay (s : State) (e' slot : Nat) (k : ClaimKind) : Bool := claimable s e' slot k && !takenBefore s e' 6 slot

/-- A slot can be claimed at this edge by what arrives from a bridge or the fabric: the carousel goes before too (R123). -/
def mayArrive (s : State) (e' slot : Nat) (k : ClaimKind) : Bool := carMay s e' slot k && !carTakes s e' slot

/-- NOTE: FILLs the slot that MEM_ADDR names (R136); it waits while the slot cannot be claimed. -/
def beginNote (e q : Nat) (x : SDesc) (s : State) : State :=
  let b := x.bytes
  let c := sdPlaceCheck s e q x
  if c ≠ 0 then failDesc e q x c s
  else
    match placeRun s (sdMem b) 256 with
    | .scr d t o =>
      let e' := engine d t
      let done := setDesc e q x { x with begun := true } (writeScr e' o (noteBytes b) s)
      if !isTagged s e' (o / 256) then done
      else if mayArrive s e' (o / 256) .fill then fillNow e' (o / 256) done
      else s
    | .remote =>
      let (s, t) := sendRWrite (e / 40) (sdTclass b) (sdCtx s e b) (sdGen b) (sdMem b) (noteBytes b) (fun t => .stream e q t) s
      tellAll (modStream e q (fun st => { st with acks := st.acks ++ [t] }) (setDesc e q x { x with begun := true, remote := [t] } s))
    | _ => failDesc e q x 6 s

/-- The gate access (R139): done at once where the slot can be claimed. -/
def gateKind (b : List Byte) : ClaimKind := if sdGate b = 1 then .peek else .consume

/-- A descriptor of the row's opcode is next: it is checked, waits for visibility and its gate, and begins. -/
def beginDesc (op : Nat) (e q : Nat) (s : State) : State :=
  match nextDesc s e q with
  | none => s
  | some x =>
    if sdOp x.bytes ≠ op then s
    else
      let b := x.bytes
      let c := sdCheck s e q x
      if c ≠ 0 then failDesc e q x c s
      else if isFeed q b && (prismUsed s e ≥ 2 || (!x.replay && (feedNext s e q b).isNone)) then s
      else if sdAfter b && !streamVisible s e q then s
      else if sdGate b ≠ 0 && !x.gated && !streamMay s e q (sdGateSlot b) (gateKind b) then s
      else
        let cl : Claim := ⟨sdGateSlot b, gateKind b⟩
        let s := if sdGate b ≠ 0 && !x.gated then endClaim e cl (doClaim e cl s) else s
        let y := { x with gated := true }
        let s := setDesc e q x y s
        if op = 0x14 then beginNote e q y s
        else if op = 0x12 || op = 0x13 then beginIndexed e q y s
        else startDesc e q y [] 0 s

def beginRow (op : Nat) (d : Die) (t : TileId) (q : Strm) (s : State) : Outcome :=
  onlyIf (fun s => match nextDesc s (strE d t) q with | some x => sdOp x.bytes = op | none => false) (beginDesc op (strE d t) q) s

def execLinear (d : Die) (t : TileId) (q : Strm) (s : State) : Outcome := beginRow 0x10 d t q s
def execBlock2d (d : Die) (t : TileId) (q : Strm) (s : State) : Outcome := beginRow 0x11 d t q s
def execGather (d : Die) (t : TileId) (q : Strm) (s : State) : Outcome := beginRow 0x12 d t q s
def execScatter (d : Die) (t : TileId) (q : Strm) (s : State) : Outcome := beginRow 0x13 d t q s
def execNote (d : Die) (t : TileId) (q : Strm) (s : State) : Outcome := beginRow 0x14 d t q s

/-- A NOP is skipped: no record, no wait (R136). One that holds a reserved bit, or a field that a NOP does not use, is
malformed (R22, R135). -/
def execNop (d : Die) (t : TileId) (q : Strm) (s : State) : Outcome :=
  onlyIf (fun s => match nextDesc s (strE d t) q with | some x => sdOp x.bytes = 0 | none => false) (fun s =>
    let e := strE d t
    match nextDesc s e q with
    | some x => if x.bytes.all (· = 0) then tidyStream e q (modStream e q (fun st => { st with q := st.q.erase x }) s)
        else streamFault e q x 1 s
    | none => s) s

/-! ## Moving a slot (R137–R139) -/

/-- The reads of HBM for a slot have had their slots of the frame; a codec row's image is read for all its slots. -/
def readsServed (s : State) (x : SDesc) (slot : Nat) : Bool :=
  x.reads.all fun r => (r.1 ≠ slot && sdCodec x.bytes = 0) || readServed s r.2

/-- A read part is ready: a remote answer has come; a tagged source slot of another tile can be peeked. -/
def partReady (s : State) (x : SDesc) (p : Piece) (o n : Nat) : Bool :=
  match p.mem with
  | none => true
  | some m =>
    match placeOf s m with
    | .remote => bufHas x.buf (p.tile + o) n
    | .scr d t off => (slotsOf (off + o) n).all fun sl =>
        !isTagged s (engine d t) sl || mayArrive s (engine d t) sl .peek
    | _ => true

/-- The tagged slots of scratchpads that parts are read from: each is peeked (R123). -/
def peeksOf (s : State) (ps : List (Piece × Nat × Nat)) : List Nat :=
  keepFirst (ps.flatMap fun (p, o, n) => match p.mem with
    | none => []
    | some m => match placeOf s m with
      | .scr d t off => ((slotsOf (off + o) n).filter (isTagged s (engine d t))).map fun sl => engine d t * 12288 + sl
      | _ => [])

/-- The PEEKs of parts that are ready. -/
def peekParts (ps : List (Piece × Nat × Nat)) (s : State) : State :=
  (peeksOf s ps).foldl (fun s k => peekNow (k / 12288) (k % 12288) s) s

/-- The bytes of a part, its HBM units decoded good. -/
def partBytes (s : State) (e q : Nat) (x : SDesc) (p : Piece) (o n : Nat) : List Byte × Nat :=
  match p.mem with
  | none => (List.replicate n 0, 0)
  | some m =>
    match placeOf s m with
    | .hbm d h =>
      let c := sdCodec x.bytes
      if c = 0 then (hbmPeek (agStream e q) d (h + o) n s, 0)
      else
        let (row, nf) := expand c p.len (hbmPeek (agStream e q) d h (imageBytes c p.len) s)
        ((row.drop o).take n, if o = 0 then nf else 0)
    | .scr d t off => (readScr (engine d t) (off + o) n s, 0)
    | .remote => (bufBytes x.buf (p.tile + o) n, 0)
    | .refused => (List.replicate n 0, 0)

/-- Reads the HBM parts through the decoder; each corrected unit is counted, and any bad unit found. -/
def readParts (e q : Nat) (x : SDesc) (ps : List (Piece × Nat × Nat)) (s : State) : State :=
  ps.foldl (fun s (p, o, n) =>
    match partHbm s x p o n with
    | some (d, h, k) => (decodeUnits (agStream e q) (some (sdCtx s e x.bytes)) d (newUnits x h o k) s).1
    | none => s) s

/-- The codec counts the non-finite blocks of the parts it expands (R231). -/
def countParts (s0 : State) (e q : Nat) (x : SDesc) (ps : List (Piece × Nat × Nat)) (s : State) : State :=
  if sdCodec x.bytes = 0 then s
  else ps.foldl (fun s (p, o, n) => match partHbm s0 x p o n with
    | some (d, _, _) => countCodec d 0 (partBytes s0 e q x p o n).2 s
    | none => s) s

def partsBad (s : State) (e q : Nat) (x : SDesc) (ps : List (Piece × Nat × Nat)) : Bool :=
  ps.any fun (p, o, n) => match partHbm s x p o n with
    | some (d, h, k) => (unitsOf h k).any (badFor (agStream e q) s d)
    | none => false

/-- A read stream finishes with a slot: its bytes land, and its FILL ends. -/
def endReadSlot (e q slot : Nat) (x : SDesc) (s : State) : State :=
  let ps := partsOf x slot
  if !(readsServed s x slot && ps.all (fun (p, o, n) => partReady s x p o n)) then s
  else if partsBad s e q x ps then readParts e q x ps (streamFault e q x 3 s)
  else
    let s0 := readParts e q x ps (peekParts ps s)
    let s := ps.foldl (fun s (p, o, n) => writeScr e (p.tile + o) (partBytes s e q x p o n).1 s) s0
    let s := countParts s0 e q x ps s
    let stuck := x.stuck.contains slot
    let y := { x with moved := x.moved ++ [slot], inflight := if stuck then x.inflight else x.inflight.erase slot
                      reads := x.reads.filter fun r => r.1 ≠ slot && !readServed s r.2 }
    let s := match sdKind q x.bytes with | some k => if stuck then s else endClaim e ⟨slot, k⟩ s | none => s
    tryClaims e q (setDesc e q x y s)

/-- A run of remote writes is whole in the buffer: it goes out (R274). -/
def sendRuns (e q : Nat) (x : SDesc) (s : State) : State × SDesc :=
  (memRuns (pieces x)).foldl (fun (acc : State × SDesc) (a, n) =>
    if n ≠ 0 && placeOf acc.1 a = .remote && bufHas acc.2.buf a n then
      let b := x.bytes
      let (s, ts) := (cutMessages (n / 4 + 1) a (bufBytes acc.2.buf a n)).foldl (fun (c : State × List Nat) (ga, l) =>
        let (s, t) := sendRWrite (e / 40) (sdTclass b) (sdCtx c.1 e b) (sdGen b) ga l (fun t => .stream e q t) c.1
        (s, c.2 ++ [t])) (acc.1, [])
      (modStream e q (fun st => { st with acks := st.acks ++ ts }) s,
        { acc.2 with buf := bufDrop acc.2.buf a n, remote := acc.2.remote ++ ts })
    else acc) (s, x)

/-- A write of the stream enters the queue of its controller, and is not visible until it is accepted (R139). -/
def streamHbm (e q ctx sq d h : Nat) (b : List Byte) (s : State) : State :=
  let w := s.hbm.nextWid
  modStream e q (fun st => { st with wids := (st.wids.filter fun v => !widVisible s v) ++ [w] })
    (hbmWrite (agStream e q) d h b s (some ctx) (sq + 1))

/-- Writes bytes of a write stream towards memory; `none` while a tagged target slot cannot be filled. -/
def putParts (e q : Nat) (x : SDesc) (data : List (Nat × List Byte)) (s : State) : Option (State × SDesc) :=
  let ps := cutParts s data
  let (buf, fills) := planFills s x ps
  if !fills.all (fun (_, e', sl) => mayArrive s e' sl .fill) then none
  else
    let s := ps.foldl (fun s (ga, b) =>
      if partHeld s ga then s
      else match placeOf s ga with
        | .hbm d h => streamHbm e q (sdCtx s e x.bytes) x.seq d h b s
        | .scr d t o => writeScr (engine d t) o b s
        | _ => s) s
    let s := fills.foldl (fun s (k, e', sl) =>
      fillNow e' sl (writeScr e' (sl * 256) (bufBytes buf k 256) s)) s
    let buf := fills.foldl (fun m (k, _, _) => bufDrop m k 256) buf
    some (sendRuns e q { x with buf } s)

/-- Narrows row r of a descriptor and writes its image (R199–R203, R231). -/
def putImage (e q sq : Nat) (b : List Byte) (p : Piece) (r : Nat) (row : List Byte) (s : State) : State :=
  match p.mem.map (placeOf s) with
  | some (.hbm d h) =>
    let k := convKey s (sdCtx s e b) (sdRound b) (sdTensor b)
    let (img, sat, nf) := narrow (sdCodec b) k (sdElemBase b + r * codecElems (sdCodec b) p.len) row
    countCodec d sat nf (streamHbm e q (sdCtx s e b) sq d h img s)
  | _ => s

/-- Narrows the codec rows that the bytes of a slot make whole and writes their images. The bytes stay for rows that share
them. -/
def putImages (e q : Nat) (x : SDesc) (buf : SMap Byte) (s : State) : State × SDesc :=
  ((pieces x).zipIdx.foldl (fun s (p, r) =>
    if p.len ≠ 0 && bufHas buf p.tile p.len && !bufHas x.buf p.tile p.len then
      putImage e q x.seq x.bytes p r (bufBytes buf p.tile p.len) s
    else s) s, { x with buf })

/-- A write stream finishes with a slot: its bytes leave in order, and its access ends. -/
def endWriteSlot (e q slot : Nat) (x : SDesc) (s : State) : State :=
  if nextOut x ≠ some slot then s
  else
    let r := if sdCodec x.bytes ≠ 0 then
        some (putImages e q x ((partsOf x slot).foldl (fun m (p, o, n) => bufPut m (p.tile + o) (readScr e (p.tile + o) n s)) x.buf) s)
      else putParts e q x (slotData s e x slot) s
    match r with
    | none => s
    | some (s, y) =>
      let stuck := x.stuck.contains slot
      let s := match sdKind q x.bytes with | some k => if stuck then s else endClaim e ⟨slot, k⟩ s | none => s
      let z := { y with moved := y.moved ++ [slot], inflight := if stuck then y.inflight else y.inflight.erase slot }
      tryClaims e q (setDesc e q x z s)

/-- The descriptor that has a slot in flight whose bytes have not moved. No descriptor's bytes go past a claim of an earlier
one that blocks (R133). -/
def descOf (s : State) (e q slot : Nat) : Option SDesc :=
  if !streamRuns s e q then none
  else
    let l := (getStream s e q).q
    let upTo := match blockedMove s e q with
      | some (_, seq, _) => l.take ((l.findIdx fun (x : SDesc) => x.seq == seq && sdOp x.bytes ≠ 0) + 1)
      | none => l
    upTo.find? fun x => x.inflight.contains slot && !x.moved.contains slot

def execStreamSlotEnd (d : Die) (t : TileId) (q : Strm) (slot : Nat) (s : State) : Outcome :=
  onlyIf (fun s => (descOf s (strE d t) q slot).isSome) (fun s =>
    let e := strE d t
    match descOf s e q slot with
    | some x => tellAll (if q.val < 4 then endReadSlot e q slot x s else endWriteSlot e q slot x s)
    | none => s) s

/-! ## FEED blocks (R147, R197, R198) -/

/-- The first FEED descriptor whose block is on its way. -/
def feedDue (s : State) (e q : Nat) : Option SDesc :=
  if !streamRuns s e q then none
  else (getStream s e q).q.find? fun x => x.begun && isFeed q x.bytes && x.fail = 0

def endDesc (e q : Nat) (x : SDesc) (s : State) : State :=
  let s := putStreamRecord e q 0 0 x s
  tidyStream e q (modStream e q (fun st => { st with q := st.q.erase x }) s)

def execFeedBlockDelivered (d : Die) (t : TileId) (q : Strm) (s : State) : Outcome :=
  onlyIf (fun s => match feedDue s (strE d t) q with
    | some x => readsServed s x 0 && (feedParts' x).all (fun (p, o, n) => partReady s x p o n)
    | none => false) (fun s =>
    let e := strE d t
    match feedDue s e q with
    | none => s
    | some x =>
      let ps := feedParts' x
      if partsBad s e q x ps then readParts e q x ps (streamFault e q x 3 s)
      else
        let s := readParts e q x ps (peekParts ps s)
        let b := (ps.map fun (p, o, n) => (partBytes s e q x p o n).1).flatten
        let s := countParts s e q x ps s
        let n := sdTctx x.bytes
        let (task, group) := x.feed.getD (0, 0)
        let s := if (getTctx s e n).runs.any (·.index == task) then modTile e (fun tl => { tl with prism := tl.prism ++
            [{ stream := q, tctx := n, task, group, mode := sdPrism x.bytes, bytes := b }] }) s
          else s
        endDesc e q x s) s

/-! ## The end of a descriptor (R140, R141) -/

/-- Moves a whole grid output to memory, narrowed where the descriptor names a codec (R199), and ends its descriptor; it
waits while a tagged target cannot be filled. -/
def endGrid (e q : Nat) (x : SDesc) (g : GridOut) (s : State) : State :=
  let s0 := modTile e (fun t => { t with gridOut := t.gridOut.erase g }) s
  if sdTotal x.bytes ≠ g.cells.length then streamFault e q x 7 s0
  else
    let r := if sdCodec x.bytes ≠ 0 then
        some ((gridRows x g).zipIdx.foldl (fun s (p, k) => putImage e q x.seq x.bytes p.1 k p.2 s) s0, x)
      else putParts e q x (gridData x g) s0
    match r with
    | none => s
    | some (s, y) =>
      let s := setDesc e q x y s
      if y.remote.isEmpty then endDesc e q y s else setDesc e q y { y with moved := [0] } s

/-- A begun descriptor has nothing left to move. -/
def descDone (q : Nat) (x : SDesc) : Bool :=
  x.begun && x.todo.isEmpty && x.inflight.all (fun sl => x.stuck.contains sl && x.moved.contains sl) && x.remote.isEmpty &&
    !isFeed q x.bytes && (!isGrid q x.bytes || x.moved = [0])

/-- The first descriptor that can end: failed, done, a reserved opcode whose turn has come, or a grid output taken. -/
def endable (s : State) (e q : Nat) : Option SDesc :=
  if !streamRuns s e q then none
  else (getStream s e q).q.find? fun x =>
    (x.begun && x.fail ≠ 0 && (x.fail ≠ 2 || isFeed q x.bytes || descDone q x)) || (descDone q x) ||
      (nextDesc s e q = some x && !([0, 0x10, 0x11, 0x12, 0x13, 0x14].contains (sdOp x.bytes))) ||
      (x.begun && isGrid q x.bytes && x.moved ≠ [0] && (gridDue s e q x).isSome)

def execStreamDescriptorEnd (d : Die) (t : TileId) (q : Strm) (s : State) : Outcome :=
  onlyIf (fun s => (endable s (strE d t) q).isSome) (fun s =>
    let e := strE d t
    match endable s e q with
    | none => s
    | some x =>
      if !x.begun then streamFault e q x 1 s
      else if x.fail ≠ 0 then streamFault e q x x.fail s
      else if isGrid q x.bytes && x.moved ≠ [0] then
        (match gridDue s e q x with | some g => tellAll (endGrid e q x g s) | none => s)
      else endDesc e q x s) s

/-! ## Waiting (R143) -/

/-- What keeps the next descriptor from its first claim: its gate, then the slot that a NOTE fills. -/
def blockedStart (s : State) (e q : Nat) : Option (Nat × Nat × Nat) :=
  match nextDesc s e q with
  | none => none
  | some x =>
    let b := x.bytes
    if sdCheck s e q x ≠ 0 || (sdAfter b && !streamVisible s e q) then none
    else if sdGate b ≠ 0 && !x.gated then
      (if claimable s e (sdGateSlot b) (gateKind b) then none else some (1, x.seq, sdGateSlot b))
    else if sdOp b = 0x14 then
      (match noteTarget s x with
       | some (e', sl) => if claimable s e' sl .fill then none else some (2, x.seq, sl)
       | none => none)
    else none

/-- The claim on which a stream is blocked: what it is for, its descriptor's SEQ, the slot. A queue slot that holds no
descriptors yet is no claim of a transfer, and is not counted (DESIGN CHOICE, log entry 126). -/
def blockedOf (s : State) (e q : Nat) : Option (Nat × Nat × Nat) :=
  if !streamRuns s e q then none
  else
    match blockedMove s e q with
    | some b => some b
    | none =>
      match (getStream s e q).q.find? fun x => x.begun && !x.todo.isEmpty with
      | some x =>
        (match nextClaim s e q with
         | some (sl, k) => if claimable s e sl k then none else some (0, x.seq, sl)
         | none => none)
      | none => blockedStart s e q

/-- Counts the edges of a stream's wait after `old`: a new wait begins its count anew (R143). -/
def edgeStream (e old q : Nat) (s : State) : State :=
  let st := getStream s e q
  if st.q.isEmpty && st.blocked.isNone then s
  else
    let b := blockedOf s e q
    let same := b.isSome && b = st.blocked
    setStream e q { st with
      blocked := b
      waited := if b.isNone then 0 else (if same then st.waited else 0) + (cycleOf s - old)
      stalled := same && st.stalled } s

/-- The stream has been blocked on one claim for TIL_STALL_LIMIT edges, and no stall of it was raised. -/
def streamStallDue (s : State) (e q : Nat) : Option (Nat × Nat × Nat) :=
  let st := getStream s e q
  if !st.stalled && reg s (aTil (e / 40) (e % 40) 8) ≤ st.waited && st.blocked = blockedOf s e q then st.blocked else none

def execStreamStall (d : Die) (t : TileId) (q : Strm) (s : State) : Outcome :=
  onlyIf (fun s => (streamStallDue s (strE d t) q).isSome) (fun s =>
    let e := strE d t
    match streamStallDue s e q with
    | none => s
    | some (_, seq, slot) =>
      let ctx := ((getStream s e q).q.find? fun x => x.seq = seq && sdOp x.bytes ≠ 0).map fun x => sdCtx s e x.bytes
      raise { die := d, code := 0x0202, ctx, p0 := e, p1 := q, p2 := seq, p3 := slot }
        (modStream e q (fun st => { st with stalled := true }) s)) s

end Sys2Proof.Machine
end

