-- ==== Sys2Proof/Machine/Carousel.lean ====
section
/-! DEFINITION. The weight carousel (R158–R192): ring formation, the carousel queue, circuits and their stones, placement,
gradients, the version stash, and the rows of the table that run them. -/

namespace Sys2Proof.Machine

/-- Replaces words of a header. -/
def setWords (h : List Byte) (ws : List (Nat × Nat)) : List Byte :=
  wordsLE ((List.range 16).map fun i => match ws.find? (·.1 == i) with | some w => w.2 % 2 ^ 32 | none => wordAt h (4 * i))

/-- The most blocks that a stone of a format holds (R158). -/
def maxBlocks (f : Nat) : Nat := if codeBits f = 4 then 240 else if codeBlocked f then 124 else if codeBits f = 8 then 128 else 64

/-- A stone frame at rest (R160). -/
def frameSize : Nat := 2097408

/-- The header that the g-th GRAD stone of a weight stone carries when it is emitted (R162). -/
def gradHeader (h : List Byte) (g : Nat) : List Byte :=
  let w := wordAt h 0
  let w := setBits (setBits (setBits (setBits w 31 28 3) 27 27 1) 21 18 0xA) 17 10 (min 32 (shBlocks h - 32 * g))
  setWords h [(0, w), (7, shBlock0 h + 32 * g), (10, 0), (11, 0)]

def gradCount (h : List Byte) : Nat := (shBlocks h + 31) / 32

/-- The header as a NOPAY stone: no payload, no digest fragment (R161). -/
def nopayHeader (h : List Byte) : List Byte := setWords h [(0, setBits (wordAt h 0) 27 27 1), (10, 0), (11, 0)]

/-- Headers equal but for NOPAY (R178), and for the fragment that a NOPAY stone does not carry (R161). -/
def sameHeader (a b : List Byte) : Bool := nopayHeader a = nopayHeader b

/-! ## The model's tables (R182, R183, R343) -/

/-- The slot of a committed version (TRAIN) or generation (INFER). -/
def slotFor (s : State) (x version gen : Nat) : Option Nat :=
  let want := if (getLoad s x).kind = 1 then version else gen
  [0, 1].find? fun k => slotValid s x k && slotVal s x k = want

def tabLen (s : State) (d x : Nat) : Nat := regF s (aLoad d x 0x10) 16 0

/-- The entries of a shard table's bytes. -/
def tabEntries (n : Nat) (b : List Byte) : List (List Byte) := (List.range n).map fun i => (b.drop (32 * i)).take 32

/-- A die's shard table through the decoder: its entries, or `none` where a unit is uncorrectable. `rd` is the read. -/
def tableBy (rd : Nat → Nat → Nat → State → State × Option (List Byte)) (d x : Nat) (s : State) : State × Option (List (List Byte)) :=
  let n := tabLen s d x
  match gaHbm s (reg64 s (aLoad d x 8) / 32 * 32) with
  | some (d', h) =>
    (match rd d' h (32 * n) s with
     | (s, some b) => (s, some (tabEntries n b))
     | (s, none) => (s, none))
  | none => (s, some (List.replicate n (List.replicate 32 0)))

def readTable (a : Agent) (d x : Nat) (s : State) : State × Option (List (List Byte)) := tableBy (hbmRead a (some x)) d x s

/-- The weight tensor entries of a table, in table order, and the entry of one tensor. -/
def weightsIn (t : List (List Byte)) : List (List Byte) := t.filter fun e => fld e 4 31 31 = 0
def entryIn (t : List (List Byte)) (tensor : Nat) : Option (List Byte) := (weightsIn t).find? fun e => wordAt e 0 = tensor
def teStones (e : List Byte) : Nat := fld e 4 23 0
def teFirst (e : List Byte) : Nat := wordAt e 8
def teCount (e : List Byte) : Nat := wordAt e 0xC
def teBase (e : List Byte) (k : Nat) : Nat := if k = 0 then dwordAt e 0x10 else dwordAt e 0x18

/-- The weight tensor entries of a table in the order of the manifest's tensor table (R332). -/
def inManifest (man : List Byte) (t : List (List Byte)) : List (List Byte) :=
  (List.range (fld man 8 31 16)).filterMap fun i => entryIn t (wordAt man (wordAt man 0xC + 16 * i))

/-- The frames of a slot that the entries name, in stone order. -/
def framesOf (es : List (List Byte)) (k : Nat) : List Nat :=
  (es.map fun e => (List.range (teStones e)).map fun q => teBase e k + frameSize * q).flatten

/-- The manifest of a slot's model: that of the load, which each later version keeps. -/
def manOf (s : State) (x k : Nat) : List Byte :=
  let m := mapGet [] (getLoad s x).mans k
  if m.isEmpty then mapGet [] (getLoad s x).mans 0 else m

/-- The end of ring position pos's block range for a tensor, from the manifest (R326). -/
def segEnd (man : List Byte) (pos tensor : Nat) : Option Nat :=
  let t := fld man 8 31 16
  let off := wordAt man 0xC
  (List.range t |>.find? fun i => wordAt man (off + 16 * i) = tensor).map fun i =>
    let r := wordAt man 0x10 + 32 * (pos * t + i)
    wordAt man r + wordAt man (r + 4)

/-! ## Reads by the carousel -/

/-- Bytes at a global address of this package, through the decoder: `none` where a unit is uncorrectable. -/
def carRead (d x ga n : Nat) (s : State) : State × Option (List Byte) :=
  match placeOf s ga with
  | .hbm d' h => hbmRead (agCar d) (some x) d' h n s
  | .scr d' t o => (s, some (readScr (engine d' t) o n s))
  | _ => (s, some (List.replicate n 0))

/-- An uncorrectable read of the carousel breaks its context's ring and aborts the job (R189, R237). -/
def carUe (x : Nat) (s : State) : State := if (ringOf s x).st = 5 then s else abortJob x 5 s

/-- Reads, and goes on only with good bytes. -/
def withRead (d x ga n : Nat) (f : List Byte → State → State) (s : State) : State :=
  match carRead d x ga n s with
  | (s, some b) => f b s
  | (s, none) => carUe x s

/-- Reads a die's shard table, and goes on only with good entries. -/
def withTable (d x : Nat) (f : List (List Byte) → State → State) (s : State) : State :=
  match readTable (agCar d) d x s with
  | (s, some t) => f t s
  | (s, none) => carUe x s

/-! ## Faults of the carousel (R172, R189) -/

def carQueueFault (x cause : Nat) (index : Nat) (s : State) : State :=
  raise { die := 0, code := 0x0301, ctx := some x, p0 := x, p1 := index, p2 := cause } (modRing x (fun r => { r with qfault := true }) s)

def stoneCorrupt (d x : Nat) (h : List Byte) (s : State) : State :=
  carFault d x 1 (shOrigin h) (shTensor h) (shSeq h)
    (raise { die := d, code := 0x0305, ctx := some x, p0 := d * 2 ^ 16 + shOrigin h, p1 := shVersion h, p2 := shTensor h, p3 := shSeq h }
      (bump (aCar d 0x20) s))

/-- `off`: header byte offset of the failing field, 0xFF for placement. -/
def stoneMismatch (d x off : Nat) (h : List Byte) (s : State) : State :=
  carFault d x 2 (shOrigin h) (shTensor h) (shSeq h)
    (raise { die := d, code := 0x0306, ctx := some x, p0 := d * 2 ^ 16 + shOrigin h, p1 := off, p2 := shTensor h, p3 := shSeq h } s)

/-! ## Stones held and sent (R173, R179) -/

/-- The stone streams of a die, with their messages not yet DELIVERED. -/
def stoneMsgs (s : State) (d : Nat) : List Msg :=
  ((s.fab.tx.filter fun e => e.1 % 4 = 0 && e.1 / 4 % 8 = d).map fun e => e.2.undel.map (·.msg) ++ e.2.wait.map (·.1)).flatten

/-- Removes stones that were sent onward and are DELIVERED (R254). -/
def tidyStones (d : Nat) (s : State) : State :=
  let l := stonesOf s d
  if l.any (·.st = 2) then
    let ms := stoneMsgs s d
    setStones d (l.filter fun x => x.st ≠ 2 || ms.any fun m => m.bytes.take 64 = x.header) s
  else s

/-- A stone that waits for a place takes one, and the credits that its quarters held return (R179, R258). -/
def grantOne (d : Nat) (s : State) : Option State :=
  let inb := (inboxOf s d).find? fun i => i.msg.ty = 0 && !i.admitted && stoneRoom s d (hasPayload i)
  match inb with
  | some i =>
    some (freeCredits i { s with fab := { s.fab with inbox := mapMod [] s.fab.inbox d (·.map fun j => if j = i then { i with admitted := true, quarters := 0 } else j) } })
  | none =>
    let ps := s.fab.ports.filter fun e => e.1 / 6 = d
    let one := ps.findSome? fun e => e.2.parts.findSome? fun q => match q.2 with
      | some i => if i.msg.ty = 0 && i.msg.dpkg = pkgId s && !i.admitted && stoneRoom s d (hasPayload i) then some (e.1, q.1, i) else none
      | none => none
    one.map fun (p, c, i) => freeCredits i (modPort p (fun y => { y with parts := mapSet none y.parts c (some { i with admitted := true, quarters := 0 }) }) s)

def grantLoop (d : Nat) : Nat → State → State
  | 0, s => s
  | n + 1, s => match grantOne d s with | some s' => grantLoop d n s' | none => s

/-- Puts a die's stones in order after one has left: DELIVERED ones go, waiting ones take their places. -/
def settleStones (d : Nat) (s : State) : State := grantLoop d 16 (tidyStones d s)

/-- Sends a stone to the successor in its direction and counts it (R167, R171). -/
def sendStone (d x : Nat) (h payload : List Byte) (s : State) : State :=
  let m : Msg := { cls := 0, ty := 0, dpkg := ringNextPkg s x (shDir h), ddie := d, sdie := d, bytes := h ++ padGrain payload }
  send m (.stone x) (bump64 (aCar d 0x18) s)

def putStone (d b : Nat) (x : Stone) (s : State) : State := setStones d ((stonesOf s d).set b x) s

/-! ## Bindings (R183, R184) -/

/-- The LAST circuits of all origins have ended here, on every lane. -/
def mbComplete (s : State) (x : Nat) (b : BindS) : Bool := (List.range (8 * ringN s x)).all b.ended.contains

def noteEnded (x mb : Nat) (ks : List Nat) (s : State) : State :=
  modRing x (fun r => { r with binds := mapMod none r.binds (mb % 64) fun o => match o with
    | some b => if b.mb = mb then some { b with ended := sortedSet (b.ended ++ ks) } else some b
    | none => none }) s

/-! ## Gates and the stash (R169, R185) -/

/-- FILLs a gate slot; `none` while the slot blocks. -/
def fillGate (b : List Byte) (circuit : Nat) (s : State) : Option State :=
  let e := cdGateEngine b
  let sl := cdGateSlot b
  if carMay s e sl .fill then
    let bytes := wordsLE [wordAt b 0x1C, circuit]
    some (fillNow e sl (writeScr e (sl * 256) (bytes ++ List.replicate 248 0) s))
  else none

/-- Gate FILLs that are due, oldest first; a blocked one waits. -/
def runGates (x : Nat) (s : State) : State :=
  (ringOf s x).gates.foldl (fun s g =>
    match fillGate g.1 g.2 s with
    | some s => modRing x (fun r => { r with gates := r.gates.erase g }) s
    | none => s) s

/-- A descriptor ends: its gate slot is filled where it asks for that. -/
def endCarDesc (x : Nat) (b : List Byte) (circuit : Nat) (s : State) : State :=
  if cdGate b then runGates x (modRing x (fun r => { r with gates := r.gates ++ [(b, circuit)] }) s) else s

/-- Micro-batches bound to V_LO that are not complete. -/
def waitingMbs (s : State) (x : Nat) : List Nat :=
  ((ringOf s x).binds.filterMap fun e => match e.2 with
    | some b => if b.version = (getLoad s x).vlo && !mbComplete s x b then some b.mb else none
    | none => none)

/-- Both stash slots hold committed versions. -/
def stashTwo (s : State) (x : Nat) : Bool := slotValid s x 0 && slotValid s x 1

/-- The slot that an OPEN claims: an empty one, else that of V_LO. -/
def openSlot (s : State) (x : Nat) : Nat :=
  if !slotValid s x 0 then 0 else if !slotValid s x 1 then 1
  else if slotVal s x 0 = (getLoad s x).vlo then 0 else 1

/-- Grants an OPEN: V_LO leaves the stash where it held the slot, and the descriptor ends. -/
def grantOpen (x : Nat) (o : OpenS) (s : State) : State :=
  let k := openSlot s x
  let s := if stashTwo s x then modLoad x (fun l => { l with vlo := l.vhi }) s else s
  let s := setSlotVal x k o.version (setSlotValid x k false s)
  endCarDesc x o.desc 0 (modRing x (fun r => { r with opened := some { o with granted := true } }) s)

/-- An OPEN acts (R185). -/
def actOpen (x : Nat) (o : OpenS) (s : State) : State :=
  let l := getLoad s x
  if l.kind ≠ 1 || o.version ≠ (l.vhi + 1) % 2 ^ 16 || (ringOf s x).opened.isSome then carQueueFault x 3 o.index s
  else if !stashTwo s x || (waitingMbs s x).isEmpty then grantOpen x o s
  else
    let s := bump (aCar 0 (0x110 + 0x40 * x)) (modRing x (fun r => { r with opened := some o, waits := r.waits + 1 }) s)
    raise { die := 0, code := 0x0303, ctx := some x, p0 := x, p1 := ringPos s x, p2 := l.vlo,
            p3 := (waitingMbs s x).foldl min 0xFFFFFFFF } s

/-- Reads one stone of a version that commits, writes its fragment, and adds its payload to the lane's bytes. -/
def commitStone (d x ga : Nat) (acc : State × Option (List Byte)) : State × Option (List Byte) :=
  match acc with
  | (s, none) => (s, none)
  | (s, some lane) =>
    match carRead d x ga 64 s with
    | (s, none) => (s, none)
    | (s, some h) =>
      match carRead d x (ga + 256) (payloadBytes (shFmt h) (shBlocks h)) s with
      | (s, none) => (s, none)
      | (s, some p) => (writeGa (agCar d) (ga + 0x28) ((sha256 p).take 8) s, some (lane ++ p))

/-- The lane of a slot that commits: its stones in the order of the manifest, with their payloads joined (R332). -/
def commitLane (d x k : Nat) (s : State) : State × Option (List Byte) :=
  match readTable (agCar d) d x s with
  | (s, some t) => (framesOf (inManifest (manOf s x k) t) k).foldl (fun a ga => commitStone d x ga a) (s, some [])
  | (s, none) => (s, none)

/-- Every die's lane of the slot that commits: fragments and lane digests; `false` where a read fails. -/
def commitLanes (x k : Nat) (s : State) : State × Bool :=
  (List.range 8).foldl (fun (acc : State × Bool) d =>
    if !acc.2 then acc
    else
      match commitLane d x k acc.1 with
      | (s, some lane) => (modLoad x (fun l => { l with digests := mapInsert l.digests (8 * k + d) (sha256 lane) }) s, true)
      | (s, none) => (s, false)) (s, true)

/-- A COMMIT acts: fragments, lane digests, and the new V_HI. -/
def actCommit (x : Nat) (o : OpenS) (s : State) : State :=
  match (ringOf s x).opened with
  | none => carQueueFault x 3 o.index s
  | some p =>
    if p.version ≠ o.version then carQueueFault x 3 o.index s
    else
      let k := openSlot s x
      let (s, good) := commitLanes x k s
      if !good then carUe x s
      else
        let s := modLoad x (fun l => { l with vlo := l.vhi, vhi := o.version }) s
        let s := setSlotVal x k o.version (setSlotValid x k true s)
        endCarDesc x o.desc 0 (modRing x (fun r => { r with opened := none }) s)

/-- OPEN and COMMIT descriptors act in order, each once every earlier circuit has ended; a COMMIT also waits for the
grant of its own OPEN. None acts while the ring's queue fault stands (R172: DESIGN CHOICE, log entry 127). -/
def runActs (x : Nat) : Nat → State → State
  | 0, s => s
  | n + 1, s =>
    let r := ringOf s x
    match r.acts with
    | [] => s
    | o :: rest =>
      let waitsGrant := cdOp o.desc = 0x35 && (match r.opened with | some p => !p.granted && p.version = o.version | none => false)
      if r.qfault || r.live.any (fun c => c.no < o.after) || waitsGrant then s
      else
        let s := modRing x (fun r => { r with acts := rest }) s
        runActs x n (if cdOp o.desc = 0x34 then actOpen x o s else actCommit x o s)

/-! ## The state of a ring (R165, R166) -/

def ringDigest (b : List Byte) : List Byte := (sha256 b).take 8
def ringDigestWords (s : State) (x : Nat) : List Nat := let g := ringDigest (ringOf s x).rcd; [wordAt g 0, wordAt g 4]

/-- A stone of a job, as a message. -/
def stoneOfJob (job : Nat) (i : InMsg) : Bool := i.msg.ty = 0 && shJob (headerOf i) = job

/-- Discards the stones of a job that a die has not taken: those delivered return their credits; those held early or still
arriving will be delivered to nobody (R166, R255). -/
def discardUntaken (job d : Nat) (s : State) : State :=
  let s := ((inboxOf s d).filter (stoneOfJob job)).foldl (fun s i => takeMsg d i s) s
  let mark (i : InMsg) : InMsg := if stoneOfJob job i && i.msg.dpkg = pkgId s then { i with gone := true } else i
  { s with fab := { s.fab with
      rx := s.fab.rx.map fun e => if e.1 / 4 % 8 = d then (e.1, { e.2 with held := e.2.held.map mark }) else e
      ports := s.fab.ports.map fun e => if e.1 / 6 = d then (e.1, { e.2 with parts := e.2.parts.map fun q => (q.1, q.2.map mark) }) else e } }

/-- The ring becomes IDLE: every stone it holds is discarded. -/
def ringIdle (x : Nat) (s : State) : State :=
  let r := ringOf s x
  let s := if r.st = 0 || r.st = 1 then s else (List.range 8).foldl (fun s d => discardUntaken (rcdJob r.rcd) d s) s
  let s := { setRing x {} s with fab := { s.fab with casts := mapSet [] s.fab.casts x [], removed := mapSet [] s.fab.removed x [] } }
  let s := { s with stones := s.stones.filterMap fun e => let l := e.2.filter (·.ctx ≠ x); if l.isEmpty then none else some (e.1, l) }
  let s := r.dissolve.foldl (fun s c => completeCmd c 0 0 s) s
  match r.cmd with
  | some c => completeCmd c 8 0 s
  | none => s

/-- No stone of the ring lies in this package but its own on their way out: none taken, none that waits or arrives. -/
def noneHeld (s : State) (x : Nat) : Bool :=
  s.stones.all (fun e => e.2.all fun t => t.ctx ≠ x || t.own) &&
    (List.range 8).all fun d => (untaken s d).all fun i => !stoneOfJob (ringJob s x) i

/-- A DRAINING ring becomes IDLE once its circuits are home and its buffers are empty (R166). -/
def drainCheck (x : Nat) (s : State) : State :=
  let s := (List.range 8).foldl (fun s d => tidyStones d s) s
  if (ringOf s x).st = 4 && (ringOf s x).live.isEmpty && noneHeld s x then ringIdle x s else s

/-- A ring token to the clockwise successor (R165, R249). -/
def sendToken (x cop : Nat) (a0 : Nat) (s : State) : State :=
  postCtl 0 (ringNextPkg s x 0) 0 cop (rcdJob (ringOf s x).rcd) (a0 :: ringDigestWords s x) s

/-- An ABORT token with the job and the digest of the token that it answers or passes on (R165). -/
def passAbort (x : Nat) (m : Msg) (reason : Nat) (s : State) : State :=
  postCtl 0 (ringNextPkg s x 0) 0 0x12 (ctlJob m) [reason, ctlArg m 1, ctlArg m 2] s

/-- Formation ends without a ring: the command completes, the member is IDLE. -/
def formFail (x status : Nat) (s : State) : State :=
  let c := (ringOf s x).cmd
  let s := ringIdle x (modRing x (fun r => { r with cmd := none }) s)
  match c with
  | some c => completeCmd c status 0 s
  | none => s

def formDone (x : Nat) (s : State) : State :=
  let c := (ringOf s x).cmd
  let s := modRing x (fun r => { r with st := 2, cmd := none }) s
  let s := modLoad x (fun l => { l with counting := false }) { s with fab := { s.fab with collSeq := mapSet 0 s.fab.collSeq x 0 } }
  match c with
  | some c => completeCmd c 0 0 s
  | none => s

/-! ## RING_FORM (R163, R164, R268) -/

/-- Coordinates of a member in a torus group (R266). -/
def torusXyz (p : Nat) : List Nat := [p % 128 % 4, p % 128 / 4 % 4, p % 128 / 16]

/-- The axis and the half of the hop from a member to a torus neighbour: + is half 0. -/
def torusHop (a b : Nat) : Option (Nat × Nat) :=
  let u := torusXyz a
  let v := torusXyz b
  let diff := (List.range 3).filter fun k => u.getD k 0 ≠ v.getD k 0
  match diff with
  | [k] => if (u.getD k 0 + 1) % 4 = v.getD k 0 then some (k, 0) else if (v.getD k 0 + 1) % 4 = u.getD k 0 then some (k, 1) else none
  | _ => none

/-- RING_LIST_INVALID's DETAIL, where the record is not valid. -/
def ringListBad (s : State) (x : Nat) (b : List Byte) : Option Nat :=
  let n := rcdN b
  let ms := rcdMembers b
  if n = 0 || 128 < n || fld b 4 31 12 ≠ 0 || fld b 4 10 9 = 3 || fld b 4 8 8 ≠ 0 || wordAt b 0xC ≠ 0 then some 0xFF
  else
    match (List.range 128).find? fun i =>
        (n ≤ i && rcdMember b i ≠ 0) ||
          (i < n && (((List.range i).any fun j => rcdMember b j = rcdMember b i) || rcdMember b i / 128 ≠ pkgId s / 128)) with
    | some i => some i
    | none =>
      if regF s (aFab 0 0) 31 31 = 0 || !ms.contains (pkgId s) then some 0
      else if fld b 4 11 11 = 1 && 64 < n then some 0xFF
      else if (fld b 4 11 11 = 1) ≠ isTorus s then some 0xFE
      else if (List.range 8).any fun y => y ≠ x && (ringOf s y).st ≠ 0 && rcdJob (ringOf s y).rcd = rcdJob b then some 0xFD
      else none

/-- The first position whose hop to the next member is not between torus neighbours. -/
def hopBad (b : List Byte) : Option Nat :=
  let n := rcdN b
  if fld b 4 11 11 = 0 || n = 1 then none
  else (List.range n).find? fun i => (torusHop (rcdMember b i) (rcdMember b ((i + 1) % n))).isNone

/-- The port number of a half that refuses transit to a TRANSIT entry that uses it (R268). -/
def transitBad (s : State) (b : List Byte) : Option Nat :=
  let n := rcdN b
  if fld b 4 11 11 = 0 || n = 1 then none
  else
    let pos := (rcdMembers b).idxOf (pkgId s)
    let mode := fld b 4 10 9
    let hops := (if mode ≠ 1 then [torusHop (pkgId s) (rcdMember b ((pos + 1) % n))] else []) ++
      (if mode ≠ 0 then [torusHop (pkgId s) (rcdMember b ((pos + n - 1) % n))] else [])
    (hops.filterMap id).findSome? fun (k, h) =>
      ((List.range 8).find? fun d => regF s (aPort d k 8) 3 0 = 0 &&
        (List.range 128).any fun m => let e := reg s (aFab d (0x2800 + 4 * m)); bitsOf e 31 31 = 1 && bitsOf e 29 29 = 1 && bitsOf e (2 * k + h) (2 * k + h) = 1).map
          fun d => 3 * d + k

/-- RING_FORM with its formation record (R164, R165). -/
def formRing (c : Nat) (record : List Byte) (s : State) : State :=
  match getCmd s c with
  | none => s
  | some cmd =>
    let x := cmdCtx cmd
    let b := record.take 272 ++ List.replicate (272 - record.length) 0
    if (ringOf s x).st ≠ 0 then completeCmd c 0x10 0 s
    else
      match ringListBad s x b with
      | some p => completeCmd c 0x11 p s
      | none =>
        match hopBad b with
        | some p => completeCmd c 0x12 p s
        | none =>
          match transitBad s b with
          | some p => completeCmd c 0x13 p s
          | none =>
            let s := setRing x { st := 1, rcd := b, formAt := s.now, cmd := some c } s
            let s := putReg (aCar 0 (0x110 + 0x40 * x)) 0 s
            if rcdN b = 1 then formDone x s
            else if ringPos s x = 0 then sendToken x 0x10 (rcdN b + 2 ^ 8) s
            else s

/-- Messages of a control opcode that wait at a die, oldest first. -/
def ctlMsgs (s : State) (d cop : Nat) : List InMsg := (served s d).filter fun i => i.msg.ty = 6 && ctlOp i.msg = cop

/-- The package from which a ring's tokens come: its clockwise predecessor. -/
def predecessor (s : State) (x : Nat) : Nat := let n := ringN s x; rcdMember (ringOf s x).rcd ((ringPos s x + n - 1) % n)

/-- The forming ring with which a FORM token is compared: that of its job; else one that has heard no token of its own job
and whose predecessor sent this one. While there is none the token is held (DESIGN CHOICE, log entry 111). -/
def formingFor (s : State) (m : Msg) : Option Nat :=
  let l := (List.range 8).filter fun x => (ringOf s x).st = 1
  (l.find? fun x => rcdJob (ringOf s x).rcd = ctlJob m).or (l.find? fun x => !(ringOf s x).heard && predecessor s x = m.spkg)

/-- A FORM token may be taken: it has no effect (R248), or it meets a forming ring. -/
def formMay (s : State) (m : Msg) : Bool := !ctlValid m || (formingFor s m).isSome

/-- A member compares a FORM token with its own record, and passes it on or answers with ABORT. -/
def takeForm (x : Nat) (m : Msg) (s : State) : State :=
  let r := ringOf s x
  let count := bitsOf (ctlArg m 0) 15 8
  let mine := ctlJob m = rcdJob r.rcd
  let same := mine && bitsOf (ctlArg m 0) 7 0 = rcdN r.rcd && [ctlArg m 1, ctlArg m 2] = ringDigestWords s x
  if !same then passAbort x m 1 (modRing x (fun r => if mine then r else { r with abortFor := some (ctlJob m) }) s)
  else
    let s := modRing x (fun r => { r with heard := true }) s
    if ringPos s x = 0 then (if count = rcdN r.rcd then sendToken x 0x11 0 s else s)
    else sendToken x 0x10 (rcdN r.rcd + (count + 1) % 256 * 2 ^ 8) s

def execForm (d : Die) (s : State) : Outcome :=
  onlyIf (fun s => (ctlMsgs s d 0x10).any fun i => formMay s i.msg) (fun s =>
    match (ctlMsgs s d 0x10).find? fun i => formMay s i.msg with
    | none => s
    | some i =>
      match if ctlValid i.msg then formingFor s i.msg else none with
      | none => takeMsg d i s
      | some x => takeForm x i.msg (takeMsg d i s)) s

/-- The ring of a job in the given states. -/
def ringOfJob (s : State) (job : Nat) (sts : List Nat) : Option Nat :=
  (List.range 8).find? fun x => sts.contains (ringOf s x).st && rcdJob (ringOf s x).rcd = job

def execFormReady (d : Die) (s : State) : Outcome :=
  onlyIf (fun s => !(ctlMsgs s d 0x11).isEmpty) (fun s =>
    match ctlMsgs s d 0x11 with
    | [] => s
    | i :: _ =>
      let s := takeMsg d i s
      match ringOfJob s (ctlJob i.msg) [1] with
      | none => s
      | some x =>
        if !ctlValid i.msg || [ctlArg i.msg 1, ctlArg i.msg 2] ≠ ringDigestWords s x then s
        else
          let s := if ringPos s x = 0 then s else sendToken x 0x11 0 s
          formDone x s) s

/-- The forming ring that an ABORT token ends: that of its job, or one that answered a token of that job with ABORT. -/
def abortedFor (s : State) (job : Nat) : Option Nat :=
  (ringOfJob s job [1]).or ((List.range 8).find? fun x => (ringOf s x).st = 1 && (ringOf s x).abortFor = some job)

def execFormAbort (d : Die) (s : State) : Outcome :=
  onlyIf (fun s => !(ctlMsgs s d 0x12).isEmpty) (fun s =>
    match ctlMsgs s d 0x12 with
    | [] => s
    | i :: _ =>
      let s := takeMsg d i s
      match if ctlValid i.msg then abortedFor s (ctlJob i.msg) else none with
      | none => s
      | some x => formFail x 0x14 (passAbort x i.msg (ctlArg i.msg 0) s)) s

/-- Ticks of the formation timer. -/
def formTicks (b : List Byte) : Nat := 1000 * (if wordAt b 8 = 0 then 100000 else wordAt b 8)

def execFormTimeout (x : Ctx) (s : State) : Outcome :=
  onlyIf (fun s => (ringOf s x).st = 1 && (ringOf s x).formAt + formTicks (ringOf s x).rcd ≤ s.now)
    (fun s => formFail x 0x15 (sendToken x 0x12 2 s)) s

def effRingDissolve (c : Nat) (s : State) : State :=
  match getCmd s c with
  | none => s
  | some cmd =>
    let x := cmdCtx cmd
    let st := (ringOf s x).st
    if st = 2 || st = 5 then ringIdle x (modRing x (fun r => { r with dissolve := r.dissolve ++ [c] }) s)
    else if st = 3 then drainCheck x (modRing x (fun r => { r with st := 4, dissolve := r.dissolve ++ [c] }) s)
    else if st = 4 then modRing x (fun r => { r with dissolve := r.dissolve ++ [c] }) s
    else completeCmd c 0 0 s

def execRingDissolve (c : Nat) (s : State) : Outcome := cmdRow 0x11 c effRingDissolve s

/-! ## The queue (R168–R172) -/

def carTail (s : State) (x : Nat) : Nat := regF s (aCar 0 (0x12C + 0x40 * x)) 11 0
def carHead (s : State) (x : Nat) : Nat := reg s (aCar 0 (0x130 + 0x40 * x))
def carLog (s : State) (x : Nat) : Nat := regF s (aCar 0 (0x128 + 0x40 * x)) 3 0
def carAddr (s : State) (x : Nat) : Nat := reg64 s (aCar 0 (0x120 + 0x40 * x)) / 32 * 32 + 32 * carHead s x

def execCarRingQTail (m : Master) (d : Die) (x : Ctx) (v : Word) (s : State) : Outcome := arriveAt m (aCar d (0x12C + 0x40 * x)) v s

/-- The descriptor at the head of the queue, where one is posted and may begin in the ring's state. R168 asks for READY or
RUNNING of FWD and BWD only: the model begins BIND, OPEN, COMMIT and MARK in DRAINING too, and nothing in IDLE, FORMING and
BROKEN, where no ring is in circulation (DESIGN CHOICE, log entry 113). -/
def carNext (s : State) (x : Nat) : Option (List Byte) :=
  let r := ringOf s x
  if r.st < 2 || r.st = 5 || r.qfault || carHead s x = carTail s x % 2 ^ carLog s x then none
  else
    match gaHbm s (carAddr s x) with
    | some (d, h) => some (hbmPeek (agCar 0) d h 32 s)
    | none => some (List.replicate 32 0)

/-- A circuit may begin: the ring runs, and the circuit before has read its last stone on every die. -/
def circuitMay (s : State) (x : Nat) : Bool :=
  ((ringOf s x).st = 2 || (ringOf s x).st = 3) &&
    (match (ringOf s x).live.getLast? with
     | some c => (List.range 8).all fun d => mapGet 0 c.stop d ≤ mapGet 0 c.next d
     | none => true)

/-- HEAD moves on. -/
def carAdvance (x : Nat) (s : State) : State := putReg (aCar 0 (0x130 + 0x40 * x)) ((carHead s x + 1) % 2 ^ carLog s x) s

/-- A descriptor is MALFORMED as it stands: reserved bits, or a gate slot that is not tagged. -/
def cdMalformed (s : State) (b : List Byte) : Bool :=
  !zeroBits b 0 [(19, 0)] || !zeroBits b 0xC [(15, 0)] || !zeroBits b 0x18 [(22, 14)] ||
    (cdGate b && !(fld b 0x18 28 23 < tilesPerDie s && isTagged s (cdGateEngine b) (cdGateSlot b)))

/-- Every die's entry of a circuit's tensor, through the decoder: `none` where a table cannot be read. -/
def circuitEntries (x : Nat) (b : List Byte) (s : State) : State × Option (SMap (List Byte)) :=
  (List.range 8).foldl (fun acc d => match acc with
    | (s, none) => (s, none)
    | (s, some m) => match readTable (agCar d) d x s with
      | (s, none) => (s, none)
      | (s, some t) => (s, some (match entryIn t (cdTensor b) with | some e => mapInsert m d e | none => m))) (s, some [])

/-- The range of a circuit lies in the shard on every die, and its direction is allowed. -/
def circuitOk (s : State) (x : Nat) (b : List Byte) (ents : SMap (List Byte)) : Bool :=
  let mode := fld (ringOf s x).rcd 4 10 9
  (mode = 2 || mode = cdDir b) && fld b 4 15 0 ≤ 63 &&
    (List.range 8).all fun d => match mapLookup ents d with
      | some e => cdFirst b < teStones e && cdFirst b + cdCount b ≤ teStones e
      | none => false

/-- Takes the head descriptor through the decoder. -/
def takeCar (x : Nat) (f : List Byte → State → State) (s : State) : State :=
  withRead 0 x (carAddr s x) 32 (fun b s => if cdMalformed s b then carQueueFault x 1 (carHead s x) s else f b s) s

/-- A FWD or BWD descriptor begins as a circuit (R170, R171). -/
def beginCircuit (x : Nat) (b : List Byte) (s : State) : State :=
  match circuitEntries x b s with
  | (s, none) => carUe x s
  | (s, some ents) =>
    if !circuitOk s x b ents then carQueueFault x 1 (carHead s x) s
    else
      match bindOf s x (cdMb b) with
      | none => carQueueFault x 2 (carHead s x) s
      | some bd =>
        let r := ringOf s x
        let stops : SMap Nat := ents.map fun e => (e.1, if cdCount b = 0 then teStones e.2 else cdFirst b + cdCount b)
        let c : Circuit := { no := r.circuits, index := carHead s x, desc := b, version := bd.version, gen := bd.gen, ents,
                             next := if cdFirst b = 0 then [] else (List.range 8).map fun d => (d, cdFirst b), stop := stops }
        carAdvance x (setRing x { r with st := 3, circuits := r.circuits + 1, live := r.live ++ [c] } s)

def carRow (op : Nat) (x : Ctx) (may : State → Bool) (f : List Byte → State → State) (s : State) : Outcome :=
  onlyIf (fun s => (match carNext s x with | some b => cdOp b = op | none => false) && may s) (takeCar x f) s

def execFwd (x : Ctx) (s : State) : Outcome := carRow 0x30 x (fun s => circuitMay s x) (beginCircuit x) s
def execBwd (x : Ctx) (s : State) : Outcome := carRow 0x31 x (fun s => circuitMay s x) (beginCircuit x) s

/-! ### BIND, OPEN, COMMIT, MARK -/

/-- A generation is resident (R186). -/
def genResident (s : State) (x g : Nat) : Bool :=
  let l := getLoad s x
  if l.kind = 2 then g = l.genCur || (l.newValid && g = l.genNew) else g = 0

/-- VERSION lies in the window of R183. An inference context has no stash, so its window is open. -/
def versionOk (s : State) (x v : Nat) : Bool :=
  let l := getLoad s x
  l.kind ≠ 1 || (v + 2 ^ 16 - l.vlo) % 2 ^ 16 ≤ (l.vhi + 2 + 2 ^ 16 - l.vlo) % 2 ^ 16

/-- The table entry of MB holds no other micro-batch that is incomplete. -/
def bindFree (s : State) (x mb : Nat) : Bool :=
  match mapGet none (ringOf s x).binds (mb % 64) with
  | some b => b.mb = mb || mbComplete s x b
  | none => true

def execBind (x : Ctx) (s : State) : Outcome :=
  carRow 0x33 x (fun s => match carNext s x with | some b => bindFree s x (cdMb b) | none => false) (fun b s =>
    if (getLoad s x).kind = 0 || !versionOk s x (cdVersion b) || !genResident s x (cdGen b) then carQueueFault x 2 (carHead s x) s
    else
      let s := modRing x (fun r => { r with binds := mapInsert r.binds (cdMb b % 64) (some { mb := cdMb b, version := cdVersion b, gen := cdGen b }) }) s
      endCarDesc x b 0 (carAdvance x s)) s

/-- An OPEN or COMMIT begins; it acts at once where no earlier circuit is in progress. -/
def beginAct (x : Nat) (b : List Byte) (s : State) : State :=
  let o : OpenS := { version := cdVersion b, index := carHead s x, desc := b, after := (ringOf s x).circuits }
  runActs x 65 (carAdvance x (modRing x (fun r => { r with acts := r.acts ++ [o] }) s))

def execOpenVersion (x : Ctx) (s : State) : Outcome := carRow 0x34 x (fun _ => true) (beginAct x) s
def execCommit (x : Ctx) (s : State) : Outcome := carRow 0x35 x (fun _ => true) (beginAct x) s

def execOpenGrant (x : Ctx) (s : State) : Outcome :=
  onlyIf (fun s => (match (ringOf s x).opened with | some o => !o.granted | none => false) && (waitingMbs s x).isEmpty) (fun s =>
    match (ringOf s x).opened with
    | some o => runActs x 65 (grantOpen x o s)
    | none => s) s

/-- MARK does nothing and ends at once. An opcode that is reserved faults the queue here (log entry 7). -/
def execCarouselMark (x : Ctx) (s : State) : Outcome :=
  onlyIf (fun s => match carNext s x with | some b => !([0x30, 0x31, 0x33, 0x34, 0x35].contains (cdOp b)) | none => false)
    (takeCar x fun b s => if cdOp b = 0x36 then endCarDesc x b 0 (carAdvance x s) else carQueueFault x 1 (carHead s x) s) s

/-! ## Emission (R171) -/

def modCircuit (x no : Nat) (f : Circuit → Circuit) (s : State) : State :=
  modRing x (fun r => { r with live := r.live.map fun c => if c.no = no then f c else c }) s

/-- A circuit has emitted all its stones and every one is home and applied, on every die (R178). -/
def circuitHome (s : State) (x : Nat) (c : Circuit) : Bool :=
  (List.range 8).all (fun d => mapGet 0 c.stop d ≤ mapGet 0 c.next d) && c.grads.isEmpty && c.out.isEmpty &&
    s.stones.all fun e => e.2.all fun t => !(t.ctx = x && t.home && shCircuit t.header = c.no)

/-- Ends the circuits that are home: LAST is noted, the gate is filled, waiting OPENs and COMMITs act. -/
def endCircuits (x : Nat) (s : State) : State :=
  let done := (ringOf s x).live.filter (circuitHome s x)
  let s := done.foldl (fun s c =>
    let s := modRing x (fun r => { r with live := r.live.filter (·.no ≠ c.no) }) s
    let s := if cdLast c.desc then noteEnded x (cdMb c.desc) ((List.range 8).map fun d => 8 * ringPos s x + d) s else s
    endCarDesc x c.desc c.no s) s
  drainCheck x (runActs x 65 s)

/-- The header of an emitted weight stone, from the frame's (R171). -/
def emitHeader (s : State) (x : Nat) (c : Circuit) (h : List Byte) : List Byte :=
  let w := wordAt h 0
  let w := setBits (setBits (setBits (setBits w 31 28 (cdOp c.desc - 0x2F)) 27 27 0) 26 26 (cdDir c.desc)) 25 25 (bit (cdLast c.desc) 0)
  setWords h [(0, w), (4, pkgId s * 2 ^ 16 + cdMb c.desc), (5, c.gen * 2 ^ 16 + ringPos s x), (8, ringJob s x), (9, c.no),
    (12, stepOf s x % 2 ^ 32)]

/-- The circuit and the work that die d has to emit next: the oldest circuit with a GRAD stone or a weight stone due,
whose version is committed. -/
def emitDue (s : State) (d x : Nat) : Option Circuit :=
  if (ringOf s x).st ≠ 3 && (ringOf s x).st ≠ 4 then none
  else
    match (ringOf s x).live.find? fun c => c.grads.any (·.1 = d) || mapGet 0 c.next d < mapGet 0 c.stop d with
    | some c => if c.grads.any (·.1 = d) || (slotFor s x c.version c.gen).isSome then some c else none
    | none => none

/-- A stone of this package is sent; in a ring of one it is home at once. -/
def launchStone (d x : Nat) (c : Circuit) (h payload : List Byte) (s : State) : State :=
  if ringN s x = 1 then
    if shKind h = 3 then setStones d (stonesOf s d ++ [{ ctx := x, header := h, payload := [], home := true }]) s else s
  else
    let s := modCircuit x c.no (fun c => { c with out := c.out ++ [(d, h)] }) s
    sendStone d x h payload (setStones d (stonesOf s d ++ [{ ctx := x, header := h, payload := [], st := 2, own := true }]) s)

/-- One GRAD stone of a circuit. -/
def emitGrad (d x : Nat) (c : Circuit) (g : Nat × List Byte × Nat) (s : State) : State :=
  let more := g.2.2 + 1 < gradCount g.2.1
  let s := modCircuit x c.no (fun c => { c with grads := if more then c.grads.map fun y => if y = g then (g.1, g.2.1, g.2.2 + 1) else y else c.grads.erase g }) s
  launchStone d x c (gradHeader g.2.1 g.2.2) [] s

/-- One weight stone of a circuit: read, its fragment checked, its header set, sent. -/
def emitWeight (d x : Nat) (c : Circuit) (s : State) : State :=
  match slotFor s x c.version c.gen, mapLookup c.ents d with
  | some k, some e =>
    let q := mapGet 0 c.next d
    let ga := teBase e k + frameSize * q
    withRead d x ga 64 (fun fh s =>
      withRead d x (ga + 256) (payloadBytes (shFmt fh) (shBlocks fh)) (fun p s =>
        let h := emitHeader s x c fh
        if (sha256 p).take 8 ≠ shFrag fh then stoneCorrupt d x h s
        else
          let s := modCircuit x c.no (fun c => { c with
            next := mapInsert c.next d (q + 1), grads := if cdOp c.desc = 0x31 then c.grads ++ [(d, h, 0)] else c.grads }) s
          launchStone d x c h p s) s) s
  | _, _ => s

def execStoneEmit (d : Die) (x : Ctx) (s : State) : Outcome :=
  onlyIf (fun s => (emitDue s d x).isSome) (fun s =>
    match emitDue s d x with
    | none => s
    | some c =>
      let s := match c.grads.find? (·.1 = d.val) with
        | some g => emitGrad d x c g s
        | none => emitWeight d x c s
      runGates x (endCircuits x s)) s

/-! ## Arrival (R174, R178) -/

/-- The header's first field that fails a check that needs no placement map; `none` when it passes. -/
def headerBad (s : State) (d x : Nat) (h payload : List Byte) : Option Nat :=
  let weight := shKind h = 1 || shKind h = 2
  if (!weight && shKind h ≠ 3) || shLane h ≠ d || fld h 0 9 0 ≠ 0 then some 0
  else if weight && (shNopay h || !(1 ≤ shBlocks h && shBlocks h ≤ 240) || shFmt h > 9) then some 0
  else if shKind h = 3 && (shFmt h ≠ 10 || !(1 ≤ shBlocks h && shBlocks h ≤ 32)) then some 0
  else if payload.length ≠ (if shNopay h then 0 else (payloadBytes (shFmt h) (shBlocks h) + 63) / 64 * 64) then some 0
  else if (getLoad s x).kind = 0 || shModel h ≠ (getLoad s x).modelId then some 4
  else if fld h 0xC 15 0 > 63 then some 0xC
  else if !(shPos h < ringN s x) then some 0x14
  else if rcdMember (ringOf s x).rcd (shPos h) ≠ shOrigin h then some 0x10
  else if !zeroBits h 0x14 [(15, 7)] then some 0x14
  else if wordAt h 0x34 ≠ 0 || wordAt h 0x38 ≠ 0 || wordAt h 0x3C ≠ 0 then some 0x34
  else none

/-- A binding that exists and differs from the stone's version or generation. -/
def bindBad (s : State) (x : Nat) (h : List Byte) : Option Nat :=
  match bindOf s x (shMb h) with
  | some b => if shVersion h ≠ b.version then some 8 else if shGen h ≠ b.gen then some 0x14 else none
  | none => none

/-- A stone of another origin is checked and held. -/
def acceptStone (d x : Nat) (h payload : List Byte) (s : State) : State :=
  match headerBad s d x h payload with
  | some o => stoneMismatch d x o h s
  | none =>
    withRead d x (pmapAt s d x (shTensor h)) 16 (fun m s =>
      if shBlock0 h + shBlocks h > wordAt m 8 then stoneMismatch d x 0x1C h s
      else
        match bindBad s x h with
        | some o => stoneMismatch d x o h s
        | none =>
          if shKind h ≠ 3 && (sha256 payload).take 8 ≠ shFrag h then stoneCorrupt d x h s
          else setStones d (stonesOf s d ++ [{ ctx := x, header := h, payload }]) s) s

/-- One of this package's own stones comes home (R178). -/
def homeStone (d x : Nat) (h payload : List Byte) (s : State) : State :=
  match (ringOf s x).live.find? fun c => c.no = shCircuit h with
  | none => stoneMismatch d x 0x24 h s
  | some c =>
    match c.out.find? fun o => o.1 = d && sameHeader o.2 h with
    | none => stoneMismatch d x (((List.range 16).find? fun i => !(c.out.any fun o => o.1 = d && (i = 0 || i = 10 || i = 11 || wordAt o.2 (4 * i) = wordAt h (4 * i)))).map (4 * ·) |>.getD 0) h s
    | some o =>
      let s := modCircuit x c.no (fun c => { c with out := c.out.erase o }) s
      let s := if shKind h = 3 then setStones d (stonesOf s d ++ [{ ctx := x, header := h, payload, home := true }]) s else s
      endCircuits x s

/-- The oldest stone message at a die that has its place. -/
def nextStone (s : State) (d : Nat) : Option InMsg :=
  (served s d).find? fun i => i.msg.ty = 0 && (i.admitted || stoneRoom s d (hasPayload i))

def arriveStone (d : Nat) (i : InMsg) (s : State) : State :=
  let h := i.msg.bytes.take 64
  let payload := i.msg.bytes.drop 64
  let s := bump64 (aCar d 0x10) (takeMsg d i s)
  match ringOfJob s (shJob h) [1, 2, 3, 4, 5] with
  | none => raise { die := d, code := 0x0306, p0 := d * 2 ^ 16 + shOrigin h, p1 := 0x20, p2 := shTensor h, p3 := shSeq h } s
  | some x =>
    if (ringOf s x).st = 5 then s
    else if shOrigin h = pkgId s then homeStone d x h payload s
    else acceptStone d x h payload s

def execStone (d : Die) (s : State) : Outcome :=
  onlyIf (fun s => (nextStone s d).isSome) (fun s =>
    match nextStone s d with
    | some i => settleStones d (arriveStone d i s)
    | none => s) s

/-! ## Placement (R175, R176) -/

/-- Every placed block names a tile that exists, and tagged slots. -/
def placementOk (s : State) (x : Stone) (recs : List Byte) (ps : List PlaceSlot) : Bool :=
  (List.range (shBlocks x.header)).all (fun i => let r := (recs.drop (8 * i)).take 8; fld r 0 31 31 = 1 || fld r 0 29 24 < tilesPerDie s) &&
    ps.all fun p => isTagged s p.e p.slot

/-- Reads the block records of a stone and goes on with them. -/
def withRecords (d : Nat) (x : Stone) (f : List Byte → State → State) (s : State) : State :=
  withRead d x.ctx (pmapAt s d x.ctx (shTensor x.header)) 16 (fun m s =>
    withRead d x.ctx (dwordAt m 0 + 8 * shBlock0 x.header) (8 * shBlocks x.header) f s) s

/-- FILLs what can be filled of a placement, in order; answers how many slots. -/
def fillSlots : List PlaceSlot → State → State × Nat
  | [], s => (s, 0)
  | p :: r, s =>
    if carMay s p.e p.slot .fill then
      let (s, n) := fillSlots r (fillNow p.e p.slot (writeScr p.e (p.slot * 256) p.bytes s))
      (s, n + 1)
    else (s, 0)

def placeStone (d b : Nat) (x : Stone) (s : State) : State :=
  match bindBad s x.ctx x.header with
  | some o => stoneMismatch d x.ctx o x.header s
  | none =>
    withRecords d x (fun recs s =>
      let ps := placement d x recs
      if !placementOk s x recs ps then stoneMismatch d x.ctx 0xFF x.header s
      else
        let (s, n) := fillSlots (ps.drop x.done) s
        let x' := { x with done := x.done + n }
        putStone d b { x' with st := if x'.done = ps.length then 1 else 0 } s) s

def execStonePlace (d : Die) (b : Nat) (s : State) : Outcome :=
  onlyIf (fun s => canPlace s d b) (fun s => match stoneAt s d b with | some x => placeStone d b x s | none => s) s

/-! ## Gradients (R180, R181) -/

/-- Element-by-element FP32 addition of equal runs of bytes. -/
def addF32 (a c : List Byte) : List Byte :=
  wordsLE ((List.range (c.length / 4)).map fun i => (add32 (wordAt a (4 * i)) (wordAt c (4 * i))).bits)

/-- Adds a block's contribution into a payload. -/
def addBlock (p : List Byte) (i n : Nat) (c : List Byte) : List Byte :=
  let full := if p.isEmpty then List.replicate (65536 * n) 0 else p
  full.take (65536 * i) ++ addF32 ((full.drop (65536 * i)).take 65536) c ++ full.drop (65536 * (i + 1))

/-- Adds the contributions of blocks from `x.done` on, while they are FULL: CONSUMEs their slots. -/
def addContribs (d : Nat) (recs : List Byte) : Nat → Stone → State → State × Stone
  | 0, x, s => (s, x)
  | fuel + 1, x, s =>
    if x.done ≥ shBlocks x.header then (s, x)
    else
      match contrib d recs x.done with
      | none => addContribs d recs fuel { x with done := x.done + 1 } s
      | some (e, slots) =>
        if gradRoom s d x && slots.all fun sl => carMay s e sl .consume then
          let c := (slots.map fun sl => readScr e (sl * 256) 256 s).flatten
          let s := slots.foldl (fun s sl => consumeNow e sl s) s
          addContribs d recs fuel { x with done := x.done + 1, payload := addBlock x.payload x.done (shBlocks x.header) c } s
        else (s, x)

/-- Every contribution names a tile that exists, and tagged slots. -/
def contribOk (s : State) (d n : Nat) (recs : List Byte) : Bool :=
  (List.range n).all fun i => match contrib d recs i with
    | none => true
    | some (e, slots) => e % 40 < tilesPerDie s && slots.all (isTagged s e)

def addStone (d b : Nat) (x : Stone) (s : State) : State :=
  match bindBad s x.ctx x.header with
  | some o => stoneMismatch d x.ctx o x.header s
  | none =>
    withRecords d x (fun recs s =>
      if !contribOk s d (shBlocks x.header) recs then stoneMismatch d x.ctx 0xFF x.header s
      else
        let (s, y) := addContribs d recs (shBlocks x.header + 1) x s
        if y.done = shBlocks y.header then
          let h := setWords y.header [(0, setBits (wordAt y.header 0) 27 27 (bit y.payload.isEmpty 0))]
          putStone d b { y with st := 1, header := h } s
        else putStone d b y s) s

def execGradAdd (d : Die) (b : Nat) (s : State) : Outcome :=
  onlyIf (fun s => canAdd s d b) (fun s => match stoneAt s d b with | some x => addStone d b x s | none => s) s

/-- Where the gradient sum of a block lies: the context's first GRAD allotment holds the blocks of the shard in the order of
its table `t`, 65,536 bytes each (DESIGN CHOICE, log entry 22). -/
def gradAddr (t : List (List Byte)) (s : State) (d x tensor block : Nat) : Option (Nat × Nat) :=
  match s.hbm.allots.find? fun a => a.2.ctx = x && a.2.cat = 2 with
  | none => none
  | some (_, a) =>
    match a.runs[d]? with
    | none => none
    | some (base, n) =>
      let es := weightsIn t
      let before := (es.takeWhile fun e => wordAt e 0 ≠ tensor).foldl (fun m e => m + teCount e) 0
      match es.find? fun e => wordAt e 0 = tensor with
      | none => none
      | some e =>
        let i := before + (block - teFirst e)
        if i < n then some (d, base + 65536 * i) else none

/-- Writes G of one block into S, or adds it (R181). -/
def writeGrad (t : List (List Byte)) (d x tensor block : Nat) (acc : Bool) (g : List Byte) (st : State × Bool) : State × Bool :=
  match gradAddr t st.1 d x tensor block with
  | none => st
  | some (d', h) =>
    if acc then
      match hbmRead (agCar d) (some x) d' h 65536 st.1 with
      | (s, some old) => (hbmWrite (agCar d) d' h (addF32 old g) s (some x), st.2)
      | (s, none) => (s, false)
    else (hbmWrite (agCar d) d' h g st.1 (some x), st.2)

def applyStone (d b : Nat) (x : Stone) (s : State) : State :=
  withRecords d x (fun recs s =>
    let n := shBlocks x.header
    if !contribOk s d n recs then stoneMismatch d x.ctx 0xFF x.header s
    else
      let (s, y) := addContribs d recs (n + 1) x s
      if y.done < n then putStone d b y s
      else
        let g := if y.payload.isEmpty then List.replicate (65536 * n) 0 else y.payload
        let acc := match (ringOf s x.ctx).live.find? fun c => c.no = shCircuit x.header with | some c => cdAcc c.desc | none => false
        withTable d x.ctx (fun t s =>
          let (s, good) := (List.range n).foldl (fun st i =>
            writeGrad t d x.ctx (shTensor x.header) (shBlock0 x.header + i) acc ((g.drop (65536 * i)).take 65536) st) (s, true)
          if !good then carUe x.ctx s
          else settleStones d (endCircuits x.ctx (setStones d ((stonesOf s d).eraseIdx b) s))) s) s

def execGradientApply (d : Die) (b : Nat) (s : State) : Outcome :=
  onlyIf (fun s => canApply s d b) (fun s => match stoneAt s d b with | some x => applyStone d b x s | none => s) s

/-! ## Forwarding (R177) -/

def canForward (s : State) (d b : Nat) : Bool :=
  match stoneAt s d b with
  | some x => x.st = 1 && !x.home && isFirst s d x && [2, 3, 4].contains (ringOf s x.ctx).st
  | none => false

/-- The lane of a LAST circuit of another origin ends here with the stone that closes the origin's range, or at the latest
where a stone of a later circuit of the origin follows in its direction. The stones carry no count of their circuit, so of a
circuit over a part of the range any stone may be the last: a free value says which (DEDUCED, log entry 114). -/
def noteLast (d : Nat) (x : Stone) (s : State) : State :=
  let h := x.header
  let lane := 8 * shPos h + d
  let key := 8 * (2 * shPos h + shDir h) + d
  let s := match mapGet none (ringOf s x.ctx).lasts key with
    | some (c, mb) => if c = shCircuit h then s else noteEnded x.ctx mb [lane] s
    | none => s
  let s := modRing x.ctx (fun r => { r with lasts := mapSet none r.lasts key (if shLast h then some (shCircuit h, shMb h) else none) }) s
  let man := manOf s x.ctx ((slotFor s x.ctx (shVersion h) (shGen h)).getD 0)
  if !shLast h || shKind h = 2 then s
  else if segEnd man (shPos h) (shTensor h) = some (shBlock0 h + shBlocks h) then noteEnded x.ctx (shMb h) [lane] s
  else
    let (k, s) := freshNo s
    if Config.endsCircuit k then noteEnded x.ctx (shMb h) [lane] s else s

/-- A used stone goes on. Its buffer stays in use until the message is DELIVERED (R179, R254). -/
def forwardStone (d b : Nat) (x : Stone) (s : State) : State :=
  let h := x.header
  let toOrigin := ringNextPkg s x.ctx (shDir h) = shOrigin h
  let (h', p) := if shKind h ≠ 3 && toOrigin then (nopayHeader h, []) else (h, x.payload)
  let s := noteLast d x s
  let s := putStone d b { x with st := 2, header := h' } s
  settleStones d (drainCheck x.ctx (runGates x.ctx (sendStone d x.ctx h' p s)))

def execStoneForward (d : Die) (b : Nat) (s : State) : Outcome :=
  onlyIf (fun s => canForward s d b) (fun s => match stoneAt s d b with | some x => forwardStone d b x s | none => s) s

/-! ## Stalls and the doorbell (R168, R179) -/

/-- A stone's message waits at a port of its die for a credit of its pool: the quarters of it that have gone. -/
def lacksCredit (s : State) (d : Nat) (h : List Byte) : Option Nat :=
  (s.fab.ports.filter fun e => e.1 / 6 = d).findSome? fun e =>
    (e.2.queue.find? fun q => q.msg.ty = 0 && q.msg.bytes.take 64 = h && creditCap s e.1 q.pool ≤ mapGet 0 e.2.used q.pool).map (·.sent)

/-- The slot that keeps a stone from its next FILL or its next contribution. -/
def stoneBlocked (s : State) (d b : Nat) (x : Stone) : Option Nat :=
  let recs := blockRecords s d x
  if canPlace s d b then
    match (placement d x recs).drop x.done with
    | p :: _ => if claimable s p.e p.slot .fill then none else some (p.e * 2 ^ 14 + p.slot)
    | [] => none
  else if canAdd s d b || canApply s d b then
    match (List.range (shBlocks x.header - x.done)).findSome? fun i => contrib d recs (x.done + i) with
    | some (e, slots) => (slots.find? fun sl => !claimable s e sl .consume).map (e * 2 ^ 14 + ·)
    | none => none
  else none

/-- What a stone waits for, where that is a case of R179: 1 a blocked FILL or a contribution that is not FULL, 2 a missing
binding, 3 a credit. -/
def stoneWait (s : State) (d b : Nat) (x : Stone) : Option (Nat × Nat) :=
  if x.st = 2 then (lacksCredit s d x.header).map fun n => (3, n)
  else if x.st = 0 && !x.home && isFirst s d x && (bindOf s x.ctx (shMb x.header)).isNone then some (2, 0)
  else (stoneBlocked s d b x).map fun k => (1, k)

/-- Follows the waits of a die's stones (R179): a new wait begins its count anew, and is told once. -/
def markStones (d : Nat) (s : State) : State :=
  setStones d ((stonesOf s d).mapIdx fun b x =>
    let w := stoneWait s d b x
    if w = x.wait then x else { x with wait := w, since := s.now, stallSaid := false }) s

/-- The wait of a stone that its notice has told goes on. -/
def stoneStalled (s : State) (d b : Nat) (x : Stone) : Bool := x.stallSaid && x.wait.isSome && stoneWait s d b x = x.wait

def stallDue (s : State) (d b : Nat) : Bool :=
  match stoneAt s d b with
  | some x => !x.stallSaid && x.wait.isSome && stoneWait s d b x = x.wait && x.since + reg s (aCar d 8) ≤ s.now
  | none => false

def execCarStall (d : Die) (b : Nat) (s : State) : Outcome :=
  onlyIf (fun s => stallDue s d b) (fun s =>
    match stoneAt s d b with
    | none => s
    | some x => raise { die := d, code := 0x0302, ctx := some x.ctx, p0 := d * 2 ^ 16 + (x.wait.map (·.1)).getD 0, p1 := shOrigin x.header,
                        p2 := shTensor x.header, p3 := shSeq x.header } (putStone d b { x with stallSaid := true } s)) s

end Sys2Proof.Machine
end

