-- ==== Sys2Proof/Machine/Hbm.lean ====
section
/-! DEFINITION. The HBM controllers: acceptance of write units in the traffic frame (R224–R229), demand reads and the
work that an uncorrectable one ends (R233, R237, R238), maintenance windows with their correction rewrites and scrub
(R234–R236), and the change of refresh rate. -/

namespace Sys2Proof.Machine

/-! ## The traffic frame (R224–R228) -/

/-- The controller cycles whose edges fall within this tick: cycle n begins at 0.8 n ns. -/
def edges (s : State) : List Nat :=
  let a := (5 * s.clk.t + 3) / 4
  (List.range ((5 * s.clk.t + 8) / 4 - a)).map (· + a)

/-- Class of the slot of a controller cycle, counted from the maintenance epoch: 0 READ, 1 WRITE, 2 REMOTE. -/
def slotClass (s : State) (n : Nat) : Nat :=
  let j := (n - s.hbm.epoch) % 128
  regF s (aHbm 0 0 (0x100000 + 4 * (j / 16))) (2 * (j % 16) + 1) (2 * (j % 16))

/-- Slots of a class in the frame (R226). -/
def slotsOfClass (s : State) (c : Nat) : Nat :=
  ((List.range 128).filter fun j => regF s (aHbm 0 0 (0x100000 + 4 * (j / 16))) (2 * (j % 16) + 1) (2 * (j % 16)) = c).length

def frameValid (s : State) : Bool := [0, 1, 2].all fun c => 8 ≤ slotsOfClass s c

/-- A unit that waits for its slot: of a read, or of a write. -/
structure Waiting where
  agent : Agent
  id : Nat
  die : Nat
  unit : Nat
  read : Bool
deriving DecidableEq, Repr

/-- Class of a unit: REMOTE for what arrives over the fabric, else READ or WRITE (R224). -/
def unitClass (w : Waiting) : Nat := if w.agent = .remote then 2 else bit (!w.read) 0

/-- The fixed cyclic order of agents (R228): its members' places are the model's own (DESIGN CHOICE, log entry 30). -/
def agentNo : Agent → Nat
  | .stream d t q => 1 + (d.val * 40 + t.val) * 6 + q.val
  | .rowEngine d j => 2000 + d.val * 8 + j.val
  | .sequencer d t => 2100 + d.val * 40 + t.val
  | .carousel d => 2500 + d.val
  | .core c => 2600 + c.val
  | .host => 2700
  | .remote => 2701
  | .icu d => 2710 + d.val
  | .replay d => 2720 + d.val
  | .loader d => 2730 + d.val
  | .fabOp x => 2740 + x.val
  | .command x => 2750 + x.val
  | .boot => 2760

/-- Cycles between windows of a pseudo-channel: 4,096, or 2,048 on a hot stack (R235, R236). -/
def windowInterval (s : State) (d c : Nat) : Nat := if regF s (aHbm d c 0) 1 1 = 1 then 2048 else 4096

/-- Cycle n falls into a window of pseudo-channel pc; the windows are staggered, 64 cycles apart. -/
def inWindow (s : State) (d c pc n : Nat) : Bool :=
  let i := windowInterval s d c
  let o := n - s.hbm.epoch
  64 * pc % i ≤ o && (o - 64 * pc % i) % i < 128

def waitsAt (d c : Nat) (w : Waiting) : Bool := w.die = d && ctrlOf (64 * w.unit) = c

/-- Units that wait at a controller to be read, and to be written, each in the order of arrival. -/
def readsAt (s : State) (d c : Nat) : List Waiting :=
  (s.hbm.rq.map fun r => { agent := r.agent, id := r.rid, die := r.die, unit := r.unit, read := true }).filter (waitsAt d c)
def writesAt (s : State) (d c : Nat) : List Waiting :=
  (s.hbm.wq.map fun w => { agent := w.agent, id := w.wid, die := w.die, unit := w.unit, read := false }).filter (waitsAt d c)

/-- The merge read of a partial unit has not been made (R225). -/
def mergeWaits (s : State) (w : Waiting) : Bool :=
  !w.read && s.hbm.rq.any fun r => r.rid = w.id && r.die = w.die && r.unit = w.unit

/-- Units that wait at a controller for a slot of their class. -/
def unitsAt (s : State) (d c : Nat) : List Waiting := readsAt s d c ++ (writesAt s d c).filter fun w => !mergeWaits s w

/-- The oldest unit of an agent in a list. -/
def oldestOf (l : List Waiting) (a : Agent) : Option Waiting := l.find? fun v => v.agent = a

/-- The unit is its agent's next of the class: an agent's units to a controller are served in the order they arrived
(R228). -/
def isHead (r w : List Waiting) (x : Waiting) : Bool :=
  let later (y : Option Waiting) : Bool := match y with | some v => x.id ≤ v.id | none => true
  (oldestOf (if x.read then r else w) x.agent) == some x && later (oldestOf (if x.read then w else r) x.agent)

/-- The next unit of each agent in a class, apart from those whose pseudo-channel is in its window (R228, R235) and from
those whose merge read is to come. -/
def readyUnits (s : State) (d c cls n : Nat) : List Waiting :=
  let r := (readsAt s d c).filter (unitClass · = cls)
  let w := (writesAt s d c).filter (unitClass · = cls)
  (r ++ w).filter fun x => isHead r w x && !mergeWaits s x && !inWindow s d c (pchanOf (64 * x.unit)) n

/-- The class that a slot carries: its own where a unit of it is pending, else the next that has one where lending is
permitted (R227). -/
def carriedClass (s : State) (d c n : Nat) : Option Nat :=
  let own := slotClass s n
  let has (k : Nat) : Bool := (unitsAt s d c).any (unitClass · = k)
  if has own then some own
  else if level s = 0 && regF s (aHbm 0 0 0x100020) 0 0 = 1 then [(own + 1) % 3, (own + 2) % 3].find? has
  else none

def slotKey (d c : Nat) : Nat := 2 * d + c

/-- The slots of this tick that can still carry a unit: cycle, class, units already carried. -/
def openSlots (s : State) (d c : Nat) : List (Nat × Nat × Nat) :=
  let (last, cls, taken) := mapGet (0, 0, 0) s.hbm.slot (slotKey d c)
  ((edges s).filter fun n => last ≤ n + 1 && !(last = n + 1 && 32 ≤ taken)).filterMap fun n =>
    if last = n + 1 then some (n, cls, taken) else (carriedClass s d c n).map fun k => (n, k, 0)

/-- The unit that a class takes next: the rotation goes on after the agent last served. -/
def nextUnit (s : State) (d c cls n : Nat) : Option Waiting :=
  let last := mapGet 0 s.hbm.rot (3 * slotKey d c + cls)
  let rank (w : Waiting) : Nat := (agentNo w.agent + 4096 - (last + 1)) % 4096
  (readyUnits s d c cls n).foldl (fun m w => match m with
    | some v => if rank w < rank v then some w else some v
    | none => some w) none

/-- The first slot of this tick that carries a further unit, and that unit. -/
def nextAccept (s : State) (d c : Nat) : Option (Nat × Nat × Nat × Waiting) :=
  (openSlots s d c).findSome? fun (n, cls, taken) => (nextUnit s d c cls n).map fun w => (n, cls, taken, w)

/-! ## Uncorrectable reads end the agent's work (R237, step 1) -/

/-- n bytes from a global address touch the unit. -/
def gaTouches (s : State) (ga n d u : Nat) : Bool :=
  match placeOf s ga with
  | .hbm d' h => n ≠ 0 && d' = d && h / 64 ≤ u && u ≤ (h + n - 1) / 64
  | _ => false

/-- The task context whose descriptor, as it is fetched, the unit holds (R115). -/
def fetchingAt (s : State) (e d u : Nat) : Option Nat :=
  (List.range 4).find? fun n =>
    let x := getTctx s e n
    x.st = 1 && !x.atEnd && gaTouches s (x.list + 64 * x.index) 64 d u

/-- The first descriptor of a stream at work that reads the unit. -/
def readerAt (s : State) (e q d u : Nat) : Option SDesc :=
  (getStream s e q).q.find? fun x => x.begun && !x.ended && x.fail = 0 && q < 4 && (memPlaces s x).any fun m => gaTouches s m.1 m.2.1 d u

/-- The ring whose queue descriptor the unit holds (R168). -/
def ringAt (s : State) (d u : Nat) : Option Nat :=
  (List.range 8).find? fun x => (ringOf s x).st ≠ 0 && gaTouches s (carAddr s x) 32 d u

/-- The context on whose behalf an agent reads a unit (R242). A carousel and a loader read what is allotted to the context for
which they work, but for a ring's queue; a start queue entry is read for no context, since the entry names it (DEDUCED, log
entry 110). -/
def agentCtx (s : State) (a : Agent) (d u : Nat) : Option Nat :=
  match a with
  | .stream di t q => (readerAt s (engine di t) q d u).map fun x => sdCtx s (engine di t) x.bytes
  | .rowEngine di j => some (rowCtx s (di * 8 + j))
  | .sequencer di t => (fetchingAt s (engine di t) d u).map fun n => (getTctx s (engine di t) n).ctx
  | .fabOp x => some x.val
  | .command x => some x.val
  | .carousel _ => ((allotAt s d (64 * u)).map (·.ctx)).or (ringAt s d u)
  | .loader _ => (allotAt s d (64 * u)).map (·.ctx)
  | .replay _ => if recMode s = 0 then none else some (recCtx s)
  | _ => none

/-- The unit holds the entry at the head of a tile's start queue (R99). -/
def startUnit (s : State) (e d u : Nat) : Bool :=
  sqHead s e ≠ sqTail s e && match gaHbm s (sqAddr s e) with | some (d', h) => d' = d && h / 64 = u | none => false

/-- The COPY_OUT commands of a context that read the unit (R361). -/
def readingCmds (s : State) (x d u : Nat) : List Nat :=
  (s.host.cmds.filter fun c => c.2.begun && cmdOp c.2 = 0x18 && cmdCtx c.2 = x && gaTouches s (cmdA64 c.2 0) (cmdA c.2 4) d u).map (·.1)

/-- The work of a carousel or a loader on a unit's context ends: the ring breaks (R189), or the load fails (R339). -/
def failCtx (a : Agent) (x : Option Nat) (du : Nat) (s : State) : State :=
  match a, x with
  | .carousel _, some x => abortJob x 5 s
  | .loader _, some x => loaderUe x du s
  | _, _ => s

/-- The unit lies in a row engine's spill area (R215). -/
def spillTouches (s : State) (r d u : Nat) : Bool :=
  match spillArea s r with
  | some (h, n) => d = r / 8 && h ≤ 64 * u && 64 * u < h + 64 * n
  | none => false

/-- Ends the work of the agent whose read of a unit failed, under its own chapter: of a sequencer, the start queue entry
that the unit holds, or the descriptor that is fetched (R115); of a stream, a row engine or a command, what reads the unit. A
core takes a synchronous abort (R380). The host and a remote reader see the failure in the answer to their own access. -/
def failAgent (a : Agent) (du u : Nat) (s : State) : State :=
  match a with
  | .stream d t q =>
    let e := engine d t
    match readerAt s e q du u with
    | some x => modStream e q (fun st => { st with q := st.q.map fun y => if y = x then { y with fail := 3 } else y }) s
    | none => s
  | .rowEngine d j =>
    let r := d.val * 8 + j.val
    let y := getRow s r
    match y.run with
    | some x => if x.cause = 0 && spillTouches s r du u then finishRow r (setRow r { y with run := some { x with cause := 5 } } s) else s
    | none => s
  | .sequencer d t =>
    let e := engine d t
    if startUnit s e du u then modTile e (fun t => { t with sqUe := true }) s
    else
      match fetchingAt s e du u with
      | some n =>
        let (b, s) := unreadDesc s
        refuseTask e n 8 b s
      | none => s
  | .fabOp x => failOp x.val 9 3 s
  | .core c => coreAbort c.val s
  | .loader _ | .carousel _ => failCtx a (agentCtx s a du u) du s
  | .command x => (readingCmds s x.val du u).foldl (fun s c => completeCmd c 0xA 0 s) s
  | .replay d => if s.clk.replaying then replayEnd d s else s
  | _ => s

/-- Ends the work that a write belongs to whose merge read failed (R238): a stream's descriptor, a fabric operation, a command,
a ring or a load. A record's own work has ended before. -/
def failWrite (w : WUnit) (s : State) : State :=
  match w.agent with
  | .stream d t q =>
    modStream (engine d t) q (fun st => { st with
      q := st.q.map fun y => if y.begun && !y.ended && y.fail = 0 && w.work = y.seq + 1 then { y with fail := 3 } else y }) s
  | .fabOp x => (match getOp s x with | some o => if o.wids.contains w.wid then failOp x 9 3 s else s | none => s)
  | .command _ => ((s.host.cmds.filter fun c => c.2.wids.contains w.wid).map (·.1)).foldl (fun s c => completeCmd c 0xA 0 s) s
  | .loader _ | .carousel _ => failCtx w.agent (w.ctx.or ((allotAt s w.die (64 * w.unit)).map (·.ctx))) w.die s
  | _ => s

/-- New symbol errors appear in a unit. -/
def upsetUnit (d u : Nat) (errs : List (Nat × Byte)) (s : State) : State :=
  let e := (errs.filter (·.1 < 71)).foldl (fun m x => addErr m x.1 x.2) (unitErrs s d u)
  { s with hbm := { s.hbm with upsets := mapSet [] s.hbm.upsets (unitKey d u) e } }

/-- Units of a die's HBM. -/
def hbmUnits : Nat := hbmBytesPerDie / 64

/-- A line of the L2 caches (R379). -/
def lineOf (s : State) (d u : Nat) : Option L2Line := mapLookup s.icu.l2 (unitKey d u)
def putLine (d u : Nat) (l : L2Line) (s : State) : State := { s with icu := { s.icu with l2 := mapInsert s.icu.l2 (unitKey d u) l } }
def dropLine (d u : Nat) (s : State) : State := { s with icu := { s.icu with l2 := mapErase s.icu.l2 (unitKey d u) } }

/-- Cleans a line: its bytes go to HBM in the WRITE class (R378, R379). -/
def cleanLine (c d u : Nat) (s : State) : State :=
  match lineOf s d u with
  | some l => if l.dirty then hbmWrite (.core (Fin.ofNat 32 c)) d (64 * u) l.bytes (putLine d u { l with dirty := false } s) else s
  | none => s

/-- Lines of a private L2 cache: 1 MiB (R377). -/
def l2Lines : Nat := 16384

/-- A core's cache takes a line; a full one first cleans and gives up one of its own, which one is free. -/
def fillLine (c d u : Nat) (b : List Byte) (s : State) : State :=
  let mine := s.icu.l2.filter fun l => l.2.core = c
  let s :=
    if l2Lines ≤ mine.length then
      let (n, s) := freshNo s
      match mine[Config.l2Victim n % mine.length]? with
      | some l => dropLine (l.1 / 2 ^ 32) (l.1 % 2 ^ 32) (cleanLine c (l.1 / 2 ^ 32) (l.1 % 2 ^ 32) s)
      | none => s
    else s
  putLine d u { bytes := b, core := c } s

/-- A read of one unit through the decoder (R233): where it is uncorrectable, the agent's work ends first (R237).
A good read of a core fills a line of its cache (R379). -/
def readOne (a : Agent) (d u : Nat) (s : State) : State :=
  let ctx := agentCtx s a d u
  let (t, good) := readUnit a ctx d u (if badFor a s d u then failAgent a d u s else s)
  let t := match a with
    | .core c => if good then fillLine c.val d u (hbmPeek (.core c) d (64 * u) 64 s) t else t
    | _ => t
  (postRead a d [u] t).1

/-- A core's access finds the line in the caches, and does not reach HBM (R379). -/
def cacheHit (s : State) (a : Agent) (d u : Nat) : Bool :=
  match a with | .core _ => (lineOf s d u).isSome | _ => false

/-- The reads whose outcome was left for later are recorded and reported, and take their slots (R225, R237, R389). -/
def reportMerges (s : State) : State :=
  s.hbm.ueWait.foldl (fun s x => (postRead x.agent x.die [x.unit] (readUnit x.agent x.ctx x.die x.unit s).1).1)
    { s with hbm := { s.hbm with ueWait := [] } }

/-! ## The code (R232) -/

/-- The 68 message symbols of a unit: its bytes, then its index. -/
def messageOf (u : Nat) (b : List Byte) : List Nat := b.map (·.toNat) ++ (List.range 4).map fun i => bitsOf u (8 * i + 7) (8 * i)

/-- Coefficients of g(x) = (x − 1)(x − α)(x − α²) below x³: of x², x and 1. -/
def genCoeffs : Nat × Nat × Nat :=
  let a := gfPow 1
  let b := gfPow 2
  (1 ^^^ a ^^^ b, a ^^^ b ^^^ gfMul a b, gfMul a b)

/-- The remainder of x³·M(x) by g(x): c₂, c₁, c₀, with a message symbol more at each step. -/
def checkSymbols (m : List Nat) : Nat × Nat × Nat :=
  let (g2, g1, g0) := genCoeffs
  m.foldl (fun (r : Nat × Nat × Nat) v =>
    let f := v ^^^ r.1
    (r.2.1 ^^^ gfMul f g2, r.2.2 ^^^ gfMul f g1, gfMul f g0)) (0, 0, 0)

/-- The check symbols that a unit's side bits hold: those of its bytes as stored, with the errors they have suffered. -/
def sideBits (s : State) (d u : Nat) : Nat :=
  let b := (List.range 64).map fun i => memGet s.mem (hbmCell d (64 * u + i))
  let (c2, c1, c0) := checkSymbols (messageOf u b)
  let err (i : Nat) : Nat := match (unitErrs s d u).find? (·.1 == i) with | some e => e.2.toNat | none => 0
  (c0 ^^^ err 68) + (c1 ^^^ err 69) * 2 ^ 8 + (c2 ^^^ err 70) * 2 ^ 16

/-! ## Acceptance (R229, R238) -/

/-- Drops a unit from its correction queue (R234). -/
def dropQueued (d u : Nat) (s : State) : State :=
  let c := ctrlOf (64 * u)
  let q := (mapGet [] s.hbm.cq (slotKey d c)).filter (· ≠ u)
  putRegF (aHbm d c 0) 2 2 (bit (16 ≤ q.length) 0) { s with hbm := { s.hbm with cq := mapSet [] s.hbm.cq (slotKey d c) q } }

/-- Stores a unit with new check symbols. -/
def storeUnit (d u : Nat) (b : List Byte) (s : State) : State :=
  dropQueued d u { s with mem := memWrite s.mem (hbmCell d (64 * u)) b,
                          hbm := { s.hbm with upsets := mapSet [] s.hbm.upsets (unitKey d u) [] } }

/-- The 64 bytes of a unit as the decoder delivers them. -/
def unitBytes (s : State) (d u : Nat) : List Byte :=
  (List.range 64).map fun i => memGet s.mem (hbmCell d (64 * u + i)) ^^^ leftErr s d u i

/-- Puts a status into the answer that a failed remote write is to send. -/
def failRack (w status : Nat) (s : State) : State :=
  { s with fab := { s.fab with racks := s.fab.racks.map fun r =>
      if r.wid = w then { r with msg := { r.msg with bytes := r.msg.bytes.set 2 (BitVec.ofNat 8 status) } } else r } }

/-- Answers go whose writes are visible, or whose reads are served (R274). -/
def answerRacks (s : State) : State :=
  let (done, wait) := s.fab.racks.partition fun r => widVisible s r.wid && readServed s r.wid
  done.foldl (fun s r => send r.msg .none s) { s with fab := { s.fab with racks := wait } }

/-- One write unit is accepted. A partial one is merged with the unit as read; where that read is uncorrectable, nothing is
written and the writer's work ends. -/
def acceptUnit (w : WUnit) (s : State) : State :=
  let s := { s with hbm := { s.hbm with wq := s.hbm.wq.erase w } }
  let d := w.die
  let u := w.unit
  if w.bytes.length = 64 then storeUnit d u w.bytes s
  else if unitBad s d u then
    (readStored w.agent w.ctx d u (failRack w.wid 3 (failWrite w s))).1
  else
    let b := unitBytes s d u
    let s := (readStored w.agent w.ctx d u s).1
    storeUnit d u (b.take w.off ++ w.bytes ++ b.drop (w.off + w.bytes.length)) s

/-- A unit is carried by its slot: a read leaves the queue, a write is accepted. -/
def carryUnit (x : Waiting) (s : State) : State :=
  if x.read then
    { s with hbm := { s.hbm with rq := s.hbm.rq.erase { agent := x.agent, rid := x.id, die := x.die, unit := x.unit } } }
  else
    match s.hbm.wq.find? fun w => w.agent = x.agent && w.wid = x.id && w.die = x.die && w.unit = x.unit with
    | some w => acceptUnit w s
    | none => s

/-- The slot's next unit is carried (R224, R227–R229). -/
def acceptNext (d c : Nat) (s : State) : State :=
  match nextAccept s d c with
  | none => s
  | some (n, cls, taken, w) =>
    let lent := taken = 0 && cls ≠ slotClass s n
    let s := { s with hbm := { s.hbm with
      slot := mapSet (0, 0, 0) s.hbm.slot (slotKey d c) (n + 1, cls, taken + 1)
      rot := mapSet 0 s.hbm.rot (3 * slotKey d c + cls) (agentNo w.agent) } }
    let s := if lent then ndc 6 d (bump (aHbm d c 0x30) s) else s
    answerRacks (carryUnit w s)

/-- A controller takes its slot's next unit: a write unit is accepted, a read unit or a merge read is transferred. -/
def execWriteAccept (d : Die) (c : Ctrl) (s : State) : Outcome :=
  onlyIf (fun s => s.pwr.state = 0 && (nextAccept s d c).isSome) (fun s => settleCopies (drainHost (acceptNext d c s))) s

/-- The agent's read of the unit waits for a slot. -/
def readWaits (s : State) (a : Agent) (d u : Nat) : Bool := s.hbm.rq.any fun r => r.agent = a && r.die = d && r.unit = u

/-- The slot's next unit is the agent's read of this one. -/
def readNext (s : State) (a : Agent) (d u : Nat) : Bool :=
  match nextAccept s d (ctrlOf (64 * u)) with
  | some (_, _, _, w) => w.read && w.agent = a && w.die = d && w.unit = u
  | none => false

/-- A read of a unit, with what the unit has suffered: one that waits is transferred where the slot's turn has come to it;
any other is made, and takes its slot afterwards (log entry 42). The unit is one of the controller's. -/
def execHbmRead (a : Agent) (d : Die) (c : Ctrl) (unit : Nat) (upset : List (Nat × Byte)) (s : State) : Outcome :=
  onlyIf (fun s => s.pwr.state = 0 && unit < hbmUnits && ctrlOf (64 * unit) = c.val) (fun s =>
    let s := upsetUnit d unit upset s
    if readNext s a d unit then settleCopies (drainHost (acceptNext d c s))
    else if readWaits s a d unit || cacheHit s a d unit then s
    else readOne a d unit s) s

/-! ## Maintenance windows (R234–R236) -/

/-- In P3 and P4 the HBM is in self-refresh: scrub, changes of the refresh rate and background checks pause (R407). -/
def awakeHbm (s : State) : Bool := s.pwr.state < 3

/-- Units of a pseudo-channel, and the scrub windows of a sweep. -/
def pcUnits : Nat := 23437500
def scrubWindows : Nat := 5859375

/-- Unit k of a pseudo-channel in ascending offset, as a unit of H (R223). -/
def pcUnit (c pc k : Nat) : Nat :=
  let b := k / 4
  let h8 := (c + b) % 2
  let hi := pc ^^^ (bitsOf b 6 1)
  (b * 32768 + hi * 512 + h8 * 256 + k % 4 * 64) / 64

def pcKey (d c pc : Nat) : Nat := slotKey d c * 64 + pc

/-- A window of the pseudo-channel opens at one of this tick's edges, and has not run: its cycle from the epoch. -/
def windowDue (s : State) (d c pc : Nat) : Option Nat :=
  let i := windowInterval s d c
  ((edges s).filter fun n => s.hbm.epoch ≤ n).map (· - s.hbm.epoch) |>.find? fun o =>
    o % i = 64 * pc % i && mapGet 0 s.hbm.windows (pcKey d c pc) ≤ o

/-- Window i of the normal rate is marked for scrub: W windows spread evenly over the windows of PERIOD hours. Which
of them is the model's own (DESIGN CHOICE, log entry 31). -/
def scrubMarked (s : State) (i : Nat) : Bool :=
  let t2 := 2197265625 * regF s (aHbm 0 0 0x100024) 7 0
  t2 ≠ 0 && i * (2 * scrubWindows) % t2 < 2 * scrubWindows

/-- Rewrites a unit with what the decoder makes of it, if that is correctable. -/
def rewriteUnit (d u : Nat) (s : State) : State :=
  match decodeErrs (unitErrs s d u) with
  | .delivered _ _ => storeUnit d u (unitBytes s d u) s
  | .bad => s

/-- The queued rewrites of a pseudo-channel. -/
def rewriteQueued (d c pc : Nat) (s : State) : State :=
  ((mapGet [] s.hbm.cq (slotKey d c)).filter fun u => pchanOf (64 * u) = pc).foldl
    (fun s u => dropQueued d u (rewriteUnit d u s)) s

/-- Scrub reads, checks and rewrites one unit. -/
def scrubUnit (d c u : Nat) (s : State) : State :=
  match decodeErrs (unitErrs s d u) with
  | .bad => raise { die := d, code := 0x0402, p0 := d, p1 := 2 * d + c, p2 := 64 * u, p3 := 64 * u / 2 ^ 32 }
      (bumpF (aHbm d c 0x28) 15 0 s)
  | .delivered _ true => rewriteUnit d u (markCe d u false s)
  | .delivered _ false => s

/-- Sweeps that every pseudo-channel of a controller has finished. -/
def sweepsDone (s : State) (d c : Nat) : Nat :=
  (List.range 64).foldl (fun m pc => min m (mapGet 0 s.hbm.scrub (pcKey d c pc) / pcUnits)) (mapGet 0 s.hbm.scrub (pcKey d c 0) / pcUnits)

/-- The four units of a scrub window, and the end of a sweep. -/
def scrubWindow (d c pc : Nat) (s : State) : State :=
  let k := mapGet 0 s.hbm.scrub (pcKey d c pc)
  let before := sweepsDone s d c
  let s := (List.range 4).foldl (fun s i => scrubUnit d c (pcUnit c pc ((k + i) % pcUnits)) s) s
  let s := { s with hbm := { s.hbm with scrub := mapSet 0 s.hbm.scrub (pcKey d c pc) (k + 4) } }
  if before < sweepsDone s d c then
    bumpF (aHbm d c 0x28) 31 16 { s with hbm := { s.hbm with sweepCe := mapSet 0 s.hbm.sweepCe (slotKey d c) 0 } }
  else s

/-! ## The reads of background checks (R346) -/

def checkOf (s : State) (d : Nat) : Option CheckS := mapGet none s.checks d

/-- The slots of a pass that still hold what they held when it began. -/
def coverLeft (s : State) (c : CheckS) : List (Nat × Nat × Nat × Nat) :=
  c.cover.filter fun c => slotValid s c.1 c.2.1 && slotVal s c.1 c.2.1 = c.2.2.1

/-- The payloads of a die's stones of a slot, in stone order: where they lie, and their bytes; `t` is the shard table. -/
def payloadsOf (s : State) (d x k : Nat) (t : List (List Byte)) : List (Nat × Nat) :=
  (framesOf (inManifest (manOf s x k) t) k).filterMap fun ga => (gaHbm s ga).map fun (d', h) =>
    let hd := hbmPeek (.loader (Fin.ofNat 8 d)) d' h 64 s
    (h + 256, payloadBytes (shFmt hd) (shBlocks hd))

/-- The shard table of a context on a die as it stands. -/
def peekTable (s : State) (d x : Nat) : List (List Byte) :=
  let n := tabLen s d x
  match gaHbm s (reg64 s (aLoad d x 8) / 32 * 32) with
  | some (d', h) => tabEntries n (hbmPeek (.loader (Fin.ofNat 8 d)) d' (h) (32 * n) s)
  | none => List.replicate n (List.replicate 32 0)

/-- The units that a pass reads on its die, each with its context. -/
def passUnits (s : State) (d : Nat) (c : CheckS) : List (Nat × Nat) :=
  ((coverLeft s c).map fun y => ((payloadsOf s d y.1 y.2.1 (peekTable s d y.1)).map fun p => (unitsOf p.1 p.2).map fun u => (y.1, u)).flatten).flatten

/-- Every unit of the pass has been read. -/
def passRead (s : State) (d : Nat) (c : CheckS) : Bool := (passUnits s d c).all fun u => c.read.contains u.2

/-- A window reads up to 8 units of its pseudo-channel for the pass of its die; they take no slot of the frame. -/
def checkWindow8 (d c pc : Nat) (s : State) : State :=
  match checkOf s d with
  | none => s
  | some k =>
    let due := ((passUnits s d k).filter fun u => ctrlOf (64 * u.2) = c && pchanOf (64 * u.2) = pc && !k.read.contains u.2).take 8
    due.foldl (fun s u =>
      let (s, good) := readStored (.loader (Fin.ofNat 8 d)) (some u.1) d u.2 s
      { s with checks := mapSet none s.checks d ((checkOf s d).map fun k =>
          { k with read := u.2 :: k.read, bad := if good then k.bad else u.1 :: k.bad }) }) s

def runWindow (d c pc o : Nat) (s : State) : State :=
  let s := { s with hbm := { s.hbm with windows := mapSet 0 s.hbm.windows (pcKey d c pc) (o + 1) } }
  let s := checkWindow8 d c pc (rewriteQueued d c pc s)
  if o % 4096 = 64 * pc && scrubMarked s (o / 4096) then scrubWindow d c pc s else s

def execMaintenanceWindow (d : Die) (c : Ctrl) (pc : Fin 64) (s : State) : Outcome :=
  onlyIf (fun s => awakeHbm s && (windowDue s d c pc).isSome) (fun s =>
    match windowDue s d c pc with
    | some o => runWindow d c pc o s
    | none => s) s

/-- The epoch begins anew at this tick's first edge (R235). -/
def restartEpoch (s : State) : State := { s with hbm := { s.hbm with epoch := (5 * s.clk.t + 3) / 4, windows := [] } }

/-- A stack crosses its hot threshold: the controller changes its refresh rate, a thermal event of its die. -/
def execStackHot (d : Die) (c : Ctrl) (hot : Bool) (s : State) : Outcome :=
  onlyIf (fun s => awakeHbm s && regF s (aHbm d c 0) 1 1 ≠ bit hot 0) (fun s => ndc 7 d (putRegF (aHbm d c 0) 1 1 (bit hot 0) s)) s

end Sys2Proof.Machine
end

