-- ==== Sys2Proof/Machine/Fabric.lean ====
section
/-! DEFINITION. The rows of the Nalxia fabric's links, messages, routes and windows (R244–R274), and the job abort
(R287). -/

namespace Sys2Proof.Machine

/-- The port, or half, of a row: its number. -/
def portNo (d k h : Nat) : Nat := 6 * d + 2 * k + h

/-! ## Link states (R250–R252) -/

/-- Puts a link into a state, and shows it. -/
def setLink (p st cause : Nat) (s : State) : State :=
  syncPort (p / 6) (p / 2 % 3) (modPort p (fun x => { x with st, cause }) s)

/-- A link that starts to carry frames: numbers, buffers and credits begin anew. -/
def freshLink (x : PortS) : PortS :=
  { x with fseq := 0, replay := [], rxSeq := none, naking := false, naks := 0, nakSeq := 0, parts := [], used := [], owe := [],
           queue := [], round := 0 }

def aPortCtrl (d k : Nat) : Nat := aPort d k 4

/-- The row of a write of ENABLE. -/
def execPortEnable (m : Master) (d : Die) (k : PortK) (en : Bool) (s : State) : Outcome :=
  onlyIf (fun _ => true) (fun s => arrive m (aPortCtrl d k) (BitVec.ofNat 32 (setBits (reg s (aPortCtrl d k)) 0 0 (bit en 0))) 4 s) s

def execRejoin (m : Master) (d : Die) (k : PortK) (s : State) : Outcome :=
  onlyIf (fun _ => true) (fun s => arrive m (aPortCtrl d k) (BitVec.ofNat 32 (setBits (reg s (aPortCtrl d k)) 3 3 1)) 4 s) s

def execRetrain (m : Master) (d : Die) (k : PortK) (s : State) : Outcome :=
  onlyIf (fun _ => true) (fun s => arrive m (aPortCtrl d k) (BitVec.ofNat 32 (setBits (reg s (aPortCtrl d k)) 2 2 1)) 4 s) s

/-- The halves that a port has: both in torus cabling. -/
def halves (s : State) : List Nat := if isTorus s then [0, 1] else [0]

/-- An OFF port starts its training. -/
def startTraining (p : Nat) (s : State) : State := setLink p 1 0 (modPort p (fun x => { x with attempts := 0 }) s)

/-- A port is turned off: its link carries nothing more. A port that has failed stays so until REJOIN (R265). -/
def turnOff (p : Nat) (s : State) : State := setLink p 0 0 (modPort p freshLink s)

/-- REJOIN marks an UP link usable again; streams of the die choose anew once nothing of theirs is undelivered. -/
def rejoinPort (p : Nat) (s : State) : State :=
  if (getPort s p).st = 3 then
    let s := syncPort (p / 6) (p / 2 % 3) (modPort p (fun x => { x with failed := false }) s)
    { s with fab := { s.fab with tx := s.fab.tx.map fun e => if e.1 / 4 % 8 = p / 6 then (e.1, { e.2 with rechoose := true }) else e } }
  else s

/-- What a write leaves of FAB_PORT_CTRL acts on the links: ENABLE as it now stands, RETRAIN and REJOIN as written.
Training begins only after READY (R261, R422). -/
def effPortCtrl (d k v : Nat) (s : State) : State :=
  let en := regF s (aPortCtrl d k) 0 0 = 1
  let go := bootStage s = 7
  let s := (halves s).foldl (fun s h =>
    let p := portNo d k h
    let st := (getPort s p).st
    let s := if en && st = 0 && go then startTraining p s else if !en && st ≠ 0 then turnOff p s else s
    let s := if bitsOf v 2 2 = 1 && (getPort s p).st = 5 && go then startTraining p s else s
    if bitsOf v 3 3 = 1 then rejoinPort p s else s) s
  drainWait d s

/-- The IDENT message of a port (R249, R251). -/
def identBytes (s : State) (p : Nat) : List Byte :=
  ctlGrain 1 0 0 [reg s (aSec 0 0x40), reg s (aSec 0 0x44),
    regF s (aFab 0 0) 31 31 * 2 ^ 31 + regF s (aFab 0 0) 15 0, p / 6 * 2 ^ 16 + p / 2 % 3 * 2 ^ 8,
    s.boot.grade + regF s (aFab 0 4) 1 1 * 2 ^ 8 + regF s (aFab 0 4) 0 0 * 2 ^ 9]

/-- A training attempt ends: aligned, IDENT follows; the third failure leaves the link FAILED. -/
def endTraining (p : Nat) (aligned : Bool) (s : State) : State :=
  if aligned then postLink p (identBytes s p) (setLink p 2 0 (modPort p freshLink s))
  else
    let n := (getPort s p).attempts + 1
    let s := modPort p (fun x => { x with attempts := n }) s
    if 3 ≤ n then setLink p 5 1 s else s

def execTrain (d : Die) (k : PortK) (h : Half) (aligned : Bool) (s : State) : Outcome :=
  onlyIf (fun s => (getPort s (portNo d k h)).st = 1) (endTraining (portNo d k h) aligned) s

/-- IDENT messages that wait at a die, from one port. -/
def identMsgs (s : State) (p : Nat) : List InMsg :=
  (served s (p / 6)).filter fun i => i.msg.ty = 7 && ctlOp i.msg = 1 && i.port = p

/-- The peer's IDENT is judged (R251). -/
def takeIdent (p : Nat) (m : Msg) (s : State) : State :=
  let d := p / 6
  let k := p / 2 % 3
  let major := bitsOf (headWord m 1) 31 24
  if major ≠ 1 then raise { die := d, code := 0x0501, p0 := 3 * d + k, p1 := major } (setLink p 5 2 s)
  else if bitsOf (ctlArg m 4) 8 8 ≠ regF s (aFab 0 4) 1 1 then setLink p 5 3 s
  else
    let s := modPort p (fun x => { x with minor := min 0 (bitsOf (headWord m 1) 23 16) }) s
    let s := putReg (aPort d k 0xC) (2 ^ 31 + bitsOf (ctlArg m 2) 31 31 * 2 ^ 30 + bitsOf (ctlArg m 3) 18 16 * 2 ^ 18 +
      bitsOf (ctlArg m 3) 9 8 * 2 ^ 16 + bitsOf (ctlArg m 2) 15 0) s
    let s := putReg64 (aPort d k 0x10) (ctlArg m 0 + 2 ^ 32 * ctlArg m 1) s
    drainWait d (setLink p 3 0 s)

def execIdent (d : Die) (k : PortK) (h : Half) (s : State) : Outcome :=
  onlyIf (fun s => let p := portNo d k h
    ((getPort s p).st = 2 || (getPort s p).st = 3) && !(identMsgs s p).isEmpty) (fun s =>
    let p := portNo d k h
    match identMsgs s p with
    | i :: _ => takeIdent p i.msg (takeMsg d i s)
    | [] => s) s

/-- An UP link goes DOWN: after 16 NAKs (`takeFrame`), or where its receiver has lost FEC lock for 1 µs or seen no frame for
2 µs. Both of these are seen on the wire, where idle frames come all the time that the model does not show one by one: the
row LINK_DOWN says so (R252; DESIGN CHOICE, log entry 115). It is counted and reported, what was arriving is discarded, its
paths fail, and it trains. -/
def linkDown (p : Nat) (s : State) : State :=
  let d := p / 6
  let k := p / 2 % 3
  let s := bump (aPort d k 0x28) s
  let s := raise { die := d, code := 0x0502, p0 := 3 * d + k, p1 := p % 2 } s
  let s := setLink p 4 0 (modPort p (fun x => { freshLink x with attempts := 0 }) s)
  let s := failPath p s
  settleStones d (tellAll (setLink p 1 0 s))

def execLinkDown (d : Die) (k : PortK) (h : Half) (s : State) : Outcome :=
  onlyIf (fun s => (getPort s (portNo d k h)).st = 3) (linkDown (portNo d k h)) s

/-! ## Frames (R245, R246, R253) -/

def frameWord (b : List Byte) (o hi lo : Nat) : Nat := bitsOf (wordAt b o) hi lo
def frFseq (b : List Byte) : Nat := frameWord b 0x400 15 0
def frAck (b : List Byte) : Option Nat := if frameWord b 0x404 31 31 = 1 then some (frameWord b 0x400 31 16) else none
def frNak (b : List Byte) : Bool := frameWord b 0x404 30 30 = 1
def frQuarter (b : List Byte) (q : Nat) : Nat := frameWord b 0x404 (5 * q + 4) (5 * q)
def frClass (b : List Byte) (q : Nat) : Nat := frameWord b 0x404 (21 + 2 * q) (20 + 2 * q)
def frIdle (b : List Byte) : Bool := (List.range 4).all fun q => bitsOf (frQuarter b q) 4 4 = 0

/-- The frame with RESEND = 1 and its CRC (R253). -/
def asResend (b : List Byte) : List Byte :=
  let w := setBits (wordAt b 0x404) 29 29 1
  let c := b.take 0x404 ++ natLE 4 w ++ (b.drop 0x408).take 0x24
  c ++ natLE 4 (crc32 c)

/-- Frames up to the acknowledged one leave the replay buffer. -/
def ackFrames (p : Nat) (a : Option Nat) (s : State) : State :=
  match a with
  | none => s
  | some n => modPort p (fun x => if x.replay.any (·.1 = n) then { x with replay := (x.replay.dropWhile (·.1 ≠ n)).drop 1, naks := 0 } else x) s

/-- A NAK: what is not acknowledged goes again, in order. It counts against the first of it; with nothing unacknowledged it
concerns an idle frame, and no frame of the replay buffer has been NAKed (R252). -/
def resendFrames (p : Nat) (s : State) : State :=
  let x := getPort s p
  let s := match x.replay with
    | (n, _) :: _ => modPort p (fun x => { x with nakSeq := n, naks := if x.nakSeq = n then x.naks + 1 else 1 }) s
    | [] => s
  x.replay.foldl (fun s f =>
    ndc 4 (p / 6) (bump (aPort (p / 6) (p / 2 % 3) 0x24) (emit (.frame (p / 6) (p / 2 % 3) (p % 2) (asResend f.2)) s))) s

/-- Credits come back. -/
def takeCredits (p : Nat) (b : List Byte) (s : State) : State :=
  let c (hi lo : Nat) : Nat := frameWord b 0x428 hi lo
  modPort p (fun x => { x with used := [c 23 18, c 17 12, c 11 6, c 5 0, c 29 24].zipIdx.foldl (fun m (n, i) => mapMod 0 m i (· - n)) x.used }) s

/-- The message that a HEAD quarter opens. -/
def headMsg (b : List Byte) (p q : Nat) : InMsg :=
  let r := wordAt b (0x408 + 8 * q)
  let t := wordAt b (0x40C + 8 * q)
  let transit := bitsOf r 9 9 = 1
  let m : Msg := { cls := frClass b q, ty := bitsOf r 7 4, dpkg := bitsOf r 31 16, ddie := bitsOf r 15 13, spkg := bitsOf t 31 16,
                   sdie := bitsOf r 12 10, msn := bitsOf t 15 8, transit, bytes := [] }
  { msg := m, port := p, pool := poolOf m, quarters := 0 }

/-- A message that leaves the package again by a port of the die it came in on (R267). Its quarters' credits return at
the hand-over. -/
def forwardTransit (d : Nat) (i : InMsg) (s : State) : State :=
  let s := freeCredits i s
  let l := routePorts s d i.msg.dpkg
  match l[(i.msg.ddie + i.msg.cls) % l.length]? with
  | some p => pump p (enqueue p { i.msg with transit := true } s)
  | none => s

/-- Counts a delivery, and answers every eighth (R254). -/
def countDelivered (k : Nat) (s : State) : State :=
  let x := getRx s k
  let s := setRx k { x with expect := (x.expect + 1) % 256, count := x.count + 1, since := if x.count = 0 then s.now else x.since } s
  if 8 ≤ x.count + 1 then sendDelivered k none s else s

/-- Some unit takes messages of this kind: a control message that has an effect (R248) and is sent as R249 says, or one of
the other types of R247. -/
def hasTaker (m : Msg) : Bool :=
  if m.ty = 6 then ctlValid m && ctlOp m ≠ 1
  else if m.ty = 7 then ctlOp m = 1 || (ctlValid m && [0x60, 0x61, 0x62].contains (ctlOp m))
  else m.ty < 6

/-- A message whose turn has come is delivered. One that has no effect, and a stone of a ring that is no more, is done with
there, and its credits return. -/
def deliverTurn (d : Nat) (i : InMsg) (s : State) : State :=
  if i.gone || !hasTaker i.msg then freeCredits i s else deliver d i s

/-- Held stones whose turn has come. -/
def releaseHeld (k : Nat) : Nat → State → State
  | 0, s => s
  | n + 1, s =>
    let x := getRx s k
    match x.held.find? fun i => i.msg.msn = x.expect with
    | some i => releaseHeld k n (countDelivered k (deliverTurn (k / 4 % 8) i (setRx k { x with held := x.held.erase i } s)))
    | none => s

/-- A whole message of this package at its die: delivered in MSN order, held, or discarded (R254). -/
def judgeOrder (i : InMsg) (s : State) : State :=
  let m := i.msg
  let k := rxKey m.spkg m.sdie m.ddie m.cls
  let x := getRx s k
  let ahead := (m.msn + 256 - x.expect) % 256
  if ahead = 0 then releaseHeld k 128 (countDelivered k (deliverTurn m.ddie i s))
  else if ahead < 128 then
    if m.ty = 0 && (i.admitted || stoneRoom s m.ddie (hasPayload i)) && !(x.held.any fun j => j.msg.msn = m.msn) then
      let j := { i with admitted := true, quarters := 0 }
      let s := if i.admitted then s else freeCredits i s
      setRx k { (getRx s k) with held := (getRx s k).held ++ [j] } s
    else if x.held.any fun j => j.msg.msn = m.msn then freeCredits i s
    else sendDelivered k (some m.msn) (freeCredits i s)
  else freeCredits i s

/-- A message that has arrived whole at die d is delivered, forwarded or discarded (R246, R260, R262, R267). -/
def routeMsg (d : Nat) (i : InMsg) (s : State) : State :=
  if i.msg.ty = 7 then deliverTurn d i s
  else if regF s (aFab 0 0) 31 31 = 0 then freeCredits i s
  else if i.msg.dpkg ≠ pkgId s then forwardTransit d i s
  else judgeOrder i s

/-- A message has arrived whole at die d; outside P0 it wakes the package and waits (R409). -/
def arriveMsg (d : Nat) (i : InMsg) (s : State) : State :=
  if s.pwr.state = 0 then routeMsg d i s else wakeEvent { s with fab := { s.fab with early := s.fab.early ++ [(d, i)] } }

/-- One quarter of an accepted frame. -/
def takeInQuarter (p : Nat) (b : List Byte) (q : Nat) (s : State) : State :=
  let v := frQuarter b q
  if bitsOf v 4 4 = 0 then s
  else
    let c := frClass b q
    let x := getPort s p
    let part := if bitsOf v 3 3 = 1 then some (headMsg b p q) else mapGet none x.parts c
    match part with
    | none => modPort p (fun x => { x with owe := mapMod 0 x.owe c (· + 1) }) s
    | some i =>
      let data := (b.drop (256 * q)).take (64 * (bitsOf v 1 0 + 1))
      let i := { i with msg := { i.msg with bytes := i.msg.bytes ++ data }, quarters := i.quarters + 1 }
      let stone := i.msg.ty = 0 && i.msg.dpkg = pkgId s
      let s := modPort p (fun x => { x with parts := mapSet none x.parts c none }) s
      let room := i.admitted || stoneRoom s i.msg.ddie (hasPayload i)
      let (i, s) := if stone && room then
          ({ i with admitted := true, quarters := 0 }, modPort p (fun x => { x with owe := mapMod 0 x.owe i.pool (· + i.quarters) }) s)
        else (i, s)
      if bitsOf v 2 2 = 1 then arriveMsg (p / 6) i s
      else modPort p (fun x => { x with parts := mapSet none x.parts c (some i) }) s

/-- A frame without error: acknowledgement and NAK, order, credits, quarters, and what can go now. -/
def goodFrame (p : Nat) (b : List Byte) (s : State) : State :=
  let s := ackFrames p (frAck b) s
  let s := if frNak b then resendFrames p s else s
  if frIdle b then pump p (takeCredits p b s)
  else
    let x := getPort s p
    let want := match x.rxSeq with | some n => (n + 1) % 65536 | none => 0
    if frFseq b = want then
      let s := modPort p (fun x => { x with rxSeq := some want, naking := false }) (takeCredits p b s)
      let s := (List.range 4).foldl (fun s q => takeInQuarter p b q s) s
      pump p (sendIdle p false s)
    else if (want + 65536 - frFseq b) % 65536 < 32768 then sendIdle p false s
    else if x.naking then s
    else sendIdle p true (modPort p (fun x => { x with naking := true }) s)

/-- A frame arrives with the outcome of its FEC: codewords corrected, or none where one was uncorrectable. With the 16th
NAK in a row for one frame the link goes DOWN (R252). -/
def takeFrame (p : Nat) (b : List Byte) (fec : Option Nat) (s : State) : State :=
  let d := p / 6
  let k := p / 2 % 3
  let bad (s : State) : State := sendIdle p true (modPort p (fun x => { x with naking := true }) s)
  match fec with
  | none => bad (bump (aPort d k 0x1C) s)
  | some n =>
    let s := bumpBy (aPort d k 0x18) n s
    if wordAt b 0x42C ≠ crc32 (b.take 0x42C) then bad (bump (aPort d k 0x20) s)
    else
      let s := tellAll (goodFrame p b s)
      if (getPort s p).st = 3 && 16 ≤ (getPort s p).naks then linkDown p s else s

def execFrame (d : Die) (k : PortK) (h : Half) (bytes : List Byte) (fec : Option Nat) (s : State) : Outcome :=
  onlyIf (fun s => bytes.length = 1072 && ((getPort s (portNo d k h)).st = 2 || (getPort s (portNo d k h)).st = 3))
    (takeFrame (portNo d k h) bytes fec) s

/-! ## Delivery (R254, R256) -/

/-- A marked message whose turn has come goes again, on the port that the rules give now. -/
def resendMarked (k : Nat) (s : State) : State :=
  let x := getTx s k
  match x.undel with
  | t :: r =>
    if !t.again then s
    else
      match choosePort s t.msg with
      | none => s
      | some q =>
        let q := if t.msg.ty = 0 then q else match x.port with | some p => if usable s p then p else q | none => q
        ndc 4 t.msg.sdie (enqueue q t.msg (setTx k { x with undel := { t with port := q, sentAt := s.now, again := false } :: r } s))
  | [] => s

/-- A DELIVERED message at the sender's die. -/
def takeDelivered (d : Nat) (m : Msg) (s : State) : State :=
  let a0 := ctlArg m 0
  let k := txKey (bitsOf a0 2 0) m.spkg (bitsOf a0 6 4) (bitsOf a0 9 8)
  let x := getTx s k
  let hi := bitsOf (ctlArg m 1) 7 0
  let gone := bitsOf (ctlArg m 1) 15 8
  let n := match x.undel with | t :: _ => (hi + 257 - t.msg.msn) % 256 | [] => 0
  let left := if n ≤ x.undel.length then x.undel.drop n else x.undel
  let left := if bitsOf a0 16 16 = 1 then left.map fun t => if t.msg.msn = gone then { t with again := true } else t else left
  let s := resendMarked k (setTx k { x with undel := left, backed := bitsOf a0 17 17 = 1 } s)
  let s := drainWait d (pumpDie d s)
  let s := settleStones d s
  (List.range 8).foldl (fun s x => drainCheck x (runGates x s)) s

def execDelivered (d : Die) (s : State) : Outcome :=
  onlyIf (fun s => !(ctlMsgs s d 2).isEmpty) (fun s =>
    match ctlMsgs s d 2 with
    | i :: _ => tellAll ((if ctlValid i.msg then takeDelivered d i.msg else id) (takeMsg d i s))
    | [] => s) s

/-- Streams received at a die that owe a DELIVERED message. -/
def rxDue (s : State) (d : Nat) : List Nat :=
  (s.fab.rx.filter fun e => e.1 / 4 % 8 = d && e.2.count ≠ 0 && e.2.since + 1000 ≤ s.now).map (·.1)

def execDeliveredInterval (d : Die) (s : State) : Outcome :=
  onlyIf (fun s => !(rxDue s d).isEmpty) (fun s => (rxDue s d).foldl (fun s k => sendDelivered k none s) s) s

/-- The port of a message of the die that has been undelivered for too long. -/
def e2eDue (s : State) (d : Nat) : Option Nat :=
  s.fab.tx.findSome? fun e => if e.1 / 4 % 8 = d then
      (e.2.undel.find? fun t => t.sentAt + reg s (aFab 0 0x10) ≤ s.now).map (·.port)
    else none

def execE2eTimeout (d : Die) (s : State) : Outcome :=
  onlyIf (fun s => (e2eDue s d).isSome) (fun s =>
    match e2eDue s d with
    | some p => settleStones d (tellAll (failPath p s))
    | none => s) s

/-! ## Package ID and routes (R260, R264) -/

/-- Every ring of the package is IDLE. -/
def allIdle (s : State) : Bool := s.rings.all fun e => e.2.st = 0

def execFabId (m : Master) (d : Die) (v : Word) (s : State) : Outcome := arriveAt m (aFab d 0) v s

/-- The row of FAB_GRTg and FAB_MRTm. -/
def isRoute (addr : Nat) : Bool := match findReg addr with | some (r, _, _, _) => r.kind == .fabRoute | none => false

def execRouteTableWrite (m : Master) (addr v : Word) (s : State) : Outcome :=
  onlyIf (fun _ => isRoute addr.toNat) (arrive m addr.toNat v 4) s

/-- A write to a route entry, at the end of its window: its reserved bits read zero (R16, R262, R264). -/
def effRoute (addr v : Nat) (s : State) : State :=
  if allIdle s then
    let ports := if isTorus s then bitsOf v 5 0 else bitsOf v 2 0
    putReg addr (bitsOf v 31 29 * 2 ^ 29 + ports) s
  else hwSetF (aFab (addr / 0x4000000) 0xC) 1 1 s

/-- A write to FAB_ID, at the end of its window. -/
def effFabId (v : Nat) (s : State) : State :=
  if allIdle s then putReg (aFab 0 0) (bitsOf v 31 31 * 2 ^ 31 + bitsOf v 15 0) s else s

/-! ## Windows (R269–R272) -/

def winGen (s : State) (d w : Nat) : Nat := regF s (aWin d w 0) 15 0
def winCtx (s : State) (d w : Nat) : Nat := regF s (aWin d w 0) 20 18
def winScr (s : State) (d w : Nat) : Bool := regF s (aWin d w 0) 27 27 = 1

/-- Bytes from a on lie wholly within allotments of a context on die d. -/
def inAllots (s : State) (d x : Nat) : Nat → Nat → Nat → Bool
  | 0, a, top => top ≤ a
  | n + 1, a, top =>
    if top ≤ a then true
    else
      match s.hbm.allots.findSome? fun e => match e.2.runs[d]? with
          | some (b, g) => if e.2.ctx = x && b ≤ a && a < b + 65536 * g then some (b + 65536 * g) else none
          | none => none with
      | some b => inAllots s d x n b top
      | none => false

/-- OPEN is refused (R269). -/
def openBad (s : State) (d w : Nat) : Bool :=
  let base := reg s (aWin d w 1)
  let size := reg s (aWin d w 2)
  winState s d w ≠ 0 || regF s (aWin d w 0) 29 28 = 0 ||
    (if winScr s d w then 12276 < base + size
     else size = 0 || 2097152 < size ||
       !inAllots s d (winCtx s d w) (s.hbm.allots.length + 1) (65536 * base) (65536 * (base + size)))

def effWinOpen (d w : Nat) (s : State) : State :=
  if openBad s d w then hwSetF (aFab d 0xC) 0 1 s
  else putRegF (aWin d w 0) 15 0 (winGen s d w + 1) (putRegF (aWin d w 0) 31 30 1 s)

def execWindowOpen (m : Master) (d : Die) (w : Byte) (s : State) : Outcome :=
  arriveAt m (aFab d 0x24) (BitVec.ofNat 32 (2 ^ 30 + w.toNat)) s

/-- A CLOSE takes effect where its write reaches the die (R271). -/
def execWindowClose (m : Master) (d : Die) (w : Byte) (s : State) : Outcome :=
  arriveAt m (aFab d 0x24) (BitVec.ofNat 32 (2 ^ 31 + w.toNat)) s

/-- Admitted accesses of a window that are not finished: those not yet answered, and those that wait for a tag. -/
def winBusy (s : State) (d w : Nat) : Bool :=
  (s.fab.racks.any fun r => r.die = d && r.win = some w) || (inboxOf s d).any fun i => i.admitted && i.win = some w

def execWindowClosingEnd (d : Die) (w : Byte) (s : State) : Outcome :=
  onlyIf (fun s => winState s d w.toNat = 2 && !winBusy s d w.toNat) (putRegF (aWin d w.toNat 0) 31 30 0) s

/-! ## Remote accesses at their target (R270–R274) -/

def rmGen (m : Msg) : Nat := bitsOf (headWord m 0) 15 0
def rmStatus (m : Msg) : Nat := bitsOf (headWord m 0) 23 16
def rmLen (m : Msg) : Nat := headWord m 1
def rmAddr (m : Msg) : Nat := headWord m 2 + headWord m 3 * 2 ^ 32
def rmTag (m : Msg) : Nat := headWord m 4
def rmJob (m : Msg) : Nat := headWord m 5

/-- What a check answers. -/
inductive Check where
  | accept (win : Option Nat)
  | stale
  | refuse
deriving DecidableEq, Repr

/-- In window mode an address names a window of the target die and an offset in it (R155). -/
def rmWin (m : Msg) : Nat := bitsOf (rmAddr m) 44 37
def rmOff (m : Msg) : Nat := bitsOf (rmAddr m) 36 0

/-- Bytes of a window's unit: a slot of a scratchpad, 64 KiB of HBM. -/
def winUnit (s : State) (d w : Nat) : Nat := if winScr s d w then 256 else 65536

/-- Where the byte at an offset of a window lies. -/
def winPlace (s : State) (d w off : Nat) : Place :=
  let at_ := winUnit s d w * reg s (aWin d w 1) + off
  let t := regF s (aWin d w 0) 26 21
  if winScr s d w then (if t < tilesPerDie s && at_ < scrSize then .scr d t at_ else .refused)
  else if at_ < hbmBytesPerDie then .hbm d at_ else .refused

/-- What an access names (R155, R156): through its window, or in neighbour mode in the fixed local map. -/
def accessPlace (s : State) (d : Nat) (m : Msg) : Place :=
  if isNeighbourMode s then placeRun s (rmAddr m) (rmLen m)
  else if gaPkg (rmAddr m) = pkgId s && gaDie (rmAddr m) = d then winPlace s d (rmWin m) (rmOff m)
  else .refused

/-- The window lets its source in, allows the access, and holds all of it (R270). -/
def winAllows (s : State) (d w : Nat) (write : Bool) (m : Msg) : Bool :=
  rmOff m + rmLen m ≤ winUnit s d w * reg s (aWin d w 2) &&
    m.spkg &&& regF s (aWin d w 3) 15 0 = regF s (aWin d w 3) 31 16 &&
    (if write then regF s (aWin d w 0) 28 28 = 1 else regF s (aWin d w 0) 29 29 = 1)

/-- The window is OPEN, and of the generation that a write carries. -/
def winLive (s : State) (d w : Nat) (write : Bool) (m : Msg) : Bool :=
  winState s d w = 1 && (!write || winGen s d w = rmGen m)

/-- A tagged target must be covered in whole slots (R138). -/
def wholeOk (s : State) (p : Place) (n : Nat) : Bool :=
  match p with
  | .scr _ _ o => !runTagged s p n || (o % 256 = 0 && n % 256 = 0 && n ≠ 0)
  | _ => true

/-- The access in window mode: generation and state first (R270, R272). -/
def checkWindow (s : State) (d : Nat) (write : Bool) (m : Msg) (p : Place) : Check :=
  let w := rmWin m
  if !winLive s d w write m then (if write then .stale else .refuse)
  else if p = .refused || !winAllows s d w write m || (write && !wholeOk s p (rmLen m)) then .refuse
  else .accept (some w)

/-- A write in neighbour mode (R273). -/
def checkNeighbour (s : State) (d : Nat) (m : Msg) (p : Place) : Check :=
  match ringOfJob s (rmJob m) [1, 2, 3, 4, 5] with
  | none => .refuse
  | some x =>
    if m.spkg ≠ ringNextPkg s x 0 && m.spkg ≠ ringNextPkg s x 1 then .refuse
    else
      match p with
      | .hbm d' h =>
        let base := 65536 * reg s (aFab d (0x40 + 8 * x))
        let size := 65536 * reg s (aFab d (0x44 + 8 * x))
        if d' = d && base ≤ h && h + rmLen m ≤ base + size then .accept none else .refuse
      | .scr d' t o =>
        if d' = d && o % 256 = 0 && rmLen m % 256 = 0 && (slotsOf o (rmLen m)).all (isTagged s (engine d t)) then .accept none else .refuse
      | _ => .refuse

/-- The check of an access at the edge at which its head leaves the receive buffer (R271). -/
def checkAccess (s : State) (d : Nat) (write : Bool) (m : Msg) (p : Place) : Check :=
  if rmLen m = 0 || 4096 < rmLen m || (write && m.bytes.length ≠ 64 + (rmLen m + 63) / 64 * 64) then .refuse
  else if isNeighbourMode s then (if write && wholeOk s p (rmLen m) then checkNeighbour s d m p else .refuse)
  else checkWindow s d write m p

/-- The answer to an access: RACK or RDATA, with the data of a read. -/
def answerMsg (d : Nat) (m : Msg) (op status : Nat) (data : List Byte) : Msg :=
  { cls := if op = 4 then m.cls else 2, ty := op, dpkg := m.spkg, ddie := m.sdie, sdie := d,
    bytes := remoteHead op status 0 (if op = 4 then rmLen m else data.length) (rmAddr m) (rmTag m) 0 ++ padGrain data }

/-- The slots of an access in a tagged region that its access kind cannot claim now. -/
def tagBlocked (s : State) (p : Place) (n : Nat) (k : ClaimKind) : Bool :=
  match p with
  | .scr d t o => (slotsOf o n).any fun sl => isTagged s (engine d t) sl && !mayArrive s (engine d t) sl k
  | _ => false

/-- The message of a type at a die that can act: one not yet checked, or one admitted whose slots can be claimed. -/
def nextAccess (s : State) (d ty : Nat) : Option InMsg :=
  (served s d).find? fun i => i.msg.ty = ty &&
    (!i.admitted || !tagBlocked s (accessPlace s d i.msg) (rmLen i.msg) (if ty = 1 then .fill else .peek))

/-- An admitted access waits for its slots and keeps its credits. -/
def keepWaiting (d : Nat) (i : InMsg) (w : Option Nat) (s : State) : State :=
  { s with fab := { s.fab with inbox := mapMod [] s.fab.inbox d (·.map fun j => if j = i then { i with admitted := true, win := w } else j) } }

/-- An admitted write happens: HBM is answered when visible, scratchpad bytes at once. -/
def doRWrite (d : Nat) (i : InMsg) (w : Option Nat) (p : Place) (s : State) : State :=
  let m := i.msg
  let data := (m.bytes.drop 64).take (rmLen m)
  let rack := answerMsg d m 4 0 []
  let s := takeMsg d i s
  match p with
  | .hbm d' h =>
    let id := s.hbm.nextWid
    hbmWrite .remote d' h data { s with fab := { s.fab with racks := s.fab.racks ++ [{ die := d, win := w, wid := id, msg := rack }] } }
  | .scr d' t o =>
    let e := engine d' t
    let s := writeScr e o data s
    let s := if runTagged s p (rmLen m) then (slotsOf o (rmLen m)).foldl (fun s sl => fillNow e sl s) s else s
    send rack .none s
  | _ => s

/-- The context that an admitted access belongs to: its window's owner, or the ring's of a neighbour access. -/
def accessCtx (s : State) (d : Nat) (w : Option Nat) (m : Msg) : Option Nat :=
  match w with
  | some w => some (winCtx s d w)
  | none => ringOfJob s (rmJob m) [1, 2, 3, 4, 5]

/-- A remote write is an input of the recorded context: it comes from outside its ring and is for it (R310, R315). -/
def outsideWrite (s : State) (d : Nat) (w : Option Nat) (m : Msg) : Bool :=
  accessCtx s d w m = some (recCtx s) && !(ringMembers s (recCtx s)).contains m.spkg

def runRWrite (d : Nat) (i : InMsg) (s : State) : State :=
  let m := i.msg
  let p := accessPlace s d m
  let reply (st : Nat) (s : State) : State := send (answerMsg d m 4 st []) .none (takeMsg d i s)
  let go (w : Option Nat) (s : State) : State :=
    if tagBlocked s p (rmLen m) .fill then keepWaiting d i w s else doRWrite d i w p s
  if i.admitted then go i.win s
  else
    match checkAccess s d true m p with
    | .refuse => reply 6 s
    | .stale => reply 4 (bump (aFab d 0x1C) s)
    | .accept w =>
      if !outsideWrite s d w m then go w s
      else if s.clk.replaying then dropLive d (takeMsg d i s)
      else go w (capture d 4 (m.bytes.take (64 + rmLen m)) s)

def execRwrite (d : Die) (s : State) : Outcome :=
  onlyIf (fun s => (nextAccess s d 1).isSome) (fun s =>
    match nextAccess s d 1 with
    | some i => runRWrite d i s
    | none => s) s

/-- An admitted read is answered by its data, or by UNCORRECTABLE. A tagged slot is peeked. -/
def doRRead (d : Nat) (i : InMsg) (w : Option Nat) (p : Place) (s : State) : State :=
  let m := i.msg
  let s := takeMsg d i s
  match p with
  | .hbm d' h =>
    let id := s.hbm.nextWid
    let (s, r) := hbmRead .remote none d' h (rmLen m) s
    let msg := match r with | some b => answerMsg d m 3 0 b | none => answerMsg d m 3 3 []
    { s with fab := { s.fab with racks := s.fab.racks ++ [{ die := d, win := w, wid := id, msg }] } }
  | .scr d' t o => send (answerMsg d m 3 0 (readScr (engine d' t) o (rmLen m) s)) .none s
  | _ => s

def runRRead (d : Nat) (i : InMsg) (s : State) : State :=
  let m := i.msg
  let p := accessPlace s d m
  let go (w : Option Nat) : State :=
    if tagBlocked s p (rmLen m) .peek then keepWaiting d i w s else doRRead d i w p s
  if i.admitted then go i.win
  else
    match checkAccess s d false m p with
    | .accept w => go w
    | _ => send (answerMsg d m 3 6 []) .none (takeMsg d i s)

def execRread (d : Die) (s : State) : Outcome :=
  onlyIf (fun s => (nextAccess s d 2).isSome) (fun s =>
    match nextAccess s d 2 with
    | some i => runRRead d i s
    | none => s) s

/-! ## The job abort (R287) -/

/-- The context whose job's abort has not settled, though its ring may be dissolved since (R287). -/
def abortOfJob (s : State) (job : Nat) : Option Nat := (s.fab.aborts.find? fun e => job ≠ 0 && e.2.job = job).map (·.1)

def execJobAbortMessage (d : Die) (s : State) : Outcome :=
  onlyIf (fun s => !(ctlMsgs s d 0x20).isEmpty) (fun s =>
    match ctlMsgs s d 0x20 with
    | [] => s
    | i :: _ =>
      let m := i.msg
      let s := takeMsg d i s
      if !ctlValid m then s
      else
        match (abortOfJob s (ctlJob m)).or (ringOfJob s (ctlJob m) [1, 2, 3, 4, 5]) with
        | none => s
        | some x =>
          if (ringOf s x).st = 5 && (mapLookup s.fab.aborts x).isNone then s
          else startAbort x (ctlArg m 0 + 2 ^ 32 * ctlArg m 1) (bitsOf (ctlArg m 2) 7 0) true s) s

def settleDue (s : State) (x : Nat) : Bool :=
  match mapLookup s.fab.aborts x with
  | some a => a.haltAt + reg s (aFab 0 0x18) ≤ s.now
  | none => false

def execAbortSettle (x : Ctx) (s : State) : Outcome := onlyIf (fun s => settleDue s x) (settleAbort x) s

end Sys2Proof.Machine
end

