-- ==== Sys2Proof/Machine/Collective.lean ====
section
/-! DEFINITION. The fabric operation queues, COPY, the collectives and the multicast (R275–R286), and the answers to
remote accesses of this package's own (R155, R274). -/

namespace Sys2Proof.Machine

/-! ## Descriptors (R275, R276) -/

def foDtype (b : List Byte) : Nat := fld b 0 23 20
def foRed (b : List Byte) : Nat := fld b 0 19 18
def foComplete (b : List Byte) : Bool := fld b 0 17 17 = 1
def foTclass (b : List Byte) : Nat := if fld b 0 16 16 = 1 then 1 else 2
def foRoot (b : List Byte) : Nat := fld b 0 6 0
def foCount (b : List Byte) : Nat := wordAt b 4
def foSrc (b : List Byte) : Nat := dwordAt b 8
def foDst (b : List Byte) : Nat := dwordAt b 0x10
def foGen (b : List Byte) : Nat := fld b 0x18 15 0
def foCq (b : List Byte) : Nat := dwordAt b 0x20
def foUser (b : List Byte) : Nat := wordAt b 0x28
def isColl (b : List Byte) : Bool := 0x51 ≤ foOp b && foOp b ≤ 0x54

def agFab (x : Nat) : Agent := .fabOp (Fin.ofNat 8 x)

/-- Bytes of an element; COPY and MULTICAST count bytes. -/
def foElem (b : List Byte) : Nat :=
  if foOp b = 0x50 || foOp b = 0x54 then 1 else if foDtype b = 1 then 2 else if foDtype b = 3 then 1 else 4

/-- Chunks: N, but one for MULTICAST; their elements (R279). -/
def foChunk (b : List Byte) (n j : Nat) : Nat × Nat :=
  if foOp b = 0x54 then (0, foCount b)
  else
    let c := (foCount b + n - 1) / n
    (j * c, min (foCount b) ((j + 1) * c) - j * c)

/-- Slice d of a run of elements (R29): first and count. -/
def sliceOf (l d : Nat) : Nat × Nat :=
  let s := (l + 7) / 8
  (min l (d * s), min l ((d + 1) * s) - min l (d * s))

/-- Elements that one message carries: the model's own (DESIGN CHOICE, log entry 32). -/
def pieceElems (b : List Byte) : Nat := if foElem b = 1 then 4096 else 1024

/-- Pieces of die d's slice of chunk j: how many; first element within the chunk, and elements, of one. -/
def pieceCount (b : List Byte) (n d j : Nat) : Nat := ((sliceOf (foChunk b n j).2 d).2 + pieceElems b - 1) / pieceElems b
def pieceAt (b : List Byte) (n d j k : Nat) : Nat × Nat :=
  let (a, l) := sliceOf (foChunk b n j).2 d
  (a + k * pieceElems b, min (pieceElems b) (l - k * pieceElems b))

/-! ## Memory of an operation -/

/-- Writes bytes of an operation; `none` while a tagged slot cannot be filled. -/
def opPut (x ga : Nat) (b : List Byte) (s : State) : Option State :=
  match placeRun s ga b.length with
  | .hbm d h =>
    let w := s.hbm.nextWid
    some (modOp x (fun o => { o with wids := o.wids ++ [w] }) (hbmWrite (agFab x) d h b s (some x)))
  | .scr d t _ =>
    let e := engine d t
    let parts := (cutSlots ga b).partition fun p => isTagged s e (bitsOf p.1 36 0 / 256)
    let old := match getOp s x with | some o => o.data | none => []
    let buf := parts.1.foldl (fun m (a, l) => bufPut m a l) old
    let fills := wholeTargets s buf parts.1
    if !fills.all (fun (_, e', sl) => mayArrive s e' sl .fill) then none
    else
      let s := parts.2.foldl (fun s (a, l) => writeScr e (bitsOf a 36 0) l s) s
      let s := fills.foldl (fun s (k, e', sl) =>
        fillNow e' sl (writeScr e' (sl * 256) (bufBytes buf k 256) s)) s
      let buf := fills.foldl (fun m (k, _, _) => bufDrop m k 256) buf
      some (modOp x (fun o => { o with data := buf }) s)
  | _ => some s

/-- Reads bytes of an operation; `none` where a unit is uncorrectable, which ends the operation (R237). -/
def opGet (x ga n : Nat) (s : State) : State × Option (List Byte) :=
  match placeRun s ga n with
  | .hbm d h =>
    if (unitsOf h n).any (badFor (agFab x) s d) then ((hbmRead (agFab x) (some x) d h n (failOp x 9 3 s)).1, none)
    else hbmRead (agFab x) (some x) d h n s
  | .scr d t o => (s, some (readScr (engine d t) o n s))
  | _ => (s, some (List.replicate n 0))

/-- A source in tagged slots that cannot be peeked now. -/
def srcBlocked (s : State) (ga n : Nat) : Bool := tagBlocked s (placeRun s ga n) n .peek

/-! ## COLL messages (R281) -/

/-- The head grain. R281 names its fields and gives no layout (DESIGN CHOICE, log entry 32). -/
def collHead (job seq : Nat) (b : List Byte) (chunk phase at_ n : Nat) : List Byte :=
  padGrain (wordsLE [job, seq, foOp b * 2 ^ 24 + foDtype b * 2 ^ 20 + foRed b * 2 ^ 18 + foRoot b, foCount b, chunk, phase, at_, n])

def chJob (m : Msg) : Nat := headWord m 0
def chSeq (m : Msg) : Nat := headWord m 1
def chDesc (m : Msg) : Nat := headWord m 2
def chCount (m : Msg) : Nat := headWord m 3
def chChunk (m : Msg) : Nat := headWord m 4
def chPhase (m : Msg) : Nat := headWord m 5
def chAt (m : Msg) : Nat := headWord m 6
def chLen (m : Msg) : Nat := headWord m 7

/-- The loader's own multicast takes no collective number (R340). -/
def loaderSeq : Nat := 0xFFFFFFFF

/-- Sends a piece from die d to the same die of a member. -/
def sendColl (d x dpkg : Nat) (head data : List Byte) (s : State) : State :=
  post { cls := 1, ty := 5, dpkg, ddie := d, sdie := d, bytes := head ++ padGrain data } (.coll x) s

def sendPiece (d x : Nat) (o : FabOp) (dpkg j ph k : Nat) (data : List Byte) (s : State) : State :=
  let (a, l) := pieceAt o.desc (ringN s x) d j k
  sendColl d x dpkg (collHead (ringJob s x) o.seqNo o.desc j ph a l) data s

/-! ## The operator (R280) -/

/-- Order of binary32 values with −0 below +0. -/
def f32Key (x : Nat) : Int := if x < 2 ^ 31 then (x : Int) else -((x - 2 ^ 31 : Nat) : Int) - 1

/-- One element of ⊕ on the values as they travel in the reduce phase. -/
def combine (dt red a c : Nat) : Nat :=
  if dt = 2 then
    if red = 0 then (a + c) % 2 ^ 32
    else
      let k (v : Nat) : Int := if v < 2 ^ 31 then v else (v : Int) - 2 ^ 32
      if red = 1 then (if k a < k c then c else a) else (if k c < k a then c else a)
  else if red = 0 then (add32 a c).bits
  else if isNan32 a || isNan32 c then nan32
  else if red = 1 then (if f32Key a < f32Key c then c else a) else (if f32Key c < f32Key a then c else a)

/-- This member's elements as they travel in the reduce phase: BF16 widened to FP32. -/
def widenOwn (dt : Nat) (b : List Byte) : List Nat :=
  if dt = 1 then (List.range (b.length / 2)).map fun i => leNat ((b.drop (2 * i)).take 2) * 65536
  else (List.range (b.length / 4)).map fun i => wordAt b (4 * i)

/-- The owner's bytes: BF16 rounded once from FP32 (R61). -/
def finalBytes (dt : Nat) (vs : List Nat) : List Byte :=
  if dt = 1 then (vs.map fun v => natLE 2 (convPlain 8 {} 0 (val32 v)).bits).flatten else wordsLE vs

/-! ## Places of a piece -/

/-- Where a piece of the result goes (R276): the chunk's own place, or its place among all chunks. -/
def dstOf (b : List Byte) (n j at_ : Nat) : Nat :=
  foDst b + ((if foOp b = 0x52 then 0 else (foChunk b n j).1) + at_) * foElem b

/-- Where this member's own value of a piece lies: ALL_GATHER's source is its own chunk only. -/
def srcOf (b : List Byte) (n j at_ : Nat) : Nat :=
  foSrc b + ((if foOp b = 0x53 then 0 else (foChunk b n j).1) + at_) * foElem b

/-- The next member of a multicast's chain after a position, until the chain comes round to the root (R282, R284). -/
def chainNext (s : State) (x seq root p : Nat) : Option Nat :=
  let n := ringN s x
  let gone := removedOf s x seq
  let after := (List.range (n - 1)).map fun i => (p + 1 + i) % n
  (after.takeWhile (· ≠ root)).find? fun q => !gone.contains q

/-! ## Own work: pieces that wait for nothing but this package's slots

Phases of `todo`: 0 and 1 are pieces expected from the ring in the reduce and the gather phase; 2 is a COPY piece; 3 a
first term; 4 an owner's chunk of ALL_GATHER; 5 a root's piece of MULTICAST; 6 a piece of a collective of one member. -/

/-- Pieces of die d's part of a COPY (R278): offset and length, cut so that each message into the target ends on a
256-byte bound. -/
def copyPieces (b : List Byte) (d : Nat) : List (Nat × Nat) :=
  let (a, l) := sliceOf (foCount b) d
  let ga := foDst b + a
  (cutMessages (l / 3840 + 2) ga (List.replicate l 0)).map fun (g, c) => (a + (g - ga), c.length)

/-- One COPY piece. -/
def runCopy (d x off n : Nat) (o : FabOp) (s : State) : Option State :=
  let b := o.desc
  let src := foSrc b + off
  let dst := foDst b + off
  let own : Nat → Owner := fun t => .copy x t
  if placeRun s src n = .remote then
    let (s, t) := sendRRead d src dst n own s
    some (modOp x (fun o => { o with tags := o.tags ++ [t] }) s)
  else if srcBlocked s src n then none
  else
    match opGet x src n s with
    | (s, none) => some s
    | (s, some data) =>
      if placeRun s dst n = .remote then
        let (s, t) := sendRWrite d (foTclass b) x (foGen b) dst data own s
        some (modOp x (fun o => { o with tags := o.tags ++ [t] }) s)
      else opPut x dst data s

/-- One piece of own work; `none` while it must wait. -/
def runOwn (x : Nat) (o : FabOp) (t : Nat × Nat × Nat × Nat) (s : State) : Option State :=
  let (d, ph, j, k) := t
  let b := o.desc
  let n := ringN s x
  if ph = 2 then
    match (copyPieces b d)[k]? with
    | some (off, l) => runCopy d x off l o s
    | none => some s
  else
    let (a, l) := pieceAt b n d j k
    let src := srcOf b n j a
    let bytes := l * foElem b
    if srcBlocked s src bytes then none
    else
      match opGet x src bytes s with
      | (s, none) => some s
      | (s, some data) =>
        if ph = 3 then
          some (sendPiece d x o (ringNextPkg s x 0) j 0 k (wordsLE (widenOwn (foDtype b) data)) s)
        else
          match opPut x (dstOf b n j a) data s with
          | none => none
          | some s =>
            if ph = 4 then some (sendPiece d x o (ringNextPkg s x 0) j 1 k data s)
            else if ph = 5 then
              match chainNext s x o.seqNo (foRoot b) (foRoot b) with
              | some q => some (sendPiece d x o (rcdMember (ringOf s x).rcd q) j 1 k data s)
              | none => some s
            else some s

/-- Own work in order; a die whose piece must wait does no later one. -/
def runWork (x : Nat) (s : State) : State :=
  match getOp s x with
  | none => s
  | some o =>
    let r := (o.todo.filter (·.2.1 ≥ 2)).foldl (fun (acc : State × List Nat) t =>
      if acc.2.contains t.1 then acc
      else
        match getOp acc.1 x with
        | none => acc
        | some o =>
          if o.status.isSome then acc
          else
            match runOwn x o t acc.1 with
            | some s => (modOp x (fun o => { o with todo := o.todo.erase t }) s, acc.2)
            | none => (acc.1, t.1 :: acc.2)) (s, [])
    tellAll r.1

/-! ## Beginning (R275–R279) -/

def opqTail (s : State) (x : Nat) : Nat := regF s (aFab 0 (0x10C + 0x20 * x)) 9 0
def opqHead (s : State) (x : Nat) : Nat := reg s (aFab 0 (0x110 + 0x20 * x))
def opqLog (s : State) (x : Nat) : Nat := regF s (aFab 0 (0x108 + 0x20 * x)) 3 0
def opqEmpty (s : State) (x : Nat) : Bool := opqHead s x = opqTail s x % 2 ^ opqLog s x
def opqAddr (s : State) (x : Nat) : Nat := reg64 s (aFab 0 (0x100 + 0x20 * x)) / 64 * 64 + 64 * opqHead s x

def execFabOpqTail (m : Master) (d : Die) (x : Ctx) (v : Word) (s : State) : Outcome :=
  arriveAt m (aFab d (0x10C + 0x20 * x)) v s

def execFabOpqResume (m : Master) (d : Die) (x : Ctx) (s : State) : Outcome :=
  onlyIf (fun _ => true) (fun s => let a := aFab d (0x108 + 0x20 * x)
    arrive m a (BitVec.ofNat 32 (setBits (reg s a) 31 31 1)) 4 s) s

/-- A descriptor may begin: one is posted, none runs, and the queue is not halted. -/
def opqReady (s : State) (x : Nat) : Bool := (getOp s x).isNone && !(mapGet false s.fab.halted x) && !opqEmpty s x

/-- The descriptor at the head, and whether its bytes are uncorrectable. -/
def opqNext (s : State) (x : Nat) : List Byte × Bool :=
  match gaHbm s (opqAddr s x) with
  | some (d, h) => (hbmPeek (agFab x) d h 64 s, badFor (agFab x) s d (h / 64))
  | none => (List.replicate 64 0, false)

/-- Reserved opcodes, values and bits. -/
def foMalformed (s : State) (x : Nat) (b : List Byte) : Bool :=
  let reduces := foOp b = 0x51 || foOp b = 0x52
  !(0x50 ≤ foOp b && foOp b ≤ 0x54) || foDtype b > 3 || (reduces && (foDtype b = 3 || foRed b = 3)) ||
    fld b 0 15 7 ≠ 0 || fld b 0x18 31 16 ≠ 0 || wordAt b 0x1C ≠ 0 || foCount b = 0 || foCq b % 16 ≠ 0 ||
    ((List.range 5).any fun i => wordAt b (0x2C + 4 * i) ≠ 0) ||
    (foOp b = 0x54 && !(foRoot b < ringN s x))

/-- A local run and its tagged slots; whole slots are required of a target (R138). -/
def runBad (s : State) (ga n : Nat) (target : Bool) : Bool :=
  match placeRun s ga n with
  | .refused => true
  | .remote => false
  | p => target && !wholeOk s p n

/-- Status and cause with which a descriptor ends before it moves a byte. -/
def foRefuse (s : State) (x : Nat) (b : List Byte) : Option (Nat × Nat) :=
  if foMalformed s x b then some (1, 0)
  else if foOp b = 0x50 then
    let n := foCount b
    let rs := placeRun s (foSrc b) n = .remote
    let rd := placeRun s (foDst b) n = .remote
    if rs && rd then some (1, 0)
    else if runBad s (foSrc b) n false || runBad s (foDst b) n true then some (9, 6)
    else if rs then
      let c := remoteBad s x false 0 (foSrc b)
      if c = 1 then some (1, 0) else if c ≠ 0 then some (9, c) else none
    else if rd then
      let c := remoteBad s x true (foGen b) (foDst b)
      if c = 1 then some (1, 0) else if c ≠ 0 then some (9, c) else none
    else none
  else
    let n := ringN s x
    let st := (ringOf s x).st
    if st < 2 || st = 5 || n = 0 then some (9, 8)
    else
      let es := foElem b
      let c := (foChunk b n (ringPos s x)).2 * es
      let srcLen := if foOp b = 0x53 then c else foCount b * es
      let dstLen := if foOp b = 0x52 then c else foCount b * es
      let noSrc := foOp b = 0x54 && foRoot b ≠ ringPos s x
      if (!noSrc && srcLen ≠ 0 && placeRun s (foSrc b) srcLen = .remote) || (dstLen ≠ 0 && placeRun s (foDst b) dstLen = .remote) then some (1, 0)
      else if (!noSrc && srcLen ≠ 0 && runBad s (foSrc b) srcLen false) || (dstLen ≠ 0 && runBad s (foDst b) dstLen true) then some (9, 6)
      else none

/-- Every piece of chunk j in a phase, die by die. -/
def phasePieces (b : List Byte) (n j ph : Nat) : List (Nat × Nat × Nat × Nat) :=
  ((List.range 8).map fun d => (List.range (pieceCount b n d j)).map fun k => (d, ph, j, k)).flatten

/-- The work and the expectations of a descriptor (R278, R279, R282). -/
def foTodo (s : State) (x : Nat) (b : List Byte) : List (Nat × Nat × Nat × Nat) :=
  let n := ringN s x
  let p := ringPos s x
  let js := List.range n
  match foOp b with
  | 0x50 => ((List.range 8).map fun d => (List.range (copyPieces b d).length).map fun k => (d, 2, 0, k)).flatten
  | 0x54 => if n = 1 then phasePieces b n 0 6 else phasePieces b n 0 (if p = foRoot b then 5 else 1)
  | 0x53 =>
    if n = 1 then phasePieces b n 0 6
    else phasePieces b n p 4 ++ (js.filter (· ≠ p)).flatMap fun j => phasePieces b n j 1
  | _ =>
    if n = 1 then phasePieces b n 0 6
    else
      (js.flatMap fun j => phasePieces b n j (if p = (j + 1) % n then 3 else 0)) ++
        (if foOp b = 0x51 then (js.filter (· ≠ p)).flatMap fun j => phasePieces b n j 1 else [])

/-- The next unwritten byte of die d's slice of the multicast here. -/
def nextByte (s : State) (x d : Nat) (o : FabOp) : Nat :=
  let n := ringN s x
  let (a, l) := sliceOf (foCount o.desc) d
  ((o.todo.filter fun t => t.1 = d && t.2.1 = 1).map fun t => (pieceAt o.desc n d 0 t.2.2.2).1).foldl min (a + l)

/-- A member reports its next unwritten bytes to the root, from every die (R284). -/
def reportOffsets (x : Nat) (o : FabOp) (s : State) : State :=
  (List.range 8).foldl (fun s d =>
    let off := nextByte s x d o
    postCtl d (rcdMember (ringOf s x).rcd (foRoot o.desc)) d 0x31 (ringJob s x) [o.seqNo, ringPos s x, off, off / 2 ^ 32] s) s

/-- A descriptor begins: HEAD moves on, a collective takes its number, and its own work starts. -/
def beginOp (x : Nat) (b : List Byte) (bad : Bool) (s : State) : State :=
  let idx := opqHead s x
  let s := putReg (aFab 0 (0x110 + 0x20 * x)) ((idx + 1) % 2 ^ opqLog s x) s
  if bad then setOp x { desc := b, index := idx, status := some (9, 3) } s
  else
    match foRefuse s x b with
    | some r => setOp x { desc := b, index := idx, status := some r } s
    | none =>
      let q := mapGet 0 s.fab.collSeq x
      let s := if isColl b then { s with fab := { s.fab with collSeq := mapSet 0 s.fab.collSeq x (q + 1) } } else s
      let s := setOp x { desc := b, index := idx, seqNo := if isColl b then q else 0, todo := foTodo s x b } s
      if foOp b ≠ 0x54 || (removedOf s x q).isEmpty then runWork x s
      else if (removedOf s x q).contains (ringPos s x) then failOp x 0xA 0 s
      else
        match getOp s x with
        | some o => if foRoot b = ringPos s x then runWork x s else runWork x ((removedOf s x q).foldl (fun s _ => reportOffsets x o s) s)
        | none => s

/-- The row of an opcode. -/
def opRow (op : Nat) (x : Ctx) (s : State) : Outcome :=
  onlyIf (fun s => opqReady s x && !(opqNext s x).2 && foOp (opqNext s x).1 = op) (fun s =>
    demandGa (agFab x) (some x.val) (opqAddr s x) 64 id (fun b s => beginOp x b false s) s) s

def execCopy (x : Ctx) (s : State) : Outcome := opRow 0x50 x s
def execAllReduce (x : Ctx) (s : State) : Outcome := opRow 0x51 x s
def execReduceScatter (x : Ctx) (s : State) : Outcome := opRow 0x52 x s
def execAllGather (x : Ctx) (s : State) : Outcome := opRow 0x53 x s
def execMulticast (x : Ctx) (s : State) : Outcome := opRow 0x54 x s

/-! ## Arrivals of a collective (R279–R284) -/

/-- A message's piece number within its slice. -/
def pieceNo (b : List Byte) (n d : Nat) (m : Msg) : Nat := (chAt m - (sliceOf (foChunk b n (chChunk m)).2 d).1) / pieceElems b

/-- The message agrees with the receiver's descriptor (R281). -/
def collAgrees (s : State) (x d : Nat) (b : List Byte) (m : Msg) : Bool :=
  let n := ringN s x
  chDesc m = foOp b * 2 ^ 24 + foDtype b * 2 ^ 20 + foRed b * 2 ^ 18 + foRoot b && chCount m = foCount b &&
    chChunk m < n && chPhase m < 2 && pieceAt b n d (chChunk m) (pieceNo b n d m) = (chAt m, chLen m)

/-- A piece of a multicast: written where it has not been, and sent on. -/
def takeCast (d x : Nat) (o : FabOp) (m : Msg) (s : State) : Option State :=
  let b := o.desc
  let n := ringN s x
  let k := pieceNo b n d m
  let t := (d, 1, 0, k)
  let data := (m.bytes.drop 64).take (chLen m)
  let on (s : State) : State :=
    match chainNext s x o.seqNo (foRoot b) (ringPos s x) with
    | some q => sendPiece d x o (rcdMember (ringOf s x).rcd q) 0 1 k data s
    | none => s
  if o.todo.contains t then
    (opPut x (dstOf b n 0 (chAt m)) data s).map fun s => on (modOp x (fun o => { o with todo := o.todo.erase t }) s)
  else some (on s)

/-- A piece of the reduce or the gather phase. -/
def takePiece (d x : Nat) (o : FabOp) (m : Msg) (s : State) : Option State :=
  let b := o.desc
  let n := ringN s x
  let p := ringPos s x
  let j := chChunk m
  let k := pieceNo b n d m
  let t := (d, chPhase m, j, k)
  let done (s : State) : State := modOp x (fun o => { o with todo := o.todo.erase t }) s
  let dt := foDtype b
  let next := ringNextPkg s x 0
  if !o.todo.contains t then some s
  else if chPhase m = 0 then
    let src := srcOf b n j (chAt m)
    let bytes := chLen m * foElem b
    if srcBlocked s src bytes then none
    else
      match opGet x src bytes s with
      | (s, none) => some s
      | (s, some own) =>
        let got := (List.range (chLen m)).map fun i => wordAt (m.bytes.drop 64) (4 * i)
        let r := (got.zip (widenOwn dt own)).map fun (a, c) => combine dt (foRed b) a c
        if p = j then
          let out := finalBytes dt r
          (opPut x (dstOf b n j (chAt m)) out s).map fun s =>
            done (if foOp b = 0x51 then sendPiece d x o next j 1 k out s else s)
        else some (done (sendPiece d x o next j 0 k (wordsLE r) s))
  else
    let data := (m.bytes.drop 64).take (chLen m * foElem b)
    (opPut x (dstOf b n j (chAt m)) data s).map fun s =>
      done (if (p + 1) % n = j then s else sendPiece d x o next j 1 k data s)

/-- A piece of the loader's multicast is stored in this die's part and passed on (R340). It waits for a load that has not
allotted yet; a piece of another load is discarded. The chunk word holds the load's digest word, the offset counts bytes
of the die's part. -/
def takeLoader (d x : Nat) (m : Msg) (s : State) : Option State :=
  match (getLoad s x).job with
  | none => none
  | some j =>
    if chChunk m ≠ wordAt j.record 0x40 || j.phase ≥ 4 then some s
    else if j.phase ≠ 3 then none
    else
      let data := (m.bytes.drop 64).take (chLen m)
      let s := match j.allots.filterMap (fun a => (mapLookup s.hbm.allots a).filter (·.cat = 1)) with
        | a :: _ => hbmWrite (.loader (Fin.ofNat 8 d)) d ((a.runs.getD d (0, 0)).1 + chAt m) data s
        | [] => s
      let s := modLoad x (fun l => { l with job := l.job.map fun j => { j with replGot := mapMod 0 j.replGot d (· + data.length) } }) s
      match chainNext s x loaderSeq 0 (ringPos s x) with
      | some q => some (sendColl d x (rcdMember (ringOf s x).rcd q) (m.bytes.take 64) (m.bytes.drop 64) s)
      | none => some s

/-- What a collective message does at a die; `none` while it must wait in the receive buffer. -/
def runColl (d : Nat) (m : Msg) (s : State) : Option State :=
  match ringOfJob s (chJob m) [2, 3, 4] with
  | none => if (ringOfJob s (chJob m) [1]).isSome then none else some s
  | some x =>
    if chSeq m = loaderSeq then takeLoader d x m s
    else
      match getOp s x with
      | some o =>
        if isColl o.desc && o.status.isNone && o.seqNo = chSeq m then
          if !collAgrees s x d o.desc m then some (abortJob x 7 s)
          else if foOp o.desc = 0x54 then takeCast d x o m s else takePiece d x o m s
        else if mapGet 0 s.fab.collSeq x ≤ chSeq m then none
        else some (castOn d x m s)
      | none => if mapGet 0 s.fab.collSeq x ≤ chSeq m then none else some (castOn d x m s)
where
  /-- A multicast that has ended here still passes on (R284). -/
  castOn (d x : Nat) (m : Msg) (s : State) : State :=
    let root := bitsOf (chDesc m) 6 0
    if bitsOf (chDesc m) 31 24 ≠ 0x54 || (removedOf s x (chSeq m)).contains (ringPos s x) then s
    else
      match chainNext s x (chSeq m) root (ringPos s x) with
      | some q => sendColl d x (rcdMember (ringOf s x).rcd q) (m.bytes.take 64) (m.bytes.drop 64) s
      | none => s

/-- The oldest collective message at a die that can be taken now. -/
def nextColl (s : State) (d : Nat) : Option InMsg :=
  (served s d).find? fun i => i.msg.ty = 5 && !i.admitted && (runColl d i.msg s).isSome

/-- A message of a multicast. -/
def isCast (m : Msg) : Bool := m.ty = 5 && bitsOf (chDesc m) 31 24 = 0x54

/-- A grain of a multicast has not left this die on its way onward: its copy waits at a port, or for room (R282). -/
def castQueued (s : State) (d : Nat) (m : Msg) : Bool :=
  let same (c : Msg) : Bool := c.ty = 5 && !c.transit && c.bytes.take 64 = m.bytes.take 64
  (s.fab.ports.any fun e => e.1 / 6 = d && e.2.queue.any fun q => same q.msg) ||
    s.fab.tx.any fun e => e.1 / 4 % 8 = d && e.1 % 4 = 1 && e.2.wait.any fun w => same w.1

/-- A grain of a multicast that has been taken is not yet forwarded, or its write to HBM not yet visible. -/
def castHeld (s : State) (d : Nat) (i : InMsg) : Bool :=
  castQueued s d i.msg || (match i.wid with | some w => !widVisible s w | none => false)

/-- A grain of a multicast leaves the receive buffer once it is written and forwarded; until then it keeps its credits (R282).
`w` is the HBM write that it has made. -/
def leaveBuffer (d : Nat) (i : InMsg) (w : Option Nat) (s : State) : State :=
  if isCast i.msg && castHeld s d { i with wid := w } then
    { s with fab := { s.fab with inbox := mapMod [] s.fab.inbox d (·.map fun j => if j = i then { i with admitted := true, wid := w } else j) } }
  else takeMsg d i s

/-- Grains of multicasts that have been forwarded and written since leave the receive buffer. -/
def releaseCasts (d : Nat) (s : State) : State :=
  ((inboxOf s d).filter fun i => i.msg.ty = 5 && i.admitted && !castHeld s d i).foldl (fun s i => takeMsg d i s) s

def execColl (d : Die) (s : State) : Outcome :=
  onlyIf (fun s => (nextColl s d).isSome) (fun s =>
    match nextColl s d with
    | none => s
    | some i =>
      let n := s.hbm.nextWid
      match runColl d i.msg s with
      | some s => tellAll (leaveBuffer d i (if s.hbm.nextWid = n then none else some n) s)
      | none => s) s

/-! ## Answers to this package's own accesses (R274) -/

def pendOf (s : State) (t : Nat) : Option Pend := mapLookup s.fab.pend t
def dropPend (t : Nat) (s : State) : State := { s with fab := { s.fab with pend := mapErase s.fab.pend t } }

/-- Changes the descriptor of a stream that waits for a tag. -/
def modWaiting (e q t : Nat) (f : SDesc → SDesc) (s : State) : State :=
  modStream e q (fun st => { st with
    q := st.q.map fun y => if y.remote.contains t then f { y with remote := y.remote.erase t } else y
    acks := st.acks.filter (· ≠ t) }) s

def opTagDone (x t : Nat) (s : State) : State := modOp x (fun o => { o with tags := o.tags.erase t }) s

/-- Read data reach their reader; `none` while tagged slots of the target cannot be filled. -/
def takeRData (m : Msg) (s : State) : Option State :=
  let t := rmTag m
  match pendOf s t with
  | none => some s
  | some p =>
    let data := (m.bytes.drop 64).take (rmLen m)
    let whole := rmStatus m ≠ 0 || p.len ≤ p.got + data.length
    let note (s : State) : State :=
      if whole then dropPend t s
      else { s with fab := { s.fab with pend := mapInsert s.fab.pend t { p with got := p.got + data.length } } }
    match p.own with
    | .stream e q _ =>
      let put (y : SDesc) : SDesc :=
        if rmStatus m ≠ 0 then (if y.fail = 0 then { y with fail := rmStatus m } else y)
        else { y with buf := bufPut y.buf (p.dst + p.got) data }
      if whole then some (note (modWaiting e q t put s))
      else some (note (modStream e q (fun st => { st with q := st.q.map fun y => if y.remote.contains t then put y else y }) s))
    | .copy x _ =>
      if rmStatus m ≠ 0 then some (note (opTagDone x t (failOp x 9 (rmStatus m) s)))
      else (opPut x (p.dst + p.got) data s).map fun s => note (if whole then opTagDone x t s else s)
    | _ => some (note s)

/-- Answers of a type at a die that can be taken. -/
def nextRData (s : State) (d : Nat) : Option InMsg := (served s d).find? fun i => i.msg.ty = 3 && (takeRData i.msg s).isSome

def execRdata (d : Die) (s : State) : Outcome :=
  onlyIf (fun s => (nextRData s d).isSome) (fun s =>
    match nextRData s d with
    | none => s
    | some i =>
      match takeRData i.msg s with
      | some s => takeMsg d i s
      | none => s) s

/-- An acknowledgement, or a rejection, reaches the writer (R155). -/
def takeRAck (m : Msg) (s : State) : State :=
  let t := rmTag m
  match pendOf s t with
  | none => s
  | some p =>
    let s := dropPend t s
    match p.own with
    | .stream e q _ => modWaiting e q t (fun y => if rmStatus m ≠ 0 && y.fail = 0 then { y with fail := rmStatus m } else y) s
    | .copy x _ => opTagDone x t (if rmStatus m ≠ 0 then failOp x 9 (rmStatus m) s else s)
    | _ => s

def nextRAck (s : State) (d : Nat) : Option InMsg := (served s d).find? (·.msg.ty = 4)

def execRack (d : Die) (s : State) : Outcome :=
  onlyIf (fun s => (nextRAck s d).isSome) (fun s =>
    match nextRAck s d with
    | none => s
    | some i => takeRAck i.msg (takeMsg d i s)) s

/-! ## The end of an operation (R277) -/

/-- Pieces of a collective that this package sent and that are not DELIVERED. -/
def castOut (s : State) (x seq : Nat) : Bool :=
  s.fab.tx.any fun e => (e.2.undel.map (·.msg) ++ e.2.wait.map (·.1)).any fun m => m.ty = 5 && chJob m = ringJob s x && chSeq m = seq

/-- An operation may end: it has failed, or all of it is done. One that a job abort ends waits for the cause that is adopted, so
that a collective ends alike on every member (R286, R287). -/
def opDone (s : State) (x : Nat) (o : FabOp) : Bool :=
  (o.status.isSome && (!o.aborted || (mapLookup s.fab.aborts x).isNone)) ||
    (o.status.isNone && o.todo.isEmpty && o.tags.isEmpty && o.wids.all (widVisible s) && !(foOp o.desc = 0x54 && castOut s x o.seqNo))

/-- Writes the record, and halts the queue on a status other than OK. -/
def endOp (x : Nat) (o : FabOp) (s : State) : State :=
  let (st, c) := o.status.getD (0, 0)
  let s := if foOp o.desc = 0x54 && o.status.isNone then
      { s with fab := { s.fab with casts := mapMod [] s.fab.casts x (· ++ [o]) } }
    else s
  let s := { s with fab := { s.fab with ops := mapErase s.fab.ops x, pend := s.fab.pend.filter fun e => match e.2.own with | .copy y _ => y ≠ x | _ => true } }
  let s := if foComplete o.desc || st ≠ 0 then
      writeGa (agFab x) (foCq o.desc / 16 * 16) (wordsLE [c * 2 ^ 16 + st, o.index, foUser o.desc, s.clk.count]) s (some x)
    else s
  if st = 0 then s
  else
    raise { die := 0, code := 0x0504, ctx := some x, p0 := x, p1 := o.index, p2 := st, p3 := c }
      { s with fab := { s.fab with halted := mapSet false s.fab.halted x true } }

/-- The head of the queue has a reserved opcode or uncorrectable bytes: it begins and ends at once. -/
def opqBad (s : State) (x : Nat) : Bool :=
  opqReady s x && ((opqNext s x).2 || !(0x50 ≤ foOp (opqNext s x).1 && foOp (opqNext s x).1 ≤ 0x54))

def execFabOpEnd (x : Ctx) (s : State) : Outcome :=
  onlyIf (fun s => (match getOp s x with | some o => opDone s x o | none => opqBad s x)) (fun s =>
    match getOp s x with
    | some o => endOp x o s
    | none =>
      let fin (s : State) : State := match getOp s x with | some o => endOp x o s | none => s
      demandGa (agFab x) (some x.val) (opqAddr s x) 64
        (fun s => fin (beginOp x (List.replicate 64 0) true s)) (fun b s => fin (beginOp x b false s)) s) s

/-- RESUME, at the end of its window: the queue goes on at the next descriptor. -/
def effOpqResume (x : Nat) (s : State) : State := { s with fab := { s.fab with halted := mapSet false s.fab.halted x false } }

/-! ## Slow receivers and removal (R283, R284) -/

/-- The onward message of a context's multicast that waits at a port of the die for a credit, with its stream. -/
def castWaiting (s : State) (d x : Nat) : Option (TxMsg × Nat) :=
  s.fab.tx.findSome? fun e =>
    if e.1 / 4 % 8 = d && e.1 % 4 = 1 then
      (e.2.undel.find? fun t => isCast t.msg && chJob t.msg = ringJob s x &&
        (getPort s t.port).queue.any fun q => q.msg = t.msg && creditCap s t.port q.pool ≤ mapGet 0 (getPort s t.port).used q.pool).map
          fun t => (t, e.1)
    else none

/-- What is known of the wait at a tick: a message that waits now and did not before begins its wait. -/
def noteCast (s : State) (d x : Nat) : Option CastWait :=
  match castWaiting s d x, mapGet none s.fab.stalls (8 * d + x) with
  | none, _ => none
  | some (t, _), some w => if w.msn = t.msg.msn then some w else some { msn := t.msg.msn, since := s.now }
  | some (t, _), none => some { msn := t.msg.msn, since := s.now }

/-- At every tick: the waits of multicasts, and the grains that have been forwarded (R282, R283). -/
def tickCasts (s : State) : State :=
  if s.fab.tx.isEmpty && s.fab.stalls.isEmpty && s.fab.inbox.isEmpty then s
  else
    let s := (List.range 8).foldl (fun s d => releaseCasts d s) s
    (List.range 64).foldl (fun s k =>
      { s with fab := { s.fab with stalls := mapSet none s.fab.stalls k (noteCast s (k / 8) (k % 8)) } }) s

/-- The wait has lasted, the successor is not backpressured, and it has not been reported. -/
def castStall (s : State) (d x : Nat) : Option (TxMsg × CastWait) :=
  match castWaiting s d x, mapGet none s.fab.stalls (8 * d + x) with
  | some (t, k), some w =>
    if w.msn = t.msg.msn && w.since + reg s (aFab 0 0x14) ≤ s.now && !(getTx s k).backed && !w.said then some (t, w) else none
  | _, _ => none

def execMulticastStall (d : Die) (x : Ctx) (s : State) : Outcome :=
  onlyIf (fun s => (castStall s d x).isSome) (fun s =>
    match castStall s d x with
    | none => s
    | some (t, w) =>
      raise { die := d, code := 0x0505, ctx := some x.val, p0 := x, p1 := chSeq t.msg, p2 := (ringMembers s x).idxOf t.msg.dpkg }
        { s with fab := { s.fab with stalls := mapSet none s.fab.stalls (8 * d.val + x.val) (some { w with said := true }) } }) s

def execFabMcRemove (m : Master) (d : Die) (r : Byte) (s : State) : Outcome := arriveAt m (aFab d 0x28) (BitVec.ofNat 32 r.toNat) s

/-- The root sends die d's slice again from an offset on, to the chain as it now stands (R284). The piece that holds the
offset goes whole: members discard what they have. -/
def castFrom (d x off : Nat) (o : FabOp) (s : State) : State :=
  let n := ringN s x
  let running : Bool := match getOp s x with | some p => p.seqNo == o.seqNo | none => false
  let rd := if running then opGet x else readGa (agFab x) (some x)
  match chainNext s x o.seqNo (foRoot o.desc) (foRoot o.desc) with
  | none => s
  | some q =>
    ((List.range (pieceCount o.desc n d 0)).filter fun k => let (a, l) := pieceAt o.desc n d 0 k; off < a + l).foldl (fun s k =>
      let (a, l) := pieceAt o.desc n d 0 k
      match rd (foSrc o.desc + a) l s with
      | (s, some data) => sendPiece d x o (rcdMember (ringOf s x).rcd q) 0 1 k data s
      | (s, none) => s) s

/-- The multicast with a number of which this package is the root: at work, or ended here and still asked for. -/
def rootCast (s : State) (x seq : Nat) : Option FabOp :=
  let mine (o : FabOp) : Bool := foOp o.desc = 0x54 && o.seqNo = seq && foRoot o.desc = ringPos s x
  match getOp s x with
  | some o => if mine o && o.status.isNone then some o else (mapGet [] s.fab.casts x).find? mine
  | none => (mapGet [] s.fab.casts x).find? mine

/-- The same, changed. -/
def setRootCast (x : Nat) (o : FabOp) (s : State) : State :=
  match getOp s x with
  | some p => if p.seqNo = o.seqNo && foOp p.desc = 0x54 then setOp x o s
    else { s with fab := { s.fab with casts := mapMod [] s.fab.casts x (·.map fun c => if c.seqNo = o.seqNo then o else c) } }
  | none => { s with fab := { s.fab with casts := mapMod [] s.fab.casts x (·.map fun c => if c.seqNo = o.seqNo then o else c) } }

/-- This member's multicast with a number, at work or ended well. -/
def castHere (s : State) (x seq : Nat) : Option FabOp :=
  match getOp s x with
  | some o => if foOp o.desc = 0x54 && o.seqNo = seq then (if o.status.isNone then some o else none)
    else (mapGet [] s.fab.casts x).find? (·.seqNo = seq)
  | none => (mapGet [] s.fab.casts x).find? (·.seqNo = seq)

/-- Learns that a position is removed: the member itself ends REMOVED; every other but the root reports to the root, also one
that has ended. One that has not begun reports when it begins. -/
def noteRemoved (x seq r : Nat) (s : State) : State :=
  let s := { s with fab := { s.fab with removed := mapMod [] s.fab.removed x (· ++ [128 * seq + r]) } }
  match castHere s x seq with
  | none => s
  | some o =>
    if foRoot o.desc = ringPos s x then s
    else if r = ringPos s x then (match getOp s x with | some p => if p.seqNo = seq then failOp x 0xA 0 s else s | none => s)
    else reportOffsets x o s

def sendRemove (x dir seq r : Nat) (s : State) : State := postCtl 0 (ringNextPkg s x dir) 0 0x30 (ringJob s x) [seq, r] s

/-- A write of FAB_MC_REMOVE, at the end of its window: the multicast in progress of the lowest context. -/
def effMcRemove (r : Nat) (s : State) : State :=
  match (List.range 8).find? fun x => match getOp s x with | some o => foOp o.desc = 0x54 && o.status.isNone | none => false with
  | none => s
  | some x =>
    match getOp s x with
    | none => s
    | some o =>
      if r = foRoot o.desc || !(r < ringN s x) || (removedOf s x o.seqNo).contains r then s
      else noteRemoved x o.seqNo r (sendRemove x 1 o.seqNo r (sendRemove x 0 o.seqNo r s))

def execMcRemove (d : Die) (s : State) : Outcome :=
  onlyIf (fun s => !(ctlMsgs s d 0x30).isEmpty) (fun s =>
    match ctlMsgs s d 0x30 with
    | [] => s
    | i :: _ =>
      let m := i.msg
      let s := takeMsg d i s
      match if ctlValid m then ringOfJob s (ctlJob m) [2, 3, 4] else none with
      | none => s
      | some x =>
        let seq := ctlArg m 0
        let r := bitsOf (ctlArg m 1) 6 0
        if (removedOf s x seq).contains r then s
        else noteRemoved x seq r (sendRemove x (if m.spkg = ringNextPkg s x 1 then 0 else 1) seq r s)) s

/-- The members of a multicast that remain: every position but the root's and those removed. -/
def remaining (s : State) (x : Nat) (o : FabOp) : List Nat :=
  (List.range (ringN s x)).filter fun q => q ≠ foRoot o.desc && !(removedOf s x o.seqNo).contains q

/-- A die has a report from every member that remains for each removal: all of them know of every removal. -/
def allReported (s : State) (x d : Nat) (o : FabOp) : Bool :=
  (remaining s x o).all fun q => (removedOf s x o.seqNo).length ≤ (o.offs.filter fun t => t.1 = d && t.2.1 = q).length

/-- The lowest of the offsets that the members that remain reported last from a die. -/
def lowOff (s : State) (x d : Nat) (o : FabOp) : Option Nat :=
  ((remaining s x o).filterMap fun q => ((o.offs.filter fun t => t.1 = d && t.2.1 = q).getLast?).map (·.2.2)).min?

/-- A report at the root: with the last of a die's reports it sends again from the lowest of them (R284). -/
def takeOffset (d x pos off : Nat) (o : FabOp) (s : State) : State :=
  let p := { o with offs := o.offs ++ [(d, pos, off)] }
  let s := setRootCast x p s
  if allReported s x d p && !allReported s x d o then
    match lowOff s x d p with
    | some low => castFrom d x low p s
    | none => s
  else s

def execMcOffset (d : Die) (s : State) : Outcome :=
  onlyIf (fun s => !(ctlMsgs s d 0x31).isEmpty) (fun s =>
    match ctlMsgs s d 0x31 with
    | [] => s
    | i :: _ =>
      let m := i.msg
      let s := takeMsg d i s
      match if ctlValid m then ringOfJob s (ctlJob m) [2, 3, 4] else none with
      | none => s
      | some x =>
        match rootCast s x (ctlArg m 0) with
        | none => s
        | some o => tellAll (takeOffset d x (bitsOf (ctlArg m 1) 6 0) (ctlArg m 2 + 2 ^ 32 * ctlArg m 3) o s)) s

end Sys2Proof.Machine
end

