-- ==== Sys2Proof/Machine/Time.lean ====
section
/-! DEFINITION. Timekeeping (chapter 10): rack sync and the trigger, launch, steps with their held inputs, compare units,
record control and re-grading. -/

namespace Sys2Proof.Machine

def raiseConflict (addr holder : Nat) (m : Master) (s : State) : State :=
  raise { die := addr / 0x4000000, code := 0x0005, p0 := addr, p1 := holder, p2 := masterCode m } s

/-! ## Rack sync and trigger (R297–R299) -/

def syncSrc (s : State) : Nat := regF s (aGct 0 0x10) 1 0
def syncLimit (s : State) : Nat := regF s (aGct 0 0x24) 11 0
def syncDelay (s : State) : Nat := regF s (aGct 0 0x14) 11 0
def aSync : Nat := aGct 0 0x20

/-- The error of an edge that comes now. -/
def syncError (s : State) : Int := (s.clk.count : Int) - ((s.clk.expect + syncDelay s : Nat) : Int)

/-- A 16-bit two's complement field, saturating. -/
def err16 (e : Int) : Nat :=
  let v := max (-32767) (min 32767 e)
  (if v < 0 then v + 65536 else v).toNat

/-- Sync is lost: no correction until software arms again; at LEVEL_TIME a step fault of every running job. -/
def syncLost (s : State) : State :=
  let missed := regF s aSync 19 16
  let s := putRegF aSync 31 31 0 (hwSetF aSync 30 1 { s with clk := { s.clk with acquired := false, good := 0, adjust := 0, owed := false, early := false } })
  let s := raise { die := 0, code := 0x0601, p0 := regF s aSync 15 0, p1 := missed } s
  if level s = 2 then (List.range 8).foldl (fun s x => if launched s x then stepFault x 3 s else s) s else s

/-- A pulse counts as missing; eight in a row lose sync (R297, R298). -/
def countMissing (s : State) : State :=
  let n := regF s aSync 19 16 + 1
  let s := putRegF aSync 19 16 n { s with clk := { s.clk with good := 0 } }
  if 8 ≤ n then syncLost s else s

/-- The window of the expected pulse is over without an edge in it: the pulse is missing, unless an edge that came early
has counted as it; an edge still to come late is the same pulse (DEDUCED, log entry 116). -/
def pulseMissing (s : State) : State :=
  let was := s.clk.early
  let s := { s with clk := { s.clk with expect := (s.clk.expect + 1000000) % 2 ^ 64, owed := !was, early := false } }
  if was then s else countMissing s

/-- A pulse within the window: its error, the correction of the next interval, and lock. -/
def pulseInWindow (s : State) : State :=
  let e := syncError s
  let good := if e.natAbs ≤ 4 then s.clk.good + 1 else 0
  let s := putRegF aSync 15 0 (err16 e) (putRegF aSync 19 16 0 s)
  let s := if e.natAbs > 4 then putRegF aSync 31 31 0 s else if 4 ≤ good then putRegF aSync 31 31 1 s else s
  let n : Int := min 64 e.natAbs
  let fix := if e.natAbs < 2 then 0 else if e < 0 then n else -n
  let s := { s with clk := { s.clk with
    good, expect := (s.clk.expect + 1000000) % 2 ^ 64, adjust := fix, adjustAt := s.clk.t, owed := false, early := false } }
  if fix = 0 then s else ndc 11 0 s

/-- The pulse that an acquisition waits for: the counter is loaded, unless that would move it backward. -/
def acquire (s : State) : State :=
  let next := reg64 s (aGct 0 0x18)
  let v := next + syncDelay s
  let s := { s with clk := { s.clk with armed := false } }
  if s.clk.count ≤ v && v < 2 ^ 64 then
    putRegF aSync 19 16 0 { s with clk := { s.clk with
      count := v, acquired := true, expect := (next + 1000000) % 2 ^ 64, good := 0, adjust := 0, owed := false, early := false } }
  else hwSetF aSync 29 1 { s with clk := { s.clk with acquired := false } }

/-- The window of the expected count is over (R297). -/
def windowOver (s : State) : Bool := s.clk.expect + syncLimit s < s.clk.count

/-- The pulses whose windows are over are missing: at most the eight that lose sync. -/
def passWindows : Nat → State → State
  | 0, s => s
  | n + 1, s => if s.clk.acquired && windowOver s then passWindows n (pulseMissing s) else s

/-- An edge outside every window is ignored and counts as a missing pulse, once for its pulse; the expected count stands
(R297). Where the window before it closed without its edge, it is that pulse's, which has counted (DEDUCED, log entry
116). -/
def strayEdge (s : State) : State :=
  if s.clk.owed then { s with clk := { s.clk with owed := false } }
  else countMissing { s with clk := { s.clk with early := true } }

/-- An edge after acquisition. Within the window an error above the limit loses sync (R298). -/
def judgeEdge (s : State) : State :=
  let s := passWindows 8 s
  if !s.clk.acquired then s
  else if s.clk.count + syncLimit s < s.clk.expect then strayEdge s
  else if (syncError s).natAbs > syncLimit s then
    syncLost (putRegF aSync 15 0 (err16 (syncError s)) s)
  else pulseInWindow s

def execSyncPulse (s : State) : Outcome :=
  onlyIf (fun s => syncSrc s = 1) (fun s =>
    if s.clk.armed then acquire s
    else if !s.clk.acquired then s
    else judgeEdge s) s

def execSyncPulseMissing (s : State) : Outcome :=
  onlyIf (fun s => syncSrc s = 1 && s.clk.acquired && !s.clk.armed && windowOver s) pulseMissing s

/-- Some context is launched or armed. -/
def anyBusy (s : State) : Bool := anyLaunched s

def execGctSyncArm (m : Master) (d : Die) (v : Word) (s : State) : Outcome := arriveAt m (aGct d 0x10) v s

/-- A write to GCT_SYNC_CTRL, at the end of its window: SYNC_IN is claimed by one mode at a time. -/
def effSyncCtrl (m : Master) (locked : Bool) (v : Nat) (s : State) : State :=
  let old := syncSrc s
  let want := bitsOf v 1 0
  if !locked && want ≠ old && old ≠ 0 && (want = 1 || want = 2) then raiseConflict (aGct 0 0x10) (if old = 1 then 7 else 8) m s
  else
    let s := if locked || want = 3 then s else putRegF (aGct 0 0x10) 1 0 want s
    let s := if syncSrc s = 1 then s else { s with clk := { s.clk with armed := false, acquired := false, adjust := 0 } }
    if bitsOf v 31 31 = 1 && syncSrc s = 1 && !anyBusy s then { s with clk := { s.clk with armed := true } } else s

/-- A rising edge on SYNC_IN in trigger mode; one within 1 µs of the previous recognised edge is ignored (R444). -/
def execTrigger (s : State) : Outcome :=
  onlyIf (fun s => syncSrc s = 2 && (match s.clk.trigAt with | some t => t + 1000 ≤ s.now | none => true)) (fun s =>
    let s := { s with clk := { s.clk with trigAt := some s.now } }
    outsideIrq 0 67 (if s.clk.replaying then dropLive 0 s
      else capture 0 6 (natLE 8 s.clk.count) (putReg64 (aGct 0 0x28) s.clk.count s))) s

/-! ## Launch (R300–R302) -/

def aLaunch : Nat := aGct 0 0x38
def launchArmed (s : State) : Bool := regF s aLaunch 31 31 = 1

def aCmpCtrl (d k : Nat) : Nat := aGct d (0x308 + 0x10 * k)
/-- Software holds a compare unit: EN = 1. -/
def softHolds (s : State) (d k : Nat) : Bool := regF s (aCmpCtrl d k) 31 31 = 1
def holdUnit (d k v : Nat) (s : State) : State := putRegF (aCmpCtrl d k) 30 30 v s

/-- A log header does not fit the launch (R315). -/
def logHeaderBad (s : State) (x : Nat) (b : List Byte) : Bool :=
  let grade (g : Nat) : Nat := if g = 0 then 0 else 1
  fld b 0 31 24 ≠ 1 || wordAt b 4 ≠ ringJob s x || fld b 0x10 15 14 ≠ level s || fld b 0x10 7 0 ≠ (ringN s x + 255) % 256 ||
    grade (fld b 0x10 13 12) ≠ grade s.boot.grade

/-- The arming of context x is the arming of a replay. -/
def replays (s : State) (x : Nat) : Bool := recMode s = 2 && recCtx s = x

/-- The headers of all dies are read through the decoder and checked; one that cannot be read does not fit. -/
def checkHeaders (x : Nat) (s : State) : State × Bool :=
  (List.range 8).foldl (fun (acc : State × Bool) d =>
    match hbmRead (agReplay d) (some x) d (captureBase acc.1) 64 acc.1 with
    | (s, some b) => (s, acc.2 || logHeaderBad s x b)
    | (s, none) => (s, true)) (s, false)

/-- The last STEP among the next n records of die 0's log: its SEQ and TICK. -/
def lastStep (s : State) : Nat → Nat → Option (Nat × Nat) → Option (Nat × Nat)
  | 0, _, best => best
  | n + 1, o, best =>
    let h := hbmPeek (agReplay 0) 0 (captureBase s + o) 16 s
    if fld h 0 31 24 = 0x0F then best
    else lastStep s n (o + recordSize (fld h 0 15 0)) (if fld h 0 31 24 = 0x0E then some (wordAt h 4, dwordAt h 8) else best)

/-- Where a replay stops short of END: at the last STEP, where some die's header says that its log overflowed (R314). -/
def stopAt (s : State) : Option (Option (Nat × Nat)) :=
  if (List.range 8).any fun d => fld (hbmPeek (agReplay d) d (captureBase s) 64 s) 0x2C 0 0 = 1 then
    some (lastStep s (wordAt (hbmPeek (agReplay 0) 0 (captureBase s) 64 s) 0x28) 256 none)
  else none

/-- The replay begins: every die's log from its first record on (R312, R315). -/
def replayStart (s : State) : State :=
  (List.range 8).foldl (fun s d =>
      putReg64 (aGct d 0x58) 256 (putRegF (aGct d 0x54) 31 30 0
        { s with clk := { s.clk with logAt := mapSet 0 s.clk.logAt d 256 } }))
    { s with clk := { s.clk with replaying := true, logDone := [], skewed := [], recordBuf := [], replayStop := stopAt s } }

/-- Every die's log shows MISMATCH, and UNIT_HELD where that is why. -/
def markMismatch (unit : Bool) (s : State) : State :=
  (List.range 8).foldl (fun s d => putRegF (aGct d 0x54) 29 28 (2 + bit unit 0) s) s

/-- Why an arming write is refused: the first cause in the order of R301. -/
def armRefused (s : State) (x : Nat) : Nat :=
  let timed := level s = 2
  if reg64 s (aGct 0 0x30) < s.clk.count + 10000 then 1
  else if launchArmed s || launched s x || (timed && (List.range 8).any (launched s)) || softHolds s 0 7 || (timed && softHolds s 0 6) then 2
  else if timed && (ringOf s x).st ≠ 0 && 1 < ringN s x && regF s aSync 31 31 = 0 then 3
  else if timed && reg64 s (aGct 0 0x40) < 1000000 then 4
  else 0

/-- The holder code of the compare unit that refuses an arming: software, or the step boundaries of a launch (R318, R391). -/
def unitHeldBy (s : State) : Option Nat :=
  let timed := level s = 2
  if softHolds s 0 7 || (timed && softHolds s 0 6) then some 4
  else if timed && s.clk.unit6.isSome then some 2
  else none

/-- The holder that an arming write of context x meets, where that refuses it (R301, R392). -/
def armConflict (s : State) (x : Nat) : Option Nat := if armRefused s x = 2 then unitHeldBy s else none

/-- An arming write that meets no conflict. -/
def armLaunch (x : Nat) (s : State) : State :=
  let s := putRegF aLaunch 2 0 x s
  let r := armRefused s x
  let s := putRegF aLaunch 11 8 r s
  let (s, bad) := if r = 0 && replays s x then checkHeaders x s else (s, false)
  if r ≠ 0 then s
  else if bad then markMismatch false s
  else
    let s := setCtxSt x 1 (putRegF aLaunch 31 31 1 (holdUnit 0 7 1 s))
    let s := if level s = 2 then holdUnit 0 6 1 { s with clk := { s.clk with unit6 := some x } } else s
    let s := { s with clk := { s.clk with launchAt := mapSet 0 s.clk.launchAt x (reg64 s (aGct 0 0x30)), closed := s.clk.closed.filter (· ≠ x) } }
    if recMode s = 1 && recCtx s = x then recordStart s else if replays s x then replayStart s else s

/-- The END of a write to GCT_LAUNCH_CTRL. -/
def endWrite (v : Nat) (s : State) : State :=
  let x := bitsOf v 2 0
  if bitsOf v 30 30 = 1 && launched s x then
    putRegF aLaunch 30 30 1 { s with clk := { s.clk with ends := if s.clk.ends.contains x then s.clk.ends else s.clk.ends ++ [x] } }
  else s

/-- A write to GCT_LAUNCH_CTRL, at the end of its window. One that claims a held unit leaves every field but RESULT as it
was (R392). A 1 written to ARM in the launch's own tick has no effect (R301; R19 says less, log entry 128). -/
def effLaunchCtrl (m : Master) (v : Nat) (s : State) : State :=
  let x := bitsOf v 2 0
  if launchArmed s then endWrite v s
  else if bitsOf v 31 31 = 1 then
    match armConflict s x with
    | some h => raiseConflict aLaunch h m (putRegF aLaunch 11 8 2 s)
    | none => endWrite v (armLaunch x s)
  else endWrite v (putRegF aLaunch 2 0 x s)

def execLaunchArm (m : Master) (d : Die) (v : Word) (s : State) : Outcome := arriveAt m (aGct d 0x38) v s
def execLaunchEnd (m : Master) (d : Die) (v : Word) (s : State) : Outcome := arriveAt m (aGct d 0x38) v s

/-- A held tail or doorbell takes effect: the register takes the value that was written. -/
def applyHeld (h : HeldIn) (s : State) : State :=
  match findReg h.addr with
  | some (r, i, _, _) =>
    let s := putReg h.addr (r.write true (reg s h.addr) h.v.toNat) s
    if r.kind = .cmdTail then setPending 0 (32 + i) s else if r.kind = .evHead then evFlush i s else s
  | none => s

/-- Held inputs of a context take effect in the order written. -/
def releaseHeldIn (x : Nat) (ok : HeldIn → Bool) (s : State) : State :=
  let (go, stay) := s.clk.held.partition fun h => h.ctx = x && ok h
  go.foldl (fun s h => applyHeld h s) { s with clk := { s.clk with held := stay } }

/-- START entries of a context that waited at the head of a start queue for the launch (R300): they take effect with
it even where step 0 is already closed (DEDUCED, log entry 33). -/
def takeHeads (x e : Nat) : Nat → State → State
  | 0, s => s
  | n + 1, s =>
    if !sqWaiting e s then s
    else
      sqRead e (fun b s =>
        if sqOp b = 0x20 && sqCtx b = x && (getTctx s e (sqTctx b)).st = 0 then takeHeads x e n (takeStart e b s) else s) s

/-- The tiles on which task contexts of a context are at work. -/
def tilesAtWork (s : State) (x : Nat) : List Nat :=
  (s.tiles.filter fun t => t.2.tctx.any fun c => c.2.ctx = x && c.2.st ≠ 0).map (·.1)

/-- Package sums of the nondeterminism counters (R317). -/
def ndcSums (s : State) : List Nat :=
  (List.range 16).map fun k => (List.range 8).foldl (fun a d => a + reg s (aGct d (0x200 + 4 * k))) 0

/-- The launch of the armed context (R300). -/
def doLaunch (s : State) : State :=
  let x := regF s aLaunch 2 0
  let wasClosed := s.clk.closed.contains x
  let s := putRegF aLaunch 31 31 0 (holdUnit 0 7 0 s)
  let s := setCtxSt x (if wasClosed then 3 else 2) { s with clk := { s.clk with
    steps := mapSet 0 s.clk.steps x 0, ran := mapSet [] s.clk.ran x (tilesAtWork s x), ndcAt := mapInsert s.clk.ndcAt x (ndcSums s),
    closed := s.clk.closed.filter (· ≠ x) } }
  let s := if level s = 2 then restartEpoch s else s
  let s := if s.clk.replaying && replays s x then putRegF (aCtxSt x) 26 26 1 s else s
  let s := releaseHeldIn x (fun h => !h.after) s
  if wasClosed then ((List.range 320).filter fun e => e % 40 < tilesPerDie s).foldl (fun s e => takeHeads x e 16 s) s else s

def execLaunch (s : State) : Outcome :=
  onlyIf (fun s => launchArmed s && mapGet 0 s.clk.launchAt (regF s aLaunch 2 0) ≤ s.clk.count) doLaunch s

/-! ## Steps (R303–R306) -/

def execGctStepClose (m : Master) (d : Die) (x : Ctx) (s : State) : Outcome := arriveAt m (aGct d 0x48) (BitVec.ofNat 32 x.val) s

/-- A close of the current step, at the end of its window. -/
def effStepClose (x : Nat) (s : State) : State :=
  if ctxSt s x = 2 then setCtxSt x 3 s
  else if ctxSt s x = 1 && !s.clk.closed.contains x then { s with clk := { s.clk with closed := s.clk.closed ++ [x] } }
  else s

/-- A write to a held register of a context (R300, R304). -/
def holdInput (x addr : Nat) (v : Word) (s : State) : State :=
  { s with clk := { s.clk with held := s.clk.held ++ [{ ctx := x, addr, v, after := ctxSt s x = 3 || s.clk.closed.contains x }] } }

/-- A stream is inactive and its queue slots are EMPTY. -/
def streamIdle (s : State) (e q : Nat) : Bool :=
  let st := getStream s e q
  st.q.all (·.ended) && (getTag s e (queueSlot q 0)).st = 0 && (getTag s e (queueSlot q 1)).st = 0

/-- The context is idle (R303). -/
def ctxIdle (s : State) (x : Nat) : Bool :=
  (s.tiles.all fun t => t.2.tctx.all fun c => c.2.ctx ≠ x || c.2.st = 0) &&
    ((mapGet [] s.clk.ran x).all fun e => (List.range 6).all (streamIdle s e)) &&
    ((List.range 64).all fun r => rowCtx s r ≠ x ||
      ((getRow s r).run.isNone && regF s (aRow (r / 8) (r % 8) 0x1C) 11 0 % 2 ^ rowLog s r = reg s (aRow (r / 8) (r % 8) 0x20))) &&
    (carHead s x = carTail s x % 2 ^ carLog s x && (ringOf s x).live.isEmpty) &&
    (opqEmpty s x && (getOp s x).isNone) &&
    (s.host.cmds.all fun c => match c.2.src with | .ring r => r.val ≠ x + 1 | .core _ => true)

/-- The step advances: STEP is recorded, held inputs take effect, and a launch whose END was written ends. -/
def advance (x : Nat) (s : State) : State :=
  let n := stepOf s x + 1
  let sums := ndcSums s
  let before := (mapLookup s.clk.ndcAt x).getD (List.replicate 16 0)
  let diff := (sums.zip before).map fun (a, b) => a - b
  let s := setCtxSt x 2 { s with clk := { s.clk with
    steps := mapSet 0 s.clk.steps x n, ran := mapSet [] s.clk.ran x [], ndcAt := mapInsert s.clk.ndcAt x sums } }
  let s := if recCtx s = x then capture 0 0x0E (natLE 8 n ++ wordsLE (bit (level s = 2 && diff.any (· ≠ 0)) 0 :: diff)) s else s
  let s := if s.clk.ends.contains x then endLaunch x 0 0 s else s
  releaseHeldIn x (fun _ => true) s

def execStepAdvance (x : Ctx) (s : State) : Outcome :=
  onlyIf (fun s => level s ≠ 2 && ctxSt s x = 3 && ctxIdle s x) (advance x) s

/-- The boundary tick of the step in progress at LEVEL_TIME. -/
def boundaryAt (s : State) (x : Nat) : Nat := mapGet 0 s.clk.launchAt x + (stepOf s x + 1) * reg64 s (aGct 0 0x40)

def execStepBoundary (x : Ctx) (s : State) : Outcome :=
  onlyIf (fun s => level s = 2 && launched s x && (mapLookup s.fab.aborts x).isNone && boundaryAt s x ≤ s.clk.count) (fun s =>
    if ctxSt s x = 3 && ctxIdle s x then advance x s else stepFault x 1 s) s

/-! ## Record control (R310, R315, R391) -/

def execGctRecCtrl (m : Master) (d : Die) (v : Word) (s : State) : Outcome := arriveAt m (aGct d 0x50) v s

/-- A write to GCT_REC_CTRL, at the end of its window. -/
def effRecCtrl (m : Master) (v : Nat) (s : State) : State :=
  let mode := if bitsOf v 1 0 = 3 then recMode s else bitsOf v 1 0
  if anyBusy s then s
  else if mode ≠ 0 && regF s (aLcc 0 0 0x104) 0 0 = 1 then raiseConflict (aGct 0 0x50) 6 m s
  else if mode = 2 && recMode s ≠ 2 && (List.range 8).any (fun d => softHolds s d 5) then
    raiseConflict (aGct 0 0x50) 4 m (markMismatch true s)
  else
    let s := putRegF (aGct 0 0x50) 4 2 (bitsOf v 4 2) s
    let s := putRegF (aGct 0 0x50) 1 0 mode s
    let s := (List.range 8).foldl (fun s d => putRegF (aGct d 0x54) 29 28 0 (holdUnit d 5 (bit (recMode s = 2) 0) s)) s
    s

/-! ## Compare units (R318) -/

def execGctCompare (d : Die) (k : Fin 8) (s : State) : Outcome :=
  onlyIf (fun s => softHolds s d k && reg64 s (aGct d (0x300 + 0x10 * k)) ≤ s.clk.count) (fun s =>
    raise { die := d, code := 0x0603, p0 := d, p1 := k } (hwPutF (aCmpCtrl d k) 31 31 0 s)) s

def execCompareEnable (m : Master) (d : Die) (k : Fin 8) (s : State) : Outcome :=
  arriveAt m (aCmpCtrl d k) (BitVec.ofNat 32 (2 ^ 31)) s

/-- The holder of a compare unit that a feature claimed (R391). -/
def unitHolder (k : Nat) : Nat := if k = 7 then 1 else if k = 6 then 2 else 3

/-- A write to GCT_CMPk_CTRL, at the end of its window. -/
def effCmpCtrl (m : Master) (d k v : Nat) (s : State) : State :=
  let a := aCmpCtrl d k
  if bitsOf v 31 31 = 1 && regF s a 30 30 = 1 then raiseConflict a (unitHolder k) m s
  else putRegF a 31 31 (bitsOf v 31 31) s

/-! ## Re-grading (R320, R321) -/

def execRegradeGo (m : Master) (d : Die) (v : Word) (s : State) : Outcome := arriveAt m (aGct d 0x60) v s

def regradeMask (s : State) (d : Nat) : Nat := reg64 s (aGct d 0x68) % 2 ^ 40

/-- The physical tile of a logical tile (R319): on a 288-engine part the good ones in ascending order. -/
def physTile (s : State) (d t : Nat) : Nat :=
  if s.boot.grade = 0 then t
  else (((List.range 40).filter fun p => bitsOf (mapGet 0 s.boot.fuseMasks d) p p = 0)[t]?).getD t

/-- A mask has four bits and names every fenced tile of its die. -/
def maskOk (s : State) (d : Nat) : Bool :=
  let m := regradeMask s d
  ((List.range 40).filter fun t => bitsOf m t t = 1).length = 4 &&
    (List.range 40).all fun t => regF s (aTil d t 0x810) 31 31 = 0 || bitsOf m t t = 1

/-- CAUSE with which GO is refused. -/
def regradeBad (s : State) : Nat :=
  if s.boot.grade ≠ 0 then 1
  else if !(List.range 8).all (maskOk s) then 2
  else if (List.range 8).any (ctxOpen s) || s.setup.committed || s.setup.locking then 3
  else if (List.range 8).any fun d => mapGet 0 s.boot.fuseMasks d ≠ 0 && mapGet 0 s.boot.fuseMasks d ≠ regradeMask s d then 4
  else 0

/-- A write to GCT_REGRADE_CTRL, at the end of its window: the mask fuses burn first, the grade fuse last. -/
def effRegrade (v : Nat) (s : State) : State :=
  let a := aGct 0 0x64
  let st := regF s a 9 8
  if bitsOf v 0 0 = 0 || bitsOf v 31 16 ≠ 0x5A38 || st = 1 || st = 2 then s
  else
    let c := regradeBad s
    if c ≠ 0 then putReg a (3 * 2 ^ 8 + c) s
    else
      let masks := (List.range 8).foldl (fun m d => mapInsert m d (regradeMask s d)) []
      putReg a (2 ^ 8) { s with boot := { s.boot with fuseMasks := masks } }

end Sys2Proof.Machine
end

