-- ==== Sys2Proof/Machine/Host.lean ====
section
/-! DEFINITION. The Crewin host interface: the link (R349–R351), what the host reaches (R352–R354), ring sets and
doorbells (R355–R358), interrupt messages (R366), version negotiation (R367), set-up commit (R375), opening a context
(R374), allotments (R241) and the commands that move bytes (R361). -/

namespace Sys2Proof.Machine

/-! ## The link (R350, R351) -/

/-- The boot state that IDENT reports. -/
def bootCode (s : State) : Nat :=
  if s.host.negotiated then 5
  else
    let g := bootStage s
    if g ≤ 5 then 0 else if g = 6 then 3 else if g = 7 then 4 else if g = 8 then 1 else 2

/-- The package's IDENT flit: link protocol version 1.0, and the fingerprint that SEC_ID_FP shows, zero before the identity
key is derived (R350, R425; DEDUCED, log entry 129). -/
def identFlit (s : State) : Out :=
  .hostIdent (wordsLE [reg s (aSec 0 0x40), reg s (aSec 0 0x44)]) 1 0 (bootCode s)

/-- A further IDENT flit is sent where the boot state has changed since `old`. -/
def sayBoot (old : Nat) (s : State) : State :=
  if s.host.link = 3 && bootCode s ≠ old then emit (identFlit s) s else s

def execHostLinkTrain (aligned : Bool) (s : State) : Outcome :=
  onlyIf (fun s => s.host.link = 1) (fun s => if aligned then { s with host := { s.host with link := 2 } } else s) s

/-- The link is UP: IDENT is exchanged, what waited is sent, and losses of the link are reported to the host. -/
def linkUp (s : State) : State :=
  let s := emit (identFlit s) { s with host := { s.host with link := 3 } }
  let posts := s.host.held
  let downs := s.host.downDue
  let s := posts.foldl (fun s o => emit o s) { s with host := { s.host with held := [], downDue := [] } }
  downs.foldl (fun s x => evHost { die := 0, code := 6, p0 := x.2, at_ := some x.1 } s) s

def execHostIdent (s : State) : Outcome := onlyIf (fun s => s.host.link = 2) linkUp s

/-- The link is lost and trains again. -/
def linkLost (s : State) : State :=
  let s := bump (aHlk 0x8C) { s with host := { s.host with link := 1 } }
  let n := reg s (aHlk 0x8C)
  raise { die := 0, code := 6, p0 := n } { s with host := { s.host with downDue := s.host.downDue ++ [(s.clk.count, n)] } }

def execHostLinkDown (s : State) : Outcome := onlyIf (fun s => s.host.link = 3) linkLost s

def execFlitReplay (s : State) : Outcome := onlyIf (fun s => s.host.link = 3) (bump (aHlk 0x88)) s

/-! ## Accesses to host memory (R351, R361) -/

def getAcc (s : State) (a : Nat) : Option Access := mapLookup s.host.accs a

/-- Issues an access; bytes are those of a write. -/
def issueAcc (c : Nat) (p : Purpose) (addr len off : Nat) (bytes : Option (List Byte)) (s : State) : State :=
  let a := s.host.nextAcc
  let x : Access := { cmd := c, purpose := p, write := bytes.isSome, addr, len, off, issued := s.now }
  let s := { s with host := { s.host with accs := mapInsert s.host.accs a x, nextAcc := a + 1 } }
  hostPost (match bytes with | some b => .hostStore a addr b | none => .hostRead a addr len) s

/-- A read that no command waits for, with a number of its own. -/
def askHost (addr len : Nat) (s : State) : State :=
  let a := s.host.nextAcc
  hostPost (.hostRead a addr len) { s with host := { s.host with nextAcc := a + 1 } }

/-- A load is refused at command time: a swap then has no commit point, and requests after it stay bound to the current
generation (R188, R335). -/
def refuseLoad (x status detail : Nat) (s : State) : State :=
  match (getLoad s x).job with
  | none => s
  | some j =>
    let g := recGen j.record
    let back (c : Nat × Cmd) : Nat × Cmd :=
      if cmdOp c.2 = 0x19 && cmdCtx c.2 = x && c.2.aux = g then (c.1, { c.2 with aux := (getLoad s x).genCur }) else c
    let s := if j.swap then { s with host := { s.host with cmds := s.host.cmds.map back } } else s
    let clear (l : LoadS) : LoadS := if j.swap then { l with job := none, newValid := false, swapCommitted := false } else { l with job := none }
    completeCmd j.cmd status detail (modLoad x clear s)

/-- An access fails: its command completes with HOST_ACCESS_FAULT. -/
def failAccess (q : Access) (s : State) : State :=
  match q.purpose, getCmd s q.cmd with
  | .manifest, some x => refuseLoad (cmdCtx x) 9 q.off s
  | .firmware, some _ => completeCmd q.cmd 9 q.off (putRegF (aSec 0 0x10) 31 29 4 s)
  | _, _ => completeCmd q.cmd 9 q.off s

def execHostAccessTimeout (a : Nat) (s : State) : Outcome :=
  onlyIf (fun s => match getAcc s a with | some x => x.issued + reg s (aHlk 0x80) ≤ s.now | none => false) (fun s =>
    match getAcc s a with
    | some x => failAccess x (dropAccs (fun b _ => b == a) s)
    | none => s) s

/-! ## Pieces of a transfer: COPY in 4 KiB units over the dies, and REQUEST -/

def copyUnits (n : Nat) : Nat := (n + 4095) / 4096
def copyUnitLen (n i : Nat) : Nat := min 4096 (n - 4096 * i)

def agCmd (x : Nat) : Agent := .command (Fin.ofNat 8 x)

/-- Reads bytes of this package for a command; `none` where a unit is uncorrectable. Tags are ignored (R124). -/
def cmdRead (x : Nat) (ga n : Nat) (s : State) : State × Option (List Byte) :=
  match placeRun s ga n with
  | .hbm d h => hbmRead (agCmd x) (some x) d h n s
  | .scr d t o => (s, some (readScr (engine d t) o n s))
  | _ => (s, some (List.replicate n 0))

def hostOf (x : Cmd) : Nat :=
  match cmdOp x with
  | 0x18 => cmdA64 x 2
  | _ => cmdA64 x 0

/-- Starts piece i of a command. -/
def startPiece (c i : Nat) (s : State) : State :=
  match getCmd s c with
  | none => s
  | some x =>
    match cmdOp x with
    | 0x17 =>
      let n := copyUnitLen (cmdA x 4) i
      issueAcc c (.copyIn (gaOfCopy x + 4096 * i)) (hostOf x + 4096 * i) n (4096 * i) none s
    | 0x18 =>
      let n := copyUnitLen (cmdA x 4) i
      match cmdRead (cmdCtx x) (gaOfCopy x + 4096 * i) n s with
      | (s, some b) => issueAcc c .copyOut (hostOf x + 4096 * i) n (4096 * i) (some b) s
      | (s, none) => completeCmd c 0xA 0 s
    | _ =>
      if x.phase = 2 then issueAcc c .requestIn (cmdA64 x 0 + 4096 * i) (copyUnitLen (cmdA x 2) i) (4096 * i) none s
      else
        let n := copyUnitLen (cmdA x 5) i
        let (k, s) := freshNo s
        issueAcc c .requestOut (cmdA64 x 3 + 4096 * i) n (4096 * i) (some ((List.range n).map (Config.requestOutput k))) s

/-- A transfer of `n` bytes starts, `w` pieces at a time. -/
def startPieces (c n w : Nat) (s : State) : State :=
  let m := copyUnits n
  (List.range (min m w)).foldl (fun s i => startPiece c i s) (modCmd c (fun x => { x with phase := max 2 x.phase, left := m }) s)

/-- The output of a request is written, or the request is complete where it has none. -/
def startOutput (c : Nat) (s : State) : State :=
  match getCmd s c with
  | some x => if cmdA x 5 = 0 then completeCmd c 0 0 s else startPieces c (cmdA x 5) 1 (modCmd c (fun x => { x with phase := 3 }) s)
  | none => s

/-- A request is served: its input is read (R187). -/
def serveRequest (c : Nat) (s : State) : State :=
  match getCmd s c with
  | some x => if cmdA x 2 = 0 then startOutput c s else startPieces c (cmdA x 2) 1 s
  | none => s

/-- One piece is done; the next of the same lane starts. -/
def pieceDone (c i n w : Nat) (last : State → State) (s : State) : State :=
  let s := modCmd c (fun x => { x with left := x.left - 1 }) s
  let s := if i + w < copyUnits n then startPiece c (i + w) s else s
  match getCmd s c with
  | some x => if x.left = 0 then last s else s
  | none => s

/-- An access that moves bytes for a command completes: read data arrive, or the adapter has taken or refused a write. What a
command reads for itself is taken by `accessTaken`. -/
def accessDone (a : Nat) (ok : Bool) (data : List Byte) (s : State) : State :=
  match getAcc s a with
  | none => s
  | some q =>
    let s := { s with host := { s.host with accs := mapErase s.host.accs a } }
    if !ok then failAccess q s
    else
      match getCmd s q.cmd with
      | none => s
      | some x =>
        let i := q.off / 4096
        let k := cmdCtx x
        match q.purpose with
        | .allotResult id => completeCmd q.cmd 0 id s
        | .ringRecord | .loadRecord | .manifest | .nonce | .firmware => s
        | .report n => completeCmd q.cmd 0 n s
        | .copyIn ga =>
          let w := s.hbm.nextWid
          let s := hostBytes (agCmd k) (some k) ga data s
          let s := modCmd q.cmd (fun x => { x with wids := x.wids ++ (if s.hbm.nextWid = w then [] else [w]) }) s
          pieceDone q.cmd i (cmdA x 4) 8 settleCopies s
        | .copyOut => pieceDone q.cmd i (cmdA x 4) 8 (completeCmd q.cmd 0 0) s
        | .requestIn =>
          let (n, s) := freshNo s
          let w := s.hbm.nextWid
          let s := hostBytes (agCmd k) (some k) (Config.requestBuffer n).toNat data s
          let s := modCmd q.cmd (fun x => { x with wids := x.wids ++ (if s.hbm.nextWid = w then [] else [w]) }) s
          pieceDone q.cmd i (cmdA x 2) 1 (startOutput q.cmd) s
        | .requestOut => pieceDone q.cmd i (cmdA x 5) 1 (completeCmd q.cmd 0 0) s

/-! ## Apertures (R352–R354) -/

def apertureOk (off n : Nat) : Bool := [4, 8, 16, 32, 64].contains n && off % n = 0 && off + n ≤ 2 ^ 32

def execApertureWrite (k : Fin 4) (off : Nat) (data : List Byte) (s : State) : Outcome :=
  onlyIf (fun s => s.host.link = 3 && apertureOk off data.length) (linkWrite (.aperture k off data)) s

def execApertureRead (k : Fin 4) (off len : Nat) (s : State) : Outcome :=
  onlyIf (fun s => s.host.link = 3 && s.pwr.state = 0 && apertureOk off len) (fun s =>
    match (apertureAt s k off len).map (placeOf s) with
    | some (.hbm d h) =>
      match hbmRead .host none d h len s with
      | (s, some b) => emit (.aperture b false) s
      | (s, none) => emit (.aperture (List.replicate len 0xFF) true) s
    | some (.scr d t o) => emit (.aperture (readScr (engine d t) o len s) false) s
    | _ => emit (.aperture (List.replicate len 0xFF) true) s) s

/-! ## Ring sets and doorbells (R355–R358, R376) -/

def getRing (s : State) (r : Nat) : Option RingS := mapLookup s.host.rings r
def putRing (r : Nat) (g : RingS) (s : State) : State := { s with host := { s.host with rings := mapInsert s.host.rings r g } }
def aBell (r off : Nat) : Nat := aHlk (0x10000 + 0x1000 * r + off)

/-- Opens a ring set: indexes at 0, nothing lost. -/
def openRing (r : Nat) (g : RingS) (s : State) : State :=
  putReg (aHlk (0x104 + 0x10 * r)) 0 (putReg (aBell r 4) 0 (putReg (aBell r 8) 0 (putRing r g s)))

def closeRing (r : Nat) (s : State) : State := { s with host := { s.host with rings := mapErase s.host.rings r } }

/-- A write to HLK_CTRL, at the end of its window. The ROM in RECOVERY tells the host so once the rings are open (R426). -/
def effHlkCtrl (v : Nat) (locked : Bool) (s : State) : State :=
  let was := regF s (aHlk 4) 0 0
  let en := bitsOf v 0 0
  let s :=
    if locked || en = was then s
    else if en = 0 then closeRing 0 (putReg (aHlk 4) 0 s)
    else
      let z := reg s (aHlk 0x58)
      let s := openRing 0 {
        cmdBase := reg64 s (aHlk 0x40), cplBase := reg64 s (aHlk 0x48), evBase := reg64 s (aHlk 0x50),
        cmdLog := bitsOf z 3 0, cplLog := bitsOf z 7 4, evLog := bitsOf z 11 8 } (putReg (aHlk 4) 1 s)
      if bootStage s = 8 then evHost { die := 0, code := 0x0702 } s else s
  if bitsOf v 31 31 = 1 && s.host.link ≠ 0 then linkLost s else s

def execHostRetrain (m : Master) (s : State) : Outcome :=
  arriveAt m (aHlk 4) (BitVec.ofNat 32 (2 ^ 31 + regF s (aHlk 4) 0 0)) s
def execAdmEnable (m : Master) (en : Bool) (s : State) : Outcome := arriveAt m (aHlk 4) (BitVec.ofNat 32 (bit en 0)) s

def execCmdTail (m : Master) (r : RingSet) (v : Word) (s : State) : Outcome := arriveAt m (aBell r.val 0) v s
def execCplHead (m : Master) (r : RingSet) (v : Word) (s : State) : Outcome := arriveAt m (aBell r.val 4) v s
def execEvHead (m : Master) (r : RingSet) (v : Word) (s : State) : Outcome := arriveAt m (aBell r.val 8) v s

/-- A CMD_TAIL doorbell takes effect: the index, and the interrupt of the ring set (R357, R384). -/
def effCmdTail (r v : Nat) (s : State) : State := setPending 0 (32 + r) (putReg (aBell r 0) (v % 4096) s)
def effCplHead (r v : Nat) (s : State) : State := putReg (aBell r 4) (v % 4096) s
/-- An EV_HEAD doorbell frees entries; a due EVENTS_LOST entry goes first (R365). -/
def effEvHead (r v : Nat) (s : State) : State := evFlush r (putReg (aBell r 8) (v % 4096) s)

/-- Commands of a source that are fetched and not complete. -/
def outstanding (s : State) (x : CmdSrc) : List (Nat × Cmd) := s.host.cmds.filter (·.2.src == x)

/-- A completion entry can be reserved in a ring (R358): one entry is kept free, so that a full ring differs from an
empty one. -/
def canReserve (s : State) (r : RingSet) (g : RingS) : Bool :=
  let n := 2 ^ g.cplLog
  let used := (g.cplTail + n - regF s (aBell r.val 4) 11 0 % n) % n
  used + (outstanding s (.ring r)).length + 1 < n

/-- A swap that has been fetched and is neither accepted nor refused. -/
def swapOpen (s : State) (e : Nat × Cmd) : Bool :=
  cmdOp e.2 = 0x13 && (match (getLoad s (cmdCtx e.2)).job with | some j => j.cmd ≠ e.1 | none => true)

/-- The generation to which a request is bound as it is fetched, in ring order: the newest open swap ahead of it decides
(R186). -/
def bindingOf (s : State) (x : Cmd) : Nat :=
  match ((s.host.cmds.filter fun e => e.2.src = x.src && cmdCtx e.2 = cmdCtx x && swapOpen s e).getLast?) with
  | some e => awaits e.1
  | none => boundGen s (cmdCtx x)

/-- Enters a fetched command; a request is bound. -/
def enterCmd (src : CmdSrc) (key : Nat) (bytes : List Byte) (s : State) : State :=
  let n := mapGet 0 s.host.fetched key
  let x : Cmd := { src, words := toWords 16 bytes, seqNo := n }
  { s with host := { s.host with
    cmds := mapInsert s.host.cmds s.host.nextCmd (if cmdOp x = 0x19 then { x with aux := bindingOf s x } else x)
    nextCmd := s.host.nextCmd + 1, fetched := mapSet 0 s.host.fetched key (n + 1) } }

/-- The fetch index of a ring moves on. -/
def bumpFetch (r : Nat) (s : State) : State :=
  match getRing s r with
  | some g => putRing r { g with fetch := (g.fetch + 1) % 2 ^ g.cmdLog } s
  | none => s

/-- The next command of a ring may be fetched. In the boot stages before hand-off nothing serves the rings. -/
def mayFetchRing (s : State) (r : RingSet) : Bool :=
  match getRing s r.val with
  | none => false
  | some g => s.host.link = 3 && s.pwr.state = 0 && 6 ≤ bootStage s && regF s (aBell r.val 0) 11 0 % 2 ^ g.cmdLog ≠ g.fetch && canReserve s r g &&
      !(s.clk.replaying && r.val = recCtx s + 1)

/-- The next command of a core's port may be fetched: the one before has begun (R382). -/
def mayFetchCore (s : State) (c : Core) : Bool :=
  s.pwr.state = 0 && corePosted s c

def fetchCore (c : Core) (s : State) : State :=
  let d := c.val / 4
  let j := c.val % 4
  match readGa (agCmd 0) none (reg64 s (aLcc d j 0x20) + 64 * reg s (aLcc d j 0x30)) 64 s with
  | (s, some b) => enterCmd (.core c) (16 + c.val) b s
  | (s, none) => s

def execCommandFetch (src : CmdSrc) (bytes : List Byte) (s : State) : Outcome :=
  match src with
  | .ring r => onlyIf (fun s => mayFetchRing s r && bytes.length = 64) (fun s =>
      let g := (getRing s r.val).getD {}
      let s := askHost (g.cmdBase + 64 * g.fetch) 64 s
      let s := if r.val = recCtx s + 1 then capture 0 2 bytes s else s
      refuseReserved (enterCmd src r.val bytes (bumpFetch r.val s))) s
  | .core c => onlyIf (fun s => mayFetchCore s c) (fun s => refuseReserved (fetchCore c s)) s

def execIrqCoalesceExpiry (v : Fin 18) (s : State) : Outcome :=
  onlyIf (fun s => s.host.irqWait.contains v.val && mapGet 0 s.host.irqLast v.val + reg s (aHlk 0x84) ≤ s.now + 1) (fun s =>
    hostPost (.irq v.val) { s with host := { s.host with
      irqWait := s.host.irqWait.filter (· ≠ v.val), irqLast := mapSet 0 s.host.irqLast v.val (s.now + 1) } }) s

/-! ## NEGOTIATE, SETUP_COMMIT, CTX_OPEN, marks -/

def effNegotiate (c : Nat) (s : State) : State :=
  match getCmd s c with
  | none => s
  | some x =>
    if s.host.negotiated then completeCmd c 4 0 s
    else
      let major (i : Nat) : Nat := bitsOf (cmdA x i) 15 8
      match (List.range 5).find? (fun i => major i ≠ regF s (aHlk (0x10 + 4 * i)) 31 24) with
      | some i => completeCmd c 3 i s
      | none =>
        let old := bootCode s
        let s := (List.range 5).foldl (fun s i =>
          let a := aHlk (0x10 + 4 * i)
          putRegF a 15 0 (major i * 256 + min (bitsOf (cmdA x i) 7 0) (regF s a 23 16)) s) s
        sayBoot old (completeCmd c 0 0 { s with host := { s.host with negotiated := true } })

def execNegotiate (c : Nat) (s : State) : Outcome := cmdRow 0x01 c effNegotiate s

/-- A share setting that R257 admits. -/
def shareOk (v : Nat) : Bool :=
  let f (i : Nat) : Nat := bitsOf v (4 * i + 3) (4 * i)
  f 0 + f 1 + f 2 + f 3 + f 4 = 16 && 1 ≤ f 1 && 1 ≤ f 2 && 1 ≤ f 3 && 1 ≤ f 4

/-- The set-up address of the first register that fails the checks of SETUP_COMMIT (R375). -/
def commitBad (s : State) : Option Nat :=
  let shares := ((List.range 8).map fun d => (List.range 3).map fun k => aPort d k 8).flatten
  let rwlBad (a : Nat) : Bool :=
    match findReg a with
    | some (r, _, _, hi) => !hi && r.flds.any fun f => f.acc == .rwl && !f.valid.ok (regF s a f.hi f.lo)
    | none => false
  if 2 < level s then some (aGct 0 8)
  else if !frameValid s then some (aHbm 0 0 0x100020)
  else
    match shares.find? (fun a => !shareOk (reg s a)) with
    | some a => some a
    | none => ((aHbm 0 0 0x100028) :: s.regs.map (·.1)).find? rwlBad

def effSetupCommit (c : Nat) (s : State) : State :=
  if !s.host.negotiated || s.setup.committed then completeCmd c 4 0 s
  else
    match commitBad s with
    | some a => completeCmd c 7 a (putReg (aHlk 0x30) a s)
    | none => joinWindow (.lock c) { s with setup := { s.setup with locking := true } }

def execSetupCommit (c : Nat) (s : State) : Outcome := cmdRow 0x02 c effSetupCommit s

def effCtxOpen (c : Nat) (s : State) : State :=
  match getCmd s c with
  | none => s
  | some x =>
    let k := cmdCtx x
    if !s.setup.committed || ctxOpen s k then completeCmd c 4 0 s
    else
      let s := { s with hbm := { s.hbm with ueRaised := s.hbm.ueRaised.filter (·.2 ≠ k) } }
      completeCmd c 0 0 (openRing (k + 1) {
        cmdBase := cmdA64 x 0, cplBase := cmdA64 x 2, evBase := cmdA64 x 4,
        cmdLog := bitsOf (cmdA x 6) 3 0, cplLog := bitsOf (cmdA x 6) 7 4, evLog := bitsOf (cmdA x 6) 11 8 } s)

def execCtxOpen (c : Nat) (s : State) : Outcome := cmdRow 0x03 c effCtxOpen s

/-- A MARK completes once every earlier command of its ring has (R361). -/
def settleMark (c : Nat) (s : State) : State :=
  match getCmd s c with
  | some x => if (earlierCmds s x).isEmpty then completeCmd c 0 0 s else s
  | none => s

def effMark (c : Nat) (s : State) : State := settleMark c (modCmd c (fun x => { x with phase := 1 }) s)

/-- A MARK that has begun and waits. -/
def markWaits (s : State) (c op : Nat) : Bool :=
  match getCmd s c with
  | some x => x.begun && x.phase = 1 && cmdOp x = op
  | none => false

/-- A MARK begins; where it has begun, it is looked at again. -/
def markRow (op c : Nat) (s : State) : Outcome :=
  if markWaits s c op then onlyIf (fun _ => true) (settleMark c) s else cmdRow op c effMark s

def execAdminMark (c : Nat) (s : State) : Outcome := markRow 0x07 c s
def execMark (c : Nat) (s : State) : Outcome := markRow 0x1B c s

/-- Every MARK that can complete does, in the order of fetch. -/
def settleMarks (s : State) : State :=
  (s.host.cmds.map (·.1)).foldl (fun s c => if markWaits s c 0x07 || markWaits s c 0x1B then settleMark c s else s) s

/-! ## Allotments (R240, R241) -/

/-- The runs in use on a die, as base and end, apart from some allotments. -/
def usedRuns (s : State) (d : Nat) (but : List Nat) : List (Nat × Nat) :=
  s.hbm.allots.filterMap fun a =>
    match a.2.runs[d]? with
    | some (b, n) => if n = 0 || but.contains a.1 then none else some (b, b + 65536 * n)
    | none => none

/-- The lowest free run of n granules beside the runs in use (its place is the model's choice, log entry 35). -/
def freeRun (s : State) (us : List (Nat × Nat)) (n : Nat) : Option Nat :=
  let ok (b : Nat) : Bool := reserveTop ≤ b && b + 65536 * n ≤ captureBase s && us.all fun u => b + 65536 * n ≤ u.1 || u.2 ≤ b
  ((reserveTop :: us.map (·.2)).filter ok).foldl (fun m b => match m with | some x => some (min x b) | none => some b) none

/-- Runs of the given granules, one after another, on a die. -/
def fitRuns (s : State) : List Nat → List (Nat × Nat) → Option (List (Nat × Nat))
  | [], _ => some []
  | n :: r, us =>
    match freeRun s us n with
    | none => none
    | some b => (fitRuns s r (if n = 0 then us else (b, b + 65536 * n) :: us)).map ((b, n) :: ·)

/-- Makes allotments of the given categories and granules per die, or names the lowest die that does not fit (R241). -/
def makeAllots (x : Nat) (need : List (Nat × Nat)) (but : List Nat) (s : State) : Sum Nat (List Nat × State) :=
  let fits := (List.range 8).map fun d => fitRuns s (need.map (·.2)) (usedRuns s d but)
  match (List.range 8).find? fun d => (fits.getD d none).isNone with
  | some d => .inl d
  | none =>
    let id := s.hbm.nextAllot
    let new := need.mapIdx fun i c =>
      (id + i, ({ ctx := x, cat := c.1, runs := fits.map fun f => (f.getD []).getD i (0, 0) } : Allot))
    .inr (new.map (·.1), { s with hbm := { s.hbm with
      allots := new.foldl (fun m a => mapInsert m a.1 a.2) s.hbm.allots, nextAllot := id + need.length } })

def freeAllot (id : Nat) (s : State) : State := { s with hbm := { s.hbm with allots := mapErase s.hbm.allots id } }

/-- The global address of byte H of a die of this package. -/
def hbmGa (s : State) (d h : Nat) : Nat := 2 ^ 48 * pkgId s + 2 ^ 45 * d + 0x40 * 2 ^ 37 + h

def effAllot (c : Nat) (s : State) : State :=
  match getCmd s c with
  | none => s
  | some x =>
    match makeAllots (cmdCtx x) [(cmdA x 0, cmdA x 1)] [] s with
    | .inl d => completeCmd c 0x24 d s
    | .inr (ids, s) =>
      let id := ids.headD 0
      let runs := ((mapLookup s.hbm.allots id).map (·.runs)).getD []
      issueAcc c (.allotResult id) (cmdA64 x 2) 64 0 (some ((runs.mapIdx fun d r => natLE 8 (hbmGa s d r.1)).flatten)) s

/-- RING_FORM begins: a ring at work refuses it, else its formation record is read from host memory (R163, R164). -/
def effRingForm (c : Nat) (s : State) : State :=
  match getCmd s c with
  | none => s
  | some x =>
    if (ringOf s (cmdCtx x)).st ≠ 0 then completeCmd c 0x10 0 s
    else issueAcc c .ringRecord (cmdA64 x 0) 272 0 none s

def execRingForm (c : Nat) (x : Ctx) (s : State) : Outcome := ctxRow 0x10 c x effRingForm s

def execAllot (c : Nat) (s : State) : Outcome := cmdRow 0x15 c effAllot s

def effFree (c : Nat) (s : State) : State :=
  match getCmd s c with
  | none => s
  | some x =>
    match badNow s x with
    | some o => completeCmd c 1 o s
    | none => completeCmd c 0 0 (freeAllot (cmdA x 0) s)

def execFree (c : Nat) (s : State) : Outcome := cmdRow 0x16 c effFree s

/-! ## COPY_IN, COPY_OUT, REQUEST, JOB_ABORT -/

def effCopyCmd (c : Nat) (s : State) : State :=
  match getCmd s c with
  | none => s
  | some x =>
    match badNow s x with
    | some o => completeCmd c 1 o s
    | none => startPieces c (cmdA x 4) 8 s

/-- A COPY_IN begins; where its bytes have moved, their visibility is looked at again. -/
def execCopyIn (c : Nat) (s : State) : Outcome :=
  if (match getCmd s c with | some x => x.begun && cmdOp x = 0x17 && x.phase = 2 | none => false)
  then onlyIf (fun _ => true) settleCopies s else cmdRow 0x17 c effCopyCmd s
def execCopyOut (c : Nat) (s : State) : Outcome := cmdRow 0x18 c effCopyCmd s

def effRequest (c : Nat) (s : State) : State :=
  match getCmd s c with
  | none => s
  | some _ => modCmd c (fun y => { y with phase := 1 }) s

def execRequest (c : Nat) (s : State) : Outcome := cmdRow 0x19 c effRequest s

def effJobAbort (c : Nat) (s : State) : State :=
  match getCmd s c with
  | none => s
  | some x => abortJob (cmdCtx x) 9 s

def execJobAbort (c : Nat) (s : State) : Outcome := cmdRow 0x1A c effJobAbort s

end Sys2Proof.Machine
end

