-- ==== Sys2Proof/Machine/Loader.lean ====
section
/-! DEFINITION. The loader: load records and manifests (R323–R328), re-layout and quantisation (R329–R332), shard
compression (R333, R334), capacity (R335, R336), fetch, replication and the ring's agreement (R338–R342), the shard table
and swaps (R343–R345), generations and passes (R186–R188), and background checks (R346, R347). -/

namespace Sys2Proof.Machine

/-! ## Load record and manifest (R323–R328) -/

def recKind (b : List Byte) : Nat := fld b 0 31 28
def recModel (b : List Byte) : Nat := wordAt b 4
def recVersion (b : List Byte) : Nat := fld b 8 15 0
def recManAddr (b : List Byte) : Nat := dwordAt b 0x10
def recManLen (b : List Byte) : Nat := wordAt b 0x18
def recQstep (b : List Byte) : Nat := dwordAt b 0x20
def recDigest (b : List Byte) : List Byte := (b.drop 0x40).take 32

/-- The first offending field of a load record. -/
def recBad (swap : Bool) (b : List Byte) : Option Nat :=
  if (recKind b ≠ 1 && recKind b ≠ 2) || (swap && recKind b ≠ 2) || fld b 0 27 0 ≠ 0 then some 0
  else if recKind b = 1 && recGen b ≠ 0 then some 8
  else if wordAt b 0xC ≠ 0 then some 0xC
  else if recManAddr b % 64 ≠ 0 then some 0x10
  else if recManLen b < 64 || 67108864 < recManLen b then some 0x18
  else if wordAt b 0x1C ≠ 0 then some 0x1C
  else (List.range 6).findSome? fun i => if wordAt b (0x28 + 4 * i) ≠ 0 then some (0x28 + 4 * i) else none

def manN (b : List Byte) : Nat := fld b 0 7 0
def manT (b : List Byte) : Nat := fld b 8 31 16
def manR (b : List Byte) : Nat := fld b 8 15 0
/-- Weight tensor record t, segment of shard p for tensor t, REPLICATE record r, shard record p. -/
def wtAt (b : List Byte) (t : Nat) : Nat := wordAt b 0xC + 16 * t
def segAt (b : List Byte) (p t : Nat) : Nat := wordAt b 0x10 + 32 * (p * manT b + t)
def replAt (b : List Byte) (r : Nat) : Nat := wordAt b 0x14 + 32 * r
def shardAt (b : List Byte) (p : Nat) : Nat := wordAt b 0x18 + 48 * p

/-- A weight tensor as the manifest gives it (R325). -/
structure Tensor where
  id : Nat
  k : Nat
  m : Nat
  inSliced : Bool
  entry : Bool
  comp : Bool
  stoch : Bool
  src : Nat
  store : Nat

def tensorAt (b : List Byte) (t : Nat) : Tensor :=
  let o := wtAt b t
  { id := wordAt b o, k := wordAt b (o + 4), m := wordAt b (o + 8), inSliced := fld b (o + 0xC) 31 31 = 1,
    entry := fld b (o + 0xC) 30 30 = 1, comp := fld b (o + 0xC) 29 28 = 1, stoch := fld b (o + 0xC) 27 27 = 1,
    src := fld b (o + 0xC) 23 20, store := fld b (o + 0xC) 19 16 }

/-- Rows and columns of a lane slice (R29, R328), and the blocks of its rows and in all (R159). -/
def laneK (t : Tensor) : Nat := if t.inSliced then (t.k + 7) / 8 else t.k
def laneM (t : Tensor) : Nat := if t.inSliced then t.m else (t.m + 7) / 8
def laneKB (t : Tensor) : Nat := (laneK t + 127) / 128
def laneBlocks (t : Tensor) : Nat := laneKB t * ((laneM t + 127) / 128)

/-- Bytes of a source block (R327). -/
def srcBlock (t : Tensor) : Nat := if t.entry then payloadBytes t.store 1 else elemBytes t.src 16384

def segFirst (b : List Byte) (p t : Nat) : Nat := wordAt b (segAt b p t)
def segCount (b : List Byte) (p t : Nat) : Nat := wordAt b (segAt b p t + 4)
def segAddr (b : List Byte) (p t : Nat) : Nat := dwordAt b (segAt b p t + 8)
def segLen (b : List Byte) (p t : Nat) : Nat := dwordAt b (segAt b p t + 0x10)
def segSrcLen (b : List Byte) (p t : Nat) : Nat := 8 * segCount b p t * srcBlock (tensorAt b t)
def replId (b : List Byte) (r : Nat) : Nat := wordAt b (replAt b r)
def replComp (b : List Byte) (r : Nat) : Nat := fld b (replAt b r + 4) 29 28
def replLen (b : List Byte) (r : Nat) : Nat := dwordAt b (replAt b r + 0x10)
def replSrcLen (b : List Byte) (r : Nat) : Nat := dwordAt b (replAt b r + 0x18)
def shardDigest (b : List Byte) (p : Nat) : List Byte := (b.drop (shardAt b p + 0x10)).take 32

/-- The block ranges of the shards divide a lane slice's blocks exactly. -/
def rangesOk (b : List Byte) (t : Nat) : Bool :=
  let rs := ((List.range (manN b)).map fun p => (segFirst b p t, segCount b p t)).filter (·.2 ≠ 0)
  let ends := rs.foldl (fun m r => mapInsert m r.1 (r.1 + r.2)) ([] : SMap Nat)
  ends.length = rs.length &&
    ends.foldl (fun (acc : Option Nat) r => if acc = some r.1 then some r.2 else none) (some 0) = some (laneBlocks (tensorAt b t))

/-- The first place, in the order of the table, at which a check fails. -/
def firstAt (n : Nat) (bad : Nat → Bool) (at_ : Nat → Nat) : Option Nat := ((List.range n).find? bad).map at_

def wtReserved (b : List Byte) (t : Nat) : Bool :=
  let o := wtAt b t
  63 < fld b o 15 0 || wordAt b (o + 4) = 0 || wordAt b (o + 8) = 0 || 1 < fld b (o + 0xC) 29 28 || fld b (o + 0xC) 26 24 ≠ 0 ||
    0xA < fld b (o + 0xC) 23 20 || 9 < fld b (o + 0xC) 19 16 || fld b (o + 0xC) 15 0 ≠ 0

def segReserved (b : List Byte) (i : Nat) : Bool := dwordAt b (wordAt b 0x10 + 32 * i + 0x18) ≠ 0
def replReserved (b : List Byte) (r : Nat) : Bool :=
  63 < fld b (replAt b r) 15 0 || 1 < replComp b r || replSrcLen b r = 0 || 2 ^ 32 ≤ replSrcLen b r
def shardReserved (b : List Byte) (p : Nat) : Bool := dwordAt b (shardAt b p + 8) ≠ 0

/-- The byte offset in a manifest at which it is invalid (R328); the checks in the order of the rule. -/
def manBad (n : Nat) (rcd b : List Byte) : Option Nat :=
  let t := manT b
  let r := manR b
  let len := recManLen rcd
  let ids := (List.range t).map (fun i => (wordAt b (wtAt b i), wtAt b i)) ++ (List.range r).map fun i => (replId b i, replAt b i)
  if sha256 b ≠ recDigest rcd then some 0
  else if manN b ≠ n then some 0
  else if wordAt b 4 ≠ recModel rcd then some 4
  else if len < wordAt b 0xC + 16 * t then some 0xC
  else if len < wordAt b 0x10 + 32 * n * t then some 0x10
  else if len < wordAt b 0x14 + 32 * r then some 0x14
  else if len < wordAt b 0x18 + 48 * n then some 0x18
  else if fld b 0 31 8 ≠ 0x010000 then some 0
  else if t = 0 || 4096 < r then some 8
  else if wordAt b 0x1C ≠ 0 then some 0x1C
  else
    (firstAt t (wtReserved b) (wtAt b)).or <| (firstAt (n * t) (segReserved b) (fun i => wordAt b 0x10 + 32 * i)).or <|
    (firstAt r (replReserved b) (replAt b)).or <| (firstAt n (shardReserved b) (shardAt b)).or <|
    ((ids.find? fun e => (ids.filter fun f => f.1 = e.1).length ≠ 1).map (·.2)).or <|
    (firstAt t (fun i => let w := tensorAt b i; if w.entry then w.src ≠ w.store else codeBlocked w.src) (wtAt b)).or <|
    ((List.range n).findSome? fun p => firstAt t (fun i => !(tensorAt b i).comp && segLen b p i ≠ segSrcLen b p i) (segAt b p)).or <|
    (firstAt r (fun i => replComp b i = 0 && replLen b i ≠ replSrcLen b i) (replAt b)).or <|
    firstAt t (fun i => !rangesOk b i) (wtAt b)

/-! ## Shard compression (R333, R334) -/

def nibbles : List Byte → List Nat
  | [] => []
  | b :: r => b.toNat % 16 :: b.toNat / 16 :: nibbles r

/-- Decodes the tokens of a frame, most recent output byte first; `none` where the frame is malformed. -/
def tokens (dict : List Byte) (want : Nat) : Nat → List Nat → List Byte → Option (List Byte)
  | 0, _, _ => none
  | fuel + 1, l, out =>
    if out.length = want then some out
    else
      let put (n : Nat) (v : Byte) (r : List Nat) : Option (List Byte) :=
        if out.length + n ≤ want then tokens dict want fuel r (List.replicate n v ++ out) else none
      match l with
      | 0xC :: a :: b :: r => put (a + 16 * b + 2) 0 r
      | 0xD :: a :: b :: c :: d :: r => put (a + 16 * b + 256 * c + 4096 * d + 258) 0 r
      | 0xE :: a :: b :: r => put 1 (BitVec.ofNat 8 (a + 16 * b)) r
      | 0xF :: n :: r => match out with | v :: _ => put (n + 1) v r | [] => none
      | n :: r => if n < 12 then put 1 (dict.getD n 0) r else none
      | [] => none

/-- Decodes one frame of `want` output bytes: its output and the bytes after it. -/
def decodeFrame (want : Nat) (l : List Byte) : Option (List Byte × List Byte) :=
  let mode := fld l 0 31 30
  let n := fld l 0 16 0
  let dict := (l.drop 4).take 12
  let body := (l.drop 16).take n
  if l.length < 16 + n || n = 0 || 65536 < n || fld l 0 29 17 ≠ 0 || 1 < mode then none
  else if mode = 0 then (if n = want && dict.all (· = 0) then some (body, l.drop (16 + n)) else none)
  else (tokens dict want (2 * n + 1) (nibbles body) []).map fun o => (o.reverse, l.drop (16 + n))

/-- Decodes the frames of a source of `want` bytes; bytes past the last frame are malformed too. -/
def decodeFrames : Nat → Nat → List Byte → Option (List Byte)
  | 0, _, _ => none
  | fuel + 1, want, l =>
    if want = 0 then (if l.isEmpty then some [] else none)
    else
      match decodeFrame (min want 65536) l with
      | some (o, r) => (decodeFrames fuel (want - min want 65536) r).map (o ++ ·)
      | none => none

def sourceOf (comp : Bool) (want : Nat) (l : List Byte) : Option (List Byte) :=
  if comp then decodeFrames (want / 65536 + 2) want l else if l.length = want then some l else none

/-! ## Re-layout and quantisation (R329–R331) -/

/-- Where element (r, c) of block `idx` of lane d lies in the tensor; `none` where it is padding. -/
def elemPos (t : Tensor) (d idx r c : Nat) : Option (Nat × Nat) :=
  let row := 128 * (idx % laneKB t) + r
  let col := 128 * (idx / laneKB t) + c
  let k := if t.inSliced then d * ((t.k + 7) / 8) + row else row
  let m := if t.inSliced then col else d * ((t.m + 7) / 8) + col
  if laneK t ≤ row || laneM t ≤ col || t.k ≤ k || t.m ≤ m then none else some (k, m)

/-- A block as stored: element bytes, scale bytes, and the flags of its conversion. -/
structure StoredBlock where
  elems : List Byte
  scales : List Byte
  sat : Bool := false
  nonfinite : Bool := false

/-- Stores the block `idx` of lane d from its source bytes. -/
def storeBlock (t : Tensor) (key : ConvKey) (d idx : Nat) (b : List Byte) : StoredBlock :=
  let pos (r c : Nat) : Option (Nat × Nat) := elemPos t d idx r c
  let cols := List.range 128
  if t.entry then
    let n := blockElemBytes t.store
    let es := (chunks 128 128 (elems t.store 16384 (b.take n))).mapIdx fun c l => l.mapIdx fun r x => if (pos r c).isSome then x else 0
    let ss := (b.drop n).mapIdx fun i x => if (List.range 32).any (fun q => (pos (32 * (i % 4) + q) (i / 4)).isSome) then x else 0
    { elems := packElems t.store es.flatten, scales := ss }
  else
    let rows := chunks 128 128 (elems t.src 16384 b)
    let raw (r c : Nat) : Nat := if (pos r c).isSome then (rows.getD r []).getD c 0 else 0
    if t.src = t.store then { elems := packElems t.store ((cols.map fun c => cols.map fun r => raw r c).flatten), scales := [] }
    else
      let val (r c : Nat) : Val := if (pos r c).isSome then decodeElem t.src (raw r c) 0x7F else .fin false 0 0
      let ix (r c : Nat) : Nat := match pos r c with | some (k, m) => k * t.m + m | none => 0
      if codeBlocked t.store then
        let bs := (cols.map fun c => (List.range 4).map fun q =>
          convBlockAt t.store key (fun i => ix (32 * q + i) c) ((List.range 32).map fun i => val (32 * q + i) c)).flatten
        { elems := packElems t.store (bs.map (·.elems)).flatten, scales := bs.map fun x => BitVec.ofNat 8 x.scale,
          sat := bs.any (·.sat), nonfinite := bs.any (·.nonfinite) }
      else
        let cs := (cols.map fun c => cols.map fun r => convPlain t.store key (ix r c) (val r c)).flatten
        let zero := (cols.map fun c => cols.map fun r => (pos r c).isNone).flatten
        { elems := packElems t.store ((cs.zip zero).map fun x => if x.2 then 0 else x.1.bits), scales := [],
          sat := cs.any (·.sat), nonfinite := cs.any (·.nonfinite) }

/-- A stone's frame area from its header to the end of its payload area (R160, R331). -/
def frameOf (hdr payload : List Byte) : List Byte :=
  hdr ++ List.replicate (256 - hdr.length) 0 ++ payload ++ List.replicate (2097152 - payload.length) 0

/-- The header that the loader writes (R331). -/
def loadHeader (s : State) (x : Nat) (j : LoadJob) (t : Tensor) (d q block0 n : Nat) (payload : List Byte) : List Byte :=
  let g := (sha256 payload).take 8
  wordsLE [d * 2 ^ 22 + t.store * 2 ^ 18 + n * 2 ^ 10, recModel j.record, ringPos s x * 2 ^ 16 + recVersion j.record, t.id,
    pkgId s * 2 ^ 16, recGen j.record * 2 ^ 16 + ringPos s x, q, block0, 0, 0, wordAt g 0, wordAt g 4, 0, 0, 0, 0]

/-- Stones of a tensor in one lane of a shard, and those of the tensors before it. -/
def stonesIn (b : List Byte) (p t : Nat) : Nat :=
  let n := maxBlocks (tensorAt b t).store
  (segCount b p t + n - 1) / n
def stonesBefore (b : List Byte) (p t : Nat) : Nat := ((List.range t).map (stonesIn b p)).foldl (· + ·) 0

/-- Allotments of a load by category: STONE (one for each slot), REPL (R336). -/
def allotsOf (s : State) (ids : List Nat) (cat : Nat) : List Allot :=
  (ids.filterMap fun a => mapLookup s.hbm.allots a).filter (·.cat = cat)

/-- The base of a die's stones of a load: a load's slot 0, or a swap's only slot. -/
def stoneBase (s : State) (ids : List Nat) (i d : Nat) : Option Nat := ((allotsOf s ids 0)[i]?).map fun a => (a.runs.getD d (0, 0)).1
def replBase (s : State) (ids : List Nat) (d : Nat) : Option Nat := ((allotsOf s ids 1).head?).map fun a => (a.runs.getD d (0, 0)).1

/-- The stones of one tensor in one lane, as headers and payloads, and the flags of their conversion. -/
def tensorStones (s : State) (x : Nat) (j : LoadJob) (d t : Nat) (image : List Byte) : List (List Byte × List Byte) × Bool × Bool :=
  let p := ringPos s x
  let w := tensorAt j.man t
  let n := segCount j.man p t
  let z := srcBlock w
  let key : ConvKey := { stoch := w.stoch, seed := j.seed, step := recQstep j.record, tensor := w.id }
  let first := segFirst j.man p t
  let blocks := (List.range n).map fun i => storeBlock w key d (first + i) ((image.drop ((d * n + i) * z)).take z)
  let bm := maxBlocks w.store
  let groups := chunks bm (stonesIn j.man p t) blocks
  (groups.mapIdx fun q g =>
    let payload := (g.map (·.elems)).flatten ++ (g.map (·.scales)).flatten
    (loadHeader s x j w d q (first + q * bm) g.length payload, payload),
    blocks.any (·.sat), blocks.any (·.nonfinite))

/-- Stores a decoded shard: frames, lane digests, flags. -/
def storeShard (x : Nat) (images : List (List Byte)) (s : State) : State :=
  match (getLoad s x).job with
  | none => s
  | some j =>
    let p := ringPos s x
    (List.range 8).foldl (fun s d =>
      let parts := images.mapIdx fun t im => tensorStones s x j d t im
      let s := parts.zipIdx.foldl (fun s (a, t) =>
        match stoneBase s j.allots 0 d with
        | none => s
        | some base => a.1.zipIdx.foldl (fun s (st, q) =>
            hbmWrite (.loader (Fin.ofNat 8 d)) d (base + frameSize * (stonesBefore j.man p t + q)) (frameOf st.1 st.2) s) s) s
      let digest := sha256 (parts.map fun a => (a.1.map (·.2)).flatten).flatten
      let a := aLoad 0 x 0
      let s := if parts.any (·.2.1) then putRegF a 26 26 1 s else s
      let s := if parts.any (·.2.2) then putRegF a 25 25 1 s else s
      modLoad x (fun l => { l with job := l.job.map fun j => { j with lanes := j.lanes ++ [digest] } }) s) s

/-! ## Capacity and the beginning of a load (R335, R336, R338) -/

def modJob (x : Nat) (f : LoadJob → LoadJob) (s : State) : State := modLoad x (fun l => { l with job := l.job.map f }) s
def jobPhase (s : State) (x : Nat) : Nat := match (getLoad s x).job with | some j => j.phase | none => 0

/-- Bytes of a REPLICATE tensor in one die's part, as stored, and of all of them. -/
def partLen (b : List Byte) (r : Nat) : Nat := (replSrcLen b r + 7) / 8
def partRoom (b : List Byte) (r : Nat) : Nat := (partLen b r + 255) / 256 * 256
def partTotal (b : List Byte) : Nat := ((List.range (manR b)).map (partRoom b)).foldl (· + ·) 0

/-- Granules per die, by category. -/
def loadNeed (b rcd : List Byte) (p : Nat) : List (Nat × Nat) :=
  let stone := (0, (frameSize * stonesBefore b p (manT b) + 65535) / 65536)
  (if recKind rcd = 1 then [stone, stone] else [stone]) ++ [(1, (partTotal b + 65535) / 65536), (6, 4096)]

/-- The model of a context is resident or its load or unload is at work. -/
def loadBusy (s : State) (x : Nat) (swap : Bool) : Bool :=
  (getLoad s x).job.isSome || (!swap && (getLoad s x).kind ≠ 0) || (level s = 2 && anyLaunched s)

/-- Why a load or swap is refused whatever its record says: its status (R186, R335). -/
def loadRefused (s : State) (x : Nat) (swap : Bool) : Option Nat :=
  let st := (ringOf s x).st
  if loadBusy s x swap then some 0x20
  else if swap && (getLoad s x).newValid then some 0x21
  else if !(st = 2 || (swap && st = 3)) then some 0x22
  else if swap && (getLoad s x).kind ≠ 2 then some 4
  else none

/-- A load or swap begins: its record is read from host memory. -/
def effModelLoad (c : Nat) (s : State) : State :=
  match getCmd s c with
  | none => s
  | some x =>
    match loadRefused s (cmdCtx x) (cmdOp x = 0x13) with
    | some st => completeCmd c st 0 s
    | none => issueAcc c .loadRecord (cmdA64 x 0) 96 0 none s

/-- A load or swap with its record: it is accepted, and its manifest fetched, or refused (R335). A swap's acceptance binds
the requests behind it (R186). -/
def acceptLoad (c : Nat) (rcd : List Byte) (s : State) : State :=
  match getCmd s c with
  | none => s
  | some cmd =>
    let x := cmdCtx cmd
    let swap := cmdOp cmd = 0x13
    match loadRefused s x swap with
    | some st => completeCmd c st 0 s
    | none =>
      match recBad swap rcd with
      | some o => completeCmd c 1 o s
      | none =>
        let l := getLoad s x
        let j : LoadJob := { cmd := c, swap, record := rcd, seed := seedOf s x }
        let l := if swap then { l with newValid := true, swapCommitted := true, genNew := recGen rcd } else l
        let s := setLoad x { l with job := some j } s
        issueAcc c .manifest (recManAddr rcd) (recManLen rcd) 0 none (if swap then bindRequests c (recGen rcd) s else s)

def execModelLoad (c : Nat) (x : Ctx) (s : State) : Outcome := ctxRow 0x12 c x effModelLoad s
def execModelSwap (c : Nat) (x : Ctx) (s : State) : Outcome := ctxRow 0x13 c x effModelLoad s

/-- Asks the host for the shard's segments, or for the REPLICATE sources. -/
def askShard (x : Nat) (j : LoadJob) (s : State) : State :=
  (List.range (manT j.man)).foldl (fun s t =>
    let n := segLen j.man (ringPos s x) t
    if n = 0 then s else askHost (segAddr j.man (ringPos s x) t) n s) s
def askRepl (j : LoadJob) (s : State) : State :=
  (List.range (manR j.man)).foldl (fun s r =>
    askHost (dwordAt j.man (replAt j.man r + 8)) (replLen j.man r) s) s

/-- The fetch of a load begins on its allotments; the head of a ring with no REPLICATE tensor has nothing to fetch. -/
def startFetch (x : Nat) (ids : List Nat) (s : State) : State :=
  let a := aLoad 0 x 0
  let s := putRegF a 26 25 0 (putRegF a 19 16 1 s)
  let s := modJob x (fun j => { j with phase := 3, allots := ids, since := s.now, replSince := s.now,
                                       replOk := manR j.man = 0 && (j.man.drop 0x20).take 32 = sha256 [] }) s
  match (getLoad s x).job with
  | none => s
  | some j =>
    let s := if j.swap && (getLoad s x).newValid then s else setLoadState x 1 s
    let s := askShard x j s
    if ringPos s x = 0 then askRepl j s else s

/-- Slot that holds the current generation. -/
def curSlot (s : State) (x : Nat) : Nat := (slotFor s x 0 (getLoad s x).genCur).getD 0

/-- The manifest is valid: the load is allotted, waits in place, or is refused. -/
def takeManifest (x : Nat) (j : LoadJob) (s : State) : State :=
  let need := loadNeed j.man j.record (ringPos s x)
  if j.swap then
    let k := curSlot s x
    let s := modJob x (fun j => { j with slot := 1 - k }) s
    match makeAllots x need [] s with
    | .inr (ids, s) => startFetch x ids s
    | .inl _ =>
      match makeAllots x need (mapGet [] (getLoad s x).allots k) s with
      | .inr _ => setLoadState x 4 (modJob x (fun j => { j with phase := 2 }) s)
      | .inl d => refuseLoad x 0x24 d s
  else
    match makeAllots x need [] s with
    | .inr (ids, s) => startFetch x ids s
    | .inl d => refuseLoad x 0x24 d s

/-- The manifest has been read: it is checked (R328). -/
def manifestIn (x : Nat) (bytes : List Byte) (s : State) : State :=
  match (getLoad s x).job with
  | none => s
  | some j =>
    let s := dropAccs (fun _ a => a.cmd = j.cmd && a.purpose = .manifest) s
    match manBad (ringN s x) j.record bytes with
    | some o => refuseLoad x 0x23 o s
    | none => takeManifest x { j with man := bytes } (modJob x (fun j => { j with man := bytes }) s)

/-- The live bytes that a command of context x reads for itself: they are captured; while a replay stands in they are
dropped, and the log's are taken in their place (R310, R315). -/
def ownBytes (x : Nat) (b : List Byte) (take : List Byte → State → State) (s : State) : State :=
  if s.clk.replaying && x = recCtx s then dropLive 0 s else take b (recordBytes x b s)

def execManifestFetched (x : Ctx) (bytes : List Byte) (s : State) : Outcome :=
  onlyIf (fun s => s.host.link = 3 && (match (getLoad s x).job with
    | some j => j.phase = 1 && bytes.length = recManLen j.record
    | none => false)) (ownBytes x bytes (manifestIn x)) s

/-! ## Arrival of the shard and of the REPLICATE set (R339, R340) -/

/-- Decodes the sources of a fetch; `none` where a frame is malformed. -/
def decodeAll (l : List (Bool × Nat × List Byte)) : Option (List (List Byte)) :=
  l.foldr (fun a acc => match acc, sourceOf a.1 a.2.1 a.2.2 with | some r, some b => some (b :: r) | _, _ => none) (some [])

def shardLens (s : State) (x : Nat) (j : LoadJob) : List Nat := (List.range (manT j.man)).map (segLen j.man (ringPos s x))
def replLens (j : LoadJob) : List Nat := (List.range (manR j.man)).map (replLen j.man)

/-- A corrupt arrival: a further attempt, or the load fails with SHARD_CORRUPT. -/
def corrupt (x shard attempts : Nat) (again : State → State) (s : State) : State :=
  if attempts ≤ regF s (aSec 0 0x80000) 3 0 then again s else failHere x shard 0x25 shard s

def takeShard (x : Nat) (j : LoadJob) (segs : List (List Byte)) (s : State) : State :=
  let p := ringPos s x
  let again (s : State) : State :=
    let s := putRegF (aLoad 0 x 0) 19 16 (j.attempts + 1) s
    askShard x j (modJob x (fun j => { j with attempts := j.attempts + 1, since := s.now, lanes := [] }) s)
  match decodeAll ((List.range (manT j.man)).map fun t => ((tensorAt j.man t).comp, segSrcLen j.man p t, segs.getD t [])) with
  | none => corrupt x p j.attempts again s
  | some images =>
    let s := storeShard x images s
    if sha256 images.flatten = shardDigest j.man p then modJob x (fun j => { j with shardOk := true }) s
    else corrupt x p j.attempts again s

def execShardArrived (x : Ctx) (segs : List (List Byte)) (s : State) : Outcome :=
  onlyIf (fun s => s.host.link = 3 && (match (getLoad s x).job with
    | some j => j.phase = 3 && !j.shardOk && segs.map (·.length) = shardLens s x j
    | none => false)) (fun s =>
    match (getLoad s x).job with
    | some j => takeShard x j segs s
    | none => s) s

/-- The shard whose attempt has gone SEC_FETCH_TIMEOUT ticks without a byte: the member's own, or the REPLICATE set at the
head, as shard 0xFFFF (R339, R340). -/
def fetchOverdue (s : State) (x : Nat) : Option Nat :=
  match (getLoad s x).job with
  | some j =>
    let late (t : Nat) : Bool := t + reg s (aSec 0 0x80004) ≤ s.now
    if j.phase ≠ 3 then none
    else if !j.shardOk && late j.since then some (ringPos s x)
    else if ringPos s x = 0 && !j.replOk && late j.replSince then some 0xFFFF
    else none
  | none => none

def execFetchTimeout (x : Ctx) (s : State) : Outcome :=
  onlyIf (fun s => (fetchOverdue s x).isSome) (fun s =>
    match fetchOverdue s x with
    | some sh => failHere x sh 0x26 sh s
    | none => s) s

/-- Part d of the REPLICATE set as it is stored: each tensor's bytes, filled to 256. -/
def partOf (b : List Byte) (srcs : List (List Byte)) (d : Nat) : List Byte :=
  ((List.range (manR b)).map fun r =>
    let u := partLen b r
    let l := ((srcs.getD r []).drop (d * u)).take u
    l ++ List.replicate (partRoom b r - l.length) 0).flatten

/-- Stores part d on die d of the head and sends it along the ring. -/
def castPart (x : Nat) (j : LoadJob) (part : List Byte) (d : Nat) (s : State) : State :=
  let s := match replBase s j.allots d with | some b => hbmWrite (.loader (Fin.ofNat 8 d)) d b part s | none => s
  match chainNext s x loaderSeq 0 0 with
  | none => s
  | some q =>
    (chunks 4096 (part.length / 4096 + 1) part).zipIdx.foldl (fun s (data, i) =>
      let head := padGrain (wordsLE [ringJob s x, loaderSeq, 0x54 * 2 ^ 24, part.length, wordAt j.record 0x40, 1, 4096 * i, data.length])
      sendColl d x (rcdMember (ringOf s x).rcd q) head data s) s

def takeRepl (x : Nat) (j : LoadJob) (srcs : List (List Byte)) (s : State) : State :=
  let again (s : State) : State := askRepl j (modJob x (fun j => { j with replAttempts := j.replAttempts + 1, replSince := s.now }) s)
  match decodeAll ((List.range (manR j.man)).map fun r => (replComp j.man r = 1, replSrcLen j.man r, srcs.getD r [])) with
  | none => corrupt x 0xFFFF j.replAttempts again s
  | some images =>
    if sha256 images.flatten ≠ (j.man.drop 0x20).take 32 then corrupt x 0xFFFF j.replAttempts again s
    else
      let s := (List.range 8).foldl (fun s d => castPart x j (partOf j.man images d) d s) s
      modJob x (fun j => { j with replOk := true }) s

def execReplicateArrived (x : Ctx) (srcs : List (List Byte)) (s : State) : Outcome :=
  onlyIf (fun s => s.host.link = 3 && ringPos s x = 0 && (match (getLoad s x).job with
    | some j => j.phase = 3 && !j.replOk && srcs.map (·.length) = replLens j
    | none => false)) (fun s =>
    match (getLoad s x).job with
    | some j => takeRepl x j srcs s
    | none => s) s

/-! ## The ring's agreement (R341) -/

/-- The digest of a die's parts; where a unit is uncorrectable the load fails first, with HBM_UNCORRECTABLE (R237, R339). -/
def partDigest (x : Nat) (j : LoadJob) (d : Nat) (s : State) : State × Option (List Byte) :=
  match replBase s j.allots d with
  | none => (s, some (sha256 []))
  | some b =>
    let r := (List.range (manR j.man)).foldl (fun (acc : State × Option (List Byte) × Nat) i =>
      let n := min (partLen j.man i) (replSrcLen j.man i - d * partLen j.man i)
      match acc.2.1 with
      | none => acc
      | some got =>
        let at_ := b + acc.2.2
        if (unitsOf at_ n).any (badFor (.loader (Fin.ofNat 8 d)) acc.1 d) then
          ((hbmRead (.loader (Fin.ofNat 8 d)) (some x) d at_ n (failHere x (ringPos s x) 0x29 d acc.1)).1, none, 0)
        else
          match hbmRead (.loader (Fin.ofNat 8 d)) (some x) d at_ n acc.1 with
          | (s, some l) => (s, some (got ++ l), acc.2.2 + partRoom j.man i)
          | (s, none) => (s, none, 0)) (s, some [], 0)
    (r.1, r.2.1.map sha256)

/-- The part digests of all dies. -/
def partDigests (x : Nat) (j : LoadJob) (s : State) : State × Option (List (List Byte)) :=
  (List.range 8).foldl (fun (acc : State × Option (List (List Byte))) d =>
    match acc.2 with
    | none => acc
    | some l =>
      match partDigest x j d acc.1 with
      | (s, some g) => (s, some (l ++ [g]))
      | (s, none) => (s, none)) (s, some [])

def replDone (s : State) (x : Nat) (j : LoadJob) : Bool :=
  if ringPos s x = 0 then j.replOk else (List.range 8).all fun d => partTotal j.man ≤ mapGet 0 j.replGot d

/-- The eight part digests that a DONE token carries. -/
def tokenParts (m : Msg) : List (List Byte) := (List.range 8).map fun d => (m.bytes.drop (64 + 32 * d)).take 32

def sendDone (x count : Nat) (j : LoadJob) (parts : List (List Byte)) (s : State) : State :=
  post { cls := 3, ty := 6, dpkg := ringNextPkg s x 0, bytes := ctlGrain 0x50 4 (ringJob s x) (loadArgs j ++ [count]) ++ parts.flatten } .none s

/-- One entry of a die's shard table (R343). -/
def tabBytes (id : Nat) (repl : Bool) (axis : Bool) (fmt stones first count base0 base1 : Nat) : List Byte :=
  wordsLE [id, bit repl 31 + bit axis 30 + fmt * 2 ^ 26 + stones, first, count] ++ natLE 8 base0 ++ natLE 8 base1

/-- The shard table's place in each die's system reserve: the model's own (DESIGN CHOICE, log entry 36). -/
def tabPlace (x : Nat) : Nat := 0x40000000 + 0x400000 * x

/-- The entries of die d for a load with its slot's allotments; the other slot's bases, and tensors that only its model
names, are kept from the table `t` that is. FMT of a REPLICATE tensor comes from the place that a weight tensor's SRC_FMT
has in its record (DESIGN CHOICE, log entry 119). -/
def newTable (t : List (List Byte)) (s : State) (x : Nat) (j : LoadJob) (d : Nat) : List Byte :=
  let p := ringPos s x
  let old (id : Nat) : List Byte := (t.find? fun e => wordAt e 0 = id).getD (List.replicate 32 0)
  let base (id own : Nat) (second : Option Nat) : Nat × Nat :=
    if j.slot = 0 then (own, second.getD (dwordAt (old id) 0x18)) else (dwordAt (old id) 0x10, own)
  let ws := (List.range (manT j.man)).map fun t =>
    let w := tensorAt j.man t
    let off := frameSize * stonesBefore j.man p t
    let at_ (i : Nat) : Option Nat := (stoneBase s j.allots i d).map fun b => hbmGa s d (b + off)
    let b := base w.id ((at_ 0).getD 0) (at_ 1)
    (w.id, tabBytes w.id false w.inSliced w.store (stonesIn j.man p t) (segFirst j.man p t) (segCount j.man p t) b.1 b.2)
  let rs := (List.range (manR j.man)).map fun r =>
    let off := ((List.range r).map (partRoom j.man)).foldl (· + ·) 0
    let n := min (partLen j.man r) (replSrcLen j.man r - d * partLen j.man r)
    let b := base (replId j.man r) (((replBase s j.allots d).map fun b => hbmGa s d (b + off)).getD 0) none
    (replId j.man r, tabBytes (replId j.man r) true false (fld j.man (replAt j.man r + 4) 23 20) 0 n 0 b.1 b.2)
  ((((t.map fun e => (wordAt e 0, e)) ++ ws ++ rs).foldl (fun m e => mapInsert m e.1 e.2) ([] : SMap (List Byte))).map (·.2)).flatten

/-- The tensors that a manifest names. -/
def manIds (b : List Byte) : List Nat :=
  (List.range (manT b)).map (fun t => wordAt b (wtAt b t)) ++ (List.range (manR b)).map (replId b)

/-- The shard tables without a slot that has been freed: its bases read 0, and the tensors that only its model named are
gone. With no slot left there is no table (R343, R348). -/
def dropSlot (x k : Nat) (s : State) : State :=
  let ids := manIds (manOf s x (1 - k))
  let cut (e : List Byte) : List Byte := if k = 0 then e.take 0x10 ++ List.replicate 8 0 ++ e.drop 0x18 else e.take 0x18 ++ List.replicate 8 0
  (List.range 8).foldl (fun s d =>
    if !slotValid s x (1 - k) then putReg (aLoad d x 0x10) 0 s
    else
      match readTable (.loader (Fin.ofNat 8 d)) d x s with
      | (s, none) => s
      | (s, some t) =>
        let b := ((t.filter fun e => ids.contains (wordAt e 0)).map cut).flatten
        putReg (aLoad d x 0x10) (b.length / 32) (hbmWrite (.loader (Fin.ofNat 8 d)) d (tabPlace x) b s)) s

/-- A unit of a die's shard table is uncorrectable. -/
def tableBad (s : State) (d x : Nat) : Bool :=
  match gaHbm s (reg64 s (aLoad d x 8) / 32 * 32) with
  | some (d', h) => (unitsOf h (32 * tabLen s d x)).any (badFor (.loader (Fin.ofNat 8 d)) s d')
  | none => false

/-- The tables of all dies that a swap's commit extends, through the decoder; none of a first load. One that cannot be read
fails the load first (R237, R339). -/
def oldTables (x : Nat) (j : LoadJob) (s : State) : State × List (Option (List (List Byte))) :=
  if !j.swap then (s, [])
  else (List.range 8).foldl (fun acc d =>
    let (s, t) := readTable (.loader (Fin.ofNat 8 d)) d x (if tableBad acc.1 d x then failHere x (ringPos acc.1 x) 0x29 d acc.1 else acc.1)
    (s, acc.2 ++ [t])) (s, [])

/-- The load commits: the shard table becomes valid, STAGE is freed, the slot holds its version or generation (R341, R343). -/
def commitLoad (x : Nat) (s : State) : State :=
  match (getLoad s x).job with
  | none => s
  | some j =>
    let (s, old) := oldTables x j s
    if old.any (·.isNone) then s
    else
    let l := getLoad s x
    let s := (List.range 8).foldl (fun s d =>
      let b := newTable ((old.getD d none).getD []) s x j d
      putReg64 (aLoad d x 8) (hbmGa s d (tabPlace x)) (putReg (aLoad d x 0x10) (b.length / 32)
        (hbmWrite (.loader (Fin.ofNat 8 d)) d (tabPlace x) b s))) s
    let stage := j.allots.filter fun a => match mapLookup s.hbm.allots a with | some y => y.cat = 6 | none => true
    let s := freeAllots stage s
    let keep := j.allots.filter fun a => !stage.contains a
    let kind := recKind j.record
    let v := if kind = 1 then recVersion j.record else recGen j.record
    let l := { l with kind, modelId := recModel j.record, vlo := recVersion j.record, vhi := recVersion j.record,
                      recs := mapInsert l.recs j.slot j.record, homes := mapInsert l.homes j.slot (ringPos s x, ringN s x, ringJob s x),
                      mans := mapInsert l.mans j.slot j.man, allots := mapInsert l.allots j.slot keep,
                      digests := j.lanes.zipIdx.foldl (fun m g => mapInsert m (8 * j.slot + g.2) g.1) l.digests }
    let l := if j.swap then l else { l with genCur := recGen j.record }
    let s := setSlotVal x j.slot v (setSlotValid x j.slot true (setLoad x l s))
    endLoad x 0 0 (setLoadState x 2 s)

def sendCommit (x : Nat) (j : LoadJob) (s : State) : State :=
  postCtl 0 (ringNextPkg s x 0) 0 0x51 (ringJob s x) (loadArgs j) s

/-- A DONE token at a member that is LOCAL_DONE. -/
def takeDone (x : Nat) (m : Msg) (s : State) : State :=
  match (getLoad s x).job with
  | none => s
  | some j =>
    let count := bitsOf (ctlArg m 4) 7 0
    if ringPos s x = 0 then
      (if j.phase = 4 && count = ringN s x % 256 then commitLoad x (sendCommit x j s) else s)
    else if (List.range 4).any fun i => ctlArg m i ≠ (loadArgs j).getD i 0 then failHere x (ringPos s x) 0x27 (ringPos s x) s
    else if tokenParts m ≠ j.parts then failHere x 0xFFFF 0x25 0xFFFF s
    else sendDone x (count + 1) j (tokenParts m) (modJob x (fun j => { j with phase := 4 }) s)

/-- The context whose load a token concerns. -/
def tokenCtx (s : State) (m : Msg) : Option Nat := ringOfJob s (ctlJob m) [2, 3, 4]

/-- A DONE token may be taken: no load will hold it any longer. -/
def doneReady (s : State) (i : InMsg) : Bool :=
  match tokenCtx s i.msg with
  | none => true
  | some x =>
    match (getLoad s x).job with
    | some j => j.phase ≥ 4 || j.parts.length = 8
    | none => false

def nextDone (s : State) (d : Nat) : Option InMsg := (ctlMsgs s d 0x50).find? (doneReady s)

def runDone (d : Nat) (s : State) : State :=
  match nextDone s d with
  | none => s
  | some i =>
    let t := takeMsg d i s
    match tokenCtx s i.msg with
    | some x => if ctlValid i.msg && jobPhase s x ≠ 5 then takeDone x i.msg t else t
    | none => t

def execLoadDone (d : Die) (s : State) : Outcome := onlyIf (fun s => (nextDone s d).isSome) (runDone d) s

/-- LOCAL_DONE: the head sends DONE, another member goes on with a DONE it holds. -/
def localDone (x : Nat) (j : LoadJob) (s : State) : State :=
  match partDigests x j s with
  | (s, none) => s
  | (s, some ps) =>
    let s := modJob x (fun j => { j with parts := ps }) s
    if ringPos s x ≠ 0 then runDone 0 s
    else if ringN s x = 1 then commitLoad x s
    else sendDone x 1 j ps (modJob x (fun j => { j with phase := 4 }) s)

def execLocalDone (x : Ctx) (s : State) : Outcome :=
  onlyIf (fun s => match (getLoad s x).job with
    | some j => j.phase = 3 && j.shardOk && j.parts.isEmpty && replDone s x j
    | none => false) (fun s =>
    match (getLoad s x).job with
    | some j => localDone x j s
    | none => s) s

def execLoadCommit (d : Die) (s : State) : Outcome :=
  onlyIf (fun s => !(ctlMsgs s d 0x51).isEmpty) (fun s =>
    match ctlMsgs s d 0x51 with
    | [] => s
    | i :: _ =>
      let s := takeMsg d i s
      match tokenCtx s i.msg with
      | none => s
      | some x =>
        match (getLoad s x).job with
        | some j => if ctlValid i.msg && j.phase = 4 && ringPos s x ≠ 0 then commitLoad x (sendCommit x j s) else s
        | none => s) s

/-- DETAIL of a load that another member failed: what the token carries of it. -/
def abortDetail (status shard pos : Nat) : Nat := if status = 0x25 || status = 0x26 then shard else if status = 0x27 then pos else 0

/-- The load that a token names has committed here: a slot holds it. -/
def committedAs (s : State) (x : Nat) (m : Msg) : Bool :=
  (List.range 2).any fun k => slotValid s x k &&
    (let r := mapGet [] (getLoad s x).recs k
     [wordAt r 4, wordAt r 8, wordAt r 0x40, wordAt r 0x44] = (List.range 4).map (ctlArg m))

def execLoadAbort (d : Die) (s : State) : Outcome :=
  onlyIf (fun s => !(ctlMsgs s d 0x52).isEmpty) (fun s =>
    match ctlMsgs s d 0x52 with
    | [] => s
    | i :: _ =>
      let m := i.msg
      let s := takeMsg d i s
      match tokenCtx s m with
      | none => s
      | some x =>
        let shard := bitsOf (ctlArg m 4) 15 0
        let pos := bitsOf (ctlArg m 4) 22 16
        let status := bitsOf (ctlArg m 5) 15 0
        if !ctlValid m || pos = ringPos s x || ((getLoad s x).job.isNone && committedAs s x m) then s
        else
          let s := postCtl 0 (ringNextPkg s x 0) 0 0x52 (ringJob s x) ((List.range 6).map (ctlArg m)) s
          loadFail x shard status (abortDetail status shard pos) s) s

def execLoadAbortSettle (x : Ctx) (s : State) : Outcome :=
  onlyIf (fun s => match (getLoad s x).job with
    | some j => (match j.fail with | some f => f.2.2.2 + reg s (aFab 0 0x18) ≤ s.now | none => false)
    | none => false) (fun s =>
    match (getLoad s x).job with
    | some j => (match j.fail with | some f => endLoad x f.2.1 f.2.2.1 s | none => s)
    | none => s) s

/-! ## Unloading (R345) -/

def effModelUnload (c : Nat) (s : State) : State :=
  match getCmd s c with
  | none => s
  | some cmd =>
    let x := cmdCtx cmd
    let st := (ringOf s x).st
    if st = 3 || st = 4 || (getLoad s x).job.isSome then completeCmd c 0x20 0 s
    else completeCmd c 0 0 (unloadModel x s)

def execModelUnload (c : Nat) (s : State) : Outcome := cmdRow 0x14 c effModelUnload s

/-! ## Passes and generations (R186–R188, R344) -/

/-- Requests of a context that are admitted and not served, bound to a generation. -/
def unserved (s : State) (x g : Nat) : List Nat :=
  (s.host.cmds.filter fun c => c.2.begun && cmdOp c.2 = 0x19 && cmdCtx c.2 = x && c.2.phase = 1 && c.2.aux = g).map (·.1)

/-- The current generation retires: it is freed, the incoming one takes its place, and an in-place swap begins its load. -/
def retire (x : Nat) (s : State) : State :=
  let l := getLoad s x
  let k := curSlot s x
  let s := raise { die := 0, code := 0x0304, ctx := some x, p0 := x, p1 := l.genCur } s
  let s := setSlotValid x k false (freeAllots (mapGet [] l.allots k) s)
  let s := setLoad x { l with genCur := l.genNew, genOld := if l.job.isSome then some l.genCur else none, newValid := false, swapCommitted := false, allots := mapErase l.allots k,
                              recs := mapErase l.recs k, homes := mapErase l.homes k,
                              mans := mapErase l.mans k, digests := l.digests.filter fun g => g.1 / 8 ≠ k } s
  let s := dropSlot x k s
  match l.job with
  | none => s
  | some j =>
    if j.phase ≠ 2 then setLoadState x 1 s
    else
      match makeAllots x (loadNeed j.man j.record (ringPos s x)) [] s with
      | .inr (ids, s) => startFetch x ids s
      | .inl d => failHere x (ringPos s x) 0x24 d s

/-- A pass boundary: the next pass serves generation g (R187, R188). -/
def passBoundary (x no g : Nat) (s : State) : State :=
  let s := modLoad x (fun l => { l with pass := no }) s
  let l := getLoad s x
  let s := if l.newValid && l.swapCommitted && g = l.genNew && jobPhase s x ≠ 1 && (unserved s x l.genCur).isEmpty then retire x s else s
  if (getLoad s x).kind = 2 && (slotFor s x 0 g).isSome then (unserved s x g).foldl (fun s c => serveRequest c s) s else s

/-- The generations that a count asks after, the older first. Until a boundary at which the head's load is over, and every
member's commit point so has passed, a generation that the head has retired may have requests elsewhere (R188). -/
def passGens (l : LoadS) : Nat × Option Nat :=
  match l.genOld with
  | some g => (g, some l.genCur)
  | none => (l.genCur, if l.newValid then some l.genNew else none)

/-- The head chooses: the oldest generation with a request that is not served, else the younger, whose boundary lets the older
go. -/
def chooseGen (x no cur new : Nat) (s : State) : State :=
  let l := getLoad s x
  let (old, young) := passGens l
  let may := l.genOld.isSome || (l.swapCommitted && (new ≠ 0 || jobPhase s x ≠ 1))
  match if cur ≠ 0 then some old else if may then young else none with
  | none => s
  | some g =>
    let s := if cur = 0 && l.job.isNone then modLoad x (fun l => { l with genOld := none }) s else s
    let s := if ringN s x ≤ 1 then s else postCtl 0 (ringNextPkg s x 0) 0 0x41 (ringJob s x) [no, g] s
    passBoundary x no g s

/-- A ring whose head is here and has no count on its way. -/
def countable (s : State) (x : Nat) : Bool :=
  let st := (ringOf s x).st
  (st = 2 || st = 3) && ringPos s x = 0 && (getLoad s x).kind = 2 && !(getLoad s x).counting

/-- The head begins a count of admitted requests. -/
def startCount (x : Nat) (s : State) : State :=
  let l := getLoad s x
  let no := (l.pass + 1) % 2 ^ 32
  let (old, young) := passGens l
  let cur := (unserved s x old).length
  let new := match young with | some g => (unserved s x g).length | none => 0
  if ringN s x ≤ 1 then chooseGen x no cur new s
  else
    postCtl 0 (ringNextPkg s x 0) 0 0x40 (ringJob s x) [no, old, cur, bit young.isSome 31 + young.getD l.genNew, new]
      (modLoad x (fun l => { l with counting := true }) s)

/-- A PASS_COUNT token at this member. -/
def takeCount (x : Nat) (m : Msg) (s : State) : State :=
  if ringPos s x = 0 then
    chooseGen x (ctlArg m 0) (ctlArg m 2) (ctlArg m 4) (modLoad x (fun l => { l with counting := false }) s)
  else
    let cur := (unserved s x (bitsOf (ctlArg m 1) 15 0)).length
    let new := if bitsOf (ctlArg m 3) 31 31 = 1 then (unserved s x (bitsOf (ctlArg m 3) 15 0)).length else 0
    postCtl 0 (ringNextPkg s x 0) 0 0x40 (ctlJob m) [ctlArg m 0, ctlArg m 1, ctlArg m 2 + cur, ctlArg m 3, ctlArg m 4 + new] s

/-- A PASS_COUNT token arrives; with none at die 0, a head at a pass boundary begins a count. -/
def execPassCount (d : Die) (s : State) : Outcome :=
  onlyIf (fun s => !(ctlMsgs s d 0x40).isEmpty || (d = 0 && (List.range 8).any (countable s))) (fun s =>
    match ctlMsgs s d 0x40 with
    | i :: _ =>
      let s := takeMsg d i s
      (match tokenCtx s i.msg with
       | some x => if ctlValid i.msg then takeCount x i.msg s else s
       | none => s)
    | [] =>
      match (List.range 8).find? (countable s) with
      | some x => startCount x s
      | none => s) s

def execPassGen (d : Die) (s : State) : Outcome :=
  onlyIf (fun s => !(ctlMsgs s d 0x41).isEmpty) (fun s =>
    match ctlMsgs s d 0x41 with
    | [] => s
    | i :: _ =>
      let m := i.msg
      let s := takeMsg d i s
      match tokenCtx s m with
      | none => s
      | some x =>
        if !ctlValid m || ringPos s x = 0 then s
        else
          passBoundary x (ctlArg m 0) (bitsOf (ctlArg m 1) 15 0)
            (postCtl 0 (ringNextPkg s x 0) 0 0x41 (ctlJob m) [ctlArg m 0, ctlArg m 1] s)) s

/-! ## Background checks (R346, R347) -/

/-- What a pass that begins now covers: every committed slot, with its context's step counter. -/
def coverNow (s : State) : List (Nat × Nat × Nat × Nat) :=
  ((List.range 8).map fun x => (([0, 1].filter (slotValid s x)).map fun k => (x, k, slotVal s x k, stepOf s x))).flatten

def execCheckPassStart (d : Die) (s : State) : Outcome :=
  onlyIf (fun s => awakeHbm s && (checkOf s d).isNone && mapGet 0 s.checkAt d + 10 ^ 9 * reg s (aSec 0 0x80008) ≤ s.now) (fun s =>
    { s with checks := mapSet none s.checks d (some { begun := s.now, cover := coverNow s }), checkAt := mapSet 0 s.checkAt d s.now }) s

/-- The payloads of a die's stones of a slot, in stone order, as the windows have read them; `none` where a unit of the table is
uncorrectable. -/
def lanePayload (d x k : Nat) (s : State) : State × Option (List Byte) :=
  match tableBy (maintRead (.loader (Fin.ofNat 8 d)) (some x)) d x s with
  | (s, none) => (s, none)
  | (s, some t) => (s, some ((payloadsOf s d x k t).map fun p => hbmPeek (.loader (Fin.ofNat 8 d)) d p.1 p.2 s).flatten)

/-- A mismatch halts the context: STATE reads 3, whatever becomes of a swap beside it. -/
def digestFault (d x v : Nat) (s : State) : State :=
  let ok := reg64 s (aLoad 0 x 0x18)
  let s := raise { die := d, code := 0x0701, ctx := some x, p0 := x + d * 2 ^ 8, p1 := v, p2 := ok, p3 := ok / 2 ^ 32 } s
  setLoadState x 3 (if (ringOf s x).st = 0 then haltCtx x 2 s else abortJob x 2 s)

/-- Compares one reference, unless a unit of its context was uncorrectable; answers whether it is clean. -/
def checkSlot (d : Nat) (bad : List Nat) (c : Nat × Nat × Nat × Nat) (s : State) : State × Bool :=
  let (x, k, v, _) := c
  if bad.contains x then (s, false)
  else
  match lanePayload d x k s with
  | (s, none) => (s, false)
  | (s, some p) =>
    if sha256 p = mapGet [] (getLoad s x).digests (8 * k + d) then (s, true) else (digestFault d x v s, false)

/-- A pass ends; with every digest equal, the steps recorded as it began are those of its contexts' last clean pass. -/
def endPass (d : Nat) (c : CheckS) (s : State) : State :=
  let left := coverLeft s c
  let (s, clean) := left.foldl (fun (acc : State × Bool) y =>
    let (s, ok) := checkSlot d c.bad y acc.1
    (s, acc.2 && ok)) (s, true)
  let s := if clean then left.foldl (fun s y => putReg64 (aLoad 0 y.1 0x18) y.2.2.2 s) s else s
  bump (aSec d 0x8000C) { s with checks := mapSet none s.checks d none }

def execCheckPassEnd (d : Die) (s : State) : Outcome :=
  onlyIf (fun s => awakeHbm s && (match checkOf s d with | some c => passRead s d c | none => false)) (fun s =>
    match checkOf s d with
    | some c => endPass d c s
    | none => s) s

end Sys2Proof.Machine
end

