-- ==== Sys2Proof/Machine/Bridge.lean ====
section
/-! DEFINITION. The bridges between the dies (R23, R26). -/

namespace Sys2Proof.Machine

/-- The lower and the higher die of each bridge (R23): along the rows, then across them. -/
def bridgeDies (e : Nat) : Nat × Nat :=
  [(0, 1), (1, 2), (2, 3), (4, 5), (5, 6), (6, 7), (0, 4), (1, 5), (2, 6), (3, 7)].getD e (0, 1)

/-- A bridge is faulted: BRIDGE_FAULT names the edge, every context halts, and no new command is taken until the next
cold reset. -/
def bridgeFault (e : Nat) (s : State) : State :=
  let (a, b) := bridgeDies e
  let s := raise { die := a, code := 7, p0 := a, p1 := b } { s with boot := { s.boot with bridgeFault := true } }
  (List.range 8).foldl (fun s x => abortJob x 8 s) s

/-- A frame failed its CRC: it is replayed and counted on the lower die; the sixteenth failure in a row of one frame
faults the bridge. -/
def execBridgeFrameError (e : Fin 10) (sameFrame : Bool) (s : State) : Outcome :=
  onlyIf (fun _ => true) (fun s =>
    let n := if sameFrame then mapGet 0 s.boot.bridges e + 1 else 1
    let s := ndc 3 (bridgeDies e).1 { s with boot := { s.boot with bridges := mapSet 0 s.boot.bridges e n } }
    if n = 16 then bridgeFault e s else s) s

def execBridgeTrainingLost (e : Fin 10) (s : State) : Outcome := onlyIf (fun _ => true) (bridgeFault e) s

end Sys2Proof.Machine
end

