-- ==== Sys2Proof/Machine/Context.lean ====
section
/-! DEFINITION. Closing a context (R374). -/

namespace Sys2Proof.Machine

/-- A load or swap in progress ends as a failed load (R341, R374): no shard has failed, so ABORT names none. -/
def cancelLoad (x : Nat) (s : State) : State :=
  match (getLoad s x).job with
  | none => s
  | some j =>
    let s := if j.phase = 5 then s else giveUpLoad x j (sendLoadAbort x 0xFFFE (ringPos s x) 8 j s)
    modLoad x (fun l => { l with job := none }) s

/-- Windows of a context that are OPEN, on a die. -/
def openWindows (s : State) (x d : Nat) : List Nat := (List.range 256).filter fun w => winState s d w = 1 && winCtx s d w = x

/-- Commands of a context that are not complete, other than the one that closes it: all of its ring's, whatever their opcode,
and a core's on it. -/
def ctxCmds (s : State) (x c : Nat) : List Nat :=
  (s.host.cmds.filter fun y => y.1 ≠ c && (match y.2.src with
    | .ring r => r.val = x + 1
    | .core _ => 0x10 ≤ cmdOp y.2 && cmdCtx y.2 = x)).map (·.1)

/-- Steps 2 to 9 of CTX_CLOSE. -/
def closeCtx (c x : Nat) (s : State) : State :=
  let s := cancelLoad x (haltTiles x s)
  let s := if (ringOf s x).st = 0 then s else ringIdle x s
  let s := unloadModel x s
  let s := (List.range 8).foldl (fun s d => (openWindows s x d).foldl (fun s w => effWinClose d w s) s) s
  let s := { s with hbm := { s.hbm with allots := s.hbm.allots.filter fun a => a.2.ctx ≠ x } }
  let s := (ctxCmds s x c).foldl (fun s y => completeCmd y 8 0 s) s
  completeCmd c 0 0 (closeRing (x + 1) (if ctxSt s x = 4 then setCtxSt x 0 s else s))

/-- The job abort that step 1 waits for has settled. -/
def closeReady (s : State) (x : Nat) : Bool := (mapLookup s.fab.aborts x).isNone

def effCtxClose (c : Nat) (s : State) : State :=
  match getCmd s c with
  | none => s
  | some cmd =>
    let x := cmdCtx cmd
    if !ctxOpen s x then completeCmd c 4 0 s
    else
      let s := modCmd c (fun y => { y with phase := 1 }) s
      let s := if launched s x then abortJob x 9 s else s
      if closeReady s x then closeCtx c x s else s

/-- A CTX_CLOSE that has begun and waits for the abort. -/
def closeWaits (s : State) (c : Nat) : Bool :=
  match getCmd s c with
  | some x => x.begun && x.phase = 1 && cmdOp x = 4
  | none => false

/-- A CTX_CLOSE begins; where it waits, it is looked at again. -/
def execCtxClose (c : Nat) (s : State) : Outcome :=
  if closeWaits s c then
    onlyIf (fun _ => true) (fun s => match getCmd s c with
      | some x => if closeReady s (cmdCtx x) then closeCtx c (cmdCtx x) s else s
      | none => s) s
  else cmdRow 0x04 c effCtxClose s

/-- Every CTX_CLOSE that waits goes on where it can. -/
def settleCloses (s : State) : State :=
  ((s.host.cmds.map (·.1)).filter (closeWaits s)).foldl (fun s c => match getCmd s c with
    | some x => if closeReady s (cmdCtx x) then closeCtx c (cmdCtx x) s else s
    | none => s) s

end Sys2Proof.Machine
end

