-- ==== Sys2Proof/Machine/Cores.lean ====
section
/-! DEFINITION. The Lantern cores as the package sees them (R381–R386), the interrupt controllers (R384–R388), the event
queues' registers (R389) and performance trace (R390, R391). A core's own instructions are another book's. -/

namespace Sys2Proof.Machine

/-- The core's released: LCC_RUN.GO, once the boot ROM has handed off to verified firmware (R381, R426). -/
def coreReleased (s : State) (c : Nat) : Bool :=
  regF s (aLcc (c / 4) (c % 4) 0) 0 0 = 1 && 6 ≤ bootStage s && bootStage s < 8

/-- The core runs: released, not halted by debug, not stopped by a fault. -/
def coreRuns (s : State) (c : Nat) : Bool := coreReleased s c && !(getCore s c).halted && !(getCore s c).stopped

/-- A source's target core, and whether it is delivered: pending and enabled (R385). -/
def srcTarget (s : State) (d src : Nat) : Nat := regF s (aIcu d (4 * src)) 4 0
def srcPending (s : State) (d src : Nat) : Bool := mapGet false s.icu.pend (d * 1024 + src)
def srcEnabled (s : State) (d src : Nat) : Bool := regF s (aIcu d (4 * src)) 31 31 = 1
def srcDelivered (s : State) (d src : Nat) : Bool := srcPending s d src && srcEnabled s d src
def srcSignalled (s : State) (d src : Nat) : Bool := mapGet false s.icu.signalled (d * 1024 + src)

/-! ## What a core's program asks of the package (R377–R380)

What a core executes is another book's, and the command table has no row for its loads, stores and sleep: what a core does in
a tick is a free value, and what that does here is the manual's (log entry 118). -/

/-- Where a physical address of a core lies (R378). -/
inductive CorePlace where
  | hbm (d h : Nat)
  | scr (d t off : Nat)
  /-- the package set-up space -/
  | setup
  /-- the boot ROM of die 0 -/
  | rom (off : Nat)
  | none
deriving DecidableEq, Repr

/-- The place of a core's 48-bit physical address, which names this package only. -/
def corePlace (s : State) (pa : Nat) : CorePlace :=
  let win := bitsOf pa 44 37
  let off := bitsOf pa 36 0
  if win = 0x28 then (if bitsOf pa 47 45 = 0 then .setup else .none)
  else if win = 0x29 then (if bitsOf pa 47 45 = 0 && off < 262144 then .rom off else .none)
  else
    match placeOf s (2 ^ 48 * pkgId s + pa % 2 ^ 48) with
    | .hbm d h => .hbm d h
    | .scr d t o => .scr d t o
    | _ => .none

/-- The modes that reach a place; HBM is reached as the MMU maps, which has been done (R378). -/
def modeReaches (m : Config.CoreMode) : CorePlace → Bool
  | .hbm _ _ => true
  | .scr _ _ _ | .setup => m ≠ .user
  | .rom _ => m = .firmware
  | .none => false

/-- The line of a unit as core c sees it: from the caches, else from HBM, which fills it. None where the unit is
uncorrectable. -/
def coreLine (c : Core) (d u : Nat) (s : State) : State × Option (List Byte) :=
  match lineOf s d u with
  | some l => (s, some l.bytes)
  | none =>
    match hbmRead (.core c) none d (64 * u) 64 s with
    | (s, some b) => (fillLine c.val d u b s, some b)
    | (s, none) => (s, none)

/-- A load of n bytes within one line, or of a scratchpad uncached. None is a synchronous abort. A load of a set-up register is
the row of that access. -/
def coreLoad (c : Core) (pa n : Nat) (s : State) : State × Option (List Byte) :=
  let p := corePlace s pa
  if !modeReaches (getCore s c.val).mode p then (s, none)
  else
    match p with
    | .hbm d h =>
      let (s, l) := coreLine c d (h / 64) s
      (s, l.map fun l => (l.drop (h % 64)).take n)
    | .scr d t o => (s, some (readScr (engine d t) o n s))
    | .rom o => (s, some ((List.range n).map fun i => Config.bootRom (o + i)))
    | .setup | .none => (s, if n = 4 && pa % 4 = 0 then some [] else none)

/-- Bytes b stand at offset o of a line. -/
def patchLine (l : List Byte) (o : Nat) (b : List Byte) : List Byte := (l.take o ++ b ++ l.drop (o + b.length)).take 64

/-- A store within one line: it stays in the caches. A scratchpad store is uncached and acts at once, before the core's
next access (R379). False is a synchronous abort. A store to a set-up register is the row of that access. -/
def coreStore (c : Core) (pa : Nat) (b : List Byte) (s : State) : State × Bool :=
  let p := corePlace s pa
  if !modeReaches (getCore s c.val).mode p then (s, false)
  else
    match p with
    | .hbm d h =>
      match coreLine c d (h / 64) s with
      | (s, some l) => (putLine d (h / 64) { bytes := patchLine l (h % 64) b, dirty := true, core := c.val } s, true)
      | (s, none) => (s, false)
    | .scr d t o => (writeScr (engine d t) o b s, true)
    | .setup => (s, b.length = 4 && pa % 4 = 0)
    | .rom _ | .none => (s, false)

/-- Acts on the line of an address of HBM. -/
def onLine (f : Nat → Nat → State → State) (pa : Nat) (s : State) : State :=
  match corePlace s pa with
  | .hbm d h => f d (h / 64) s
  | _ => s

/-- A barrier of the core is over: what it has cleaned is visible to every agent (R379). -/
def coreBarrier (c : Core) (s : State) : Bool := s.hbm.wq.all (·.agent != .core c)

/-- What a step of a core's program asks for. False is a synchronous abort. -/
def coreAsk (c : Core) (a : Config.CoreAct) (s : State) : State × Bool :=
  match a with
  | .own => (s, true)
  | .sleep => (setCore c.val { (getCore s c.val) with asleep := true } s, true)
  | .load pa n => (fun r : State × Option (List Byte) => (r.1, r.2.isSome)) (coreLoad c pa.toNat n s)
  | .store pa b => coreStore c pa.toNat b s
  | .clean pa => (onLine (cleanLine c.val) pa.toNat s, true)
  | .invalidate pa => (onLine dropLine pa.toNat s, true)
  | .barrier => (setCore c.val { (getCore s c.val) with fenced := true } s, true)

/-- One step of a core's program. -/
def coreStep (c : Core) (x : Config.CoreStep) (s : State) : State :=
  let (s, ok) := coreAsk c x.act s
  if ok then
    let q := getCore s c.val
    setCore c.val { q with pc := x.pc, mode := x.mode, mmu := x.mmu, handling := q.handling && x.handling } s
  else coreAbort c.val s

/-- The core executes: it runs, is awake, and no barrier of its holds it. -/
def coreGoes (s : State) (c : Core) : Bool :=
  let q := getCore s c.val
  coreRuns s c.val && !q.asleep && !(q.fenced && !coreBarrier c s)

/-- A core's program goes on for a tick. -/
def runCore (c : Core) (s : State) : State :=
  if coreGoes s c then
    let (n, s) := freshNo s
    (Config.coreRun n c.val).foldl (fun s x =>
      if coreGoes s c then coreStep c x (setCore c.val { (getCore s c.val) with fenced := false } s) else s) s
  else s

/-- Every core's program goes on; the islands of the cores are clocked in P0 only (R407). -/
def runCores (s : State) : State :=
  if s.pwr.state = 0 then (List.finRange 32).foldl (fun s c => runCore c s) s else s

/-! ## Writes -/

def execLccRun (m : Master) (d : Die) (j : CoreJ) (s : State) : Outcome := arriveAt m (aLcc d j 0) 1 s
def execLccCmdTail (m : Master) (d : Die) (j : CoreJ) (v : Word) (s : State) : Outcome := arriveAt m (aLcc d j 0x2C) v s
def execDebugHalt (m : Master) (d : Die) (j : CoreJ) (s : State) : Outcome := arriveAt m (aLcc d j 4) 1 s
def execDebugResume (m : Master) (d : Die) (j : CoreJ) (s : State) : Outcome := arriveAt m (aLcc d j 4) 2 s
def execDebugStep (m : Master) (d : Die) (j : CoreJ) (s : State) : Outcome := arriveAt m (aLcc d j 4) 3 s
def execIcuSrcEnable (m : Master) (d : Die) (src : Fin 1024) (v : Word) (s : State) : Outcome := arriveAt m (aIcu d (4 * src.val)) v s
def execIcuPend (m : Master) (d : Die) (w : Fin 32) (v : Word) (s : State) : Outcome := arriveAt m (aIcu d (0x1000 + 4 * w.val)) v s
def execIcuAck (m : Master) (d : Die) (v : Word) (s : State) : Outcome := arriveAt m (aIcu d 0x1180) v s
def execIcuEvqHead (m : Master) (d : Die) (v : Word) (s : State) : Outcome := arriveAt m (aIcu d 0x1250) v s
def execIcuEvqBase (m : Master) (d : Die) (lo : Word) (s : State) : Outcome := arriveAt m (aIcu d 0x1240) lo s
def execLccTraceCtrl (m : Master) (d : Die) (v : Word) (s : State) : Outcome := arriveAt m (aLcc d 0 0x104) v s

/-- A core goes elsewhere of itself, to a handler or to where debug finds it: the place and the mode are its own book's. -/
def moveCore (c : Nat) (f : CoreS → CoreS) (s : State) : State :=
  let (n, s) := freshNo s
  setCore c (f { (getCore s c) with pc := Config.corePc n c, mode := Config.coreMode n c }) s

/-- Debug finds a core at a place of its own program. -/
def haltCore (c : Nat) (s : State) : State :=
  let (n, s) := freshNo s
  setCore c { (getCore s c) with pc := Config.corePc n c, halted := true } s

/-- A halted core executes one step of its program; where it does nothing of its own, its place alone is free. -/
def stepCore (c : Nat) (s : State) : State :=
  let (n, t) := freshNo s
  match Config.coreRun n c with
  | x :: _ => coreStep (Fin.ofNat 32 c) x t
  | [] => moveCore c id s

/-- A write to LCC_DBG_CTRL, at the end of its window (R383). -/
def effDbgCtrl (c v : Nat) (s : State) : State :=
  let q := getCore s c
  if s.setup.committed && !s.setup.debugAllowed then s
  else if bitsOf v 2 0 = 1 && !q.halted then haltCore c s
  else if bitsOf v 2 0 = 2 then setCore c { q with halted := false } s
  else if bitsOf v 2 0 = 3 && q.halted && !q.stopped then stepCore c s
  else s

/-- A write to ICU_SRCs_CFG: a source that is no longer enabled is no longer delivered. -/
def effIcuSrc (d src v : Nat) (locked : Bool) (s : State) : State :=
  let a := aIcu d (4 * src)
  let s := putRegF a 31 31 (bitsOf v 31 31) (if locked then s else putRegF a 4 0 (bitsOf v 4 0) s)
  if bitsOf v 31 31 = 1 then s else { s with icu := { s.icu with signalled := mapSet false s.icu.signalled (d * 1024 + src) false } }

/-- A write to ICU_PENDw sets defined sources pending (R388); an ACK of the same edge leaves them so (R387). -/
def effIcuPend (d w v : Nat) (s : State) : State :=
  (List.range 32).foldl (fun s i => if bitsOf v i i = 1 then setPending d (32 * w + i) s else s) s

/-- A write to ICU_ACK clears its source, unless hardware set it in the same cycle: it is then delivered anew (R387). -/
def effIcuAck (d v : Nat) (s : State) : State :=
  let src := bitsOf v 9 0
  if bitsOf (hwSetNow s (aPend d src)) (src % 32) (src % 32) = 1 then
    { s with icu := { s.icu with signalled := mapSet false s.icu.signalled (d * 1024 + src) false } }
  else clearPending d src s

/-- A doorbell of a core's command port: its tick orders the commands of several cores (R382). -/
def effLccCmdTail (c : Nat) (s : State) : State := setCore c { (getCore s c) with bellAt := s.now } s

/-- Places the head or the base of a die's event queue: an EVENTS_LOST entry that is due can now be written (R389). -/
def effEvqHead (d v : Nat) (s : State) : State := evqFlush d (putReg (aIcu d 0x1250) (v % 4096) s)

/-- A write to LCC_TRACE_CTRL: trace claims the capture region, unless record or replay holds it (R390, R391). -/
def effTrace (m : Master) (v : Nat) (s : State) : State :=
  let a := aLcc 0 0 0x104
  let on := regF s a 0 0 = 1
  if bitsOf v 0 0 = 0 then putRegF a 0 0 0 s
  else if on then s
  else if recMode s ≠ 0 then raiseConflict a 5 m s
  else putRegF a 0 0 1 { s with icu := { s.icu with trace := [] } }

/-! ## Delivery and wake -/

def execInterruptDelivery (d : Die) (src : Fin 1024) (s : State) : Outcome :=
  onlyIf (fun s => srcDelivered s d src.val && !srcSignalled s d src.val)
    (fun s => { s with icu := { s.icu with signalled := mapSet false s.icu.signalled (d.val * 1024 + src.val) true } }) s

/-- Some source's delivery signal has reached core c. -/
def signalFor (s : State) (c : Nat) : Bool :=
  s.icu.signalled.any fun e => e.2 && srcDelivered s (e.1 / 1024) (e.1 % 1024) && srcTarget s (e.1 / 1024) (e.1 % 1024) = c

/-- A delivered source wakes its target; with MASK = 0 the core takes the interrupt, else it goes on where it slept. -/
def execCoreWake (c : Core) (s : State) : Outcome :=
  onlyIf (fun s => coreRuns s c && signalFor s c) (fun s =>
    let q := getCore s c
    if regF s (aIcu (c.val / 4) (0x1200 + 4 * (c.val % 4))) 0 0 = 0 then moveCore c (fun q => { q with asleep := false }) s
    else setCore c { q with asleep := false } s) s

end Sys2Proof.Machine
end

