-- ==== Sys2Proof/Machine/Power.lean ====
section
/-! DEFINITION. Power, clocks and thermal behaviour (chapter 14): leave, the power limit, power states, input voltage,
temperatures and telemetry. -/

namespace Sys2Proof.Machine

/-! ## The rack reference (R399) -/

def setRef (v : Nat) (s : State) : State := (List.range 8).foldl (fun s d => putRegF (aPwr d 0) 6 6 v s) s

def execRefLost (s : State) : Outcome := onlyIf (fun _ => true) (setRef 1) s
def execRefReturn (s : State) : Outcome := onlyIf (fun _ => true) (setRef 0) s

/-! ## Leave (R401–R405) -/

/-- Number of a requester among the grants of a die, and its charge. -/
def leaveSrc : LeaveSrc → Nat
  | .grid t => t.val
  | .hbmRead c => 40 + c.val
  | .hbmWrite c => 42 + c.val
  | .port k => 44 + k.val

def leaveMw : LeaveSrc → Nat
  | .grid _ => 0
  | .hbmRead _ => 5000
  | .hbmWrite _ => 3000
  | .port _ => 2250

/-- Work of a requester other than a grid is pending: READ units of a controller; its WRITE and REMOTE units; at a port, a
quarter of a class other than stones (R401). -/
def leavePending (s : State) (d src : Nat) : Bool :=
  if src < 40 then false
  else if src < 42 then s.hbm.rq.any fun r => r.agent ≠ .remote && r.die = d && ctrlOf (64 * r.unit) = src - 40
  else if src < 44 then
    (s.hbm.wq.any fun w => w.die = d && ctrlOf (64 * w.unit) = src - 42) ||
      s.hbm.rq.any fun r => r.agent = .remote && r.die = d && ctrlOf (64 * r.unit) = src - 42
  else s.fab.ports.any fun p => p.1 / 2 = 3 * d + (src - 44) && p.2.queue.any fun q => q.msg.ty ≠ 0

/-- A port is sending a stone. -/
def sendingStone (s : State) (d src : Nat) : Bool :=
  44 ≤ src && s.fab.ports.any fun p => p.1 / 2 = 3 * d + (src - 44) && p.2.queue.any fun q => q.msg.ty = 0 && q.sent ≠ 0

def execLeaveRequest (d : Die) (src : LeaveSrc) (s : State) : Outcome :=
  match src with
  | .grid t => onlyIf (fun s =>
      (getTile s (engine d t)).phase = 1 && (gridGrant s (engine d t)).isNone && (reqsOf s d).all (·.tile ≠ t)) (fun s =>
        let x := getTile s (engine d t)
        manage d (setReqs d (insertReq { tile := t, mw := gridMw x.klass, since := x.phaseAt } (reqsOf s d)) s)) s
  | src => onlyIf (fun s => !s.pwr.tripped && leavePending s d (leaveSrc src) &&
      (grantsOf s d).all (·.src ≠ leaveSrc src)) (fun s =>
        showPwr d (setGrants d (grantsOf s d ++ [{ src := leaveSrc src, mw := leaveMw src, due := s.now, here := true }]) s)) s

/-- Grid grants of a die made before that of tile t have reached their tiles. -/
def firstOnWay (s : State) (d t : Nat) : Bool :=
  ((grantsOf s d).find? fun g => g.src < 40 && !g.here).map (·.src) == some t

/-- A grant reaches its tile, and the start ramp begins (R83, R403). -/
def execLeaveGrant (d : Die) (t : TileId) (s : State) : Outcome :=
  onlyIf (fun s => firstOnWay s d t && mapGet 0 s.pwr.nextHere d ≤ cycleOf s &&
      (match gridGrant s (engine d t) with | some g => g.due ≤ cycleOf s | none => false)) (fun s =>
    let now := cycleOf s
    let s := modGrant d t (fun g => { g with here := true }) { s with pwr := { s.pwr with nextHere := mapSet 0 s.pwr.nextHere d (now + 4) } }
    let s := modTile (engine d t) (fun x => { x with phase := 2, phaseAt := now }) s
    manage d (returnIfMarked (engine d t) s)) s

/-- A grant has ended: a grid's with its stop ramp, a stone's with the stone, another 1 µs after its work (R401). -/
def grantOver (s : State) (d : Nat) (src : Nat) : Bool :=
  match (grantsOf s d).find? fun g => g.src = src with
  | some g => if src < 40 then g.ended else !leavePending s d src && !sendingStone s d src && (g.ended || g.due + 1000 ≤ s.now)
  | none => false

def execLeaveRelease (d : Die) (src : LeaveSrc) (s : State) : Outcome :=
  onlyIf (fun s => grantOver s d (leaveSrc src)) (release d (leaveSrc src)) s

/-- Work that is pending keeps its grant, a stone's too (R401). -/
def keepLeave (s : State) : State :=
  s.pwr.grants.foldl (fun s e =>
    let d := e.1
    if e.2.any fun g => leavePending s d g.src then
      setGrants d (e.2.map fun g => if leavePending s d g.src then { g with due := s.now, ended := false } else g) s
    else s) s

/-! ## The power limit (R400, R405) -/

def execPwrLimit (m : Master) (d : Die) (v : Word) (s : State) : Outcome := arriveAt m (aPwr d 4) v s

/-- The limit or the scale has changed: every die looks at its budget again. -/
def rebudgetAll (s : State) : State := (List.range 8).foldl (fun s d => rebudget d s) s

/-! ## Power states (R407–R409) -/

/-- Exit latencies in µs (R407). -/
def exitLatency (st : Nat) : Nat := [0, 2, 40, 2000, 50000].getD st 0

/-- Nothing holds work in the tiles' streams, row engines and carousel queues. -/
def queuesIdle (s : State) : Bool :=
  (s.tiles.all fun t => (List.range 6).all (streamIdle s t.1)) &&
    ((List.range 64).all fun r => (getRow s r).run.isNone &&
      regF s (aRow (r / 8) (r % 8) 0x1C) 11 0 % 2 ^ rowLog s r = reg s (aRow (r / 8) (r % 8) 0x20)) &&
    ((List.range 8).all fun x => carHead s x = carTail s x % 2 ^ carLog s x && (ringOf s x).live.isEmpty)

/-- Commands are outstanding in a ring: posted and not fetched, or fetched and not complete. -/
def commandsOut (s : State) : Bool :=
  !s.host.cmds.isEmpty || (List.finRange 32).any (corePosted s) || s.host.rings.any fun g => regF s (aBell g.1 0) 11 0 % 2 ^ g.2.cmdLog ≠ g.2.fetch

/-- The package is idle (R408). -/
def pkgIdle (s : State) : Bool :=
  ((List.range 8).all fun x => !launched s x || ctxIdle s x) && !commandsOut s && queuesIdle s && s.pwr.grants.isEmpty

/-- The entry requirements of a state (R407). A deeper state does what the lighter ones do, so it asks for theirs too
(DEDUCED, log entry 38). -/
def mayEnter (s : State) (st : Nat) : Bool :=
  (st < 1 || !(level s = 2 && (List.range 8).any (launched s))) &&
    (st < 2 || s.tiles.all fun t => t.2.tctx.all fun c => c.2.st = 0) &&
    (st < 3 || (allIdle s && ((List.range 8).all fun d => (List.range 256).all fun w => winState s d w ≠ 1) &&
      (s.loads.all fun l => l.2.job.isNone) && !s.clk.recording && regF s (aLcc 0 0 0x104) 0 0 = 0))

/-- A state is permitted by the host's latency tolerance and by MAX_STATE (R408). -/
def permitted (s : State) (st : Nat) : Bool :=
  let ltr := reg s (aPwr 0 8)
  (ltr = 0xFFFFFFFF || exitLatency st ≤ ltr) && st ≤ regF s (aPwr 0 0xC) 18 16

/-- The deepest state that may be entered. -/
def deepest (s : State) : Nat := ([4, 3, 2, 1].find? fun st => permitted s st && mayEnter s st).getD 0

def setPState (st : Nat) (s : State) : State := putRegF (aPwr 0 0x10) 2 0 st { s with pwr := { s.pwr with state := st, waking := false } }

def allPorts (s : State) : List Nat := (List.range 24).flatMap fun i => (halves s).map fun h => 2 * i + h

/-- The package enters the deepest state that it may. A message that waits for a unit of it wakes it again (DEDUCED, log
entry 133). -/
def execDwellExpiry (s : State) : Outcome :=
  onlyIf (fun s => s.pwr.state = 0 && pkgIdle s && s.pwr.idleSince + 1000 * regF s (aPwr 0 0xC) 15 0 ≤ s.now && deepest s ≠ 0) (fun s =>
    let st := deepest s
    let s := setPState st s
    let s := if st = 4 then (allPorts s).foldl (fun s p => if (getPort s p).st = 0 then s else turnOff p s) s else s
    if s.fab.inbox.all (·.2.isEmpty) then s else wakeEvent s) s

/-- The ports that are enabled and off train; none before READY (R422). -/
def trainPorts (s : State) : State :=
  if bootStage s = 7 then
    (allPorts s).foldl (fun s p => if regF s (aPort (p / 6) (p / 2 % 3) 4) 0 0 = 1 && (getPort s p).st = 0 then startTraining p s else s) s
  else s

/-- What arrived outside P0 is applied, in its order (R409). -/
def applyEarly (s : State) : State :=
  drainHost (s.fab.early.foldl (fun s e => routeMsg e.1 e.2 s) { s with fab := { s.fab with early := [] } })

/-- The exit latency has passed: the package is in P0, links that were down train, and what waited is applied. -/
def execWake (s : State) : Outcome :=
  onlyIf (fun s => s.pwr.waking && s.pwr.wakeAt + 1000 * exitLatency s.pwr.state ≤ s.now) (fun s =>
    let was := s.pwr.state
    let s := setPState 0 { s with pwr := { s.pwr with idleSince := s.now } }
    applyEarly (if was = 4 then trainPorts s else s)) s

/-- A change of PWR_LTR or MAX_STATE wakes the package where the current state is no longer permitted (R409). -/
def recheckState (s : State) : State := if permitted s s.pwr.state then s else wakeEvent s

/-! ## Temperature (R410, R412) -/

/-- A 32-bit word of a temperature in 1/8 °C. -/
def tempWord (t : Int) : Nat := (t % 2 ^ 32).toNat

/-- Sets a condition of R410 on a die; a change of S counts in THERMAL and changes the budget. -/
def setCond (bit_ d v : Nat) (s : State) : State :=
  let was := scaledDie s d
  let s := putRegF (aPwr d 0) bit_ bit_ v s
  if scaledDie s d = was then showPwr d s else rebudget d (ndc 7 d s)

def setCondAll (bit_ v : Nat) (s : State) : State := (List.range 8).foldl (fun s d => setCond bit_ d v s) s

/-- A die or a stack has reached its trip temperature: grids stop and no further grant is made. -/
def trip (d : Nat) (t : Int) (s : State) : State :=
  if s.pwr.tripped then s
  else ndc 7 d (raise { die := d, code := 0x0804, p0 := d, p1 := tempWord t }
    { s with pwr := { s.pwr with tripped := true, trippedAt := s.now } })

/-- A sample of a die's junction and of its stacks, in 1/8 °C. -/
def sampleTemp (d : Nat) (die stack : Int) (s : State) : State :=
  let a := aPwr d 0x28
  let hi (h l : Nat) (t : Int) : Int := max (signed 16 (regF s a h l)) t
  let s := hwPut a (err16 (hi 31 16 stack) * 2 ^ 16 + err16 (hi 15 0 die)) (putReg (aPwr d 0x24) (err16 stack * 2 ^ 16 + err16 die) s)
  let warn : Int := regF s (aPwr 0 0x20) 23 16
  let max_ : Int := regF s (aPwr 0 0x20) 15 8
  let on := regF s (aPwr d 0) 2 2 = 1
  let s :=
    if !on && 8 * warn ≤ die then raise { die := d, code := 0x0803, p0 := d, p1 := tempWord die } (setCond 2 d 1 s)
    else if on && die ≤ 8 * (warn - 5) then setCond 2 d 0 s
    else s
  if 8 * max_ ≤ die then trip d die s else if 840 ≤ stack then trip d stack s else s

def execTemperatureSample (d : Die) (die stack0 stack1 : Int) (s : State) : Outcome :=
  onlyIf (fun _ => true) (sampleTemp d die (max stack0 stack1)) s

def execTripRailRemoval (s : State) : Outcome :=
  onlyIf (fun s => s.pwr.tripped && s.pwr.trippedAt + 100000 ≤ s.now)
    (fun s => emit .railsOff { s with pwr := { s.pwr with rails := false } }) s

/-- The highest die junction temperature of the package, in 1/8 °C. -/
def hottest (s : State) : Int :=
  (List.range 8).foldl (fun m d => max m (signed 16 (regF s (aPwr d 0x24) 15 0))) (signed 16 (regF s (aPwr 0 0x24) 15 0))

/-- The board's thermal alert input changes: it acts on every die, and its assertion is an interrupt from outside. -/
def execThermAlert (asserted : Bool) (s : State) : Outcome :=
  onlyIf (fun s => (regF s (aPwr 0 0) 5 5 = 1) != asserted) (fun s =>
    let s := setCondAll 5 (bit asserted 0) s
    if asserted then raise { die := 0, code := 0x0803, p0 := 8, p1 := tempWord (hottest s) } (outsideIrq 0 64 s) else s) s

/-! ## Input voltage and telemetry (R410, R411, R413) -/

/-- The tick from which a condition has held. -/
def holdSince (c : Bool) (old : Option Nat) (now : Nat) : Option Nat := if c then some (old.getD now) else none

/-- The condition has held for n ticks. -/
def heldFor (o : Option Nat) (now n : Nat) : Bool := match o with | some t => t + n ≤ now | none => false

/-- Input voltage, current, power and energy as the registers show them. -/
def showInput (mv ma : Nat) (s : State) : State :=
  let ps := (mv * ma :: s.pwr.powers).take 100
  let e := s.pwr.energy + mv * ma
  let s := { s with pwr := { s.pwr with powers := ps, energy := e } }
  putRegF (aPwr 0 0x30) 15 0 mv (putRegF (aPwr 0 0x34) 15 0 ma
    (putRegF (aPwr 0 0x38) 15 0 (ps.foldl (· + ·) 0 / (ps.length * 1000000)) (putReg64 (aPwr 0 0x40) (e / 100000000) s)))

/-- VIN_LOW is entered after 100 µs below 38.0 V and left after 1 ms at or above 38.5 V; VIN_HIGH is entered after
100 µs above 44.0 V and left after 1 ms within it. -/
def judgeVin (mv : Nat) (s : State) : State :=
  let low := regF s (aPwr 0 0) 3 3 = 1
  let now := s.now
  let s :=
    if !low && heldFor s.pwr.lowSince now 100000 then raise { die := 0, code := 0x0801, p0 := mv } (setCondAll 3 1 s)
    else if low && heldFor s.pwr.okSince now 1000000 then setCondAll 3 0 s
    else s
  if !s.pwr.highSaid && heldFor s.pwr.highSince now 100000 then
    raise { die := 0, code := 0x0802, p0 := mv } ((List.range 8).foldl (fun s d => putRegF (aPwr d 0) 4 4 1 s)
      { s with pwr := { s.pwr with highSaid := true } })
  else if s.pwr.highSaid && heldFor s.pwr.fineSince now 1000000 then
    (List.range 8).foldl (fun s d => putRegF (aPwr d 0) 4 4 0 s) { s with pwr := { s.pwr with highSaid := false } }
  else s

/-- A sample of the input: mV and mA. The power controller removes the rails after 10 µs outside 35.0–46.0 V. -/
def execVinSample (mv ma : Nat) (s : State) : Outcome :=
  if s.pwr.rails then
    let p := s.pwr
    let now := s.now
    let s := { s with pwr := { p with
      lowSince := holdSince (mv < 38000) p.lowSince now
      okSince := holdSince (38500 ≤ mv) p.okSince now
      highSince := holdSince (44000 < mv) p.highSince now
      fineSince := holdSince (mv ≤ 44000) p.fineSince now
      cutSince := holdSince (mv < 35000 || 46000 < mv) p.cutSince now } }
    let s := if s.boot.inReset && s.boot.resetCold then s else showInput mv ma s
    let s := if s.boot.inReset then s else judgeVin mv s
    .next (if heldFor s.pwr.cutSince now 10000 then { s with pwr := { s.pwr with rails := false } } else s)
  else if mv < 38000 || 44000 < mv then .next { s with pwr := { s.pwr with vinAt := none } }
  else .next s

end Sys2Proof.Machine
end

