-- ==== Sys2Proof/Machine/Boot.lean ====
section
/-! DEFINITION. Boot (R415–R427): fuses, image checks, the stages from FUSES to READY, keys, recovery and failure. -/

namespace Sys2Proof.Machine

/-! ## Stages (R422) -/

/-- IDV_BOOT shows a stage as it is entered; stages 8 and 9 alert the management controller (R437), and the host hears
of a new boot state (R350). -/
def enterStage (g cause : Nat) (s : State) : State :=
  let old := bootCode s
  let ms := min 0xFFFF ((s.now - s.boot.releaseAt) / 1000000)
  let s := putReg (aIdv 0 8) (g * 2 ^ 28 + cause * 2 ^ 20 + ms) s
  let s := if 8 ≤ g then sendIbi 6 s else s
  sayBoot old s

/-- RECOVERY: the ROM reports it to the admin rings (R426). -/
def recover (cause : Nat) (s : State) : State := raise { die := 0, code := 0x0702 } (enterStage 8 cause s)

/-- FAILED (R427); the host link still trains. -/
def fail (cause : Nat) (s : State) : State :=
  enterStage 9 cause (if s.host.link = 0 then { s with host := { s.host with link := 1 } } else s)

/-! ## The boot flash (R417) -/

def flashByte (s : State) (o : Nat) : Byte :=
  match mapLookup s.boot.flash (o / 65536) with
  | some l => l.getD (o % 65536) 0xFF
  | none => Config.factoryFlash o

def flashRead (s : State) (o n : Nat) : List Byte := (List.range n).map fun i => flashByte s (o + i)

/-- The factory certificate area: the length of the certificates, 1 to 65,532, and the certificates (R425). -/
def factoryCerts : List Byte := natLE 4 (Config.certLen.val + 1) ++ (List.range (Config.certLen.val + 1)).map Config.certByte

/-! ## Image checks (R418–R420) -/

def zeros (b : List Byte) (o n : Nat) : Bool := ((b.drop o).take n).all (· = 0)

/-- The outcome of one check: its cause and the image byte offset of the field, where it fails. -/
abbrev ImageCheck := Bool × Nat × Nat

/-- The checks of header and signer record, in order: cause 0x02 to 0x06, and 0x09. -/
def headChecks (s : State) (h g : List Byte) : List ImageCheck :=
  let slot := fld g 4 1 0
  let rootPub := (g.drop 0x10).take 65
  let bodyLen := wordAt h 0xC
  [(wordAt h 0 = 0x5A384648, 2, 0), (fld h 4 31 24 = 1 && fld h 4 15 0 = 0x5A38, 2, 4),
   (zeroBits h 8 [(31, 22), (15, 9), (7, 0)], 2, 8), (zeroBits h 0x18 [(31, 16)], 2, 0x18), (wordAt h 0x1C = 0, 2, 0x1C),
   (zeros h 0x40 0x40, 2, 0x40),
   (wordAt g 0 = 0x5A385347, 2, 0x1000), (fld g 4 31 24 = 1 && zeroBits g 4 [(23, 2)], 2, 0x1004), (zeros g 8 8, 2, 0x1008),
   (zeros g 0x51 7, 2, 0x1051), (zeros g 0x99 7, 2, 0x1099), (zeros g 0xE0 0x20, 2, 0x10E0),
   (sha256 rootPub = Config.rootHash slot, 3, 0x1010),
   (bitsOf s.boot.revoke slot slot = 0, 4, 0x1004),
   (ecdsaVerify rootPub (g.take 0xA0) ((g.drop 0xA0).take 64), 5, 0x10A0),
   (ecdsaVerify ((g.drop 0x58).take 65) (h.take 0x80) ((h.drop 0x80).take 64), 6, 0x80),
   (4096 ≤ bodyLen && bodyLen ≤ 50331648 && bodyLen % 4096 = 0, 9, 0xC),
   (wordAt h 0x10 < bodyLen && wordAt h 0x10 % 4 = 0, 9, 0x10), (fld h 0x18 15 8 = 1, 9, 0x18)]

/-- The checks of version and body: cause 0x08, then 0x07. -/
def bodyChecks (s : State) (h body : List Byte) : List ImageCheck :=
  [(s.boot.svn ≤ fld h 8 21 16, 8, 8), (sha256 body = (h.drop 0x20).take 32, 7, 0x20)]

/-- The first check that fails. -/
def firstBad (l : List ImageCheck) : Option (Nat × Nat) := (l.find? fun c => !c.1).map (·.2)

/-- The header and the signer record of the image that boots. -/
def imgHeader (s : State) : List Byte := s.boot.header.take 192
def imgSigner (s : State) : List Byte := s.boot.header.drop 192

/-! ## Stages 0–2 -/

/-- The fuse bank is sensed: grade and tile map, security version, revoked slots. The host link begins to train. -/
def execFuses (consistent : Bool) (s : State) : Outcome :=
  onlyIf (fun s => bootStage s = 0) (fun s =>
    if !consistent then fail 0x13 s
    else
      let s := { s with boot := { s.boot with grade := s.boot.fuseGrade }, host := { s.host with link := if s.host.link = 0 then 1 else s.host.link } }
      enterStage 1 0 (putReg (aSec 0 4) (s.boot.svn * 2 ^ 24 + s.boot.revoke % 16 * 2 ^ 4) s)) s

/-- The loops lock and the bridges train. -/
def execClocks (locked : Bool) (failedEdge : Option (Fin 10)) (s : State) : Outcome :=
  onlyIf (fun s => bootStage s = 1) (fun s =>
    if !locked then fail 0x12 s
    else
      match failedEdge with
      | some e => fail 0x10 (bridgeFault e s)
      | none => enterStage 2 0 s) s

/-- The retained copy boots after a warm reset (R422). -/
def bootsRetained (s : State) : Bool := s.boot.warmBoot && !s.boot.retained.isEmpty

/-- Header and signer record are read and checked, where the flash answers for its parameter table and for both; after a warm
reset the flash is not read. -/
def execFlash (table header signer : Bool) (s : State) : Outcome :=
  onlyIf (fun s => bootStage s = 2) (fun s =>
    let h := flashRead s 0 192
    let g := flashRead s 4096 256
    if bootsRetained s then enterStage 3 0 { s with boot := { s.boot with header := s.boot.retained } }
    else if !(table && header && signer) then recover 1 s
    else
      match firstBad (headChecks s h g) with
      | some (c, _) => recover c s
      | none => enterStage 3 0 { s with boot := { s.boot with header := h ++ g } }) s

/-! ## Stages 3–6 -/

/-- H of the body copy in die 0's system reserve. -/
def bodyAt : Nat := 16777216

/-- Bytes enter a die's HBM at once, with fresh code. -/
def placeBytes (d h : Nat) (b : List Byte) (s : State) : State :=
  let gone := (unitsOf h b.length).map (unitKey d)
  { s with mem := memWrite s.mem (hbmCell d h) b, hbm := { s.hbm with upsets := s.hbm.upsets.filter fun e => !gone.contains e.1 } }

def setStackReady (s : State) : State :=
  (List.range 8).foldl (fun s d => (List.range 2).foldl (fun s c => putRegF (aHbm d c 0) 0 0 1 s) s) s

/-- The retained body copy is read through the decoder: it agrees with the header retained with it (R422). No traffic frame
runs yet. -/
def retainedOk (s : State) : State × Bool :=
  match maintRead .boot none 0 bodyAt (wordAt (imgHeader s) 0xC) s with
  | (s, some b) => (s, sha256 b = ((imgHeader s).drop 0x20).take 32)
  | (s, none) => (s, false)

/-- The image that boots is accepted: its root slot shows, and its copy is retained. -/
def acceptImage (s : State) : State :=
  enterStage 4 0 (putRegF (aSec 0 4) 9 8 (fld (imgSigner s) 4 1 0) { s with boot := { s.boot with retained := s.boot.header } })

/-- The stacks train; the body is copied, where the flash answers, and checked, or the retained copy is. A retained copy that fails sends the ROM
to the flash, as at a cold reset. -/
def execHbm (trained body : Bool) (s : State) : Outcome :=
  onlyIf (fun s => bootStage s = 3) (fun s =>
    if !trained then fail 0x11 s
    else
      let s := setStackReady s
      if bootsRetained s then
        match retainedOk s with
        | (s, true) => acceptImage s
        | (s, false) => enterStage 2 0 { s with boot := { s.boot with warmBoot := false, retained := [] } }
      else if !body then recover 1 s
      else
        let b := flashRead s 8192 (wordAt (imgHeader s) 0xC)
        let s := placeBytes 0 bodyAt b s
        match firstBad (bodyChecks s (imgHeader s) b) with
        | some (c, _) => recover c s
        | none => acceptImage s) s

/-- The result of a tile's grid self-test: the physical columns that failed (R97). -/
def selftestWord (cols : List Nat) : Nat :=
  let low := cols.foldl min 127
  2 ^ 31 + bit (1 < cols.length) 17 + bit (0 < cols.length) 16 + (if cols.isEmpty then 0 else low)

/-- Grids are tested; row engines and scratchpads are cleared. `bad` lists engines with their failing columns. -/
def execSelftest (bad : List (Nat × List Nat)) (s : State) : Outcome :=
  onlyIf (fun s => bootStage s = 4) (fun s =>
    let s := { s with scr := [], rows := [] }
    let s := (List.range 8).foldl (fun s d => (List.range (tilesPerDie s)).foldl (fun s t =>
      putReg (aTil d t 0x820) (selftestWord (((bad.find? (·.1 == engine d t)).map (·.2)).getD [])) s) s) s
    enterStage 5 0 s) s

/-! ## Keys (R423, R424) -/

def idLabel : List Byte := [0x42, 0x49, 0x52, 0x52, 0x41, 0x58, 0x2D, 0x5A, 0x38, 0x2D, 0x49, 0x44]
def attLabel : List Byte := [0x42, 0x49, 0x52, 0x52, 0x41, 0x58, 0x2D, 0x5A, 0x38, 0x2D, 0x41, 0x54, 0x54]

/-- A private key from the device secret and a label. -/
def deriveKey (uds : Nat) (label : List Byte) : Nat :=
  let k := natBE 32 uds
  beNat (hmac k (label ++ [1]) ++ hmac k (label ++ [2])) % (pN - 1) + 1

def idKey (uds : Nat) : Nat := deriveKey uds idLabel
def attKeyOf (uds : Nat) (m : List Byte) : Nat := deriveKey uds (attLabel ++ m)

/-- The firmware measurement (R421). -/
def measurement (s : State) : List Byte := sha256 ((imgHeader s).take 0x80)

/-- Writes a digest to eight registers (R415). -/
def putDigest (a : Nat) (b : List Byte) (s : State) : State := (List.range 8).foldl (fun s k => putReg (a + 4 * k) (wordAt b (4 * k)) s) s
def readDigest (s : State) (a : Nat) : List Byte := ((List.range 8).map fun k => natLE 4 (reg s (a + 4 * k))).flatten

/-- The alias certificate without its signature. -/
def aliasBody (s : State) (m idFp attPub : List Byte) : List Byte :=
  wordsLE [0x5A384143, 1 * 2 ^ 24 + 0x5A38, fld (imgHeader s) 8 21 16 * 2 ^ 16 + s.boot.grade * 2 ^ 8 + 0x11, 0] ++ m ++ idFp ++
    attPub ++ List.replicate (7 + 40) 0

/-- The keys are derived and the alias certificate signed; the burn of the security version begins if the image asks for
it (R421). -/
def deriveIdentity (s : State) : State :=
  let m := measurement s
  let d := idKey Config.uds
  let a := attKeyOf Config.uds m
  let idFp := sha256 (pubOf d)
  let (k, s) := freshNo s
  let body := aliasBody s m idFp (pubOf a)
  let cert := body ++ ecdsaSign d (Config.ecdsaNonce k) body
  let svn := fld (imgHeader s) 8 21 16
  let s := putDigest (aSec 0 0x20) m (putDigest (aSec 0 0x40) idFp (putDigest (aSec 0 0x60) (sha256 (pubOf a)) s))
  let s := putReg (aSec 0 8) (wordAt (imgHeader s) 0x14) (putRegF (aSec 0 4) 21 16 svn s)
  hbmWrite .boot 0 (Config.aliasAt % (reserveTop - 256)) cert
    { s with boot := { s.boot with
      attKey := some a, alias_ := cert
      svnBurn := if fld (imgHeader s) 8 8 8 = 1 && s.boot.svn < svn then some svn else none } }

def execIdentity (s : State) : Outcome := onlyIf (fun s => bootStage s = 5 && s.boot.attKey.isNone) deriveIdentity s

/-- Hand-off: core 0 runs at the body copy plus ENTRY (R381). -/
def execFirmware (s : State) : Outcome :=
  onlyIf (fun s => bootStage s = 5 && s.boot.attKey.isSome && s.boot.svnBurn.isNone) (fun s =>
    let s := { s with icu := { s.icu with l2 := [] } }
    setCore 0 { (getCore s 0) with mode := .firmware, mmu := false, handling := false, pc := BitVec.ofNat 64 (0x40 * 2 ^ 37 + bodyAt + wordAt (imgHeader s) 0x10) } (enterStage 6 0 s)) s

/-! ## READY -/

def execReady (m : Master) (d : Die) (s : State) : Outcome := arriveAt m (aSec d 0) 1 s

/-- A write to SEC_BOOT_CTRL, at the end of its window: after hand-off it ends the boot, and the ports train. -/
def effReady (v : Nat) (s : State) : State :=
  if bitsOf v 0 0 = 0 then s
  else
    let s := putRegF (aSec 0 0) 0 0 1 s
    if bootStage s ≠ 6 then s
    else
      trainPorts (enterStage 7 0 s)

/-! ## Pins (R435, R438) -/

def readyPin (s : State) : Bool := s.live && regF s (aSec 0 0) 0 0 = 1
/-- ALERT_N is low. -/
def alertLow (s : State) : Bool := ((List.range 8).any fun d => regF s (aPwr d 0) 4 2 ≠ 0) || bootStage s = 8 || bootStage s = 9
/-- THERMTRIP_N is low. -/
def tripLow (s : State) : Bool := s.pwr.tripped

end Sys2Proof.Machine
end

