-- ==== Sys2Proof/Machine/Secure.lean ====
section
/-! DEFINITION. Firmware update (R428, R429) and attestation reports (R430–R433). -/

namespace Sys2Proof.Machine

def aUpdate : Nat := aSec 0 0x10

/-! ## Firmware update -/

/-- The FW_UPDATE that is in its stages 1 to 3. -/
def updateCmd (s : State) : Option Nat := (s.host.cmds.find? fun c => c.2.begun && cmdOp c.2 = 6 && 1 ≤ c.2.phase).map (·.1)

/-- SEC_UPDATE_STATUS: STATE and CAUSE. -/
def setUpdate (st cause : Nat) (s : State) : State := hwPutF aUpdate 31 29 st (hwPutF aUpdate 23 16 cause s)

/-- An image has been written since boot. -/
def fwPending (s : State) : Bool := regF s (aSec 0 4) 0 0 = 1

/-- One update runs at a time, and RECOVERY takes no second one after an image is written (R426, R429). -/
def effFwUpdate (c : Nat) (s : State) : State :=
  match getCmd s c with
  | none => s
  | some x =>
    if (updateCmd s).isSome || (bootStage s = 8 && fwPending s) then completeCmd c 4 0 s
    else
      let s := hwPut aUpdate (1 * 2 ^ 29) (modCmd c (fun x => { x with phase := 1 }) s)
      issueAcc c .firmware (cmdA64 x 0) (cmdA x 2) 0 none s

def execFwUpdate (c : Nat) (s : State) : Outcome := cmdRow 0x06 c effFwUpdate s

/-- The image access of a FW_UPDATE. -/
def imageAcc (s : State) : Option (Nat × Access) := s.host.accs.find? fun a => a.2.purpose = .firmware

/-- What is wrong with a staged image: the cause, and the offset that DETAIL holds. -/
def imageBad (s : State) (image : List Byte) : Option (Nat × Nat) :=
  let h := image.take 192
  let g := (image.drop 4096).take 256
  match firstBad (headChecks s h g) with
  | some x => some x
  | none =>
    if image.length ≠ 8192 + wordAt h 0xC then some (9, 0x18)
    else firstBad (bodyChecks s h (image.drop 8192))

/-- The image has been copied to the staging area and is checked (R420); an image whose length is not that of its header
ends the command at operand A2. -/
def stageImage (a : Nat) (q : Access) (image : List Byte) (s : State) : State :=
  let s := { s with host := { s.host with accs := mapErase s.host.accs a } }
  let s := hbmWrite .boot 0 (Config.stagingAt % (reserveTop - image.length)) image s
  match imageBad s image with
  | some (cause, off) => completeCmd q.cmd 1 off (setUpdate 4 cause s)
  | none => setUpdate 2 0 (modCmd q.cmd (fun x => { x with phase := 2 }) { s with boot := { s.boot with staged := image } })

def execFwUpdateStaged (image : List Byte) (s : State) : Outcome :=
  onlyIf (fun s => s.host.link = 3 && (match imageAcc s with | some (_, q) => image.length = q.len | none => false)) (fun s =>
    match imageAcc s with
    | some (a, q) => stageImage a q image s
    | none => s) s

/-- Bytes of a 64 KiB sector of the staged image; past its end the sector stays erased. -/
def imageSector (image : List Byte) (k : Nat) : List Byte :=
  let l := (image.drop (65536 * k)).take 65536
  l ++ List.replicate (65536 - l.length) 0xFF

def imageSectors (image : List Byte) : Nat := (image.length + 65535) / 65536

/-- The flash after the image's sectors have been erased and the first n of them programmed (R428). -/
def programFlash (image : List Byte) (n : Nat) (s : State) : State :=
  { s with boot := { s.boot with flash := (List.range (imageSectors image)).foldl (fun m k =>
      mapInsert m k (if k < n then imageSector image k else List.replicate 65536 0xFF)) s.boot.flash } }

/-- A sector that has failed read-back twice holds what it holds. -/
def failSector (k : Nat) (s : State) : State :=
  let (n, s) := freshNo s
  { s with boot := { s.boot with flash := mapInsert s.boot.flash k ((List.range 65536).map (Config.failedSector n)) } }

/-- The flash is being written: stage 3 of an update (R428). -/
def flashWriting (s : State) : Bool :=
  match updateCmd s with
  | some c => (match getCmd s c with | some x => x.phase = 2 | none => false)
  | none => false

/-- A reset or the loss of power in stage 3 ends the write: some of the sectors are programmed and the rest erased, a partial
image (R429). -/
def cutUpdate (s : State) : State :=
  if flashWriting s then
    let (n, s) := freshNo s
    programFlash s.boot.staged (Config.sectorsDone n % max 1 (imageSectors s.boot.staged)) s
  else s

/-- Sectors are programmed and read back: all of the image's, and the update succeeds, or as many as came before the one that
has failed twice. -/
def execFwUpdateWritten (sectors : Nat) (ok : Bool) (s : State) : Outcome :=
  onlyIf (fun s => flashWriting s && (if ok then sectors = imageSectors s.boot.staged else sectors < imageSectors s.boot.staged)) (fun s =>
    match updateCmd s with
    | none => s
    | some c =>
      let image := s.boot.staged
      let s := hwPutF aUpdate 9 0 sectors (programFlash image sectors s)
      if ok then completeCmd c 0 0 (raise { die := 0, code := 0x0703 } (setUpdate 3 0 (putRegF (aSec 0 4) 0 0 1 s)))
      else completeCmd c 4 0 (setUpdate 4 0xA (failSector sectors s))) s

/-- A write to SEC_UPDATE_STATUS, at the end of its window, with the word that its access codes make: its fields are set,
but STATE 0 clears only when no update runs. -/
def effUpdateStatus (new : Nat) (s : State) : State :=
  if bitsOf new 31 29 = 0 && (updateCmd s).isSome then putReg aUpdate (setBits new 31 29 (regF s aUpdate 31 29)) s
  else putReg aUpdate new s

/-! ## Attestation -/

/-- The report's entry of a context's slot (R433). -/
def reportEntry (s : State) (x k : Nat) : List Byte :=
  let l := getLoad s x
  let at_ := if (mapLookup l.recs k).isSome then k else 0
  let r := mapGet [] l.recs at_
  let man := mapGet [] l.mans at_
  let (shard, n, job) := mapGet (0, 0, 0) l.homes at_
  let train := l.kind = 1
  let gen := if train then 0 else slotVal s x k
  let ver := if train then slotVal s x k else recVersion r
  let src := (man.drop (wordAt man 0x18 + 48 * shard + 0x10)).take 32
  let stored := sha256 ((List.range 8).map fun d => mapGet [] l.digests (8 * k + d)).flatten
  wordsLE [x * 2 ^ 29 + k * 2 ^ 28 + l.kind * 2 ^ 24 + regF s (aLoad 0 x 0) 31 29 * 2 ^ 21, recModel r, gen * 2 ^ 16 + ver,
    shard * 2 ^ 16 + n % 256 * 2 ^ 8, job, 0, 0, 0] ++ (r.drop 0x40).take 32 ++ src ++ stored

/-- The slots that hold a committed model, in (context, slot) order. -/
def reportSlots (s : State) : List (Nat × Nat) :=
  ((List.range 8).map fun x => ((List.range 2).filter (slotValid s x)).map fun k => (x, k)).flatten

/-- The report as it is signed (R431). -/
def reportBody (s : State) (nonce : List Byte) : List Byte :=
  let es := reportSlots s
  let flags := regF s (aFab 0 0) 31 31 * 2 ^ 15 + bit s.setup.committed 14 + bit s.setup.debugAllowed 13 + bit (fwPending s) 12 +
    level s * 2 ^ 10 + regF s (aGct 0 8) 2 2 * 2 ^ 9 + regF s (aHbm 0 0 0x100020) 0 0 * 2 ^ 8 + s.boot.grade * 2 ^ 6 +
    regF s (aSec 0 4) 21 16
  wordsLE [2 ^ 24 + es.length, 256 + 128 * es.length, 0x5A381100, pkgId s * 2 ^ 16 + flags, reg s (aSec 0 8), 0,
    s.clk.count, s.clk.count / 2 ^ 32] ++ nonce ++ readDigest s (aSec 0 0x20) ++ readDigest s (aSec 0 0x80) ++
    readDigest s (aSec 0 0x40) ++ List.replicate 32 0 ++ (es.map fun e => reportEntry s e.1 e.2).flatten

/-- A report with its nonce in place, signed, and with CHAIN the certificates that lead to the root (R425, R430, R431). -/
def reportOut (s : State) (key k : Nat) (body nonce : List Byte) (chain : Bool) : List Byte :=
  let b := body.take 0x20 ++ nonce ++ body.drop 0x40
  b ++ ecdsaSign key (Config.ecdsaNonce k) b ++ (if chain then s.boot.alias_ ++ factoryCerts else [])

/-- Bytes of the output. -/
def reportLen (s : State) (chain : Bool) : Nat :=
  256 + 128 * (reportSlots s).length + (if chain then 256 + factoryCerts.length else 0)

/-- An ATTEST_REPORT begins; its snapshot is taken once every change of the tick is made. -/
def effAttest (c : Nat) (s : State) : State :=
  if s.boot.attKey.isNone then completeCmd c 4 0 s else modCmd c (fun x => { x with phase := 1 }) s

/-- The command asks for the row's buffer length and CHAIN (R430). -/
def asksReport (s : State) (c len : Nat) (chain : Bool) : Bool :=
  (getCmd s c).any fun x => cmdA x 2 = len && (cmdA x 5 = 1) = chain

def execAttestReport (c len : Nat) (chain : Bool) (s : State) : Outcome :=
  if asksReport s c len chain then cmdRow 0x05 c effAttest s else onlyIf (fun _ => false) id s

/-- The snapshot of a report (R431): a buffer that is too small ends the command; else the report's body is kept and its
nonce read from host memory. -/
def snapReport (c : Nat) (s : State) : State :=
  match getCmd s c with
  | none => s
  | some x =>
    if cmdA x 2 < reportLen s (cmdA x 5 = 1) then completeCmd c 1 0x18 s
    else
      let s := { s with boot := { s.boot with reports := mapInsert s.boot.reports c (reportBody s (List.replicate 32 0)) } }
      issueAcc c .nonce (cmdA64 x 3) 32 0 none (modCmd c (fun x => { x with phase := 2 }) s)

/-- The snapshots of a tick, taken as it ends. -/
def snapReports (s : State) : State :=
  ((s.host.cmds.filter fun c => c.2.begun && cmdOp c.2 = 5 && c.2.phase = 1).map (·.1)).foldl (fun s c => snapReport c s) s

/-- The nonce has been read: the report is signed and written. -/
def signReport (c : Nat) (nonce : List Byte) (s : State) : State :=
  match getCmd s c, s.boot.attKey, mapLookup s.boot.reports c with
  | some x, some key, some body =>
    let (k, s) := freshNo { s with boot := { s.boot with reports := mapErase s.boot.reports c } }
    let out := reportOut s key k body nonce (cmdA x 5 = 1)
    issueAcc c (.report out.length) (cmdA64 x 0) out.length 0 (some out) s
  | _, _, _ => s

end Sys2Proof.Machine
end

