-- ==== Sys2Proof/Machine/Access.lean ====
section
/-! DEFINITION. What becomes of the bytes that a command reads for itself from host memory (R351, R361): formation and load
records, manifests, nonces. -/

namespace Sys2Proof.Machine

/-- A read of a record that is an input of a context (R310). -/
def Purpose.isRecord : Purpose → Bool
  | .ringRecord | .loadRecord | .manifest => true
  | _ => false

/-- The bytes of a read are given to the command that asked for them. -/
def giveBytes (q : Access) (b : List Byte) (s : State) : State :=
  match q.purpose with
  | .ringRecord => formRing q.cmd b s
  | .loadRecord => acceptLoad q.cmd b s
  | .nonce => signReport q.cmd b s
  | .manifest => (match getCmd s q.cmd with | some x => manifestIn (cmdCtx x) b s | none => s)
  | _ => s

/-- An access that reads for the command itself completes. -/
def accessTaken (a : Nat) (q : Access) (data : List Byte) (s : State) : State :=
  let take (s : State) : State := giveBytes q data (dropAccs (fun b _ => b == a) s)
  if q.purpose.isRecord then
    match getCmd s q.cmd with
    | some x => ownBytes (cmdCtx x) data (fun _ => take) s
    | none => s
  else take s

/-- The access is for bytes that only a row of its own brings: a manifest, a firmware image. -/
def ownRow (q : Access) : Bool := q.purpose = .manifest || q.purpose = .firmware

def execHostAccessComplete (a : Nat) (ok : Bool) (data : List Byte) (s : State) : Outcome :=
  onlyIf (fun s => s.host.link = 3 && (match getAcc s a with
    | some q => q.write || !ok || (data.length = q.len && !ownRow q)
    | none => false)) (fun s =>
    match getAcc s a with
    | none => s
    | some q => if ok && (q.purpose.isRecord || q.purpose = .nonce) then accessTaken a q data s else accessDone a ok data s) s

/-- The read of a record by the recorded context that waits, the oldest. -/
def openRecord (s : State) : Option (Nat × Access) :=
  s.host.accs.find? fun e => e.2.purpose.isRecord && (match getCmd s e.2.cmd with | some x => cmdCtx x == recCtx s | none => false)

/-- A replay presents bytes that a command reads for itself: they gather until the command has all it asked for. Without
such a read they cannot be taken now. -/
def giveRecord (b : List Byte) (s : State) : Option State :=
  match openRecord s with
  | none => none
  | some (a, q) =>
    let got := s.clk.recordBuf ++ b
    if got.length < q.len then some { s with clk := { s.clk with recordBuf := got } }
    else some (giveBytes q got (dropAccs (fun c _ => c == a) { s with clk := { s.clk with recordBuf := [] } }))

end Sys2Proof.Machine
end

