-- ==== Sys2Proof/Machine/Reset.lean ====
section
/-! DEFINITION. Power-up and reset (R439–R443), and the management bus (R437). -/

namespace Sys2Proof.Machine

/-! ## What a reset keeps (R439) -/

/-- The bits of a register's word that RWS fields hold. -/
def rwsMask (r : Reg) (hi : Bool) : Nat :=
  let m := r.flds.foldl (fun a f => if f.acc = .rws then setBits a f.hi f.lo (2 ^ (f.hi + 1 - f.lo) - 1) else a) 0
  if hi then m / 2 ^ 32 else m % 2 ^ 32

/-- What a warm reset leaves of a stored word: RWS fields as they were, all else at its reset value. -/
def warmWord (e : Nat × Word) : Option (Nat × Word) :=
  match findReg e.1 with
  | none => none
  | some (r, _, _, hi) =>
    let m := rwsMask r hi
    let z := (resetWord e.1).toNat
    let w := BitVec.ofNat 32 ((e.2.toNat &&& m) + (z - (z &&& m)))
    if w = resetWord e.1 then none else some (e.1, w)

/-- The register words that a warm reset leaves. -/
def warmRegs (s : State) : SMap Word :=
  (s.regs.map (·.1)).foldl (fun m a => match warmWord (a, regW s a) with
    | some e => mapInsert m e.1 e.2
    | none => m) []

/-- Everything but the fuses is lost; the boot flash, a device of its own, holds what was programmed. The model's own counts
and queue go on. -/
def coldState (s : State) : State :=
  let s := cutUpdate s
  { pending := s.pending, out := s.out, freeCtr := s.freeCtr, clk := { t := s.clk.t }, pwr := { rails := s.pwr.rails },
    boot := { grade := s.boot.grade, fuseGrade := s.boot.fuseGrade, fuseMasks := s.boot.fuseMasks, svn := s.boot.svn,
              revoke := s.boot.revoke, flash := s.boot.flash, rstLow := s.boot.rstLow, wrstLow := s.boot.wrstLow,
              fromPower := s.boot.fromPower } }

/-- RWS fields, the counter and die 0's stacks with the retained copy are kept as well; the maintenance epoch goes on (R235),
and the input is sampled through the reset, its energy from the cold reset on (R413; DEDUCED, log entry 130). -/
def warmState (s : State) : State :=
  let c := coldState s
  { c with
    regs := warmRegs s
    clk := { c.clk with count := s.clk.count }
    mem := s.mem.filter fun e => e.1 < 2 ^ 38
    hbm := { upsets := s.hbm.upsets.filter (fun e => e.1 < 2 ^ 32), epoch := s.hbm.epoch, windows := s.hbm.windows }
    pwr := { c.pwr with energy := s.pwr.energy, powers := s.pwr.powers }
    boot := { c.boot with retained := s.boot.retained, bridgeFault := s.boot.bridgeFault } }

/-- A re-grade has burnt its fuses and waits for the cold reset (R321). -/
def regraded (s : State) : Bool := regF s (aGct 0 0x64) 9 8 = 2
/-- Fuses burn, a re-grade's or those of the security version, while the rails last (R320, R421). -/
def burning (s : State) : Bool := s.pwr.rails && (regF s (aGct 0 0x64) 9 8 = 1 || s.boot.svnBurn.isSome)

/-- Power fails as the security version's fuses burn: some of them are burnt. -/
def cutBurn (s : State) : State :=
  match s.boot.svnBurn with
  | some v =>
    let (n, s) := freshNo s
    { s with boot := { s.boot with svn := s.boot.svn + Config.fusesBurnt n % (v - s.boot.svn + 1), svnBurn := none } }
  | none => s

/-- A reset takes effect: every island stops at once (R440, R441). -/
def resetNow (cold : Bool) (s : State) : State :=
  let c := cold || (s.boot.inReset && s.boot.resetCold) || regraded s || s.pwr.tripped
  let r := if c then coldState s else warmState s
  let r := { r with boot := { r.boot with inReset := true, resetAt := s.clk.t, resetCold := c, warmBoot := !c } }
  if c then r else putReg64 (aPwr 0 0x40) (r.pwr.energy / 100000000) r

/-- A reset is recognised: during a fuse burn it waits for the burn's end. -/
def recognise (cold : Bool) (s : State) : State :=
  if burning s then { s with boot := { s.boot with dueReset := max s.boot.dueReset (if cold then 2 else 1) } }
  else resetNow cold s

/-! ## Reset rows -/

/-- RST_N is recognised low. After a trip it is the cold reset that lets the rails return. -/
def execColdReset (s : State) : Outcome :=
  if s.pwr.rails || s.pwr.tripped then .next (recognise true { s with boot := { s.boot with rstLow := true } }) else .next s

/-- WRST_N is recognised low; after a trip it counts as a cold reset (R441). -/
def execWarmReset (s : State) : Outcome :=
  if s.pwr.rails || s.pwr.tripped then .next (recognise false { s with boot := { s.boot with wrstLow := true } }) else .next s

def execIdvResetWarm (m : Master) (d : Die) (key : BitVec 16) (s : State) : Outcome :=
  arriveAt m (aIdv d 0xC) (BitVec.ofNat 32 (key.toNat * 2 ^ 16 + 1)) s
def execIdvResetCold (m : Master) (d : Die) (key : BitVec 16) (s : State) : Outcome :=
  arriveAt m (aIdv d 0xC) (BitVec.ofNat 32 (key.toNat * 2 ^ 16 + 2)) s

/-- A write to IDV_RESET, at the end of its window. -/
def effIdvReset (v : Nat) (s : State) : State :=
  if bitsOf v 31 16 = 0x5A38 && (bitsOf v 1 0 = 1 || bitsOf v 1 0 = 2) then
    { s with boot := { s.boot with idvResets := s.boot.idvResets ++ [(s.clk.t, bitsOf v 1 0)] } }
  else s

/-- A reset written to IDV_RESET is recognised 10 µs later. -/
def execIdvResetRecognised (s : State) : Outcome :=
  match s.boot.idvResets with
  | (t, op) :: r =>
    if s.pwr.rails && t + 10000 ≤ s.clk.t then .next (recognise (op = 2) { s with boot := { s.boot with idvResets := r } })
    else .next s
  | [] => .next s

/-- The tick since which the reset inputs have been high: one that was recognised low, or is held low at power good, returns at
a free moment (R440, R442; log entry 145). -/
def inputsHigh (s : State) : Nat :=
  s.boot.resetAt + (if s.boot.rstLow || s.boot.wrstLow || s.boot.fromPower then Config.inputLow s.boot.resetAt else 0)

/-- The release is due: 1 ms after the reset inputs' return, or after the recognition or power good where none is low, and at
power-up after 1 ms of REFCLK in range as well. -/
def releaseDue (s : State) : Bool :=
  s.boot.inReset && s.pwr.rails && inputsHigh s + 1000000 ≤ s.clk.t &&
    (!s.boot.fromPower || Config.refclkAt s.boot.resetAt + 1000000 ≤ s.clk.t)

/-- Release, 1 ms after the last reset input's return at the earliest; the boot sequence is timed from it. -/
def execResetRelease (s : State) : Outcome :=
  if releaseDue s then
    let s := { s with boot := { s.boot with
      inReset := false, rstLow := false, wrstLow := false, fromPower := false, releaseAt := s.clk.t } }
    .next (if s.boot.resetCold then restartEpoch s else s)
  else .next s

/-- The fuses that burn are burnt: the grade, or the security version, which SEC_FW_INFO then shows. -/
def burnt (s : State) : State :=
  match s.boot.svnBurn with
  | some v => putRegF (aSec 0 4) 29 24 v { s with boot := { s.boot with svn := v, svnBurn := none } }
  | none => putReg (aGct 0 0x64) (2 * 2 ^ 8) { s with boot := { s.boot with fuseGrade := 2 } }

/-- A fuse burn ends; a reset recognised during it takes effect (R320, R421, R441). -/
def execFuseBurnComplete (s : State) : Outcome :=
  if burning s then
    let due := s.boot.dueReset
    let s := burnt { s with boot := { s.boot with dueReset := 0 } }
    .next (if due = 0 then s else resetNow (due = 2) s)
  else .next s

/-! ## Power-up (R442) -/

/-- The input rises to 38.0 V while the rails are off; after a thermal trip a cold reset comes first (R412). -/
def execVinRise (s : State) : Outcome :=
  if s.pwr.rails || s.pwr.tripped || s.pwr.vinAt.isSome then .next s
  else .next { s with pwr := { s.pwr with vinAt := some s.clk.t } }

/-- The rails are in regulation: the package is in cold reset. -/
def execPowerGood (s : State) : Outcome :=
  match s.pwr.vinAt with
  | some t =>
    if !s.pwr.rails && t + 10000000 ≤ s.clk.t then
      let c := coldState (cutBurn s)
      .next { c with
        pwr := {}
        boot := { c.boot with inReset := true, resetAt := s.clk.t, resetCold := true, fromPower := true, rstLow := false, wrstLow := false } }
    else .next s
  | none => .next s

/-! ## The mailbox and the power controller's alert (R384, R443) -/

def execIdvMbox (m : Master) (d : Die) (v : Word) (s : State) : Outcome := arriveAt m (aIdv d 0x10) v s

/-- A write to IDV_MBOX, at the end of its window: the management controller's is an interrupt from outside. -/
def effMbox (m : Master) (v : Nat) (s : State) : State :=
  let s := putReg (aIdv 0 0x10) v s
  match m with
  | .bmc => outsideIrq 0 66 s
  | _ => s

def execPowerControllerAlert (s : State) : Outcome := onlyIf (fun _ => true) (outsideIrq 0 65) s

/-! ## The management bus (R437) -/

/-- The target's static address, and whether a transfer is addressed to it: by its dynamic address once it has one. -/
def i3cStatic : Nat := 0x3A
def i3cMine (s : State) (addr : BitVec 7) : Bool := addr.toNat = s.boot.dynAddr.getD i3cStatic

/-- A private write of 8 bytes writes a set-up register; any other length is NACKed and has no effect. -/
def execI3cPrivateWrite (w : I3cWrite) (s : State) : Outcome :=
  onlyIf (fun s => i3cMine s w.addr) (fun s =>
    if w.bytes.length = 8 then arrive .bmc (wordAt w.bytes 0) (BitVec.ofNat 32 (wordAt w.bytes 4)) 4 s else emit .i3cNack s) s

/-- Dynamic addresses: ENTDAA and SETDASA assign one, RSTDAA takes it away. -/
def execEntdaa (addr : BitVec 7) (s : State) : Outcome :=
  onlyIf (fun s => s.boot.dynAddr.isNone) (fun s => { s with boot := { s.boot with dynAddr := some addr.toNat } }) s
def execSetdasa (a : I3cAssign) (s : State) : Outcome :=
  onlyIf (fun s => s.boot.dynAddr.isNone && a.fixed.toNat = i3cStatic) (fun s => { s with boot := { s.boot with dynAddr := some a.addr.toNat } }) s
def execRstdaa (s : State) : Outcome := onlyIf (fun _ => true) (fun s => { s with boot := { s.boot with dynAddr := none } }) s

def execGetpid (s : State) : Outcome := onlyIf (fun _ => true) (emit (.i3c (natBE 6 Config.i3cPid.toNat))) s
def execGetbcr (s : State) : Outcome := onlyIf (fun _ => true) (emit (.i3c [Config.i3cBcr])) s
def execGetdcr (s : State) : Outcome := onlyIf (fun _ => true) (emit (.i3c [Config.i3cDcr])) s
def execGetstatus (s : State) : Outcome :=
  onlyIf (fun _ => true) (fun s => let (n, s) := freshNo s; emit (.i3c (natBE 2 (Config.i3cStatus n).toNat)) s) s

/-- In-band interrupts are enabled and disabled. -/
def execEnec (s : State) : Outcome := onlyIf (fun _ => true) (fun s => { s with boot := { s.boot with ibi := true } }) s
def execDisec (s : State) : Outcome := onlyIf (fun _ => true) (fun s => { s with boot := { s.boot with ibi := false } }) s

end Sys2Proof.Machine
end

