-- ==== Sys2Proof/Machine/Setup.lean ====
section
/-! DEFINITION. Reads of the set-up space (R14, R15, R35–R37), the rows of set-up accesses, and the access of a remote
fabric manager (R249). A register whose value is the state of a unit is read from that unit. -/

namespace Sys2Proof.Machine

/-! ## What a register reads as -/

/-- Sources of a die that are delivered to a core (R385, R387). -/
def deliveredTo (s : State) (d c : Nat) : List Nat :=
  s.icu.pend.filterMap fun e =>
    if e.1 / 1024 = d && e.2 && srcEnabled s d (e.1 % 1024) && srcTarget s d (e.1 % 1024) = c then some (e.1 % 1024) else none

/-- The head of a tile's start queue waits for its task context (R99). -/
def sqWaits (s : State) (e : Nat) : Bool :=
  sqWaiting e s && (match gaHbm s (sqAddr s e) with
    | some (d, h) =>
      let b := hbmPeek (agSeq e) d h 32 s
      sqOp b = 0x20 && ((getTctx s e (sqTctx b)).st ≠ 0 || holdsInputs s (sqCtx b))
    | none => false)

/-- The run of the row group that issues. -/
def issuing (s : State) (e : Nat) : Option Run :=
  if (getTile s e).streaming then (gridRun s e).map (·.2) else none

def optBit {α : Type} (o : Option α) (i : Nat) : Nat := bit o.isSome i

/-- The value of a tile register that shows the tile's state. KIND 2 of TIL_TCTXn_BLOCK, an open chain of another task context,
is no slot: it stands with VALID 0 (R129: DESIGN CHOICE, log entry 136). -/
def tileValue (s : State) (k : RegKind) (e i a : Nat) : Nat :=
  let t := getTile s e
  let x := getTctx s e i
  match k with
  | .tilStatus => regF s a 9 8 * 2 ^ 8 + bit t.sqUe 3 + bit t.episode 2 + bit (sqWaits s e) 1 + bit t.ordered 0
  | .tilTctx => (if x.st = 4 && t.cur == some i && leaveHeld s e then 3 else x.st) * 2 ^ 29 + bit (x.chain.isSome && x.chainOn) 28 + x.entryBase * 2 ^ 24 + x.entryCount * 2 ^ 16 + x.lastStatus * 2 ^ 8 + x.ctx * 2 ^ 5
  | .tilTask => x.index
  | .tilBlock =>
    (match x.block with
     | some (kind, slot) => 2 ^ 31 + kind * 2 ^ 14 + slot
     | none => (match chainHolder s e with | some m => if x.st = 3 && m ≠ i then 2 * 2 ^ 14 else 0 | none => 0))
  | .tilTagState =>
    let q := regF s (aTil (e / 40) (e % 40) 0x184) 13 0
    if isTagged s e q then 2 ^ 9 + (getTag s e q).holds * 2 ^ 4 + (getTag s e q).st else 0
  | _ =>
    let z4 := match issuing s e with | some r => tdZ4 r.desc | none => false
    optBit (chainHolder s e) 5 + bit (2 ≤ t.phase || t.halves.any (·.full)) 4 + t.cur.getD 0 * 2 ^ 2 + bit z4 1 + bit t.fenced 0

/-- The value of a carousel register. -/
def carValue (s : State) (k : RegKind) (d x a : Nat) : Nat :=
  let r := ringOf s x
  let l := getLoad s x
  match k with
  | .carStatus => min 8 (buffersUsed s d) * 2 ^ 8 + bit ((stonesOf s d).zipIdx.any fun (t, b) => stoneStalled s d b t) 1 +
      bit (!(stonesOf s d).isEmpty || !(untaken s d).isEmpty) 0
  | .carState => r.st * 2 ^ 29 + (if r.st = 0 then 0 else ringPos s x * 2 ^ 22 + ringN s x * 2 ^ 14 + fld r.rcd 4 10 9 * 2 ^ 12 + fld r.rcd 4 11 11 * 2 ^ 11) +
      bit r.qfault 10
  | .carJob => ringJob s x
  | .carStash => l.vhi * 2 ^ 16 + l.vlo
  | .carStashState =>
    (match r.opened with | some o => bit (!o.granted) 31 + bit o.granted 30 + o.version | none => 0) + bit (l.kind = 1 && stashTwo s x) 29
  | .carGen => l.genNew * 2 ^ 16 + l.genCur
  | _ => bit l.newValid 31 + bit l.swapCommitted 30 + regF s a 3 0

/-- Granules allotted on a die (R241). -/
def granulesUsed (s : State) (d : Nat) : Nat := (usedRuns s d []).foldl (fun n r => n + (r.2 - r.1) / 65536) 0

/-- The value, low word and high word, of the register whose low word is at `a`. -/
def regValue (s : State) (r : Reg) (i j a : Nat) : Nat :=
  let d := a / 0x4000000
  match r.kind with
  | .idvDevice => 0x5A381100 + d
  | .idvGrade => tilesPerDie s * 2 ^ 8 + s.boot.grade
  | .gctCount => s.clk.count
  | .gctStep => stepOf s i
  | .icuPend => (List.range 32).foldl (fun v b => v + bit (sourceDefined d (32 * i + b) && srcPending s d (32 * i + b)) b) 0
  | .icuNext => (match deliveredTo s d i with | [] => 0 | x :: l => 2 ^ 31 + l.foldl min x)
  | .icuMask => regF s a 0 0 + bit (getCore s (4 * d + i)).asleep 1
  | .icuSum => (List.range 8).foldl (fun v k => v + bit (!(deliveredTo s k (4 * d + i)).isEmpty) k) 0
  | .lccDbgStatus => regF s a 2 2 * 2 ^ 2 + bit (getCore s (4 * d + j)).asleep 1 + bit (getCore s (4 * d + j)).halted 0
  | .lccDbgPc => (getCore s (4 * d + j)).pc.toNat
  | .hbmFrameCtrl => bit (frameValid s) 31 + slotsOfClass s 0 * 2 ^ 16 + slotsOfClass s 1 * 2 ^ 8 + regF s a 0 0
  | .hbmUsed => granulesUsed s d
  | .hbmFree => if regF s (aHbm d 0 0) 0 0 = 0 then 0 else (captureBase s - reserveTop) / 65536 - granulesUsed s d
  | .fabOpqCtrl => bit (mapGet false s.fab.halted i) 30 + regF s a 3 0
  | .hlkStatus => s.host.link * 2 ^ 29 + bit s.setup.committed 28 + bit s.host.negotiated 27 + bootCode s * 2 ^ 24
  | .hlkRingHead => (match getRing s i with | some g => 2 ^ 31 + g.evTail * 2 ^ 16 + g.fetch | none => 0)
  | .carStatus | .carState | .carJob | .carStash | .carStashState | .carGen | .carQCtrl => carValue s r.kind d i a
  | .tilStatus | .tilTctx | .tilTask | .tilBlock | .tilTagState | .tilGridStatus => tileValue s r.kind (engine d j) i a
  | .rowStatus =>
    let x := getRow s (8 * d + j)
    x.cause * 2 ^ 8 + bit (rowSpilled s (8 * d + j)) 3 + bit (match x.run with | some y => y.stalled | none => false) 2 + optBit x.run 1 + bit x.halted 0
  | .rowStatUse => (getRow s (8 * d + j)).recs.length * 2 ^ 16 + sideUsed (getRow s (8 * d + j)).recs
  | _ => if r.wide then reg64 s a else reg s a

/-! ## Reads -/

def latchOf (s : State) (m : Master) (a : Nat) : Option Word :=
  (s.setup.latches.find? fun e => e.1 == masterKey m && e.2.1 == a).map (·.2.2)

def dropLatch (m : Master) (a : Nat) (s : State) : State :=
  { s with setup := { s.setup with latches := s.setup.latches.filter fun e => !(e.1 == masterKey m && e.2.1 == a) } }

def putLatch (m : Master) (a v : Nat) (s : State) : State :=
  let s := dropLatch m a s
  { s with setup := { s.setup with latches := s.setup.latches ++ [(masterKey m, a, BitVec.ofNat 32 v)] } }

/-- The flags that a read of CAR_RINGn_GEN latches for the next read of CAR_RINGn_Q_CTRL (R192), by that register. -/
def genLatchOf (s : State) (m : Master) (a : Nat) : Option Nat :=
  (s.setup.genLatch.find? fun e => e.1 == masterKey m && e.2.1 == a).map (·.2.2)

def setGenLatch (m : Master) (a : Nat) (v : Option Nat) (s : State) : State :=
  let rest := s.setup.genLatch.filter fun e => !(e.1 == masterKey m && e.2.1 == a)
  { s with setup := { s.setup with genLatch := match v with | some f => rest ++ [(masterKey m, a, f)] | none => rest } }

/-- Reads the word at an address of a register that exists. -/
def readReg (m : Master) (r : Reg) (i j a : Nat) (hi : Bool) (s : State) : State × Nat :=
  let v := regValue s r i j a
  if hi then
    match latchOf s m a with
    | some w => (dropLatch m a s, w.toNat)
    | none => (s, v / 2 ^ 32 % 2 ^ 32)
  else if r.wide then (putLatch m a (v / 2 ^ 32) s, v % 2 ^ 32)
  else
    match r.kind with
    | .carGen => (setGenLatch m (a + 0x14) (some (carValue s .carQCtrl 0 i (a + 0x14) / 2 ^ 30)) s, v)
    | .carQCtrl =>
      (match genLatchOf s m a with
       | some f => (setGenLatch m a none s, f * 2 ^ 30 + v % 2 ^ 30)
       | none => (s, v))
    | _ => (s, v)

/-- A set-up read by a master: reach is judged first; an unbacked or reserved place reads 0. -/
def readSetup (m : Master) (addr size : Nat) (s : State) : State × Nat :=
  if !reaches m addr then (deny m addr s, 0)
  else if size ≠ 4 || addr % 4 ≠ 0 || !backed s addr then (s, 0)
  else
    match findReg addr with
    | none => (s, 0)
    | some (r, i, j, hi) =>
      let low := if hi then addr - 4 else addr
      readReg m r i j (if r.pkg then low % 0x4000000 else low) hi s

/-- The master is a core whose read takes a synchronous abort (R377, R378). -/
def masterBarred (s : State) (m : Master) (addr : Nat) : Bool :=
  match m with | .core c => coreBars s c.val addr 4 | _ => false

/-- The word goes back to the master that read it; the package acts on no other manager's access (R249). -/
def giveData (m : Master) (addr : Nat) (s : State) : State :=
  if m = .fm && !fromManager s then s
  else if masterBarred s m addr then coreAbort (masterKey m - 16) s
  else
    let (s, v) := readSetup m addr 4 s
    emit (.regData m addr (BitVec.ofNat 32 v)) s

/-! ## The rows of set-up accesses -/

/-- Whether an address is the high word of a 64-bit register, where it is a word of one. -/
def wideWord (addr : Nat) : Option Bool :=
  match findReg addr with
  | some (r, _, _, hi) => if r.wide then some hi else none
  | none => none

def execSetupRegisterWrite (m : Master) (addr v : Word) (size : Nat) (s : State) : Outcome :=
  onlyIf (fun _ => true) (arrive m addr.toNat v size) s

/-- A read of a 64-bit register: of its low word, which latches the high word, or of the high word, which gives the latched
one (R15). -/
def execWideLowWordRead (m : Master) (addr : Word) (s : State) : Outcome :=
  onlyIf (fun _ => (wideWord addr.toNat).isSome) (giveData m addr.toNat) s

def execWideHighWordWrite (m : Master) (addr v : Word) (s : State) : Outcome :=
  onlyIf (fun _ => wideWord addr.toNat = some true) (arrive m addr.toNat v 4) s

def execWideLowWordWrite (m : Master) (addr v : Word) (s : State) : Outcome :=
  onlyIf (fun _ => wideWord addr.toNat = some false) (arrive m addr.toNat v 4) s

def execCarRingGenRead (m : Master) (d : Die) (x : Ctx) (s : State) : Outcome :=
  onlyIf (fun _ => true) (giveData m (aCar d (0x114 + 0x40 * x))) s

/-- A private write of an address and a 4-byte private read return a register; another length is NACKed (R437). -/
def execI3cPrivateRead (w : I3cWrite) (len : Nat) (s : State) : Outcome :=
  onlyIf (fun s => i3cMine s w.addr) (fun s =>
    if w.bytes.length = 4 && len = 4 then
      let (s, v) := readSetup .bmc (wordAt w.bytes 0) 4 s
      emit (.i3c (natLE 4 v)) s
    else emit .i3cNack s) s

/-! ## A remote fabric manager (R249) -/

/-- Messages of an opcode that wait at a die, from another package or from the far end of a link. -/
def regMsgs (s : State) (d cop : Nat) : List InMsg :=
  (served s d).filter fun i => (i.msg.ty = 6 || i.msg.ty = 7) && ctlOp i.msg = cop

/-- REG_RESULT goes back the way the request came. -/
def answerReg (d : Nat) (i : InMsg) (v status : Nat) (s : State) : State :=
  let args := [ctlArg i.msg 0, ctlArg i.msg 1, v, status]
  if i.msg.ty = 7 then postLink i.port (ctlGrain 0x62 0 0 args) s
  else postCtl d i.msg.spkg i.msg.sdie 0x62 0 args s

/-- Status of an access: outside the manager's reach, dropped, or done. -/
def fmStatus (addr : Nat) : Nat := if !reaches .fm addr then 1 else if addr % 4 ≠ 0 then 2 else 0

def execRegRead (d : Die) (s : State) : Outcome :=
  onlyIf (fun s => !(regMsgs s d 0x60).isEmpty) (fun s =>
    match regMsgs s d 0x60 with
    | [] => s
    | i :: _ =>
      let s := takeMsg d i s
      if !ctlValid i.msg then s
      else if !fromManager s then answerReg d i 0 1 s
      else
        let (s, v) := readSetup .fm (ctlArg i.msg 0) 4 s
        answerReg d i v (fmStatus (ctlArg i.msg 0)) s) s

def execRegWrite (d : Die) (s : State) : Outcome :=
  onlyIf (fun s => !(regMsgs s d 0x61).isEmpty) (fun s =>
    match regMsgs s d 0x61 with
    | [] => s
    | i :: _ =>
      let s := takeMsg d i s
      if !ctlValid i.msg then s
      else if !fromManager s then answerReg d i 0 1 s
      else answerReg d i 0 (fmStatus (ctlArg i.msg 0)) (arriveFrom d .fm (ctlArg i.msg 0) (BitVec.ofNat 32 (ctlArg i.msg 2)) 4 s)) s

/-- The master that manages the fabric from this package (R261, R288). -/
def managerHere (s : State) : Master :=
  if regF s (aFab 0 4) 8 8 = 1 then .core (Fin.ofNat 32 (regF s (aFab 0 4) 7 3)) else .host

/-- A reply reaches the fabric manager that asked. -/
def execRegResult (d : Die) (s : State) : Outcome :=
  onlyIf (fun s => !(regMsgs s d 0x62).isEmpty) (fun s =>
    match regMsgs s d 0x62 with
    | [] => s
    | i :: _ =>
      let s := takeMsg d i s
      if !ctlValid i.msg then s
      else emit (.regData (managerHere s) (ctlArg i.msg 0) (BitVec.ofNat 32 (ctlArg i.msg 2))) s) s

end Sys2Proof.Machine
end

