-- ==== Sys2Proof/Machine/Arbiter.lean ====
section
/-! DEFINITION. Arbitration windows (R369–R372): what stands and what is overridden, the effect of each set-up write, and
the set-up lock (R375, R432). -/

namespace Sys2Proof.Machine

/-! ## The effect of a set-up write (R16–R18) -/

/-- The context whose queue a register feeds, where its writes are held inputs: tails, and the doorbells of the context
(R300, R304, R357). -/
def queueCtx (s : State) (r : Reg) (i j d : Nat) : Option Nat :=
  match r.kind with
  | .carQTail | .fabOpqTail => some i
  | .cmdTail | .cplHead | .evHead => if i = 0 then none else some (i - 1)
  | .rowTail => some (rowCtx s (8 * d + j))
  | _ => none

/-- PWR_THERM_CTRL keeps TRIP at least 10 °C above WARN: a field that would break this keeps its value (R16). -/
def thermWord (old new : Nat) : Nat :=
  let t (v : Nat) : Nat := bitsOf v 15 8
  let w (v : Nat) : Nat := bitsOf v 23 16
  if w new + 10 ≤ t new then new
  else if w new + 10 ≤ t old then setBits new 15 8 (t old)
  else setBits (setBits new 15 8 (t old)) 23 16 (w old)

/-- A change of SCALE where a die is scaled is a change of S (R410). -/
def putTherm (new : Nat) (s : State) : State :=
  let a := aPwr 0 0x20
  let moved := regF s a 0 0 ≠ bitsOf new 0 0
  let s := putReg a new s
  if moved then (List.range 8).foldl (fun s d => if scaledDie s d then rebudget d (ndc 7 d s) else s) s else s

/-- Writes that are dropped in the state the package is in. -/
def writeDropped (s : State) (r : Reg) (i j d new : Nat) : Bool :=
  match r.kind with
  | .gctLaunchAt | .gctRowCtx => anyBusy s
  | .gctBudget => anyBusy s || new < 1000000
  | .gctSeed => launched s i || ctxSt s i = 1
  | .carQBase | .carQCtrl => (ringOf s i).st ≠ 0
  | .fabOpqBase => !(opqEmpty s i && (getOp s i).isNone)
  | .fabWin | .fabWin0 => winState s d i ≠ 0
  | .hlkAdmBase => regF s (aHlk 4) 0 0 = 1
  | .lccBase => reg s (aLcc d j 0x30) ≠ regF s (aLcc d j 0x2C) 9 0
  | _ => false

/-- What a write does to a register of each kind. `v` is the written value, `new` what the access codes make of it. -/
def writeKindEff (m : Master) (r : Reg) (i j a v new : Nat) (locked : Bool) (s : State) : State :=
  let d := a / 0x4000000
  let put (s : State) : State := if r.wide then putReg64 a new s else putReg a new s
  match r.kind with
  | .idvReset => effIdvReset v s
  | .idvMbox => effMbox m v s
  | .secReady => effReady v s
  | .secUpdate => effUpdateStatus new s
  | .pwrLimit => rebudgetAll (put s)
  | .pwrCtrl => recheckState (put s)
  | .pwrTempMax => if bitsOf v 31 16 = 0 then putReg a 0 s else put s
  | .pwrTherm => putTherm (thermWord (reg s a) new) s
  | .gctSyncCtrl => effSyncCtrl m locked v s
  | .gctLaunchCtrl => effLaunchCtrl m v s
  | .gctStepClose => effStepClose (bitsOf v 2 0) s
  | .gctRecCtrl => effRecCtrl m v s
  | .gctCmpCtrl => effCmpCtrl m d i v s
  | .gctRegradeCtrl => effRegrade v s
  | .icuSrc => effIcuSrc d i v locked s
  | .icuPend => effIcuPend d i v s
  | .icuAck => effIcuAck d v s
  | .icuEvqBase => evqFlush d (put s)
  | .icuEvqHead => effEvqHead d v s
  | .lccDbgCtrl => effDbgCtrl (4 * d + j) v s
  | .lccCmdTail => effLccCmdTail (4 * d + j) (put s)
  | .lccTrace => effTrace m v s
  | .fabPortCtrl => effPortCtrl d j v (put s)
  | .fabId => effFabId v s
  | .fabRoute => effRoute a v s
  | .fabWinCmd =>
    if bitsOf v 31 30 = 1 then effWinOpen d (bitsOf v 7 0) s else if bitsOf v 31 30 = 2 then effWinClose d (bitsOf v 7 0) s else s
  | .fabMcRemove => effMcRemove (bitsOf v 7 0) s
  | .fabOpqCtrl => if bitsOf v 31 31 = 1 then effOpqResume i (put s) else put s
  | .hlkCtrl => effHlkCtrl v locked s
  | .cmdTail => effCmdTail i v s
  | .cplHead => effCplHead i v s
  | .evHead => effEvHead i v s
  | .tilSqTail => effTilSqTail d j (put s)
  | .tilRegion => effTilRegion d j i v s
  | .tilTagCmd => effTagCmd d j (bitsOf v 31 30) (bitsOf v 29 16) (bitsOf v 13 0) s
  | .rowCtrl => effRowCtrl d j v s
  | .rowSpillBase => effRowSpillBase d j new s
  | .rowSpillSize => effRowSpillSize d j v s
  | _ => put s

/-- The stored value of a register, and the value that a write brings to it: a low-word write of a 64-bit register takes
the high word that its master holds, else the one that stands (R15). -/
def oldValue (s : State) (r : Reg) (a : Nat) : Nat := if r.wide then reg64 s a else reg s a
def fullValue (s : State) (r : Reg) (a : Nat) (v : Word) (hi : Option Word) : Nat :=
  if r.wide then v.toNat + (match hi with | some h => h.toNat | none => reg s (a + 4)) * 2 ^ 32 else v.toNat

/-- The bits that a write gives a field of a register: its RW, RWS and W1S fields (R19). -/
def softBits (r : Reg) (locked : Bool) (w : Nat) : Nat :=
  r.flds.foldl (fun m f =>
    match f.acc with
    | .rw | .rws => if f.valid.ok (bitsOf w f.hi f.lo) then setBits m f.hi f.lo (2 ^ (f.hi + 1 - f.lo) - 1) else m
    | .rwl => if locked || !f.valid.ok (bitsOf w f.hi f.lo) then m else setBits m f.hi f.lo (2 ^ (f.hi + 1 - f.lo) - 1)
    | .w1s => setBits m f.hi f.lo (bitsOf w f.hi f.lo)
    | _ => m) 0

/-- A set-up write takes effect, or is held with its context's inputs (R304). A write that would change a locked field
is reported (R18). -/
def applyWrite (m : Master) (addr : Nat) (v : Word) (hi : Option Word) (s : State) : State :=
  match findReg addr with
  | none => s
  | some (r, i, j, _) =>
    let locked := s.setup.committed
    let old := oldValue s r addr
    let w := fullValue s r addr v hi
    let new := r.write locked old w ||| (if r.wide then 0 else hwSetNow s addr)
    let s := if locked && r.breaksLock old w then raise { die := 0, code := 3, p0 := addr, p1 := masterCode m } s else s
    let m' := softBits r locked w
    let s := if r.wide then markSw (addr + 4) (m' / 2 ^ 32) (markSw addr (m' % 2 ^ 32) s) else markSw addr m' s
    match queueCtx s r i j (addr / 0x4000000) with
    | some x => if holdsInputs s x then holdInput x addr v s else writeKindEff m r i j addr w new locked s
    | none => if writeDropped s r i j (addr / 0x4000000) new then s else writeKindEff m r i j addr w new locked s

/-! ## The set-up lock (R375, R432) -/

/-- The bits of RWL fields of a register. -/
def rwlMask (r : Reg) : Nat := r.flds.foldl (fun a f => if f.acc = .rwl then setBits a f.hi f.lo (2 ^ (f.hi + 1 - f.lo) - 1) else a) 0

/-- The words of one register array on a die that hold part of an RWL field: address and mask. -/
def lockedWords (d : Nat) (r : Reg) : List (Nat × Nat) :=
  let m := rwlMask r
  if m = 0 || (r.pkg && d ≠ 0) then []
  else
    let at_ := ((List.range r.n2).map fun j => (List.range r.n).map fun i => 0x4000000 * d + r.base + j * r.stride2 + i * r.stride).flatten
    (at_.map fun a => if r.wide then (if m % 2 ^ 32 = 0 then [] else [(a, m % 2 ^ 32)]) ++ (if m / 2 ^ 32 = 0 then [] else [(a + 4, m / 2 ^ 32)])
      else [(a, m)]).flatten

/-- Every such word of the package where it is held, in ascending address. -/
def allLocked (s : State) : List (Nat × Nat) :=
  let blocks := [regsIdv, regsPwr, regsGct, regsIcu, regsHbm, regsFab, regsHlk, regsSec, regsCar, regsTil, regsRow].flatten
  let l := ((List.range 8).map fun d => (blocks.map (lockedWords d)).flatten).flatten
  (l.filter fun e => backed s e.1).mergeSort fun a b => decide (a.1 ≤ b.1)

/-- CONFIG_DIGEST (R432). -/
def configDigest (s : State) : List Byte :=
  sha256 ((allLocked s).map fun e => wordsLE [e.1, reg s e.1 &&& e.2]).flatten

/-- The lock takes effect on every die at once. -/
def setupLock (c : Nat) (s : State) : State :=
  let s := { s with setup := { s.setup with committed := true, locking := false, debugAllowed := regF s (aLcc 0 0 0x100) 0 0 = 1 } }
  let s := if level s = 2 then (List.range 320).foldl (fun s e => if e % 40 < tilesPerDie s then modTile e (fun t => { t with ordered := true }) s else s) s
    else s
  completeCmd c 0 0 (putDigest (aSec 0 0x80) (configDigest s) s)

/-! ## Contradictions (R371) -/

/-- A command as the rules of contradiction see it: opcode, context, operand words. -/
abbrev CmdView := Nat × Nat × List Word

def viewOf (x : Cmd) : CmdView := (cmdOp x, cmdCtx x, x.words.drop 4)

/-- Two commands on one context contradict each other. -/
def cmdsContradict (a b : CmdView) : Bool :=
  let pair (p q : Nat → Bool) : Bool := (p a.1 && q b.1) || (p b.1 && q a.1)
  a.2.1 = b.2.1 &&
    (pair (· = 4) (· ≠ 4) || (a.1 = 3 && b.1 = 3 && a.2.2 ≠ b.2.2) || pair (· = 0x10) (· = 0x11) ||
      pair (fun o => o = 0x12 || o = 0x13) (· = 0x14))

/-- Master codes in the order of priority: the code itself (R370, R313). -/
def actMaster (s : State) : Act → Nat
  | .write m _ _ _ => masterCode m
  | .cmd c => match getCmd s c with
    | some x => (match x.src with | .ring _ => 1 | .core _ => 2)
    | none => 2
  | .lock _ => 1

/-- The context that a register of a context's own block belongs to. -/
def ctxOfReg (k : RegKind) (i : Nat) : Option Nat :=
  match k with
  | .carQTail | .carQBase | .carQCtrl | .fabOpqTail | .fabOpqBase | .fabOpqCtrl | .gctSeed => some i
  | .cmdTail | .cplHead | .evHead => if i = 0 then none else some (i - 1)
  | _ => none

/-- A write is an action on the context that a CTX_CLOSE closes (R371). -/
def closesOver (s : State) (p c : Nat) : Bool :=
  match getCmd s c, findReg p with
  | some x, some (r, i, _, _) => cmdOp x = 4 && ctxOfReg r.kind i = some (cmdCtx x)
  | _, _ => false

/-- Two actions of different masters contradict each other. -/
def actsContradict (s : State) (a b : Act) : Bool :=
  match a, b with
  | .write _ p v h, .write _ q w g =>
    if p ≠ q then false
    else
      match findReg p with
      | some (r, _, _, _) => r.contradict s.setup.committed (oldValue s r p) (fullValue s r p v h) (fullValue s r p w g)
      | none => false
  | .cmd c, .cmd e => match getCmd s c, getCmd s e with
    | some x, some y => cmdsContradict (viewOf x) (viewOf y)
    | _, _ => false
  | .write _ p _ _, .cmd c | .cmd c, .write _ p _ _ => closesOver s p c
  | _, _ => false

/-- A command precedes another of its master: by SEQ in serial-number arithmetic; where neither precedes, by ring set and
then in ring order (R369). -/
def cmdPrecedes (s : State) (c e : Nat) : Bool :=
  match getCmd s c, getCmd s e with
  | some x, some y =>
    let gap := (cmdWord y 1 + 2 ^ 32 - cmdWord x 1) % 2 ^ 32
    let place (z : Cmd) : Nat := match z.src with | .ring r => r.val | .core k => k.val
    if gap = 0 || gap = 2 ^ 31 then place x < place y || (place x = place y && x.seqNo < y.seqNo) else gap < 2 ^ 31
  | _, _ => false

/-- Puts a command among commands in order: after those that it does not precede. -/
def placeCmd (s : State) (a : Nat) : List Nat → List Nat
  | [] => [a]
  | b :: l => if cmdPrecedes s a b then a :: b :: l else b :: placeCmd s a l

/-- A master's actions of a window in the order in which they are applied: its writes as they arrived, then its commands by
SEQ (R370; that the writes come first is the model's, DESIGN CHOICE, log entry 6). -/
def inOrder (s : State) (l : List Act) : List Act :=
  let cs := l.filterMap fun a => match a with | .cmd c => some c | _ => none
  (l.filter fun a => match a with | .write .. => true | _ => false) ++
    (cs.foldl (fun m a => placeCmd s a m) []).map .cmd

/-- The winner over an action among those that stand: the first of another master that contradicts it. -/
def winnerOver (s : State) (stand : List Act) (a : Act) : Option Nat :=
  (stand.find? fun b => actMaster s b ≠ actMaster s a && actsContradict s b a).map (actMaster s)

/-- Splits a window's actions, in priority order, into those that stand and those that are overridden, with the winner. -/
def judge (s : State) : List Act → List Act → List (Act × Nat) → List Act × List (Act × Nat)
  | [], stand, lost => (stand, lost)
  | a :: r, stand, lost =>
    match winnerOver s stand a with
    | some k => judge s r stand (lost ++ [(a, k)])
    | none => judge s r (stand ++ [a]) lost

/-! ## The end of a window -/

/-- A command that waited for its window's end acts. -/
def applyCmd (c : Nat) (s : State) : State :=
  match getCmd s c with
  | none => s
  | some x =>
    match cmdOp x with
    | 0x03 => effCtxOpen c s
    | 0x04 => effCtxClose c s
    | 0x10 => effRingForm c s
    | 0x11 => effRingDissolve c s
    | 0x12 | 0x13 => effModelLoad c s
    | 0x14 => effModelUnload c s
    | 0x15 => effAllot c s
    | 0x16 => effFree c s
    | 0x17 | 0x18 => effCopyCmd c s
    | 0x19 => effRequest c s
    | 0x1A => effJobAbort c s
    | _ => effMark c s

def applyAct (s : State) : Act → State
  | .write m addr v hi => applyWrite m addr v hi s
  | .cmd c => applyCmd c s
  | .lock c => setupLock c s

/-- An overridden action has no effect (R372). -/
def override (s : State) (l : Act × Nat) : State :=
  match l.1 with
  | .write m addr _ _ => raise { die := 0, code := 2, p0 := addr, p1 := masterCode m, p2 := l.2 } s
  | .cmd c => completeCmd c 5 l.2 s
  | .lock _ => s

def isLock : Act → Bool
  | .lock _ => true
  | _ => false

/-- The oldest window that has actions and has ended. -/
def dueWindow (s : State) : Option Nat :=
  let w := s.setup.acts.foldl (fun m a => match m with | some k => some (min k a.1) | none => some a.1) none
  match w with
  | some k => if 40 * k + 40 ≤ s.clk.count then some k else none
  | none => none

/-- The end of window w: contradictions are resolved, what stands is applied in priority order, and a lock last. -/
def endWindow (w : Nat) (s : State) : State :=
  let mine := (s.setup.acts.filter (·.1 = w)).map (·.2)
  let ordered := (List.range 4).flatMap fun k => inOrder s (mine.filter fun a => !isLock a && actMaster s a = k)
  let s := { s with setup := { s.setup with acts := s.setup.acts.filter (·.1 ≠ w) } }
  let (stand, lost) := judge s ordered [] []
  let s := stand.foldl applyAct s
  let s := lost.foldl override s
  let s := (mine.filter isLock).foldl applyAct s
  drainHost s

def execArbitrationWindowEnd (s : State) : Outcome :=
  onlyIf (fun s => s.pwr.state = 0 && (dueWindow s).isSome) (fun s =>
    match dueWindow s with
    | some w => endWindow w s
    | none => s) s

end Sys2Proof.Machine
end

