-- ==== Sys2Proof/Machine/Replay.lean ====
section
/-! DEFINITION. Replay of a capture log (R315, R316): each record of a die is presented at its count, in order, and a
record that its target cannot take waits. -/

namespace Sys2Proof.Machine

/-- Where the next record of a die's log lies. -/
def replayAt (s : State) (d : Nat) : Nat := captureBase s + logAtOf s d

/-- The record's head as it lies in HBM. -/
def replayHead (s : State) (d : Nat) : List Byte := hbmPeek (agReplay d) d (replayAt s d) 16 s

/-- The count has reached LAUNCH_AT + TICK; TICK is negative before the launch. -/
def replayDue (s : State) (d : Nat) : Bool :=
  let at_ := mapGet 0 s.clk.launchAt (recCtx s) + dwordAt (replayHead s d) 8
  (s.clk.count + 2 ^ 64 - at_ % 2 ^ 64) % 2 ^ 64 < 2 ^ 63

/-- The master of a SETUP_WRITE record's code (R313); a core's own number is not recorded. -/
def masterOf (c : Nat) : Master := if c = 0 then .bmc else if c = 1 then .host else if c = 2 then .core 0 else .fm

/-- A recorded remote write lands where its window admits it; its source is not recorded, so it is not judged again. -/
def replayWrite (d : Nat) (b : List Byte) (s : State) : Option State :=
  let m : Msg := { cls := 2, ty := 1, bytes := padGrain b }
  let p := accessPlace s d m
  let data := (b.drop 64).take (rmLen m)
  let from_ := { m with spkg := regF s (aWin d (rmWin m) 3) 31 16 }
  if checkWindow s d true from_ p = .refuse || checkWindow s d true from_ p = .stale || tagBlocked s p (rmLen m) .fill then none
  else
    match p with
    | .hbm d' h => some (hbmWrite .remote d' h data s)
    | .scr d' t o =>
      let e := engine d' t
      let s' := writeScr e o data s
      some (if runTagged s p (rmLen m) then (slotsOf o (rmLen m)).foldl (fun s sl => fillNow e sl s) s' else s')
    | _ => none

/-- Presents one record: `none` where its target cannot take it now. -/
def replayTake (d kind : Nat) (b : List Byte) (s : State) : Option State :=
  match kind with
  | 0x01 => some (arriveRaw .host (wordAt b 0) (BitVec.ofNat 32 (wordAt b 4)) 4 s)
  | 0x02 =>
    let r : RingSet := Fin.ofNat 9 (recCtx s + 1)
    match getRing s r.val with
    | some g => if canReserve s r g then some (refuseReserved (enterCmd (.ring r) r.val b (bumpFetch r.val s))) else none
    | none => none
  | 0x03 =>
    if dwordAt b 0 = Config.recordAddress.toNat then giveRecord (b.drop 8) s else some (landBytes .host (dwordAt b 0) (b.drop 8) s)
  | 0x04 => replayWrite d b s
  | 0x05 => some (setPending (leNat ((b.drop 2).take 1)) (leNat (b.take 2)) s)
  | 0x06 => some (putReg64 (aGct 0 0x28) (dwordAt b 0) s)
  | 0x07 => some (arriveRaw (masterOf (leNat ((b.drop 8).take 1))) (wordAt b 0) (BitVec.ofNat 32 (wordAt b 4)) 4 s)
  | _ => some s

/-- The record with a head lies past the STEP at which the replay of an overflowed log stops (R314). -/
def pastStop (s : State) (d : Nat) (h : List Byte) : Bool :=
  match s.clk.replayStop with
  | none => false
  | some none => true
  | some (some (q, t)) => if d = 0 then q < wordAt h 4 else 2 ^ 63 ≤ (t + 2 ^ 64 - dwordAt h 8) % 2 ^ 64

/-- GCT_REC_USED counts what has been replayed, up to offset n of a die's log (R322). -/
def logUsed (d n : Nat) (s : State) : State :=
  putReg64 (aGct d 0x58) n { s with clk := { s.clk with logAt := mapSet 0 s.clk.logAt d n } }

/-- The next record of a die is presented. An uncorrectable read of the log ends it. -/
def replayStep (d : Nat) (s : State) : State :=
  let o := replayAt s d
  demand (agReplay d) (some (recCtx s)) d o 16 (replayEnd d) (fun h s =>
    let len := fld h 0 15 0
    if pastStop s d h then replayEnd d s
    else if fld h 0 31 24 = 0x0F then replayEnd d (logUsed d (logAtOf s d + recordSize len) s)
    else
      demand (agReplay d) (some (recCtx s)) d (o + 16) len (replayEnd d) (fun b s =>
        match replayTake d (fld h 0 31 24) b s with
        | some s =>
          logUsed d (logAtOf s d + recordSize len) { s with clk := { s.clk with skewed := mapErase s.clk.skewed d } }
        | none =>
          if (mapLookup s.clk.skewed d).isSome then s
          else
            let s := ndc 10 d { s with clk := { s.clk with skewed := mapInsert s.clk.skewed d (wordAt h 4 + 1) } }
            if level s = 2 then stepFault (recCtx s) 4 s else s) s) s

def execReplayRecord (d : Die) (s : State) : Outcome :=
  onlyIf (fun s => s.clk.replaying && !s.clk.logDone.contains d.val && replayDue s d) (replayStep d) s

end Sys2Proof.Machine
end

