-- ==== Sys2Proof/Machine/Dispatch.lean ====
section
/-! DEFINITION. The meaning of every command: one arm per constructor. -/

namespace Sys2Proof.Machine

def exec (i : Instr) (s : State) : Host.Outcome State Fault Refusal :=
  match i with
  | .setupRegisterWrite m addr v size => Sys2Proof.Machine.execSetupRegisterWrite m addr v size s
  | .wideLowWordRead m addr => Sys2Proof.Machine.execWideLowWordRead m addr s
  | .wideHighWordWrite m addr v => Sys2Proof.Machine.execWideHighWordWrite m addr v s
  | .wideLowWordWrite m addr v => Sys2Proof.Machine.execWideLowWordWrite m addr v s
  | .bridgeFrameError e sameFrame => Sys2Proof.Machine.execBridgeFrameError e sameFrame s
  | .bridgeTrainingLost e => Sys2Proof.Machine.execBridgeTrainingLost e s
  | .tilSqTail m d t v => Sys2Proof.Machine.execTilSqTail m d t v s
  | .start d t => Sys2Proof.Machine.execStart d t s
  | .halt d t => Sys2Proof.Machine.execHalt d t s
  | .descriptorFetch d t n => Sys2Proof.Machine.execDescriptorFetch d t n s
  | .grid d t => Sys2Proof.Machine.execGrid d t s
  | .load d t => Sys2Proof.Machine.execLoad d t s
  | .taskMark d t n => Sys2Proof.Machine.execTaskMark d t n s
  | .endTask d t n => Sys2Proof.Machine.execEndTask d t n s
  | .taskContextReady d t n => Sys2Proof.Machine.execTaskContextReady d t n s
  | .gridAssign d t => Sys2Proof.Machine.execGridAssign d t s
  | .entryUsable d t e => Sys2Proof.Machine.execEntryUsable d t e s
  | .holdExpiry d t => Sys2Proof.Machine.execHoldExpiry d t s
  | .stopRampEnd d t => Sys2Proof.Machine.execStopRampEnd d t s
  | .checkResult d t upset => Sys2Proof.Machine.execCheckResult d t upset s
  | .gridReexec d t => Sys2Proof.Machine.execGridReexec d t s
  | .halfDrained d t accUpset rndUpset => Sys2Proof.Machine.execHalfDrained d t accUpset rndUpset s
  | .taskCommit d t n => Sys2Proof.Machine.execTaskCommit d t n s
  | .tagTimeout d t n => Sys2Proof.Machine.execTagTimeout d t n s
  | .tileStall d t => Sys2Proof.Machine.execTileStall d t s
  | .tilRegion m d t n v => Sys2Proof.Machine.execTilRegion m d t n v s
  | .setFull m d t count base => Sys2Proof.Machine.execSetFull m d t count base s
  | .setEmpty m d t count base => Sys2Proof.Machine.execSetEmpty m d t count base s
  | .streamDescriptorFetch d t q => Sys2Proof.Machine.execStreamDescriptorFetch d t q s
  | .nop d t q => Sys2Proof.Machine.execNop d t q s
  | .linear d t q => Sys2Proof.Machine.execLinear d t q s
  | .block2d d t q => Sys2Proof.Machine.execBlock2d d t q s
  | .gather d t q => Sys2Proof.Machine.execGather d t q s
  | .scatter d t q => Sys2Proof.Machine.execScatter d t q s
  | .note d t q => Sys2Proof.Machine.execNote d t q s
  | .streamSlotClaim d t q => Sys2Proof.Machine.execStreamSlotClaim d t q s
  | .streamSlotEnd d t q slot => Sys2Proof.Machine.execStreamSlotEnd d t q slot s
  | .feedBlockDelivered d t q => Sys2Proof.Machine.execFeedBlockDelivered d t q s
  | .streamDescriptorEnd d t q => Sys2Proof.Machine.execStreamDescriptorEnd d t q s
  | .streamStall d t q => Sys2Proof.Machine.execStreamStall d t q s
  | .ringForm c x => Sys2Proof.Machine.execRingForm c x s
  | .form d => Sys2Proof.Machine.execForm d s
  | .formReady d => Sys2Proof.Machine.execFormReady d s
  | .formAbort d => Sys2Proof.Machine.execFormAbort d s
  | .formTimeout x => Sys2Proof.Machine.execFormTimeout x s
  | .ringDissolve c => Sys2Proof.Machine.execRingDissolve c s
  | .carRingQTail m d x v => Sys2Proof.Machine.execCarRingQTail m d x v s
  | .fwd x => Sys2Proof.Machine.execFwd x s
  | .bwd x => Sys2Proof.Machine.execBwd x s
  | .bind x => Sys2Proof.Machine.execBind x s
  | .openVersion x => Sys2Proof.Machine.execOpenVersion x s
  | .openGrant x => Sys2Proof.Machine.execOpenGrant x s
  | .commit x => Sys2Proof.Machine.execCommit x s
  | .carouselMark x => Sys2Proof.Machine.execCarouselMark x s
  | .stoneEmit d x => Sys2Proof.Machine.execStoneEmit d x s
  | .stone d => Sys2Proof.Machine.execStone d s
  | .stonePlace d b => Sys2Proof.Machine.execStonePlace d b s
  | .stoneForward d b => Sys2Proof.Machine.execStoneForward d b s
  | .gradAdd d b => Sys2Proof.Machine.execGradAdd d b s
  | .gradientApply d b => Sys2Proof.Machine.execGradientApply d b s
  | .carStall d b => Sys2Proof.Machine.execCarStall d b s
  | .carRingGenRead m d x => Sys2Proof.Machine.execCarRingGenRead m d x s
  | .rowQTail m d j v => Sys2Proof.Machine.execRowQTail m d j v s
  | .act d j => Sys2Proof.Machine.execAct d j s
  | .actBwd d j => Sys2Proof.Machine.execActBwd d j s
  | .normFwd d j => Sys2Proof.Machine.execNormFwd d j s
  | .normBwd d j => Sys2Proof.Machine.execNormBwd d j s
  | .smaxFwd d j => Sys2Proof.Machine.execSmaxFwd d j s
  | .smaxBwd d j => Sys2Proof.Machine.execSmaxBwd d j s
  | .opt d j => Sys2Proof.Machine.execOpt d j s
  | .reduce d j => Sys2Proof.Machine.execReduce d j s
  | .convert d j => Sys2Proof.Machine.execConvert d j s
  | .add d j => Sys2Proof.Machine.execAdd d j s
  | .statFree d j => Sys2Proof.Machine.execStatFree d j s
  | .rowClaim d j => Sys2Proof.Machine.execRowClaim d j s
  | .rowDescriptorEnd d j => Sys2Proof.Machine.execRowDescriptorEnd d j s
  | .rowStall d j => Sys2Proof.Machine.execRowStall d j s
  | .rowResume m d j => Sys2Proof.Machine.execRowResume m d j s
  | .rowSpillBase m d j lo => Sys2Proof.Machine.execRowSpillBase m d j lo s
  | .rowSpillSize m d j v => Sys2Proof.Machine.execRowSpillSize m d j v s
  | .writeAccept d c => Sys2Proof.Machine.execWriteAccept d c s
  | .hbmRead a d c unit upset => Sys2Proof.Machine.execHbmRead a d c unit upset s
  | .maintenanceWindow d c pc => Sys2Proof.Machine.execMaintenanceWindow d c pc s
  | .stackHot d c hot => Sys2Proof.Machine.execStackHot d c hot s
  | .portEnable m d k en => Sys2Proof.Machine.execPortEnable m d k en s
  | .train d k h aligned => Sys2Proof.Machine.execTrain d k h aligned s
  | .ident d k h => Sys2Proof.Machine.execIdent d k h s
  | .linkDown d k h => Sys2Proof.Machine.execLinkDown d k h s
  | .rejoin m d k => Sys2Proof.Machine.execRejoin m d k s
  | .retrain m d k => Sys2Proof.Machine.execRetrain m d k s
  | .frame d k h bytes fec => Sys2Proof.Machine.execFrame d k h bytes fec s
  | .delivered d => Sys2Proof.Machine.execDelivered d s
  | .deliveredInterval d => Sys2Proof.Machine.execDeliveredInterval d s
  | .e2eTimeout d => Sys2Proof.Machine.execE2eTimeout d s
  | .fabId m d v => Sys2Proof.Machine.execFabId m d v s
  | .routeTableWrite m addr v => Sys2Proof.Machine.execRouteTableWrite m addr v s
  | .windowOpen m d w => Sys2Proof.Machine.execWindowOpen m d w s
  | .windowClose m d w => Sys2Proof.Machine.execWindowClose m d w s
  | .windowClosingEnd d w => Sys2Proof.Machine.execWindowClosingEnd d w s
  | .rwrite d => Sys2Proof.Machine.execRwrite d s
  | .rread d => Sys2Proof.Machine.execRread d s
  | .rdata d => Sys2Proof.Machine.execRdata d s
  | .rack d => Sys2Proof.Machine.execRack d s
  | .coll d => Sys2Proof.Machine.execColl d s
  | .fabOpqTail m d x v => Sys2Proof.Machine.execFabOpqTail m d x v s
  | .copy x => Sys2Proof.Machine.execCopy x s
  | .allReduce x => Sys2Proof.Machine.execAllReduce x s
  | .reduceScatter x => Sys2Proof.Machine.execReduceScatter x s
  | .allGather x => Sys2Proof.Machine.execAllGather x s
  | .multicast x => Sys2Proof.Machine.execMulticast x s
  | .fabOpEnd x => Sys2Proof.Machine.execFabOpEnd x s
  | .fabOpqResume m d x => Sys2Proof.Machine.execFabOpqResume m d x s
  | .multicastStall d x => Sys2Proof.Machine.execMulticastStall d x s
  | .fabMcRemove m d r => Sys2Proof.Machine.execFabMcRemove m d r s
  | .mcRemove d => Sys2Proof.Machine.execMcRemove d s
  | .mcOffset d => Sys2Proof.Machine.execMcOffset d s
  | .jobAbortMessage d => Sys2Proof.Machine.execJobAbortMessage d s
  | .abortSettle x => Sys2Proof.Machine.execAbortSettle x s
  | .passCount d => Sys2Proof.Machine.execPassCount d s
  | .passGen d => Sys2Proof.Machine.execPassGen d s
  | .regRead d => Sys2Proof.Machine.execRegRead d s
  | .regWrite d => Sys2Proof.Machine.execRegWrite d s
  | .regResult d => Sys2Proof.Machine.execRegResult d s
  | .syncPulse => Sys2Proof.Machine.execSyncPulse s
  | .syncPulseMissing => Sys2Proof.Machine.execSyncPulseMissing s
  | .gctSyncArm m d v => Sys2Proof.Machine.execGctSyncArm m d v s
  | .trigger => Sys2Proof.Machine.execTrigger s
  | .launchArm m d v => Sys2Proof.Machine.execLaunchArm m d v s
  | .launch => Sys2Proof.Machine.execLaunch s
  | .launchEnd m d v => Sys2Proof.Machine.execLaunchEnd m d v s
  | .gctStepClose m d x => Sys2Proof.Machine.execGctStepClose m d x s
  | .stepAdvance x => Sys2Proof.Machine.execStepAdvance x s
  | .stepBoundary x => Sys2Proof.Machine.execStepBoundary x s
  | .gctRecCtrl m d v => Sys2Proof.Machine.execGctRecCtrl m d v s
  | .replayRecord d => Sys2Proof.Machine.execReplayRecord d s
  | .gctCompare d k => Sys2Proof.Machine.execGctCompare d k s
  | .compareEnable m d k => Sys2Proof.Machine.execCompareEnable m d k s
  | .regradeGo m d v => Sys2Proof.Machine.execRegradeGo m d v s
  | .fuseBurnComplete => Sys2Proof.Machine.execFuseBurnComplete s
  | .modelLoad c x => Sys2Proof.Machine.execModelLoad c x s
  | .modelSwap c x => Sys2Proof.Machine.execModelSwap c x s
  | .modelUnload c => Sys2Proof.Machine.execModelUnload c s
  | .manifestFetched x bytes => Sys2Proof.Machine.execManifestFetched x bytes s
  | .shardArrived x segs => Sys2Proof.Machine.execShardArrived x segs s
  | .fetchTimeout x => Sys2Proof.Machine.execFetchTimeout x s
  | .replicateArrived x srcs => Sys2Proof.Machine.execReplicateArrived x srcs s
  | .localDone x => Sys2Proof.Machine.execLocalDone x s
  | .loadDone d => Sys2Proof.Machine.execLoadDone d s
  | .loadCommit d => Sys2Proof.Machine.execLoadCommit d s
  | .loadAbort d => Sys2Proof.Machine.execLoadAbort d s
  | .loadAbortSettle x => Sys2Proof.Machine.execLoadAbortSettle x s
  | .checkPassStart d => Sys2Proof.Machine.execCheckPassStart d s
  | .checkPassEnd d => Sys2Proof.Machine.execCheckPassEnd d s
  | .hostLinkTrain aligned => Sys2Proof.Machine.execHostLinkTrain aligned s
  | .hostIdent => Sys2Proof.Machine.execHostIdent s
  | .hostLinkDown => Sys2Proof.Machine.execHostLinkDown s
  | .hostAccessTimeout a => Sys2Proof.Machine.execHostAccessTimeout a s
  | .hostRetrain m => Sys2Proof.Machine.execHostRetrain m s
  | .admEnable m en => Sys2Proof.Machine.execAdmEnable m en s
  | .apertureWrite k off data => Sys2Proof.Machine.execApertureWrite k off data s
  | .apertureRead k off len => Sys2Proof.Machine.execApertureRead k off len s
  | .cmdTail m r v => Sys2Proof.Machine.execCmdTail m r v s
  | .cplHead m r v => Sys2Proof.Machine.execCplHead m r v s
  | .evHead m r v => Sys2Proof.Machine.execEvHead m r v s
  | .commandFetch src bytes => Sys2Proof.Machine.execCommandFetch src bytes s
  | .negotiate c => Sys2Proof.Machine.execNegotiate c s
  | .setupCommit c => Sys2Proof.Machine.execSetupCommit c s
  | .ctxOpen c => Sys2Proof.Machine.execCtxOpen c s
  | .ctxClose c => Sys2Proof.Machine.execCtxClose c s
  | .attestReport c len chain => Sys2Proof.Machine.execAttestReport c len chain s
  | .fwUpdate c => Sys2Proof.Machine.execFwUpdate c s
  | .fwUpdateStaged image => Sys2Proof.Machine.execFwUpdateStaged image s
  | .fwUpdateWritten sectors ok => Sys2Proof.Machine.execFwUpdateWritten sectors ok s
  | .adminMark c => Sys2Proof.Machine.execAdminMark c s
  | .allot c => Sys2Proof.Machine.execAllot c s
  | .free c => Sys2Proof.Machine.execFree c s
  | .copyIn c => Sys2Proof.Machine.execCopyIn c s
  | .copyOut c => Sys2Proof.Machine.execCopyOut c s
  | .request c => Sys2Proof.Machine.execRequest c s
  | .jobAbort c => Sys2Proof.Machine.execJobAbort c s
  | .mark c => Sys2Proof.Machine.execMark c s
  | .arbitrationWindowEnd => Sys2Proof.Machine.execArbitrationWindowEnd s
  | .irqCoalesceExpiry v => Sys2Proof.Machine.execIrqCoalesceExpiry v s
  | .lccRun m d j => Sys2Proof.Machine.execLccRun m d j s
  | .lccCmdTail m d j v => Sys2Proof.Machine.execLccCmdTail m d j v s
  | .debugHalt m d j => Sys2Proof.Machine.execDebugHalt m d j s
  | .debugResume m d j => Sys2Proof.Machine.execDebugResume m d j s
  | .debugStep m d j => Sys2Proof.Machine.execDebugStep m d j s
  | .interruptDelivery d src => Sys2Proof.Machine.execInterruptDelivery d src s
  | .coreWake c => Sys2Proof.Machine.execCoreWake c s
  | .icuSrcEnable m d src v => Sys2Proof.Machine.execIcuSrcEnable m d src v s
  | .icuPend m d w v => Sys2Proof.Machine.execIcuPend m d w v s
  | .icuAck m d v => Sys2Proof.Machine.execIcuAck m d v s
  | .icuEvqHead m d v => Sys2Proof.Machine.execIcuEvqHead m d v s
  | .icuEvqBase m d lo => Sys2Proof.Machine.execIcuEvqBase m d lo s
  | .lccTraceCtrl m d v => Sys2Proof.Machine.execLccTraceCtrl m d v s
  | .leaveRequest d src => Sys2Proof.Machine.execLeaveRequest d src s
  | .leaveGrant d t => Sys2Proof.Machine.execLeaveGrant d t s
  | .leaveRelease d src => Sys2Proof.Machine.execLeaveRelease d src s
  | .pwrLimit m d v => Sys2Proof.Machine.execPwrLimit m d v s
  | .refLost => Sys2Proof.Machine.execRefLost s
  | .refReturn => Sys2Proof.Machine.execRefReturn s
  | .dwellExpiry => Sys2Proof.Machine.execDwellExpiry s
  | .wake => Sys2Proof.Machine.execWake s
  | .temperatureSample d die stack0 stack1 => Sys2Proof.Machine.execTemperatureSample d die stack0 stack1 s
  | .tripRailRemoval => Sys2Proof.Machine.execTripRailRemoval s
  | .thermAlert asserted => Sys2Proof.Machine.execThermAlert asserted s
  | .vinSample mv ma => Sys2Proof.Machine.execVinSample mv ma s
  | .fuses consistent => Sys2Proof.Machine.execFuses consistent s
  | .clocks locked failedEdge => Sys2Proof.Machine.execClocks locked failedEdge s
  | .flash table header signer => Sys2Proof.Machine.execFlash table header signer s
  | .hbm trained body => Sys2Proof.Machine.execHbm trained body s
  | .selftest bad => Sys2Proof.Machine.execSelftest bad s
  | .identity => Sys2Proof.Machine.execIdentity s
  | .firmware => Sys2Proof.Machine.execFirmware s
  | .ready m d => Sys2Proof.Machine.execReady m d s
  | .coldReset => Sys2Proof.Machine.execColdReset s
  | .warmReset => Sys2Proof.Machine.execWarmReset s
  | .idvResetWarm m d key => Sys2Proof.Machine.execIdvResetWarm m d key s
  | .idvResetCold m d key => Sys2Proof.Machine.execIdvResetCold m d key s
  | .resetRelease => Sys2Proof.Machine.execResetRelease s
  | .vinRise => Sys2Proof.Machine.execVinRise s
  | .powerGood => Sys2Proof.Machine.execPowerGood s
  | .i3cPrivateWrite w => Sys2Proof.Machine.execI3cPrivateWrite w s
  | .i3cPrivateRead w len => Sys2Proof.Machine.execI3cPrivateRead w len s
  | .entdaa addr => Sys2Proof.Machine.execEntdaa addr s
  | .setdasa a => Sys2Proof.Machine.execSetdasa a s
  | .rstdaa => Sys2Proof.Machine.execRstdaa s
  | .getpid => Sys2Proof.Machine.execGetpid s
  | .getbcr => Sys2Proof.Machine.execGetbcr s
  | .getdcr => Sys2Proof.Machine.execGetdcr s
  | .getstatus => Sys2Proof.Machine.execGetstatus s
  | .enec => Sys2Proof.Machine.execEnec s
  | .disec => Sys2Proof.Machine.execDisec s
  | .idvMbox m d v => Sys2Proof.Machine.execIdvMbox m d v s
  | .hostAccessComplete a ok data => Sys2Proof.Machine.execHostAccessComplete a ok data s
  | .flitReplay => Sys2Proof.Machine.execFlitReplay s
  | .powerControllerAlert => Sys2Proof.Machine.execPowerControllerAlert s
  | .idvResetRecognised => Sys2Proof.Machine.execIdvResetRecognised s
  | .rowSlotEnd d j => Sys2Proof.Machine.execRowSlotEnd d j s

end Sys2Proof.Machine
end

