-- ==== Sys2Proof/Machine/Tick.lean ====
section
/-! DEFINITION. What one 1 ns tick does of itself (R11, R296, R297): the counters move on, and work that waited for
another event goes on where it can. What the manual names as an event of its own happens at its own row (log entry 5). -/

namespace Sys2Proof.Machine

/-- The ticks of the interval of `n` spread corrections that fall on the tick at offset `i` of 1,000,000 (R297). -/
def spread (n i : Nat) : Nat := if i < 1000000 then (i + 1) * n / 1000000 - i * n / 1000000 else 0

/-- How far GCT_COUNT moves at a tick: one, with a correction in progress none or two (R297). -/
def countStep (s : State) : Nat :=
  let i := s.clk.t - s.clk.adjustAt
  if s.clk.adjust < 0 then 1 - spread s.clk.adjust.natAbs i else 1 + spread s.clk.adjust.natAbs i

/-- The counter runs from cold reset on, through a warm reset too (R296, R439). -/
def counting (s : State) : Bool := s.pwr.rails && !(s.boot.inReset && s.boot.resetCold)

/-- The counters of a tick. -/
def tickCount (s : State) : State :=
  { s with clk := { s.clk with
    t := s.clk.t + 1
    count := if counting s then (s.clk.count + countStep s) % 2 ^ 64 else s.clk.count } }

/-- Gate FILLs and own work of the collectives that were blocked, by context (R170, R277). -/
def retryWork (s : State) : State := (List.range 8).foldl (fun s x => runWork x (runGates x s)) s

/-- Commands that have begun and waited for others' effects (R358, R361). -/
def retryCommands (s : State) : State := settleCloses (settleCopies (settleMarks (refuseReserved s)))

/-- The power managers look at the requests that wait (R403), and work that goes on keeps its grant (R401). -/
def retryLeave (s : State) : State := (s.pwr.reqs.map (·.1)).foldl (fun s d => manage d s) (keepLeave s)

/-- The dwell of R408 counts only while the package is idle. -/
def markIdle (s : State) : State := if pkgIdle s then s else { s with pwr := { s.pwr with idleSince := s.clk.t } }

/-- The edges of a tile's clock that the tick brings (R103, R105, R122–R127, R143): `old` is the edge before it. -/
def edgeTile (e old : Nat) (s : State) : State :=
  let s := wantPeriod e (edgeGroup e (formHeld e 2 (edgeOrder e s)))
  let s := (List.range 6).foldl (fun s q => edgeStream e old q s) s
  edgeStall e old ((List.range 4).foldl (fun s n => edgeTctx e n old s) s)

/-- Every tile that is not as reset leaves it. -/
def edgeTiles (old : Nat) (s : State) : State := (s.tiles.map (·.1)).foldl (fun s e => edgeTile e old s) s

/-- The waits of the stones that the dies hold (R179). -/
def edgeStones (s : State) : State := (s.stones.map (·.1)).foldl (fun s d => markStones d s) s

/-- One tick. Removed rails and a reset in progress leave only the model's own count, and in a warm reset the counter. The
snapshots of reports that began at the tick now over are taken first (R431). -/
def tick (s : State) : State :=
  let old := cycleOf s
  let s := tickCount (if s.live then snapReports s else s)
  if s.live then markIdle (retryLeave (retryCommands (edgeStones (tickCasts (retryWork (edgeTiles old (reportMerges (runCores (drainHost s))))))))) else s

end Sys2Proof.Machine
end

