-- ==== Sys2Proof/Safety.lean ====
section
/-! DEFINITION. What a sound state and a safe step are, in the terms that the statements use. -/

namespace Sys2Proof.Machine

/-- The memories keep their canonical form: addresses strictly rising, no byte listed that reads as an unlisted one. -/
def State.memOk (s : State) : Prop := Memory.wf s.mem ∧ Memory.wf s.scr

/-- A step that neither faults nor is refused. -/
def goesOn (o : Outcome) : Bool :=
  match o with
  | .next _ => true
  | .fault _ => false
  | .refused _ => false

/-- Bytes of HBM: byte H of a die, as the controllers have accepted it (R222, R229). -/
def State.hbmAt (s : State) (d : Die) (h : Nat) : Byte := memGet s.mem (hbmCell d h)

/-- Bytes of a tile's scratchpad (R116). -/
def State.scrAt (s : State) (d : Die) (t : TileId) (o : Nat) : Byte := memGet s.scr (scrCell (engine d t) o)

/-! ## Reads without error -/

/-- Nothing that the bytes from a global address on hold is in error. -/
def State.cleanGa (s : State) (ga n : Nat) : Bool :=
  match placeOf s ga with
  | .hbm d h => (unitsOf h n).all fun u => (unitErrs s d u).isEmpty
  | _ => true

/-- The bytes from a global address on, as an agent of this package reads them. -/
def State.bytesAt (s : State) (a : Agent) (ga n : Nat) : List Byte :=
  match placeOf s ga with
  | .hbm d h => hbmPeek a d h n s
  | .scr d t o => readScr (engine d t) o n s
  | _ => List.replicate n 0

/-- A global address lies in a memory of this package. -/
def State.isMemory (s : State) (ga : Nat) : Prop :=
  (∃ d h, placeOf s ga = .hbm d h) ∨ ∃ d t o, placeOf s ga = .scr d t o

/-- The head entry of a tile's start queue. -/
def State.startEntry (s : State) (e : Nat) : List Byte := s.bytesAt (agSeq e) (sqAddr s e) 32

/-- The task descriptor that a task context reads next. -/
def State.nextDescriptor (s : State) (e n : Nat) : List Byte :=
  s.bytesAt (agSeq e) ((getTctx s e n).list + 64 * (getTctx s e n).index) 64

/-- No unit of HBM that parts of a stream descriptor are read from is in error. -/
def State.cleanParts (s : State) (x : SDesc) (ps : List (Piece × Nat × Nat)) : Bool :=
  ps.all fun (p, o, n) => match partHbm s x p o n with
    | some (d, h, k) => (unitsOf h k).all fun u => (unitErrs s d u).isEmpty
    | none => true

/-- The bytes of the index list of a GATHER or SCATTER. -/
def State.indexBytes (s : State) (e q : Nat) (b : List Byte) : List Byte :=
  s.bytesAt (agStream e q) (sdIdxAddr b) (sdLen b * (if sdIdx16 b then 2 else 4))

/-- The indexes of a list, each in range or a sentinel (R144). -/
def goodIndexes (b : List Byte) (idx : List Nat) : Prop :=
  ∀ v ∈ idx, v = (if sdIdx16 b then 0xFFFF else 0xFFFFFFFF) ∨ v < sdLimit b

/-! ## The carousel -/

/-- The descriptor at the head of a carousel queue, and the state once it is read. -/
def State.carDesc (s : State) (x : Nat) : List Byte := s.bytesAt (agCar 0) (carAddr s x) 32
def State.carTaken (s : State) (x : Nat) : State := (carRead 0 x (carAddr s x) 32 s).1

/-- A sound descriptor of an opcode stands at the head of a carousel queue and may begin. -/
def State.carReady (s : State) (x op : Nat) : Prop :=
  s.live = true ∧ (∃ b', carNext s x = some b' ∧ cdOp b' = op) ∧ s.cleanGa (carAddr s x) 32 = true ∧
    cdMalformed s (s.carDesc x) = false

/-- The block records of a stone on a die, and the state once they are read. -/
def State.recordsAt (s : State) (d : Nat) (x : Stone) : Nat :=
  dwordAt (s.bytesAt (agCar d) (pmapAt s d x.ctx (shTensor x.header)) 16) 0 + 8 * shBlock0 x.header
def State.stoneRecords (s : State) (d : Nat) (x : Stone) : List Byte :=
  s.bytesAt (agCar d) (s.recordsAt d x) (8 * shBlocks x.header)
def State.recordsTaken (s : State) (d : Nat) (x : Stone) : State :=
  (carRead d x.ctx (s.recordsAt d x) (8 * shBlocks x.header) (carRead d x.ctx (pmapAt s d x.ctx (shTensor x.header)) 16 s).1).1

/-- Nothing of a stone's placement map entry and of its block records is in error. -/
def State.recordsClean (s : State) (d : Nat) (x : Stone) : Bool :=
  s.cleanGa (pmapAt s d x.ctx (shTensor x.header)) 16 && s.cleanGa (s.recordsAt d x) (8 * shBlocks x.header)

/-! ## Messages -/

/-- This package has sent a message: it is kept until it is DELIVERED, or waits for room (R254). -/
def State.sent (u : State) (m : Msg) : Prop :=
  let k := txKey m.sdie m.dpkg m.ddie m.cls
  (∃ t ∈ (getTx u k).undel, t.msg = { m with spkg := pkgId u, msn := t.msg.msn }) ∨
    ∃ w ∈ (getTx u k).wait, w.1 = { m with spkg := pkgId u }

/-- Something has gone out to the host, or waits for the link to be UP (R351). -/
def State.tells (u : State) (o : Out) : Prop := o ∈ u.out ∨ o ∈ u.host.held

/-- The package has an ID, a path for the message, and no path that it has just lost. -/
def State.canSend (s : State) (m : Msg) : Bool :=
  regF s (aFab 0 0) 31 31 = 1 && (choosePort s m).isSome && s.fab.lost.isEmpty

/-- A control message from a die to the same or another die of a package. -/
def ctlMsg (d dpkg ddie cop job : Nat) (args : List Nat) : Msg :=
  { cls := 3, ty := 6, dpkg, ddie, sdie := d, bytes := ctlGrain cop 0 job args }

/-- The message with piece k of chunk j that die d sends to a member (R281). -/
def pieceMsg (s : State) (d x : Nat) (o : FabOp) (dpkg j ph k : Nat) (data : List Byte) : Msg :=
  let (a, l) := pieceAt o.desc (ringN s x) d j k
  { cls := 1, ty := 5, dpkg, ddie := d, sdie := d, bytes := collHead (ringJob s x) o.seqNo o.desc j ph a l ++ padGrain data }

/-- The fields of a frame by which its sender returns the credits of pool c (R245). -/
def creditsFor (b : List Byte) (c : Nat) : Nat :=
  if c = 4 then frameWord b 0x428 29 24 else frameWord b 0x428 (23 - 6 * c) (18 - 6 * c)

/-- A frame without error reaches a link that carries frames. -/
def State.soundFrame (s : State) (p : Nat) (b : List Byte) : Prop :=
  s.live = true ∧ b.length = 1072 ∧ (getPort s p).st = 3 ∧ wordAt b 0x42C = crc32 (b.take 0x42C) ∧ s.fab.lost = []

/-- The frame number that a link takes next (R253). -/
def State.wantedFrame (s : State) (p : Nat) : Nat := match (getPort s p).rxSeq with | some n => (n + 1) % 65536 | none => 0

/-! ## The rows that begin a stream descriptor -/

/-- The opcode, the tile and the stream of a row that begins a stream descriptor. -/
def streamRow : Instr → Option (Nat × Die × TileId × Strm)
  | .linear d t q => some (0x10, d, t, q)
  | .block2d d t q => some (0x11, d, t, q)
  | .gather d t q => some (0x12, d, t, q)
  | .scatter d t q => some (0x13, d, t, q)
  | .note d t q => some (0x14, d, t, q)
  | _ => none

/-- The opcode, the die and the engine of a row that begins a row-engine descriptor. -/
def rowRow : Instr → Option (Nat × Die × RowId)
  | .act d j => some (0x40, d, j)
  | .actBwd d j => some (0x41, d, j)
  | .normFwd d j => some (0x42, d, j)
  | .normBwd d j => some (0x43, d, j)
  | .smaxFwd d j => some (0x44, d, j)
  | .smaxBwd d j => some (0x45, d, j)
  | .opt d j => some (0x46, d, j)
  | .reduce d j => some (0x47, d, j)
  | .convert d j => some (0x48, d, j)
  | .add d j => some (0x49, d, j)
  | .statFree d j => some (0x4A, d, j)
  | _ => none

/-- The opcode and the context of a row that begins a fabric operation. -/
def fabOpRow : Instr → Option (Nat × Ctx)
  | .copy x => some (0x50, x)
  | .allReduce x => some (0x51, x)
  | .reduceScatter x => some (0x52, x)
  | .allGather x => some (0x53, x)
  | .multicast x => some (0x54, x)
  | _ => none

/-! ## The rows that begin a command descriptor -/

/-- The opcode, the command and the effect of a row that begins a command descriptor; a row that names more of the descriptor
than its command begins it where the descriptor says the same. -/
def commandRow (s : State) : Instr → Option (Nat × Nat × (Nat → State → State))
  | .negotiate c => some (0x01, c, effNegotiate)
  | .setupCommit c => some (0x02, c, effSetupCommit)
  | .ctxOpen c => some (0x03, c, effCtxOpen)
  | .ctxClose c => some (0x04, c, effCtxClose)
  | .attestReport c len chain => if asksReport s c len chain then some (0x05, c, effAttest) else none
  | .fwUpdate c => some (0x06, c, effFwUpdate)
  | .adminMark c => some (0x07, c, effMark)
  | .ringForm c x => if ofCtx s c x then some (0x10, c, effRingForm) else none
  | .ringDissolve c => some (0x11, c, effRingDissolve)
  | .modelLoad c x => if ofCtx s c x then some (0x12, c, effModelLoad) else none
  | .modelSwap c x => if ofCtx s c x then some (0x13, c, effModelLoad) else none
  | .modelUnload c => some (0x14, c, effModelUnload)
  | .allot c => some (0x15, c, effAllot)
  | .free c => some (0x16, c, effFree)
  | .copyIn c => some (0x17, c, effCopyCmd)
  | .copyOut c => some (0x18, c, effCopyCmd)
  | .request c => some (0x19, c, effRequest)
  | .jobAbort c => some (0x1A, c, effJobAbort)
  | .mark c => some (0x1B, c, effMark)
  | _ => none

/-- A command of a ring set that begins acts, or waits for the end of its arbitration window (R370). -/
def actOrWait (c : Nat) (x : Cmd) (act : Nat → State → State) (s : State) : State :=
  if windowed (cmdOp x) then joinWindow (.cmd c) s else act c s

/-! ## The rows that write a set-up register -/

/-- The set-up write that a row is: its master, its address and its value. -/
def registerRow (s : State) : Instr → Option (Master × Nat × Word)
  | .setupRegisterWrite m addr v 4 => some (m, addr.toNat, v)
  | .wideLowWordWrite m addr v => if wideWord addr.toNat = some false then some (m, addr.toNat, v) else none
  | .i3cPrivateWrite w =>
    if w.bytes.length = 8 && i3cMine s w.addr then some (.bmc, wordAt w.bytes 0, BitVec.ofNat 32 (wordAt w.bytes 4)) else none
  | .tilSqTail m d t v => some (m, aTil d t 0x1C, v)
  | .tilRegion m d t n v => some (m, aTil d t (0x100 + 4 * n.val), v)
  | .setFull m d t count base => some (m, aTil d t 0x180, tagCmdWord 1 count base)
  | .setEmpty m d t count base => some (m, aTil d t 0x180, tagCmdWord 2 count base)
  | .carRingQTail m d x v => some (m, aCar d (0x12C + 0x40 * x), v)
  | .rowQTail m d j v => some (m, aRow d j 0x1C, v)
  | .rowResume m d j => some (m, aRow d j 4, 1)
  | .rowSpillBase m d j lo => some (m, aRow d j 0x30, lo)
  | .rowSpillSize m d j v => some (m, aRow d j 0x38, v)
  | .portEnable m d k en => some (m, aPortCtrl d k, BitVec.ofNat 32 (setBits (reg s (aPortCtrl d k)) 0 0 (bit en 0)))
  | .rejoin m d k => some (m, aPortCtrl d k, BitVec.ofNat 32 (setBits (reg s (aPortCtrl d k)) 3 3 1))
  | .retrain m d k => some (m, aPortCtrl d k, BitVec.ofNat 32 (setBits (reg s (aPortCtrl d k)) 2 2 1))
  | .fabId m d v => some (m, aFab d 0, v)
  | .routeTableWrite m addr v => if isRoute addr.toNat then some (m, addr.toNat, v) else none
  | .windowOpen m d w => some (m, aFab d 0x24, BitVec.ofNat 32 (2 ^ 30 + w.toNat))
  | .fabOpqTail m d x v => some (m, aFab d (0x10C + 0x20 * x), v)
  | .fabOpqResume m d x => some (m, aFab d (0x108 + 0x20 * x), BitVec.ofNat 32 (setBits (reg s (aFab d (0x108 + 0x20 * x))) 31 31 1))
  | .fabMcRemove m d r => some (m, aFab d 0x28, BitVec.ofNat 32 r.toNat)
  | .gctSyncArm m d v => some (m, aGct d 0x10, v)
  | .launchArm m d v => some (m, aGct d 0x38, v)
  | .launchEnd m d v => some (m, aGct d 0x38, v)
  | .gctStepClose m d x => some (m, aGct d 0x48, BitVec.ofNat 32 x.val)
  | .gctRecCtrl m d v => some (m, aGct d 0x50, v)
  | .compareEnable m d k => some (m, aCmpCtrl d k, BitVec.ofNat 32 (2 ^ 31))
  | .regradeGo m d v => some (m, aGct d 0x60, v)
  | .hostRetrain m => some (m, aHlk 4, BitVec.ofNat 32 (2 ^ 31 + regF s (aHlk 4) 0 0))
  | .admEnable m en => some (m, aHlk 4, BitVec.ofNat 32 (bit en 0))
  | .cmdTail m r v => some (m, aBell r.val 0, v)
  | .cplHead m r v => some (m, aBell r.val 4, v)
  | .evHead m r v => some (m, aBell r.val 8, v)
  | .lccRun m d j => some (m, aLcc d j 0, 1)
  | .lccCmdTail m d j v => some (m, aLcc d j 0x2C, v)
  | .debugHalt m d j => some (m, aLcc d j 4, 1)
  | .debugResume m d j => some (m, aLcc d j 4, 2)
  | .debugStep m d j => some (m, aLcc d j 4, 3)
  | .icuSrcEnable m d src v => some (m, aIcu d (4 * src.val), v)
  | .icuPend m d w v => some (m, aIcu d (0x1000 + 4 * w.val), v)
  | .icuAck m d v => some (m, aIcu d 0x1180, v)
  | .icuEvqHead m d v => some (m, aIcu d 0x1250, v)
  | .icuEvqBase m d lo => some (m, aIcu d 0x1240, lo)
  | .lccTraceCtrl m d v => some (m, aLcc d 0 0x104, v)
  | .pwrLimit m d v => some (m, aPwr d 4, v)
  | .ready m d => some (m, aSec d 0, 1)
  | .idvResetWarm m d key => some (m, aIdv d 0xC, BitVec.ofNat 32 (key.toNat * 2 ^ 16 + 1))
  | .idvResetCold m d key => some (m, aIdv d 0xC, BitVec.ofNat 32 (key.toNat * 2 ^ 16 + 2))
  | .idvMbox m d v => some (m, aIdv d 0x10, v)
  | _ => none

/-- Nothing keeps a master's set-up write from its register block now: the package runs, no capture or replay acts on the
write, the host's link is up and nothing of the host's waits before it, the fabric manager is listened to, and a core is in a
privileged mode. -/
def State.hears (s : State) (m : Master) : Bool :=
  s.live && !s.clk.recording && !s.clk.replaying &&
    (match m with
      | .host => s.host.link = 3 && s.host.inOrder.isEmpty && !apertureBusy s && s.pwr.state = 0
      | .fm => fromManager s
      | .core c => (getCore s c.val).mode ≠ .user
      | .bmc => true)

/-- One set-up write alone waits, and its arbitration window is over. -/
def State.lastWrite (s : State) (m : Master) (a : Nat) (v : Word) : Prop :=
  s.live = true ∧ s.pwr.state = 0 ∧ s.host.inOrder = [] ∧ ∃ w, s.setup.acts = [(w, .write m a v none)] ∧ 40 * w + 40 ≤ s.clk.count

/-- One set-up write alone waits, of a 32-bit register of the given kind, number i of die register array j, and its arbitration
window is over; it changes no locked field. -/
def State.lastKind (s : State) (k : RegKind) (m : Master) (a : Nat) (v : Word) (i j : Nat) : Prop :=
  s.lastWrite m a v ∧ ∃ r, findReg a = some (r, i, j, false) ∧ r.kind = k ∧ r.wide = false ∧
    (s.setup.committed && r.breaksLock (reg s a) v.toNat) = false

/-- The state in which the one set-up write of a window has its effect: it waits no more, and the bits that it gives stand
against hardware's updates of the tick (R19). -/
def State.taken (s : State) (a v : Nat) : State :=
  let s' := { s with setup := { s.setup with acts := [] } }
  match findReg a with
  | some (r, _, _, _) => markSw a (softBits r s.setup.committed v) s'
  | none => s'

/-- BRIDGE_FAULT names an edge by its dies, and every context's job is aborted with cause 8 (R26, R287). -/
def bridgeFaulted (e : Fin 10) (s : State) : State :=
  (List.range 8).foldl (fun s x => abortJob x 8 s)
    (raise { die := (bridgeDies e).1, code := 7, p0 := (bridgeDies e).1, p1 := (bridgeDies e).2 }
      { s with boot := { s.boot with bridgeFault := true } })

/-- A write that closes a remote window (R271). -/
def closesWindow (a : Nat) (v : Word) : Bool :=
  match findReg a with
  | some (r, _, _, _) => r.kind = .fabWinCmd && bitsOf v.toNat 31 30 = 2
  | none => false

/-- Registers that a write of the right moment only stores in, and that one of another moment leaves as they are (R16). -/
def guardedKind (k : RegKind) : Bool :=
  [.lccRun, .lccBase, .gctLaunchAt, .gctBudget, .gctSeed, .gctRowCtx, .carQBase, .carQCtrl, .fabOpqBase, .fabWin, .fabWin0, .hlkAdmBase,
    .icuMask, .hbmFrameCtrl].contains k

/-- The high word that a low-word write of a 64-bit register takes along (R15). -/
def highFor (s : State) (m : Master) (a : Nat) : Option Word := if wideWord a = some false then heldOf s m a else none

end Sys2Proof.Machine
end

