-- ==== Sys2Proof/WellFormed.lean ====
section
/-! DEFINITION. The bounds that the manual sets on what a command carries. Unit numbers are bounded by their types.
A command that is not well-formed cannot occur at the part's pins; its meaning leaves the state as it is, or ignores
what is out of bounds. -/

namespace Sys2Proof

/-- 64-byte units of a die's HBM that hold data (R222). -/
def unitCount : Nat := 3000000000

/-- A symbol error: one of the 71 symbols, and an error value that changes it (R232). -/
def symOk (e : Nat × Byte) : Bool := e.1 < 71 && e.2 != 0

/-- Sizes of an aperture access (R353): naturally aligned within the 4 GiB of the aperture. -/
def apertureBounds (off n : Nat) : Bool := [4, 8, 16, 32, 64].contains n && off % n = 0 && off + n ≤ 4294967296

/-- One tile's failed grid columns at the self-test (R97): an engine index, and columns 0–127. -/
def selftestOk (e : Nat × List Nat) : Bool := e.1 < 320 && e.2.all (· < 128)

/-- A temperature sample in 1/8 °C, as the signed 16-bit field of its register holds it (R411). -/
def tempOk (x : Int) : Bool := -32768 ≤ x && x < 32768

/-- The outcome of a frame's FEC (R245): 1,072 bytes fill 1.6 codewords, and touch
three at most. -/
def fecOk (fec : Option Nat) : Bool := match fec with | some n => n ≤ 3 | none => true

/-- The operands of a command lie within the bounds of its row. -/
def WellFormed : Instr → Bool
  | .setupRegisterWrite _ _ _ size => [1, 2, 4, 8].contains size
  | .checkResult _ _ u => match u with | some (c, b) => c < 256 && b < 256 | none => true
  | .halfDrained _ _ a r => (match a with | some (_, b) => b < 256 | none => true) && (match r with | some (_, b) => b < 32 | none => true)
  | .streamSlotEnd _ _ _ slot => slot < 12288
  | .hbmRead _ _ _ unit upset => unit < unitCount && upset.all symOk
  | .frame _ _ _ bytes fec => bytes.length = 1072 && fecOk fec
  | .apertureWrite _ off data => apertureBounds off data.length
  | .apertureRead _ off len => apertureBounds off len
  | .commandFetch src bytes => match src with | .ring _ => bytes.length = 64 | .core _ => true
  | .selftest bad => bad.all selftestOk
  | .temperatureSample _ a b c => tempOk a && tempOk b && tempOk c
  | .i3cPrivateWrite w => !w.bytes.isEmpty
  | .i3cPrivateRead w len => !w.bytes.isEmpty && len ≠ 0
  | .fwUpdateWritten sectors _ => sectors ≤ 1024
  | .clocks locked failed => locked || failed.isNone
  | _ => true

end Sys2Proof
end

