-- ==== Sys2Proof/Certificates/Slice0/Obligations.lean ====
section
/-! DEFINITION. What is claimed of the model: one proposition per obligation. Each says of named commands, in every state and
with every operand that meet its premises, that the command completes and what it leaves behind. -/

open Sys2Proof Sys2Proof.Machine

/-! ## The machine -/

/-- A step takes the command at the front of the queue and runs it on the state with the rest of the queue; with no command
waiting one tick passes (the tick on an empty queue is the model's choice, log entry 5). -/
def Obligations.StepRunsTheFrontCommand : Prop :=
  (∀ (c : Instr) (r : List Instr) (s : State), s.pending = c :: r → step s = exec c { s with pending := r }) ∧
  (∀ s : State, s.pending = [] → step s = .next (tick s))

/-- A step never ends in a fault or a refusal. (Where a command's precondition does not hold the state stays as it is: the
model's choice, log entry 3.) A command changes nothing of the queue: step alone takes from it. (The queue is the model's
own field, log entry 9.) -/
def Obligations.StepsGoOnAndLeaveTheQueue : Prop :=
  (∀ s : State, goesOn (step s) = true) ∧
  (∀ (c : Instr) (s t : State), exec c s = .next t → t.pending = s.pending)

/-- Every step keeps the two byte memories in their canonical form. -/
def Obligations.EveryStepKeepsMemoryForm : Prop := ∀ s t : State, s.memOk → step s = .next t → t.memOk

/-- After reset every register reads its reset word, the counters are 0, every port is OFF, every task context is IDLE, every
tag is EMPTY with no holds, no ring is formed, and no command waits. The state after reset has its memories in canonical
form. -/
def Obligations.ResetState : Prop :=
  ((∀ a, regW State.reset a = resetWord a) ∧ State.reset.clk.count = 0 ∧
    (∀ p, (getPort State.reset p).st = 0) ∧ (∀ e n, (getTctx State.reset e n).st = 0) ∧
    (∀ e q, getTag State.reset e q = { st := 0, holds := 0 }) ∧ (∀ x, (ringOf State.reset x).st = 0) ∧
    State.reset.pending = [] ∧ State.reset.setup.committed = false) ∧
  (State.reset.memOk)

/-! ## The set-up space -/

/-- Every row that writes a set-up register joins the arbitration window of its tick with its master, address and value, and
with the high word that its master holds for a 64-bit register: no register, memory, tile or output changes before the window
ends. (That the window is that of the row's own tick is the model's, log entry 5; outside P0 the write also wakes the package,
R409, log entry 80; a CLOSE of a remote window acts when it arrives: WindowsAdmitRemoteAccesses. Capture and replay are left
out.) -/
def Obligations.RegisterRowsJoinTheWindow : Prop :=
  ∀ (c : Instr) (m : Master) (a : Nat) (v : Word) (s : State),
    registerRow s c = some (m, a, v) → s.hears m = true → accessOk s m a 4 = true → wideWord a ≠ some true → closesWindow a v = false →
    ∃ t, exec c s = .next t ∧
      t.setup.acts = s.setup.acts ++ [(s.clk.count / 40, .write m a v (highFor s m a))] ∧
      t.regs = s.regs ∧ t.mem = s.mem ∧ t.scr = s.scr ∧ t.tiles = s.tiles ∧ t.out = s.out ∧ t.pending = s.pending

/-- The words of 64-bit registers: a high-word write is held for its master and joins no window; a low-word read gives the low
word, and keeps the high word of that moment for the master's next high-word read, which gives that word and lets it go. A read
of CAR_RINGn_GEN gives the two generations. A private read over I3C gives a register of the controller's reach. (A core reads in
a privileged mode, R377; reads are served in every power state, log entry 80.) -/
def Obligations.WideWordsAndReads : Prop :=
  (∀ (m : Master) (addr v : Word) (s : State),
    s.hears m = true → accessOk s m addr.toNat 4 = true → wideWord addr.toNat = some true →
    ∃ t, exec (.wideHighWordWrite m addr v) s = .next t ∧ heldOf t m (addr.toNat - 4) = some v ∧
      t.setup.acts = s.setup.acts ∧ t.regs = s.regs ∧ t.mem = s.mem ∧ t.scr = s.scr ∧ t.tiles = s.tiles ∧ t.out = s.out) ∧
  (∀ (m : Master) (addr : Word) (s : State) (r : Reg) (i j : Nat),
    s.live = true → (m = .fm → fromManager s = true) → masterBarred s m addr.toNat = false → accessOk s m addr.toNat 4 = true →
    findReg addr.toNat = some (r, i, j, false) → r.wide = true →
    ∃ t, exec (.wideLowWordRead m addr) s = .next t ∧
      t.out = .regData m addr.toNat (BitVec.ofNat 32 (regValue s r i j addr.toNat)) :: s.out ∧
      latchOf t m addr.toNat = some (BitVec.ofNat 32 (regValue s r i j addr.toNat / 2 ^ 32)) ∧
      t.regs = s.regs ∧ t.mem = s.mem ∧ t.scr = s.scr ∧ t.tiles = s.tiles) ∧
  (∀ (m : Master) (addr w : Word) (s : State),
    s.live = true → (m = .fm → fromManager s = true) → masterBarred s m addr.toNat = false → accessOk s m addr.toNat 4 = true → wideWord addr.toNat = some true →
    latchOf s m (addr.toNat - 4) = some w →
    ∃ t, exec (.wideLowWordRead m addr) s = .next t ∧ t.out = .regData m addr.toNat w :: s.out ∧
      latchOf t m (addr.toNat - 4) = none ∧ t.regs = s.regs ∧ t.mem = s.mem ∧ t.scr = s.scr ∧ t.tiles = s.tiles) ∧
  (∀ (m : Master) (d : Die) (x : Ctx) (s : State),
    s.live = true → reaches m (aCar d 0x100) = true → m ≠ .fm → masterBarred s m (aCar d (0x114 + 0x40 * x)) = false →
    ∃ t, exec (.carRingGenRead m d x) s = .next t ∧
      t.out = .regData m (aCar d (0x114 + 0x40 * x)) (BitVec.ofNat 32 ((getLoad s x).genNew * 2 ^ 16 + (getLoad s x).genCur)) :: s.out ∧
      t.regs = s.regs ∧ t.mem = s.mem ∧ t.scr = s.scr ∧ t.tiles = s.tiles) ∧
  (∀ (k : BitVec 7) (b : List Byte) (s : State) (r : Reg) (i j : Nat),
    s.live = true → i3cMine s k = true → b.length = 4 → accessOk s .bmc (wordAt b 0) 4 = true → findReg (wordAt b 0) = some (r, i, j, false) →
    r.wide = false →
    ∃ t, exec (.i3cPrivateRead ⟨k, b⟩ 4) s = .next t ∧ t.out = .i3c (natLE 4 (regValue s r i j (wordAt b 0))) :: s.out ∧
      t.regs = s.regs ∧ t.mem = s.mem ∧ t.scr = s.scr ∧ t.tiles = s.tiles)

/-- The end of an arbitration window: a single write leaves its register as the access codes of its fields say, and no other
register, memory, tile or output changes; a bit that hardware set in the same tick stays set (R19; that one tick is one cycle is
the model's choice, log entry 124). A low-word write of a 64-bit register commits the high word that its master held, and keeps
the register's own where it held none. After the commit of the set-up a write that would change a locked field leaves the field
and raises SETUP_LOCKED_WRITE with its address and master. Of two writes that contradict each other (by the values before the
window: log entry 87) the one of the master with the lower code stands, the other is reported as overridden. A register that may
be written at some moments only stores the value then, and keeps what it holds at any other. Registers with an effect of their own
are in the statements of their chapters. -/
def Obligations.ArbitrationWindowsEnd : Prop :=
  (∀ (s : State) (w a : Nat) (m : Master) (v : Word) (r : Reg) (i j : Nat),
    s.live = true → s.pwr.state = 0 → s.host.inOrder = [] →
    s.setup.acts = [(w, .write m a v none)] → 40 * w + 40 ≤ s.clk.count →
    findReg a = some (r, i, j, false) → r.kind = .plain → r.wide = false → (s.setup.committed && r.breaksLock (reg s a) v.toNat) = false →
    ∃ t, exec .arbitrationWindowEnd s = .next t ∧ t.setup.acts = [] ∧
      t.regs = (putReg a (r.write s.setup.committed (reg s a) v.toNat ||| hwSetNow s a) s).regs ∧
      t.mem = s.mem ∧ t.scr = s.scr ∧ t.tiles = s.tiles ∧ t.out = s.out) ∧
  (∀ (s : State) (w a : Nat) (m : Master) (v : Word) (h : Option Word) (r : Reg) (i j : Nat),
    s.live = true → s.pwr.state = 0 → s.host.inOrder = [] →
    s.setup.acts = [(w, .write m a v h)] → 40 * w + 40 ≤ s.clk.count →
    findReg a = some (r, i, j, false) → r.kind = .plain → r.wide = true →
    let full := v.toNat + 2 ^ 32 * (match h with | some x => x.toNat | none => reg s (a + 4))
    (s.setup.committed && r.breaksLock (reg64 s a) full) = false →
    ∃ t, exec .arbitrationWindowEnd s = .next t ∧ t.setup.acts = [] ∧
      t.regs = (putReg64 a (r.write s.setup.committed (reg64 s a) full) s).regs ∧
      t.mem = s.mem ∧ t.scr = s.scr ∧ t.tiles = s.tiles ∧ t.out = s.out) ∧
  (∀ (s : State) (a : Nat) (m : Master) (v : Word) (r : Reg) (i j : Nat),
    s.lastWrite m a v → findReg a = some (r, i, j, false) → r.kind = .plain → r.wide = false → s.setup.committed = true →
    r.breaksLock (reg s a) v.toNat = true →
    ∃ t, exec .arbitrationWindowEnd s = .next t ∧ t.setup.acts = [] ∧
      t = drainHost (putReg a (r.write true (reg s a) v.toNat ||| hwSetNow s a)
        (markSw a (softBits r true v.toNat) (raise { die := 0, code := 3, p0 := a, p1 := masterCode m }
          { s with setup := { s.setup with acts := [] } })))) ∧
  (∀ (s : State) (w a : Nat) (m n : Master) (v v' : Word) (r : Reg) (i j : Nat),
    s.live = true → s.pwr.state = 0 → s.host.inOrder = [] → masterCode m < masterCode n →
    s.setup.acts = [(w, .write n a v' none), (w, .write m a v none)] → 40 * w + 40 ≤ s.clk.count →
    findReg a = some (r, i, j, false) → r.kind = .plain → r.wide = false → s.setup.committed = false →
    r.contradict false (reg s a) v.toNat v'.toNat = true →
    ∃ t, exec .arbitrationWindowEnd s = .next t ∧
      t = drainHost (raise { die := 0, code := 2, p0 := a, p1 := masterCode n, p2 := masterCode m }
        (putReg a (r.write false (reg s a) v.toNat ||| hwSetNow s a)
          (markSw a (softBits r false v.toNat) { s with setup := { s.setup with acts := [] } })))) ∧
  (∀ (s : State) (w a : Nat) (m : Master) (v : Word) (h : Option Word) (r : Reg) (i j : Nat),
    s.live = true → s.pwr.state = 0 → s.host.inOrder = [] →
    s.setup.acts = [(w, .write m a v h)] → 40 * w + 40 ≤ s.clk.count → findReg a = some (r, i, j, false) → guardedKind r.kind = true →
    let full := if r.wide then v.toNat + 2 ^ 32 * (match h with | some x => x.toNat | none => reg s (a + 4)) else v.toNat
    let old := if r.wide then reg64 s a else reg s a
    let new := r.write s.setup.committed old full ||| (if r.wide then 0 else hwSetNow s a)
    (s.setup.committed && r.breaksLock old full) = false →
    ∃ t, exec .arbitrationWindowEnd s = .next t ∧ t.setup.acts = [] ∧
      t.regs = (if writeDropped s r i j (a / 0x4000000) new then s else if r.wide then putReg64 a new s else putReg a new s).regs ∧
      t.mem = s.mem ∧ t.scr = s.scr ∧ t.tiles = s.tiles ∧ t.out = s.out)

/-- The fields of a register after a write: a read-only field keeps its value, a locked RWL field keeps its value once the
set-up is committed, a W1C field loses the written bits, a W1S field gains them, and a reserved encoding leaves its field. A
master that does not reach an address gets 0, writes nothing, and the access is reported (on die 0: the model's choice, log
entry 106). A write of another size than four bytes, one to an unbacked address, and one to a package-scope register at its
offset on dies 1-7 have no effect; an unbacked address reads 0, and a package-scope register reads die 0's value on every
die. A core's access of another size, or from user mode, takes a synchronous abort instead; in firmware mode, with an abort
in hand, it stops the core. -/
def Obligations.AccessCodesAndReach : Prop :=
  (∀ (f : Fld) (locked : Bool) (old w : Nat),
      let x := bitsOf w f.hi f.lo
      let o := bitsOf old f.hi f.lo
      (f.acc = .ro → f.write locked old w = o) ∧ (f.acc = .rwl → locked = true → f.write locked old w = o) ∧
      (f.acc = .rw → f.valid.ok x = true → f.write locked old w = x) ∧ (f.acc = .rw → f.valid.ok x = false → f.write locked old w = o) ∧
      (f.acc = .w1c → ∀ k, (f.write locked old w).testBit k = (o.testBit k && !x.testBit k)) ∧
      (f.acc = .w1s → ∀ k, (f.write locked old w).testBit k = (o.testBit k || x.testBit k))) ∧
  ((∀ (m : Master) (addr v : Word) (s : State),
      s.hears m = true → reaches m addr.toNat = false → s.pwr.state = 0 →
      (∃ t, exec (.setupRegisterWrite m addr v 4) s = .next t ∧ t = deny m addr.toNat s ∧ t.setup.acts = s.setup.acts) ∧
      (readSetup m addr.toNat 4 s = (deny m addr.toNat s, 0))) ∧
    (∀ (m : Master) (addr v : Word) (n : Nat) (s : State), s.hears m = true → (∀ c, m ≠ .core c) → reaches m addr.toNat = true →
      n ≠ 4 →
      ∃ t, exec (.setupRegisterWrite m addr v n) s = .next t ∧ t.setup = s.setup ∧ t.regs = s.regs ∧ t.mem = s.mem ∧ t.scr = s.scr ∧
        t.tiles = s.tiles ∧ t.out = s.out) ∧
    (∀ (m : Master) (addr v : Word) (s : State), s.hears m = true → reaches m addr.toNat = true → addr.toNat % 4 = 0 →
      (backed s addr.toNat = false ∨
        ∃ r i j hi, findReg addr.toNat = some (r, i, j, hi) ∧ r.pkg = true ∧ 0x4000000 ≤ addr.toNat) →
      (∃ t, exec (.setupRegisterWrite m addr v 4) s = .next t ∧ t.setup = s.setup ∧ t.regs = s.regs ∧ t.mem = s.mem ∧ t.scr = s.scr ∧
        t.tiles = s.tiles ∧ t.out = s.out) ∧
      (backed s addr.toNat = false → readSetup m addr.toNat 4 s = (s, 0))) ∧
    (∀ (m : Master) (addr : Nat) (s : State) (r : Reg) (i j : Nat), reaches m addr = true → addr % 4 = 0 → backed s addr = true →
      findReg addr = some (r, i, j, false) → r.pkg = true → r.wide = false → r.kind ≠ .carGen → r.kind ≠ .carQCtrl →
      readSetup m addr 4 s = (s, regValue s r i j (addr % 0x4000000))) ∧
    (∀ (c : Core) (addr v : Word) (n : Nat) (s : State),
      let q := getCore s c
      s.live = true → (q.mode = .user ∨ n ≠ 4) →
      ∃ t, exec (.setupRegisterWrite (.core c) addr v n) s = .next t ∧ t.setup.acts = s.setup.acts ∧ t.setup.held = s.setup.held ∧
        t.mem = s.mem ∧ t.scr = s.scr ∧ t.tiles = s.tiles ∧
        (if q.mode = .firmware ∧ q.handling = true then (getCore t c).stopped = true ∧ coreRuns t c = false
         else (getCore t c).handling = true ∧ (getCore t c).stopped = q.stopped ∧ t.regs = s.regs ∧ t.out = s.out)))

/-- The accesses of a remote fabric manager: a read that is in reach is answered with the register's word and status 0; a write
that is in reach joins the arbitration window and is answered with status 0; a request that the package does not listen to is
answered with status 1 and writes nothing; an answer goes to the manager here. -/
def Obligations.FabricManagerAccesses : Prop :=
  (∀ (d : Die) (s : State) (i : InMsg) (l : List InMsg) (r : Reg) (m n : Nat),
    let a := ctlArg i.msg 0
    let answer := ctlMsg d i.msg.spkg i.msg.sdie 0x62 0 [a, ctlArg i.msg 1, regValue s r m n a, 0]
    s.live = true → regMsgs s d 0x60 = i :: l → i.msg.ty = 6 → ctlValid i.msg = true → fromManager s = true →
    accessOk s .fm a 4 = true → findReg a = some (r, m, n, false) → r.wide = false → s.canSend answer = true →
    ∃ t, exec (.regRead d) s = .next t ∧ t.sent answer ∧ t.setup = s.setup ∧ t.mem = s.mem ∧ t.scr = s.scr ∧ t.tiles = s.tiles) ∧
  (∀ (d : Die) (s : State) (i : InMsg) (l : List InMsg),
    let a := ctlArg i.msg 0
    let answer := ctlMsg d i.msg.spkg i.msg.sdie 0x62 0 [a, ctlArg i.msg 1, 0, 0]
    s.hears .fm = true → regMsgs s d 0x61 = i :: l → i.msg.ty = 6 → ctlValid i.msg = true →
    accessOk s .fm a 4 = true → wideWord a ≠ some true → closesWindow a (BitVec.ofNat 32 (ctlArg i.msg 2)) = false →
    s.canSend answer = true →
    ∃ t, exec (.regWrite d) s = .next t ∧ t.sent answer ∧
      t.setup.acts = s.setup.acts ++ [(s.clk.count / 40, .write .fm a (BitVec.ofNat 32 (ctlArg i.msg 2)) (highFor s .fm a))] ∧
      t.mem = s.mem ∧ t.scr = s.scr ∧ t.tiles = s.tiles) ∧
  (∀ (d : Die) (s : State) (i : InMsg) (l : List InMsg) (c : Instr) (cop : Nat),
    let answer := ctlMsg d i.msg.spkg i.msg.sdie 0x62 0 [ctlArg i.msg 0, ctlArg i.msg 1, 0, 1]
    ((c = .regRead d ∧ cop = 0x60) ∨ (c = .regWrite d ∧ cop = 0x61)) → s.live = true → regMsgs s d cop = i :: l → i.msg.ty = 6 →
    ctlValid i.msg = true → fromManager s = false → s.canSend answer = true →
    ∃ t, exec c s = .next t ∧ t.sent answer ∧ t.setup = s.setup ∧ t.mem = s.mem ∧ t.scr = s.scr ∧ t.tiles = s.tiles) ∧
  (∀ (d : Die) (s : State) (i : InMsg) (l : List InMsg), s.live = true → regMsgs s d 0x62 = i :: l → ctlValid i.msg = true →
    ∃ t, exec (.regResult d) s = .next t ∧
      t.out.head? = some (.regData (managerHere (takeMsg d i s)) (ctlArg i.msg 0) (BitVec.ofNat 32 (ctlArg i.msg 2))) ∧
      t.regs = s.regs ∧ t.mem = s.mem ∧ t.scr = s.scr ∧ t.tiles = s.tiles)

/-! ## The bridges -/

/-- A bridge frame in error counts one bridge replay (on the lower die of the edge: the model's choice, log entry 83) and moves
no byte, tile or output until the sixteenth of one frame in a row. That one faults the bridge, as lost training does:
BRIDGE_FAULT names the edge, every context's job is halted, and no command begins from then on (but that a package in FAILED
refuses them, log entry 83). A training attempt that fails is counted, and the third leaves the link FAILED; one that aligns
goes on to IDENT. A peer of another protocol version, or with the other cabling, leaves the link FAILED with its cause; any
other peer brings it UP, and its package, die and port can be read. A link that goes DOWN is counted, its paths have failed,
and it trains anew. A write of FAB_PORT_CTRL at the end of its window: from READY on ENABLE starts the training of an OFF
link, without it the link is OFF, RETRAIN trains a FAILED one again, and REJOIN makes an UP one usable. FAB_ID and the route
entries take a write while every ring is IDLE; a route write at any other time is flagged and drops. -/
def Obligations.BridgesAndLinksFail : Prop :=
  ((∀ (e : Fin 10) (same : Bool) (s : State), s.live = true → (same = true → mapGet 0 s.boot.bridges e + 1 < 16) →
      ∃ t, exec (.bridgeFrameError e same) s = .next t ∧
        mapGet 0 t.boot.bridges e = (if same then mapGet 0 s.boot.bridges e + 1 else 1) ∧ t.boot.bridgeFault = s.boot.bridgeFault ∧
        reg t (aGct (bridgeDies e).1 0x20C) = min 0xFFFFFFFF (reg s (aGct (bridgeDies e).1 0x20C) + 1) ∧
        t.mem = s.mem ∧ t.scr = s.scr ∧ t.tiles = s.tiles ∧ t.out = s.out) ∧
    (∀ (e : Fin 10) (s : State), s.live = true → mapGet 0 s.boot.bridges e = 15 →
      ∃ t, exec (.bridgeFrameError e true) s = .next t ∧
        t = bridgeFaulted e (ndc 3 (bridgeDies e).1 { s with boot := { s.boot with bridges := mapSet 0 s.boot.bridges e 16 } }) ∧
        t.boot.bridgeFault = true ∧ (bootStage t ≠ 9 → ∀ c ok, canBegin t c ok = false) ∧ t.mem = s.mem) ∧
    (∀ (e : Fin 10) (s : State), s.live = true →
      ∃ t, exec (.bridgeTrainingLost e) s = .next t ∧ t = bridgeFaulted e s ∧ t.boot.bridgeFault = true ∧
        (bootStage t ≠ 9 → ∀ c ok, canBegin t c ok = false) ∧ t.mem = s.mem)) ∧
  ((∀ (d : Die) (k : PortK) (h : Half) (s : State),
      let p := portNo d k h
      let n := (getPort s p).attempts + 1
      s.live = true → (getPort s p).st = 1 →
      (∃ u, exec (.train d k h true) s = .next u ∧ (getPort u p).st = 2 ∧ u.mem = s.mem ∧ u.scr = s.scr ∧ u.tiles = s.tiles) ∧
      (∃ u, exec (.train d k h false) s = .next u ∧ (getPort u p).attempts = n ∧
        (getPort u p).st = (if n < 3 then 1 else 5) ∧ (3 ≤ n → (getPort u p).cause = 1) ∧ u.mem = s.mem ∧ u.scr = s.scr ∧
        u.tiles = s.tiles ∧ u.out = s.out)) ∧
    (∀ (d : Die) (k : PortK) (h : Half) (s : State) (i : InMsg) (l : List InMsg),
      let p := portNo d k h
      s.live = true → (getPort s p).st = 2 → identMsgs s p = i :: l →
      ∃ u, exec (.ident d k h) s = .next u ∧ u.mem = s.mem ∧ u.scr = s.scr ∧ u.tiles = s.tiles ∧
        (if bitsOf (headWord i.msg 1) 31 24 ≠ 1 then (getPort u p).st = 5 ∧ (getPort u p).cause = 2
         else if bitsOf (ctlArg i.msg 4) 8 8 ≠ regF s (aFab 0 4) 1 1 then (getPort u p).st = 5 ∧ (getPort u p).cause = 3
         else (getPort u p).st = 3 ∧ regF u (aPort d k 0xC) 15 0 = bitsOf (ctlArg i.msg 2) 15 0 ∧
           regF u (aPort d k 0xC) 20 18 = bitsOf (ctlArg i.msg 3) 18 16 ∧ regF u (aPort d k 0xC) 17 16 = bitsOf (ctlArg i.msg 3) 9 8)) ∧
    (∀ (d : Die) (k : PortK) (h : Half) (s : State),
      let p := portNo d k h
      s.live = true → (getPort s p).st = 3 →
      ∃ u, exec (.linkDown d k h) s = .next u ∧ (getPort u p).st = 1 ∧ (getPort u p).failed = true ∧ (getPort u p).attempts = 0 ∧
        reg u (aPort d k 0x28) = min 0xFFFFFFFF (reg s (aPort d k 0x28) + 1) ∧ u.mem = s.mem) ∧
    (∀ (m : Master) (a : Nat) (v : Word) (i : Nat) (d : Die) (k : PortK) (h : Half) (s : State),
      let p := portNo d k h
      let en := bitsOf v.toNat 0 0
      s.lastKind .fabPortCtrl m a v i k → a / 0x4000000 = d → hwSetNow s a = 0 → h.val ∈ halves s →
      ∃ u, exec .arbitrationWindowEnd s = .next u ∧ u.mem = s.mem ∧ u.scr = s.scr ∧ u.tiles = s.tiles ∧
        (en = 1 → bootStage s = 7 → (getPort s p).st = 0 → (getPort u p).st = 1) ∧ (en = 0 → (getPort u p).st = 0) ∧
        (en = 1 → bootStage s = 7 → bitsOf v.toNat 2 2 = 1 → (getPort s p).st = 5 → (getPort u p).st = 1) ∧
        (en = 1 → bitsOf v.toNat 3 3 = 1 → (getPort s p).st = 3 → (getPort u p).st = 3 ∧ (getPort u p).failed = false)) ∧
    (∀ (m : Master) (a : Nat) (v : Word) (i j : Nat) (s : State),
      (s.lastKind .fabId m a v i j →
        ∃ u, exec .arbitrationWindowEnd s = .next u ∧ u.mem = s.mem ∧ u.scr = s.scr ∧ u.tiles = s.tiles ∧
          reg u (aFab 0 0) = (if allIdle s then bitsOf v.toNat 31 31 * 2 ^ 31 + bitsOf v.toNat 15 0 else reg s (aFab 0 0))) ∧
      (s.lastKind .fabRoute m a v i j →
        ∃ u, exec .arbitrationWindowEnd s = .next u ∧ u.mem = s.mem ∧ u.scr = s.scr ∧ u.tiles = s.tiles ∧
          (if allIdle s then
            reg u a = bitsOf v.toNat 31 29 * 2 ^ 29 + (if isTorus s then bitsOf v.toNat 5 0 else bitsOf v.toNat 2 0)
           else reg u a = reg s a ∧ regF u (aFab (a / 0x4000000) 0xC) 1 1 = 1))))

/-! ## Tiles -/

/-- START: an entry for an IDLE task context that R101 does not refuse puts the context into FETCH with the entry's fields and
moves HEAD on; a refused entry leaves the context IDLE with the status of the refusal. -/
def Obligations.StartBeginsAnIdleTaskContext : Prop :=
  ∀ (d : Die) (t : TileId) (s : State),
    let e := engineOf d t
    let b := s.startEntry e
    let x := getTctx s e (sqTctx b)
    s.live = true → sqWaiting e s = true → s.cleanGa (sqAddr s e) 32 = true → sqOp b = 0x20 → x.st = 0 →
    holdsInputs s (sqCtx b) = false →
    ∃ u, exec (.start d t) s = .next u ∧ u.mem = s.mem ∧ u.out = s.out ∧
      (if (getTile s e).fenced || startBad s e b then
        getTctx u e (sqTctx b) = { x with lastStatus := if (getTile s e).fenced then 6 else 1 }
      else
        u.scr = s.scr ∧ sqHead u e = (sqHead s e + 1) % 2 ^ sqLog s e ∧
        getTctx u e (sqTctx b) =
          { st := 1, ctx := sqCtx b, entryBase := sqBase b, entryCount := sqCount b, list := sqList b, count := sqTasks b,
            cq := sqCq b, tmo := sqTmo b, lastStatus := x.lastStatus })

/-- HALT: the task context that the entry names becomes IDLE, with none of its tasks left, its stream descriptors are discarded
(R142), and the head of the start queue moves on. Where a row group of it runs, the HALT waits at the head for the end of that
row group, and nothing else changes (the wait at the head is the model's reading, DEDUCED, log entry 13). -/
def Obligations.HaltMakesTheTaskContextIdle : Prop :=
  ∀ (d : Die) (t : TileId) (s : State),
    let e := engineOf d t
    let n := sqTctx (s.startEntry e)
    let read := (readGa (agSeq e) none (sqAddr s e) 32 s).1
    s.live = true → sqWaiting e s = true → s.cleanGa (sqAddr s e) 32 = true → sqOp (s.startEntry e) = 0x21 →
    (groupRuns s e n = false → (getTctx s e n).st ≠ 0 →
      ∃ u, exec (.halt d t) s = .next u ∧ u = sqAdvance e (haltTctx e n read) ∧
        (getTctx u e n).st = 0 ∧ (getTctx u e n).runs = [] ∧ ∀ q < 6, ∀ x ∈ (getStream u e q).q, sdTctx x.bytes ≠ n) ∧
    (groupRuns s e n = true →
      ∃ u, exec (.halt d t) s = .next u ∧ getTctx u e n = { (getTctx s e n) with halting := 1 } ∧
        u.regs = s.regs ∧ u.mem = s.mem ∧ u.scr = s.scr ∧ u.out = s.out)

/-- A descriptor fetch: a reserved or ill-formed descriptor halts the task context; END waits for its own step; MARK and a
sound GRID or LOAD become the youngest accepted task, whose claim set makes the task context READY or lets it wait. MARK at the
front leaves the list of accepted tasks, and ends the list where it is its last (R103, R109). END of a task context without
uncommitted tasks makes it IDLE. (The state shown while MARK or END waits for earlier tasks is the model's choice, log entry 100;
that MARK and END are taken whatever their Z4 and PACK fields say is log entry 135.) -/
def Obligations.DescriptorsAreTakenOrRefused : Prop :=
  (∀ (d : Die) (t : TileId) (n : Tctx) (s : State),
    let e := engineOf d t
    let x := getTctx s e n
    let b := s.nextDescriptor e n
    let tab := readScr e (tdSubtab b * 256) (16 * tdEdge b * tdEdge b) s
    s.live = true → x.st = 1 → x.atEnd = false → s.cleanGa (x.list + 64 * x.index) 64 = true →
    ∃ u, exec (.descriptorFetch d t n) s = .next u ∧
      (if tdReserved b then (getTctx u e n).st = 5 ∧ (getTctx u e n).lastStatus = 1
      else if tdOp b = 0x0F then getTctx u e n = { x with atEnd := true }
      else if tdOp b = 0x03 then
        getTctx u e n = { x with st := 3, runs := x.runs ++ [{ index := x.index, desc := b, cq := x.cq }] }
      else if taskBad s e x b tab then (getTctx u e n).st = 5 ∧ (getTctx u e n).lastStatus = 1
      else
        (getTctx u e n).runs = x.runs ++ [{ index := x.index, desc := b, tab := tab, cq := x.cq,
                                            groups := if tdOp b = 1 then tdGroups b (tdSubs b tab) else 0 }] ∧
        (getTctx u e n).loaded = sortedSet (x.loaded ++ maskBits (tdLoad b)) ∧
        ((getTctx u e n).st = 2 ∨ (getTctx u e n).st = 3) ∧ u.regs = s.regs ∧ u.mem = s.mem ∧ u.scr = s.scr ∧ u.out = s.out)) ∧
  (∀ (d : Die) (t : TileId) (n : Tctx) (s : State) (r : Run) (rest : List Run),
    let e := engineOf d t
    s.live = true → (getTctx s e n).st = 3 → (getTctx s e n).runs = r :: rest → tdOp r.desc = 0x03 →
    ∃ u, exec (.taskMark d t n) s = .next u ∧
      (if r.index + 1 = (getTctx s e n).count then (getTctx u e n).st = 0 else (getTctx u e n).runs = rest)) ∧
  (∀ (d : Die) (t : TileId) (n : Tctx) (s : State),
    let e := engineOf d t
    s.live = true → (getTctx s e n).atEnd = true → (getTctx s e n).runs = [] →
    ∃ u, exec (.endTask d t n) s = .next u ∧ (getTctx u e n).st = 0 ∧ u.mem = s.mem ∧ u.scr = s.scr ∧ u.regs = s.regs ∧ u.out = s.out)

/-- The claim set of a task context in WAIT_TAG is evaluated again: READY where no slot blocks, else it waits for the lowest
blocking slot. A READY task context that the scheduling mode chooses is given the grid, holds the claims of its row group and
becomes ACTIVE. A change of a tag is seen from the next edge on, and a slot admits one claim at an edge. (What is one edge is
the model's clock, log entry 5.) -/
def Obligations.TheGridIsGivenToAReadyContext : Prop :=
  (∀ (d : Die) (t : TileId) (n : Tctx) (s : State) (r : Run),
    let e := engineOf d t
    s.live = true → (getTctx s e n).st = 2 → (getTctx s e n).late = false → (getTctx s e n).runs.getLast? = some r →
    ∃ u, exec (.taskContextReady d t n) s = .next u ∧
      (match blocking s e (claimSet s e r) with
       | none => (getTctx u e n).st = 3 ∧ (getTctx u e n).block = none ∧ (getTctx u e n).c0 = none
       | some c => (getTctx u e n).st = 2 ∧ (getTctx u e n).block = some (blockOf s e c)) ∧
      u.mem = s.mem ∧ u.scr = s.scr ∧ u.regs = s.regs ∧ u.out = s.out) ∧
  (∀ (d : Die) (t : TileId) (s : State) (n : Nat) (r : Run),
    let e := engineOf d t
    s.live = true → (getTile s e).cur = none → (getTile s e).fenced = false →
    (List.range 4).any (fun k => (getTctx s e k).runs.any (·.failed)) = false →
    chooseTctx s e = some n → (getTctx s e n).runs.getLast? = some r →
    ∃ u, exec (.gridAssign d t) s = .next u ∧ (getTile u e).cur = some n ∧ (getTile u e).last = n ∧
      (getTile u e).yielded = false ∧ (getTctx u e n).st = 4 ∧
      (getTctx u e n).runs = (getTctx s e n).runs.map (fun y => if y.index = r.index then { r with claims := r.claims ++ claimSet s e r } else y) ∧
      u.mem = s.mem ∧ u.scr = s.scr ∧ u.out = s.out) ∧
  (∀ (e q : Nat) (k : ClaimKind) (x : Tag) (s : State),
    (seenTag (setTag e q x s) e q).st = (seenTag s e q).st ∧ (seenTag (setTag e q x s) e q).holds = (seenTag s e q).holds ∧
    claimable (doClaim e ⟨q, k⟩ s) e q k = false)

/-- A task that holds the grid begins the loads of its entries, none before the vectors that select the old entry have passed;
a LOAD task lets the grid go then. A loading entry becomes usable 132 cycles after its first load row, with the elements that
its source slots hold then: a Z4 load leaves the bypassed column empty, and a 4-bit pair comes together. A GRID task whose
vectors can issue begins its row group; a row group whose vectors have all issued ends, counts as issued, and leaves a full
half to drain. After a thermal trip a row group that is issuing stays as it is (R412). (The time of loads and edges is counted on
the model's clock, log entry 5.) -/
def Obligations.LoadsAndRowGroups : Prop :=
  (∀ (d : Die) (t : TileId) (s : State) (n : Nat) (r : Run),
    let e := engineOf d t
    s.live = true → (getTile s e).cur = some n → curRun (getTctx s e n) = some r → r.loadsBegun = false →
    let begun (u : State) : Prop := (∀ p ∈ tdLoads r.desc,
        let y := getEntry u e p.1
        y.st = 1 ∧ y.owner = n ∧ y.task = r.index ∧ y.fmt = tdW r.desc ∧ y.z4 = tdZ4 r.desc ∧
        cycleOf s ≤ y.since ∧ (getEntry s e p.1).useEnd ≤ y.since) ∧
      u.mem = s.mem ∧ u.scr = s.scr ∧ u.regs = s.regs ∧ u.out = s.out
    (tdOp r.desc = 2 → ∃ u, exec (.load d t) s = .next u ∧ begun u ∧ (getTile u e).cur = none ∧ (getTile u e).yielded = tdYield r.desc) ∧
    (tdOp r.desc = 1 → (getTile s e).streaming = false → r.reload = false → ∃ u, exec (.grid d t) s = .next u ∧ begun u)) ∧
  (∀ (d : Die) (t : TileId) (i : Fin 16) (s : State),
    let e := engineOf d t
    let x := getEntry s e i
    let es := elems x.fmt 16384 (readScr e (x.elemSlot * 256) (elemBytes x.fmt 16384) s)
    s.live = true → x.st = 1 → x.since + 132 ≤ cycleOf s →
    ∃ u, exec (.entryUsable d t i) s = .next u ∧ (getEntry u e i).st = 2 ∧
      (getEntry u e i).elems = (if x.fixed then x.elems
        else if x.z4 then (putBypass (bypassCol s e) (List.replicate 128 0) (chunks 128 128 es)).flatten else es) ∧
      (∀ j : Fin 16, j.val / 2 = i.val / 2 → codeBits x.fmt = 4 → codeBits (getEntry s e j).fmt = 4 → (getEntry s e j).st = 1 →
        (getEntry s e j).since = x.since → (getEntry u e j).st = 2) ∧
      u.mem = s.mem ∧ u.scr = s.scr ∧ u.regs = s.regs ∧ u.out = s.out) ∧
  (∀ (d : Die) (t : TileId) (s : State) (n : Nat) (r : Run),
    let e := engineOf d t
    s.live = true → (getTile s e).cur = some n → curRun (getTctx s e n) = some r → tdOp r.desc = 1 →
    ((getTile s e).streaming = false → r.reload = false → canIssue s e n r = true →
      ∃ u, exec (.grid d t) s = .next u ∧ (getTile u e).streaming = true ∧ 1 ≤ (getTile u e).unit ∧ (getTile u e).stallCount = 0 ∧
        (getTctx u e n).runs = (getTctx s e n).runs ∧ u.mem = s.mem ∧ u.scr = s.scr ∧ u.regs = s.regs ∧ u.out = s.out) ∧
    ((getTile s e).streaming = true → s.pwr.tripped = false → (tdUnitsOf r.desc r.issued).length ≤ (getTile s e).unit → (getTile s e).endAt ≤ cycleOf s →
      (getTctx s e n).halting = 0 →
      ∃ u, exec (.grid d t) s = .next u ∧ (getTile u e).streaming = false ∧
        (∃ y ∈ (getTctx u e n).runs, y.index = r.index ∧ y.issued = r.issued + 1) ∧
        (tdChain r.desc = false → defers r = false → ∃ h ∈ (getTile u e).halves, h.tctx = n ∧ h.task = r.index ∧ h.group = r.issued ∧ h.full = true) ∧
        u.mem = s.mem ∧ u.scr = s.scr ∧ u.regs = s.regs ∧ u.out = s.out) ∧
    ((getTile s e).streaming = true → s.pwr.tripped = true →
      ∃ u, exec (.grid d t) s = .next u ∧ (getTile u e).streaming = true ∧ (getTile u e).unit = (getTile s e).unit ∧
        (getTctx u e n).runs = (getTctx s e n).runs))

/-- The hold after the last real vector, or after the start ramp, ends in the stop ramp; the stop ramp ends the period and the
grant of leave, and a row group whose vectors are ready asks for a new period of its class. A task context that still blocks
at the sampling edge of its timer is late, and is then halted with the slot that blocked it: its task or open chain ends,
TAG_TIMEOUT names the tile, the task context, the task and the slot, the timeout is counted, and at LEVEL_TIME the step
faults. A stall whose count of edges has reached its limit is reported once: TILE_STALL names the tile, the task contexts
that wait and their slots, it is counted, and an open chain is ended. -/
def Obligations.PeriodsAndLongWaitsEnd : Prop :=
  ((∀ (d : Die) (t : TileId) (s : State),
      let e := engineOf d t
      let x := getTile s e
      s.live = true → x.phase = 2 → max x.endAt (x.phaseAt + rampCycles s d t) + 8 ≤ cycleOf s →
      ∃ u, exec (.holdExpiry d t) s = .next u ∧ getTile u e = { x with phase := 4, phaseAt := cycleOf s } ∧
        u.mem = s.mem ∧ u.scr = s.scr ∧ u.regs = s.regs ∧ u.out = s.out) ∧
    (∀ (d : Die) (t : TileId) (s : State),
      let e := engineOf d t
      let x := getTile s e
      s.live = true → x.phase = 4 → x.phaseAt + rampCycles s d t ≤ cycleOf s →
      ∃ u, exec (.stopRampEnd d t) s = .next u ∧ u.mem = s.mem ∧ u.scr = s.scr ∧ u.regs = s.regs ∧ u.out = s.out ∧
        grantsOf u d = (grantsOf s d).map (fun g => if g.src = t.val then { g with ended := true } else g) ∧
        (match gridRun s e with
         | some (n, r) => if vectorsReady s e n r then getTile u e = { x with phase := 1, klass := tdClass r.desc, phaseAt := cycleOf s }
                          else getTile u e = { x with phase := 0 }
         | none => getTile u e = { x with phase := 0 }))) ∧
  ((∀ (e n old c0 : Nat) (s : State) (c : Claim),
      let x := getTctx s e n
      x.st = 2 → x.late = false → x.c0 = some c0 → old < c0 + x.tmo + 1 → c0 + x.tmo + 1 ≤ cycleOf s → blockedOn s e n = some c →
      getTctx (edgeTctx e n old s) e n = { x with block := some (blockOf s e c), late := true }) ∧
    (∀ (d : Die) (t : TileId) (n : Tctx) (s : State) (r : Run) (k : Nat × Nat),
      let e := engineOf d t
      let x := getTctx s e n
      let ended := modTctx e n (fun y => { y with block := some k }) (haltedTctx e n (endRuns e n (lastUnit x) 2 s))
      let told := ndc 1 d (bump (aTil d t 0x190)
        (raise { die := d, code := 0x0102, ctx := some x.ctx, p0 := e, p1 := n, p2 := r.index, p3 := k.2 } ended))
      s.live = true → x.st = 2 → x.late = true → x.runs.getLast? = some r → x.block = some k →
      ∃ u, exec (.tagTimeout d t n) s = .next u ∧ (getTctx ended e n).st = 5 ∧ (getTctx ended e n).block = some k ∧
        u = (if level told = 2 then stepFault x.ctx 2 told else told)) ∧
    (∀ (d : Die) (t : TileId) (s : State),
      let e := engineOf d t
      let x := getTile s e
      s.live = true → x.episode = false → 0 < x.stallCount → reg s (aTil d t 8) ≤ x.stallCount →
      let waiting := (List.range 4).foldl (fun a n => a + bit ((getTctx s e n).st = 2) n) 0
      let told := bump (aTil d t 0x198) (modTile e (fun x => { x with episode := true })
        (raise { die := d, code := 0x0103, p0 := e, p1 := waiting, p2 := stallSlot s e 0 + stallSlot s e 1 * 2 ^ 16,
                 p3 := stallSlot s e 2 + stallSlot s e 3 * 2 ^ 16 } s))
      ∃ u, exec (.tileStall d t) s = .next u ∧ (getTile u e).episode = true ∧ (chainHolder s e = none → u = told) ∧
        (∀ n, chainHolder s e = some n → (getTctx u e n).st = 5 ∧ (getTctx u e n).block = (getTctx s e n).block ∧
          ∃ w, u = modTctx e n (fun y => { y with block := (getTctx s e n).block }) (haltedTctx e n w) ∧
            w = endRuns e n (lastUnit (getTctx s e n)) 3 told)))

/-- A full half whose sums agree with their residues is drained: its outputs are written where the pieces of its rows lie, and
nowhere else in the scratchpads, and its task counts one row group more as drained; the half is free again (where sums wait
for their anchor they take it: log entry 104). A task or chain that is ready to commit commits, with its record written
(R113), and leaves the list of accepted tasks; the last of its list makes the task context IDLE (what the fields of the
START then read is log entry 136). A check result that agrees settles one vector of its task. The first that does not agree
marks the task, or its chain, as failed. A failed task whose turn has come is issued again from its first row group, with
its anchors as they were (the grid is its own even where another task context's chain is open: log entry 134). -/
def Obligations.GridTasksDrainCheckAndCommit : Prop :=
  ((∀ (d : Die) (t : TileId) (s : State) (h : HalfS) (r : Run),
      let e := engineOf d t
      s.live = true → (getTile s e).halves.find? (·.full) = some h → h.acc.all (·.2.checks) = true →
      (getTctx s e h.tctx).runs.find? (fun y => y.index == h.task) = some r →
      ∃ u, exec (.halfDrained d t none none) s = .next u ∧
        ((∀ n, ∀ y ∈ (getTctx s e n).runs, y.held = []) → (getTile u e).halves = (getTile s e).halves.erase h) ∧
        (∃ y ∈ (getTctx u e h.tctx).runs, y.index = r.index ∧ y.drained = r.drained + 1) ∧
        (tdYStreamed r.desc = true → u.scr = s.scr) ∧
        (tdYStreamed r.desc = false → ∀ c,
          (∀ p ∈ drainPieces s e h.tctx r h, ∀ v, (runSubs r)[p.sub]? = some v →
            let y := scrCell e ((yRange r.desc v p.row).1 + elemBytes (tdY r.desc) p.off)
            let z := scrCell e ((ysRange r.desc v p.row).1 + p.off / 32)
            ¬(y ≤ c ∧ c < y + p.conv.elems.length) ∧ ¬(z ≤ c ∧ c < z + p.conv.scales.length)) →
          memGet u.scr c = memGet s.scr c) ∧
        u.mem = s.mem ∧ u.regs = s.regs ∧ u.out = s.out) ∧
    (∀ (d : Die) (t : TileId) (n : Tctx) (s : State) (us : List Run) (r : Run),
      let e := engineOf d t
      s.live = true → commitUnit s e n = some us → us.getLast? = some r →
      ∃ u, exec (.taskCommit d t n) s = .next u ∧ (getTctx u e n).lastStatus = 0 ∧
        (if r.index + 1 = (getTctx s e n).count then (getTctx u e n).st = 0
         else (getTctx u e n).runs = (getTctx s e n).runs.drop us.length) ∧
        (us = [r] → s.isMemory (r.cq + 16 * r.index) → u.bytesAt (agSeq e) (r.cq + 16 * r.index) 16 =
          taskRecord n r.reexec r.flags 0 r.index (tdUser r.desc) (s.clk.count % 2 ^ 32)))) ∧
  ((∀ (d : Die) (t : TileId) (s : State) (k : VecCheck) (rest : List VecCheck) (r : Run),
      let e := engineOf d t
      s.live = true → (getTile s e).checks = k :: rest → k.c = k.m →
      (getTctx s e k.tctx).runs.find? (fun y => y.index == k.task) = some r →
      ∃ u, exec (.checkResult d t none) s = .next u ∧ (getTile u e).checks = rest ∧
        (getTctx u e k.tctx).runs = (getTctx s e k.tctx).runs.map (fun y => if y.index = r.index then { r with unchecked := r.unchecked - 1 } else y) ∧
        u.mem = s.mem ∧ u.scr = s.scr ∧ u.regs = s.regs ∧ u.out = s.out) ∧
    (∀ (d : Die) (t : TileId) (s : State) (k : VecCheck) (rest : List VecCheck) (r : Run),
      let e := engineOf d t
      s.live = true → (getTile s e).checks = k :: rest → k.c ≠ k.m → unitOf (getTctx s e k.tctx) k.task = [r] → r.reexec = false →
      ∃ u, exec (.checkResult d t none) s = .next u ∧ (getTile u e).checks = rest ∧
        (getTctx u e k.tctx).runs = (getTctx s e k.tctx).runs.map (fun y => if y.index = r.index then { r with failed := true } else y) ∧
        u.mem = s.mem ∧ u.scr = s.scr ∧ u.regs = s.regs ∧ u.out = s.out) ∧
    (∀ (d : Die) (t : TileId) (s : State) (n : Nat) (r : Run),
      let e := engineOf d t
      s.live = true → reexecTctx s e = some n → (getTctx s e n).runs = [r] → r.failed = true →
      ∃ u, exec (.gridReexec d t) s = .next u ∧ (getTile u e).cur = some n ∧
        (getTctx u e n).runs = [{ r with issued := 0, drained := 0, unchecked := 0, flags := 0, held := [], reexec := true,
                                         reload := r.loadsBegun, failed := false }] ∧
        (getTile u e).halves = (getTile s e).halves.filter (fun h => !(h.tctx == n && h.task == r.index)) ∧
        u.mem = s.mem ∧ u.scr = s.scr ∧ u.out = s.out))

/-- The tag table: which accesses proceed in which state, what a claim and the end of the access make of the tag, and that
undoing a claim restores the tag. A load source proceeds where a PEEK does, and its hold stands after its end. The effect of
SET_FULL and SET_EMPTY at the end of their window: in one tagged region with every slot in a state that the command accepts,
each slot takes the new state and keeps its holds; otherwise, as where COUNT is 0, no tag changes and TAGCMD_REJECT is set.
A write of another OP is no command. A write to TIL_REGIONn that R118 accepts sets the region, and makes every tag of a
tagged one EMPTY without holds; one that it refuses changes no region and no tag, and sets REGION_REJECT. -/
def Obligations.TagsFollowTheTable : Prop :=
  (∀ (g : Tag) (k : ClaimKind), g.st < 4 →
      (claimOk g .fill = true ↔ g.st = 0 ∧ g.holds = 0) ∧ (claimOk g .consume = true ↔ g.st = 2) ∧
      (claimOk g .peek = true ↔ (g.st = 2 ∨ g.st = 3) ∧ g.holds < 15) ∧
      claimOk g .source = claimOk g .peek ∧ claimTag g .fill = { g with st := 1 } ∧ claimTag g .consume = { g with st := 3 } ∧
      claimTag g .peek = { g with holds := g.holds + 1 } ∧ claimTag g .source = { g with holds := g.holds + 1 } ∧
      endTag (claimTag g .source) .source = { g with holds := g.holds + 1 } ∧ (claimOk g k = true → undoTag (claimTag g k) k = g) ∧
      (claimOk g .fill = true → endTag (claimTag g .fill) .fill = { g with st := 2 }) ∧
      (claimOk g .consume = true → endTag (claimTag g .consume) .consume = { g with st := 0 }) ∧
      (claimOk g .peek = true → endTag (claimTag g .peek) .peek = g)) ∧
  (∀ (d : Die) (t : TileId) (s : State) (base count op : Nat),
      let e := engineOf d t
      let ok := oneTagged s e base count &&
        (List.range count).all (fun i => let g := getTag s e (base + i); (g.st = 0 || g.st = 2) && (op = 1 || g.holds = 0))
      let u := effTagCmd d t op count base s
      (op ≠ 1 → op ≠ 2 → u = s) ∧ (count = 0 → ok = false) ∧
      (op = 1 ∨ op = 2 →
        (∀ q, (getTag u e q).st = (if ok && base ≤ q && q < base + count then (if op = 1 then 2 else 0) else (getTag s e q).st) ∧
          (getTag u e q).holds = (getTag s e q).holds) ∧
        (ok = false → regF u (aTil d t 0) 9 9 = 1) ∧ u.mem = s.mem ∧ u.scr = s.scr ∧ u.out = s.out) ∧
      (∀ (m : Master) (a : Nat) (v : Word) (i j : Nat), s.lastKind .tilTagCmd m a v i j → a / 0x4000000 = d → j = t →
        v = BitVec.ofNat 32 (op * 2 ^ 30 + count * 2 ^ 16 + base) → op < 4 → count < 2 ^ 14 → base < 2 ^ 14 →
        ∃ w, exec .arbitrationWindowEnd s = .next w ∧ (∀ q, getTag w e q = getTag u e q) ∧
          regF w (aTil d t 0) 9 9 = regF u (aTil d t 0) 9 9 ∧ w.mem = s.mem ∧ w.scr = s.scr) ∧
      (∀ (m : Master) (a : Nat) (v : Word) (i j : Nat), s.lastKind .tilRegion m a v i j → a / 0x4000000 = d → j = t →
        a = aTil d t (0x100 + 4 * i) →
        let first := bitsOf v.toNat 13 0
        let tagged := bitsOf v.toNat 31 30 = 3
        ∃ w, exec .arbitrationWindowEnd s = .next w ∧ w.mem = s.mem ∧ w.scr = s.scr ∧
          (if regionBad s e i v.toNat then regF w (aTil d t 0) 8 8 = 1 ∧ reg w a = reg s a ∧ ∀ q, getTag w e q = getTag s e q
           else reg w a = setBits v.toNat 15 14 0 ∧
             (∀ q, getTag w e q = if tagged ∧ first ≤ q ∧ q < first + bitsOf v.toNat 29 16 then {} else getTag s e q))))

/-! ## Streams -/

/-- A FULL queue slot is consumed: its four descriptors join the stream's list in order, and the other queue slot is next. A
claim that a tag kept waiting is made as soon as the tag lets it proceed and no claim that the stream makes elsewhere blocks
before it. The access to a slot in flight ends: a read stream's bytes land in the slot and its claim ends, a write stream's
bytes enter the queue of their controller. A FEED block whose bytes have come stands in a Prism half for the task and row
group that it is for. -/
def Obligations.StreamSlotsAreFetchedAndMove : Prop :=
  (∀ (d : Die) (t : TileId) (q : Strm) (s : State),
      let e := strE d t
      let st := getStream s e q
      s.live = true → canFetchStream e q s = true →
      ∃ u, exec (.streamDescriptorFetch d t q) s = .next u ∧
        (getStream u e q).q.map (·.bytes) = st.q.map (·.bytes) ++
          (List.range 4).map (fun k => ((readScr e (queueSlot q st.nextSlot * 256) 256 s).drop (64 * k)).take 64) ∧
        (getStream u e q).nextSlot = 1 - st.nextSlot ∧ (getTag u e (queueSlot q st.nextSlot)).st = 3 ∧
        u.mem = s.mem ∧ u.scr = s.scr ∧ u.regs = s.regs ∧ u.out = s.out) ∧
  ((∀ (d : Die) (t : TileId) (q : Strm) (s : State) (x : SDesc) (sl : Nat) (rest : List Nat),
      let e := strE d t
      s.live = true → streamRuns s e q = true → flying (getStream s e q) < 64 → blockedMove s e q = none →
      (getStream s e q).q.find? (fun x => x.begun && !x.todo.isEmpty) = some x → x.todo = sl :: rest →
      (∀ k, sdKind q x.bytes = some k → streamMay s e q sl k = true) →
      ∃ v, exec (.streamSlotClaim d t q) s = .next (tellAll v) ∧ v.mem = s.mem ∧ v.scr = s.scr ∧
        (∃ z ∈ (getStream v e q).q, z.bytes = x.bytes ∧ z.seq = x.seq ∧ sl ∈ z.inflight ∧
          z.inflight ++ z.todo = x.inflight ++ x.todo) ∧
        (∀ k, sdKind q x.bytes = some k → (getTag v e sl).clm = cycleOf s + 1 ∧ (getTag v e sl).st = (claimTag (getTag s e sl) k).st ∧
          (getTag v e sl).holds = (claimTag (getTag s e sl) k).holds)) ∧
    (∀ (d : Die) (t : TileId) (q : Strm) (slot : Nat) (s : State) (x : SDesc),
      let e := strE d t
      s.live = true → descOf s e q slot = some x →
      exec (.streamSlotEnd d t q slot) s = .next (tellAll (if q.val < 4 then endReadSlot e q slot x s else endWriteSlot e q slot x s)) ∧
      (q.val < 4 → x.stuck = [] → readsServed s x slot = true → (partsOf x slot).all (fun p => partReady s x p.1 p.2.1 p.2.2) = true →
        s.cleanParts x (partsOf x slot) = true →
        ∃ w, exec (.streamSlotEnd d t q slot) s = .next (tellAll (tryClaims e q w)) ∧ w.mem = s.mem ∧
          (∀ p, partsOf x slot = [p] → readScr e (p.1.tile + p.2.1) (partBytes s e q x p.1 p.2.1 p.2.2).1.length w = (partBytes s e q x p.1 p.2.1 p.2.2).1) ∧
          (sdKind q x.bytes = some .fill → (getTag w e slot).st = 2) ∧
          (∃ z ∈ (getStream w e q).q, z.bytes = x.bytes ∧ z.seq = x.seq ∧ z.moved = x.moved ++ [slot] ∧ z.inflight = x.inflight.erase slot)) ∧
      (4 ≤ q.val → x.stuck = [] → nextOut x = some slot → sdCodec x.bytes = 0 →
        ∀ p m d' h, partsOf x slot = [p] → p.1.mem = some m → placeOf s (m + p.2.1) = .hbm d' h →
        (∀ r ∈ memRuns (pieces x), placeOf s r.1 ≠ .remote) →
        ∃ w, exec (.streamSlotEnd d t q slot) s = .next (tellAll (tryClaims e q w)) ∧ w.mem = s.mem ∧ w.scr = s.scr ∧
          w.hbm = (hbmWrite (agStream e q) d' h (readScr e (p.1.tile + p.2.1) p.2.2 s) s (some (sdCtx s e x.bytes)) (x.seq + 1)).hbm ∧
          (∃ z ∈ (getStream w e q).q, z.bytes = x.bytes ∧ z.seq = x.seq ∧ z.moved = x.moved ++ [slot] ∧ z.inflight = x.inflight.erase slot))) ∧
    (∀ (d : Die) (t : TileId) (q : Strm) (s : State) (x : SDesc) (task group : Nat),
      let e := strE d t
      let n := sdTctx x.bytes
      s.live = true → feedDue s e q = some x → readsServed s x 0 = true →
      (feedParts' x).all (fun p => partReady s x p.1 p.2.1 p.2.2) = true → s.cleanParts x (feedParts' x) = true →
      x.feed = some (task, group) → (getTctx s e n).runs.any (·.index == task) = true →
      ∃ u blk, exec (.feedBlockDelivered d t q) s = .next u ∧ (getTile u e).prism = (getTile s e).prism ++ [blk] ∧
        blk.stream = q.val ∧ blk.tctx = n ∧ blk.task = task ∧ blk.group = group ∧ blk.mode = sdPrism x.bytes ∧
        blk.bytes = ((feedParts' x).map fun p => (partBytes s e q x p.1 p.2.1 p.2.2).1).flatten))

/-- The rows that begin a stream descriptor act on the next descriptor where its opcode is the row's: one that breaks a rule of
its own fields begins with its cause and claims nothing; a sound LINEAR or BLOCK2D without gate begins at once, with its
tile-side slots claimed or to be claimed in order; so does a sound GATHER or SCATTER whose indexes are in range, with those
indexes; a NOTE in a scratchpad of this package writes its word and zeros, and fills the slot where it is tagged; a NOP leaves
the list, and one that is not all zero halts the stream. -/
def Obligations.StreamDescriptorsBegin : Prop :=
  (∀ (c : Instr) (op : Nat) (d : Die) (t : TileId) (q : Strm) (s : State) (x : SDesc),
    let e := strE d t
    let b := x.bytes
    let y := { x with gated := true }
    let s1 := setDesc e q x y s
    streamRow c = some (op, d, t, q) → s.live = true → nextDesc s e q = some x → sdOp b = op →
    (sdCheck s e q x ≠ 0 →
      ∃ u, exec c s = .next u ∧ u.mem = s.mem ∧ u.scr = s.scr ∧ u.regs = s.regs ∧ u.out = s.out ∧
        (getStream u e q).q = (getStream s e q).q.map (fun z => if z = x then { x with begun := true, fail := sdCheck s e q x } else z)) ∧
    (sdCheck s e q x = 0 → x.fail = 0 → isFeed q b = false → sdAfter b = false → sdGate b = 0 →
      ((op = 0x10 ∨ op = 0x11) → sdPlaceCheck s1 e q { y with begun := true, idx := [] } = 0 →
        ∃ v, exec c s = .next (tellAll v) ∧ v.mem = s.mem ∧ v.scr = s.scr ∧
          ∃ z ∈ (getStream v e q).q, z.bytes = b ∧ z.seq = x.seq ∧ z.begun = true ∧ z.fail = 0 ∧ z.idx = [] ∧
            z.inflight ++ z.todo = x.inflight ++ tileSlots q { x with idx := [] }) ∧
      ((op = 0x12 ∨ op = 0x13) → s1.cleanGa (sdIdxAddr b) (sdLen b * (if sdIdx16 b then 2 else 4)) = true →
        (∃ d' h, placeRun s1 (sdIdxAddr b) (sdLen b * (if sdIdx16 b then 2 else 4)) = .hbm d' h) ∨
          (∃ d' t' o, placeRun s1 (sdIdxAddr b) (sdLen b * (if sdIdx16 b then 2 else 4)) = .scr d' t' o) →
        let idx := unpackWide (if sdIdx16 b then 2 else 4) (sdLen b) (s1.indexBytes e q b)
        goodIndexes b idx → sdPlaceCheck s1 e q { y with begun := true, idx := idx } = 0 →
        ∃ v, exec c s = .next (tellAll v) ∧ v.mem = s.mem ∧ v.scr = s.scr ∧
          ∃ z ∈ (getStream v e q).q, z.bytes = b ∧ z.seq = x.seq ∧ z.begun = true ∧ z.fail = 0 ∧ z.idx = idx ∧
            z.inflight ++ z.todo = x.inflight ++ tileSlots q { x with idx := idx }))) ∧
  (∀ (d d' : Die) (t t' : TileId) (q : Strm) (s : State) (x : SDesc) (o : Nat),
    let e := strE d t
    let b := x.bytes
    let y := { x with gated := true }
    let s1 := setDesc e q x y s
    s.live = true → nextDesc s e q = some x → sdOp b = 0x14 → sdCheck s e q x = 0 → sdAfter b = false → sdGate b = 0 →
    sdPlaceCheck s1 e q y = 0 → placeRun s1 (sdMem b) 256 = .scr d' t' o →
    (isTagged s (engine d' t') (o / 256) = true → mayArrive s1 (engine d' t') (o / 256) .fill = true) →
    ∃ u, exec (.note d t q) s = .next u ∧
      (getTag u (engine d' t') (o / 256)).st = (if isTagged s (engine d' t') (o / 256) then 2 else (getTag s (engine d' t') (o / 256)).st) ∧
      readScr (engine d' t') o 256 u = noteBytes b ∧ u.mem = s.mem ∧ u.regs = s.regs ∧ u.out = s.out) ∧
  (∀ (d : Die) (t : TileId) (q : Strm) (s : State) (x : SDesc),
    let e := strE d t
    s.live = true → nextDesc s e q = some x → sdOp x.bytes = 0 →
    ∃ u, exec (.nop d t q) s = .next u ∧
      (if x.bytes.all (· = 0) then (getStream u e q).q = (getStream s e q).q.erase x ∧
        u.mem = s.mem ∧ u.scr = s.scr ∧ u.regs = s.regs ∧ u.out = s.out
       else (getStream u e q).halted = some (sdTctx x.bytes)))

/-- A descriptor that has nothing left to do ends, and leaves the list; where it asks for a completion record, that is written.
One with a cause, or with a reserved opcode, halts the stream on its task context and STREAM_FAULT names it, as does a GRID
descriptor whose size is not the output's; else a whole grid output leaves the tile. A wait of as many edges as the limit is
reported once: STREAM_STALL names the engine, the stream, the descriptor and the slot. (A wait for an empty queue slot is none:
the model's choice, log entry 126; which other tasks a halt ends is log entry 54.) -/
def Obligations.StreamDescriptorsEnd : Prop :=
  (∀ (d : Die) (t : TileId) (q : Strm) (s : State) (x : SDesc),
    let e := strE d t
    s.live = true → endable s e q = some x →
    ((x.begun = false ∨ x.fail ≠ 0) →
      let cause := if x.begun then x.fail else 1
      ∃ u w, exec (.streamDescriptorEnd d t q) s = .next u ∧ (getStream u e q).halted = some (sdTctx x.bytes) ∧
        u = raise { die := d, code := 0x0201, ctx := some (getTctx s e (sdTctx x.bytes)).ctx, p0 := e,
                    p1 := q.val + sdTctx x.bytes * 16 + cause * 256, p2 := x.seq } w) ∧
    (x.begun = true → x.fail = 0 → (isGrid q x.bytes = false ∨ x.moved = [0]) →
      ∃ u, exec (.streamDescriptorEnd d t q) s = .next u ∧ (getStream u e q).q = (getStream s e q).q.erase x ∧
        u.mem = s.mem ∧ u.regs = s.regs ∧ u.out = s.out ∧
        (sdComplete x.bytes = true → x.replay = false → s.isMemory (sdCq x.bytes) →
          u.bytesAt (agStream e q) (sdCq x.bytes) 16 = streamRecord q 0 0 x.seq x.bytes s.clk.count)) ∧
    (∀ g, let s0 := modTile e (fun t => { t with gridOut := t.gridOut.erase g }) s
      x.begun = true → x.fail = 0 → isGrid q x.bytes = true → x.moved ≠ [0] → gridDue s e q x = some g →
      ∃ v, exec (.streamDescriptorEnd d t q) s = .next (tellAll v) ∧
        (sdTotal x.bytes ≠ g.cells.length → (getStream v e q).halted = some (sdTctx x.bytes)) ∧
        (sdTotal x.bytes = g.cells.length → sdCodec x.bytes ≠ 0 ∨ (planFills s0 x (cutParts s0 (gridData x g))).2 = [] →
          (getTile v e).gridOut = (getTile s e).gridOut.erase g))) ∧
  (∀ (d : Die) (t : TileId) (q : Strm) (s : State) (w : Nat × Nat × Nat),
    let e := strE d t
    let st := getStream s e q
    s.live = true → st.stalled = false → st.blocked = some w → blockedOf s e q = some w → reg s (aTil d t 8) ≤ st.waited →
    let ctx := (st.q.find? fun x => x.seq = w.2.1 && sdOp x.bytes ≠ 0).map fun x => sdCtx s e x.bytes
    ∃ u, exec (.streamStall d t q) s = .next u ∧ getStream u e q = { st with stalled := true } ∧ u.mem = s.mem ∧ u.scr = s.scr ∧
      u = raise { die := d, code := 0x0202, ctx, p0 := e, p1 := q, p2 := w.2.1, p3 := w.2.2 }
        (modStream e q (fun st => { st with stalled := true }) s))

/-! ## Row engines -/

/-- A row of an opcode: the descriptor at the head of the queue carries it and begins. HEAD moves on; a malformed descriptor
becomes the running one with its cause, and claims nothing; any other runs past its gate at once where it has none, and waits
for its gate where a slot of that blocks. -/
def Obligations.RowDescriptorsBegin : Prop :=
  ∀ (c : Instr) (op : Nat) (d : Die) (j : RowId) (s : State),
    let r := d.val * 8 + j.val
    let b := rowNext s r
    let read := (readGa (agRow r) (some (rowCtx s r)) (rowAddr s r) 64 s).1
    rowRow c = some (op, d, j) → s.live = true → rowReady s r = true → rowNextBad s r = false → rdOp b = op →
    s.cleanGa (rowAddr s r) 64 = true →
    ∃ u, exec c s = .next u ∧
      (rowMalformed s d b = true →
        rowHead u r = (rowHead s r + 1) % 2 ^ rowLog s r ∧ u.mem = s.mem ∧ u.scr = s.scr ∧ u.tiles = s.tiles ∧
        (getRow u r).run = some { desc := b, index := (getRow s r).executed, qix := rowHead s r, cause := 1 } ∧
        (getRow u r).executed = (getRow s r).executed + 1) ∧
      (rowMalformed s d b = false → u = passGate r (takeRow r b 0 read) ∧
        (rdGate b = 0 → (∀ q ∈ (getRow s r).recs, q.spill = none) →
          ∃ y, (getRow u r).run = some y ∧ y.desc = b ∧ y.index = (getRow s r).executed ∧ y.qix = rowHead s r ∧ y.gated = true) ∧
        (rdGate b ≠ 0 →
          (rowBarred (takeRow r b 0 read) r { desc := b, index := (getRow s r).executed, qix := rowHead s r }).isSome = true →
          (getRow u r).run = some { desc := b, index := (getRow s r).executed, qix := rowHead s r, blockedAt := some (cycleOf s) } ∧
          u.mem = s.mem ∧ u.scr = s.scr ∧ u.tiles = s.tiles))

/-- A blocked row whose slots can be claimed is claimed whole, and a blocked gate is passed. A row that ends is computed and
written, and makes the next row the one to claim. A descriptor that is done, or has a cause, leaves the engine, and where it
asks for it its completion record is written; a cause halts the queue and is kept, its record is written and ROW_FAULT names
the die, the engine, the queue index and the cause. A claim blocked for as long as the limit is reported once: ROW_STALL
names the die, the engine, the queue index, the tile and the slot. ROW_CTRL.RESUME and the spill registers at the end of
their window: RESUME lets a halted queue go on; the base, a multiple of 64 KiB, takes effect where no descriptor runs and
nothing is spilled, and the size only where every spilled record still fits. -/
def Obligations.RowEnginesRun : Prop :=
  ((∀ (d : Die) (j : RowId) (s : State) (x : RowRun),
      let r := d.val * 8 + j.val
      s.live = true → rowCanClaim s r = true → (getRow s r).run = some x →
      ∃ u, exec (.rowClaim d j) s = .next u ∧
        (x.gated = false → rdOp x.desc < 0x42 ∨ 0x45 < rdOp x.desc → ∃ y, (getRow u r).run = some y ∧ y.gated = true ∧ y.desc = x.desc) ∧
        (x.gated = true → u.mem = s.mem ∧ u.scr = s.scr ∧ u.regs = s.regs ∧ u.out = s.out ∧
          (getRow u r).run = some { x with claims := x.claims ++ rowWants s r x, open_ := true, blockedAt := none, stalled := false })) ∧
    (∀ (d : Die) (j : RowId) (s : State) (x : RowRun),
      let r := d.val * 8 + j.val
      s.live = true → (getRow s r).run = some x → x.open_ = true → x.cause = 0 →
      ∃ u y, exec (.rowSlotEnd d j) s = .next u ∧ (getRow u r).run = some y ∧ y.row = x.row + 1 ∧ y.desc = x.desc ∧
        y.stats.length = x.stats.length + 1 ∧ (getRow u r).recs = (getRow s r).recs ∧ u.mem = s.mem ∧
        u.scr = (computeRow r x s).1.scr) ∧
    (∀ (d : Die) (j : RowId) (s : State) (x : RowRun),
      let r := d.val * 8 + j.val
      s.live = true → (getRow s r).run = some x → rowDone x = true →
      ∃ u, exec (.rowDescriptorEnd d j) s = .next u ∧ (getRow u r).run = none ∧ (getRow u r).cause = x.cause ∧
        ((getRow u r).halted = true ↔ x.cause ≠ 0) ∧ u.mem = s.mem ∧
        (x.cause = 0 → (rdOp x.desc = 0x42 ∨ rdOp x.desc = 0x44) → rdKeep x.desc = true →
          (getRow u r).recs = (getRow s r).recs ++ [keptRec s r x]) ∧
        (let ga := reg64 s (aRow d j 0x28) / 16 * 16 + 16 * x.qix
         x.cause = 0 → rdComplete x.desc = true → s.isMemory ga →
          u.bytesAt (agRow r) ga 16 = wordsLE [x.flags * 2 ^ 16, x.index, wordAt x.desc 0x3C, s.clk.count]) ∧
        (x.cause ≠ 0 → u = raise { die := d, code := 0x0203, ctx := some (rowCtx s r), p0 := d, p1 := j, p2 := x.qix, p3 := x.cause }
          (putRowRecord r x (if x.cause = 1 then 1 else 8) x.cause (hwSetF (aRow d j 8) 0 x.flags
            (setRow r { (getRow s r) with run := none, halted := true, cause := x.cause } (undoRow x s)))))) ∧
    (∀ (d : Die) (j : RowId) (s : State),
      let r := d.val * 8 + j.val
      s.live = true → (getRow s r).run = none → rowReady s r = true → rowOpDefined (rowNext s r) = false →
      s.cleanGa (rowAddr s r) 64 = true →
      ∃ u, exec (.rowDescriptorEnd d j) s = .next u ∧ (getRow u r).run = none ∧ (getRow u r).halted = true ∧ (getRow u r).cause = 1) ∧
    (∀ (d : Die) (j : RowId) (s : State) (x : RowRun) (b : Nat × Claim),
      let r := d.val * 8 + j.val
      s.live = true → (getRow s r).run = some x → rowStallDue s r = true → rowBlocker s r x = some b →
      ∃ u, exec (.rowStall d j) s = .next u ∧ (getRow u r).run = some { x with stalled := true } ∧ u.mem = s.mem ∧ u.scr = s.scr ∧
        u.tiles = s.tiles ∧
        u = raise { die := d, code := 0x0204, ctx := some (rowCtx s r), p0 := d, p1 := j, p2 := x.qix,
                    p3 := b.1 % 40 * 2 ^ 16 + b.2.slot } (modRun r (fun x => { x with stalled := true }) s))) ∧
  (∀ (d : Die) (j : RowId) (s : State) (v : Nat),
      let r := d.val * 8 + j.val
      (∀ (m : Master) (a i : Nat) (w : Word), a / 0x4000000 = d →
        (s.lastKind .rowCtrl m a w i j → exec .arbitrationWindowEnd s = .next (drainHost (effRowCtrl d j w.toNat (s.taken a w.toNat)))) ∧
        (s.lastKind .rowSpillSize m a w i j →
          exec .arbitrationWindowEnd s = .next (drainHost (effRowSpillSize d j w.toNat (s.taken a w.toNat))))) ∧
      (bitsOf v 0 0 = 1 → (getRow (effRowCtrl d j v s) r).halted = false ∧ (getRow (effRowCtrl d j v s) r).recs = (getRow s r).recs) ∧
      (v < 2 ^ 64 → (getRow s r).run = none → (getRow s r).recs.any (·.spill.isSome) = false →
        reg64 (effRowSpillBase d j v s) (aRow d j 0x30) = v / 65536 * 65536) ∧
      ((getRow s r).run ≠ none → effRowSpillBase d j v s = s ∧ effRowSpillSize d j v s = s) ∧
      ((getRow s r).run = none → (getRow s r).recs = [] → reg (effRowSpillSize d j v s) (aRow d j 0x38) = v % 65536))

/-! ## The weight carousel -/

/-- A FWD or BWD whose range, direction and binding are sound begins as the youngest circuit of its ring, with the version and
the generation of its binding; HEAD moves on and the ring is RUNNING. -/
def Obligations.CircuitsBegin : Prop :=
  ∀ (c : Instr) (op : Nat) (x : Ctx) (s s2 : State) (ents : SMap (List Byte)) (bd : BindS),
    let b := s.carDesc x
    ((c = .fwd x ∧ op = 0x30) ∨ (c = .bwd x ∧ op = 0x31)) → s.carReady x op → circuitMay s x = true →
    circuitEntries x b (s.carTaken x) = (s2, some ents) → circuitOk s2 x b ents = true → bindOf s x (cdMb b) = some bd →
    ∃ u k, exec c s = .next u ∧ (ringOf u x).live = (ringOf s x).live ++ [k] ∧ k.no = (ringOf s x).circuits ∧ k.desc = b ∧
      k.version = bd.version ∧ k.gen = bd.gen ∧ k.ents = ents ∧ (ringOf u x).circuits = (ringOf s x).circuits + 1 ∧ (ringOf u x).st = 3 ∧
      carHead u x = (carHead s2 x + 1) % 2 ^ carLog s2 x ∧ u.mem = s.mem ∧ u.scr = s.scr ∧ u.tiles = s.tiles

/-- BIND stores the version and the generation of its micro-batch, or faults the queue where the context has no model or the
version or the generation is not to be bound. With no circuit in progress an OPEN acts at once: it is granted an empty slot, or
that of V_LO where no micro-batch of V_LO is incomplete, else it waits; one that is out of turn faults the queue. A waiting OPEN
is granted once no micro-batch of the old version is incomplete. A COMMIT makes the version of its OPEN the current one, and
faults the queue where that is not open. MARK only moves HEAD on and passes its gate; a reserved opcode faults the queue. -/
def Obligations.BindingsAndVersions : Prop :=
  (∀ (x : Ctx) (s : State),
    let b := s.carDesc x
    s.carReady x 0x33 → bindFree s x (cdMb b) = true →
    ∃ u, exec (.bind x) s = .next u ∧
      (if (getLoad s x).kind = 0 || !versionOk s x (cdVersion b) || !genResident s x (cdGen b) then (ringOf u x).qfault = true
       else mapLookup (ringOf u x).binds (cdMb b % 64) = some (some { mb := cdMb b, version := cdVersion b, gen := cdGen b }))) ∧
  (∀ (x : Ctx) (s : State),
    let b := s.carDesc x
    let l := getLoad s x
    let k := openSlot s x
    s.carReady x 0x34 → (ringOf s x).acts = [] → (ringOf s x).live = [] →
    ∃ u, exec (.openVersion x) s = .next u ∧
      (if l.kind ≠ 1 || cdVersion b ≠ (l.vhi + 1) % 2 ^ 16 || (ringOf s x).opened.isSome then (ringOf u x).qfault = true
       else if !stashTwo s x || (waitingMbs s x).isEmpty then
        slotVal u x k = cdVersion b ∧ slotValid u x k = false ∧ ∃ o, (ringOf u x).opened = some o ∧ o.version = cdVersion b ∧ o.granted = true
       else (ringOf u x).waits = (ringOf s x).waits + 1 ∧ ∃ o, (ringOf u x).opened = some o ∧ o.version = cdVersion b ∧ o.granted = false)) ∧
  (∀ (x : Ctx) (s v w : State) (p : OpenS),
    let b := s.carDesc x
    let o : OpenS := { version := cdVersion b, index := carHead (s.carTaken x) x, desc := b, after := (ringOf s x).circuits }
    s.carReady x 0x35 → (ringOf s x).acts = [] → (ringOf s x).live = [] → (ringOf s x).opened = some p → p.granted = true →
    p.version = cdVersion b →
    v = modRing x (fun r => { r with acts := [] }) (carAdvance x (modRing x (fun r => { r with acts := [o] }) (s.carTaken x))) →
    commitLanes x (openSlot v x) v = (w, true) →
    ∃ u, exec (.commit x) s = .next u ∧ (ringOf u x).opened = none ∧ (getLoad u x).vhi = cdVersion b ∧ (getLoad u x).vlo = (getLoad s x).vhi ∧
      slotVal u x (openSlot v x) = cdVersion b ∧ slotValid u x (openSlot v x) = true) ∧
  (∀ (x : Ctx) (s : State),
    s.carReady x 0x35 → (ringOf s x).acts = [] → (ringOf s x).live = [] → (ringOf s x).opened = none →
    ∃ u, exec (.commit x) s = .next u ∧ (ringOf u x).qfault = true) ∧
  (∀ (x : Ctx) (s : State) (o : OpenS),
    s.live = true → (ringOf s x).opened = some o → o.granted = false → waitingMbs s x = [] → (ringOf s x).acts = [] →
    ∃ u, exec (.openGrant x) s = .next u ∧ (ringOf u x).opened = some { o with granted := true } ∧
      slotVal u x (openSlot s x) = o.version % 2 ^ 16 ∧ slotValid u x (openSlot s x) = false) ∧
  (∀ (x : Ctx) (s : State) (op : Nat),
    let b := s.carDesc x
    s.carReady x op → op ∉ [0x30, 0x31, 0x33, 0x34, 0x35] → cdOp b = op →
    ∃ u, exec (.carouselMark x) s = .next u ∧
      (op ≠ 0x36 → (ringOf u x).qfault = true) ∧
      (op = 0x36 → cdGate b = false → u = carAdvance x (s.carTaken x)))

/-- A stone of this package is emitted: a GRAD stone, or a weight stone whose fragment agrees, goes to the successor and is kept
until it is DELIVERED. A sound stone of another origin is held; one of this package's own comes home. A stone is placed as
far as its slots can be filled; a used stone goes on; contributions are added as far as they are FULL; a gradient that is
home and complete is written. A stone that has waited for as long as the limit is reported once: CAR_STALL names the die,
the reason, the origin, the tensor and SEQ. FILLs of a placement stop at the first slot that cannot be filled at this edge;
the slots before it are FULL with their bytes, and no other tag changes. -/
def Obligations.StonesMoveAndArePlaced : Prop :=
  ((∀ (d : Die) (x : Ctx) (s : State) (c : Circuit) (g : Nat × List Byte × Nat),
      let h := gradHeader g.2.1 g.2.2
      s.live = true → emitDue s d x = some c → c.grads.find? (·.1 = d.val) = some g → ringN s x ≠ 1 →
      ∃ v, exec (.stoneEmit d x) s = .next (runGates x (endCircuits x (sendStone d x h [] v))) ∧
        stonesOf v d = stonesOf s d ++ [{ ctx := x, header := h, payload := [], st := 2, own := true }] ∧
        (∀ k ∈ (ringOf v x).live, k.no = c.no → (d.val, h) ∈ k.out) ∧ v.regs = s.regs ∧ v.mem = s.mem ∧ v.scr = s.scr ∧ v.tiles = s.tiles) ∧
    (∀ (d : Die) (x : Ctx) (s : State) (c : Circuit) (k : Nat) (e : List Byte),
      let ga := teBase e k + frameSize * mapGet 0 c.next d
      let fh := s.bytesAt (agCar d) ga 64
      let n := payloadBytes (shFmt fh) (shBlocks fh)
      let p := s.bytesAt (agCar d) (ga + 256) n
      let h := emitHeader s x c fh
      s.live = true → emitDue s d x = some c → c.grads.find? (·.1 = d.val) = none → slotFor s x c.version c.gen = some k →
      mapLookup c.ents d = some e → s.cleanGa ga 64 = true → s.cleanGa (ga + 256) n = true → (sha256 p).take 8 = shFrag fh → ringN s x ≠ 1 →
      ∃ v, exec (.stoneEmit d x) s = .next (runGates x (endCircuits x (sendStone d x h p v))) ∧
        stonesOf v d = stonesOf s d ++ [{ ctx := x, header := h, payload := [], st := 2, own := true }] ∧
        (∀ y ∈ (ringOf v x).live, y.no = c.no → (d.val, h) ∈ y.out ∧ mapGet 0 y.next d = mapGet 0 c.next d + 1) ∧
        v.regs = s.regs ∧ v.mem = s.mem ∧ v.scr = s.scr ∧ v.tiles = s.tiles) ∧
    (∀ (d : Die) (s : State) (i : InMsg) (x : Nat),
      let h := i.msg.bytes.take 64
      let payload := i.msg.bytes.drop 64
      let s1 := bump64 (aCar d 0x10) (takeMsg d i s)
      let m := s1.bytesAt (agCar d) (pmapAt s1 d x (shTensor h)) 16
      s.live = true → nextStone s d = some i → ringOfJob s1 (shJob h) [1, 2, 3, 4, 5] = some x → (ringOf s1 x).st ≠ 5 →
      (shOrigin h ≠ pkgId s1 → headerBad s1 d x h payload = none → s1.cleanGa (pmapAt s1 d x (shTensor h)) 16 = true →
        shBlock0 h + shBlocks h ≤ wordAt m 8 → bindBad s1 x h = none → (shKind h ≠ 3 → (sha256 payload).take 8 = shFrag h) →
        ∃ v, exec (.stone d) s = .next (settleStones d v) ∧
          stonesOf v d = stonesOf s d ++ [{ ctx := x, header := h, payload := payload }] ∧
          v.mem = s.mem ∧ v.scr = s.scr ∧ v.tiles = s.tiles ∧ v.rings = s.rings) ∧
      (∀ c o, shOrigin h = pkgId s1 → shKind h ≠ 3 → (ringOf s1 x).live.find? (fun c => c.no = shCircuit h) = some c →
        c.out.find? (fun o => o.1 = d.val && sameHeader o.2 h) = some o →
        ∃ v, exec (.stone d) s = .next (settleStones d (endCircuits x v)) ∧
          (ringOf v x).live = (ringOf s x).live.map (fun k => if k.no = c.no then { k with out := k.out.erase o } else k) ∧
          v.mem = s.mem ∧ v.scr = s.scr ∧ v.tiles = s.tiles)) ∧
    (∀ (d : Die) (b : Nat) (s : State) (x : Stone),
      let recs := s.stoneRecords d x
      let read := s.recordsTaken d x
      let ps := placement d x recs
      let n := shBlocks x.header
      s.live = true → stoneAt s d b = some x → s.recordsClean d x = true →
      (canPlace s d b = true → bindBad s x.ctx x.header = none → placementOk s x recs ps = true →
        let f := fillSlots (ps.drop x.done) read
        ∃ u y, exec (.stonePlace d b) s = .next u ∧ stoneAt u d b = some y ∧ y.done = x.done + f.2 ∧ (y.st = 1 ↔ y.done = ps.length) ∧
          u.tiles = f.1.tiles ∧ u.scr = f.1.scr ∧ u.mem = s.mem ∧ u.regs = s.regs) ∧
      (canAdd s d b = true → bindBad s x.ctx x.header = none → contribOk s d n recs = true →
        let f := addContribs d recs (n + 1) x read
        ∃ u y, exec (.gradAdd d b) s = .next u ∧ stoneAt u d b = some y ∧ y.done = f.2.done ∧ y.payload = f.2.payload ∧
          (f.2.done = shBlocks f.2.header → y.st = 1) ∧ u.tiles = f.1.tiles ∧ u.scr = s.scr ∧ u.mem = s.mem ∧ u.regs = s.regs) ∧
      (canApply s d b = true → contribOk s d n recs = true →
        let f := addContribs d recs (n + 1) x read
        (f.2.done < n → ∃ u, exec (.gradientApply d b) s = .next u ∧ stoneAt u d b = some f.2 ∧ u.tiles = f.1.tiles ∧ u.scr = s.scr ∧ u.mem = s.mem) ∧
        (∀ w t, n ≤ f.2.done → readTable (agCar d) d x.ctx f.1 = (w, some t) →
          (∀ c, (ringOf w x.ctx).live.find? (fun c => c.no = shCircuit x.header) = some c → cdAcc c.desc = false) →
          ∃ v, exec (.gradientApply d b) s = .next (settleStones d (endCircuits x.ctx v)) ∧ stonesOf v d = (stonesOf s d).eraseIdx b ∧
            v.tiles = f.1.tiles ∧ v.scr = s.scr ∧ v.mem = s.mem ∧
            (∀ d' h, n = 1 → gradAddr t w d x.ctx (shTensor x.header) (shBlock0 x.header) = some (d', h) →
              let g := (if f.2.payload.isEmpty then List.replicate 65536 0 else f.2.payload).take 65536
              hbmPeek (agCar d) d' h g.length v = g)))) ∧
    (∀ (d : Die) (b : Nat) (s : State) (x : Stone), s.live = true → stoneAt s d b = some x →
      (canForward s d b = true →
        let home := shKind x.header ≠ 3 && ringNextPkg s x.ctx (shDir x.header) = shOrigin x.header
        let h := if home then nopayHeader x.header else x.header
        ∃ v, exec (.stoneForward d b) s = .next (settleStones d (drainCheck x.ctx (runGates x.ctx
            (sendStone d x.ctx h (if home then [] else x.payload) v)))) ∧
          stoneAt v d b = some { x with st := 2, header := h } ∧
          v.regs = s.regs ∧ v.mem = s.mem ∧ v.scr = s.scr ∧ v.tiles = s.tiles) ∧
      (stallDue s d b = true → ∃ u, exec (.carStall d b) s = .next u ∧ stoneAt u d b = some { x with stallSaid := true } ∧
        u.mem = s.mem ∧ u.scr = s.scr ∧ u.tiles = s.tiles ∧
        u = raise { die := d, code := 0x0302, ctx := some x.ctx, p0 := d * 2 ^ 16 + (x.wait.map (·.1)).getD 0, p1 := shOrigin x.header,
                    p2 := shTensor x.header, p3 := shSeq x.header } (putStone d b { x with stallSaid := true } s)))) ∧
  (∀ (ps : List PlaceSlot) (s u : State) (n : Nat), fillSlots ps s = (u, n) →
      n ≤ ps.length ∧ (∀ p, ps[n]? = some p → carMay u p.e p.slot .fill = false) ∧
      (∀ p ∈ ps.take n, (getTag u p.e p.slot).st = 2) ∧
      ((∀ p ∈ ps, p.bytes.length = 256 ∧ p.slot < 12288) → ∀ p ∈ ps.take n, readScr p.e (p.slot * 256) 256 u = p.bytes) ∧
      (∀ e q, (∀ p ∈ ps.take n, ¬(p.e = e ∧ p.slot = q)) → getTag u e q = getTag s e q) ∧
      u.mem = s.mem ∧ u.regs = s.regs ∧ u.out = s.out)

/-- READY completes a member's formation; an abort or the timer makes the member IDLE; a token of FORM that agrees with the
member's record goes on round the ring, or comes home, where READY follows it; one that does not agree is answered with ABORT. -/
def Obligations.RingsFormOrAbort : Prop :=
  (∀ (d : Die) (s : State) (i : InMsg) (l : List InMsg) (x : Nat), s.live = true → ctlMsgs s d 0x11 = i :: l →
    ringOfJob (takeMsg d i s) (ctlJob i.msg) [1] = some x →
    ∃ u, exec (.formReady d) s = .next u ∧ u.mem = s.mem ∧ u.tiles = s.tiles ∧
      (if ctlValid i.msg && [ctlArg i.msg 1, ctlArg i.msg 2] = ringDigestWords s x then (ringOf u x).st = 2 else (ringOf u x) = ringOf s x)) ∧
  (∀ (d : Die) (s : State) (i : InMsg) (l : List InMsg) (x : Nat), s.live = true → ctlMsgs s d 0x12 = i :: l → ctlValid i.msg = true →
    abortedFor (takeMsg d i s) (ctlJob i.msg) = some x →
    ∃ u, exec (.formAbort d) s = .next u ∧ u.mem = s.mem ∧ u.tiles = s.tiles ∧ (ringOf u x).st = 0) ∧
  (∀ (x : Ctx) (s : State), s.live = true → (ringOf s x).st = 1 → (ringOf s x).formAt + formTicks (ringOf s x).rcd ≤ s.now →
    ∃ u, exec (.formTimeout x) s = .next u ∧ (ringOf u x).st = 0 ∧ u.mem = s.mem ∧ u.tiles = s.tiles) ∧
  (∀ (d : Die) (s : State) (i : InMsg) (x : Nat),
    let v := takeMsg d i s
    let r := ringOf s x
    let count := bitsOf (ctlArg i.msg 0) 15 8
    s.live = true → (ctlMsgs s d 0x10).find? (fun i => formMay s i.msg) = some i → ctlValid i.msg = true →
    formingFor s i.msg = some x →
    if ctlJob i.msg = rcdJob r.rcd ∧ bitsOf (ctlArg i.msg 0) 7 0 = rcdN r.rcd ∧ [ctlArg i.msg 1, ctlArg i.msg 2] = ringDigestWords s x then
      let w := modRing x (fun r => { r with heard := true }) v
      exec (.form d) s = .next (if ringPos s x = 0 then (if count = rcdN r.rcd then sendToken x 0x11 0 w else w)
        else sendToken x 0x10 (rcdN r.rcd + (count + 1) % 256 * 2 ^ 8) w)
    else ∃ w, exec (.form d) s = .next (passAbort x i.msg 1 w) ∧ (ringOf w x).st = r.st ∧ w.mem = s.mem ∧ w.tiles = s.tiles)

/-! ## HBM -/

/-- An agent reads what it has written at once; every other agent reads what it read before, until the write is accepted. A
controller whose slot's turn has come to a unit carries it. A whole write unit is stored as it is, and its errors are gone;
a part is merged with the unit as it stands where that has no error; where it is uncorrectable and the writer is the host,
nothing is written. A read unit leaves its queue and writes nothing. The rotation goes on from the unit's agent. What waited
for the unit goes on. -/
def Obligations.WritesAreSeenInOrder : Prop :=
  (∀ (a : Agent) (d h : Nat) (b : List Byte) (s : State),
      hbmPeek a d h b.length (hbmWrite a d h b s) = b ∧
      (∀ a' d' h' n, a' ≠ a → hbmPeek a' d' h' n (hbmWrite a d h b s) = hbmPeek a' d' h' n s) ∧ (hbmWrite a d h b s).mem = s.mem) ∧
  ((∀ (d : Die) (c : Ctrl) (s : State) (n cls taken : Nat) (y : Waiting) (w : WUnit),
      s.live = true → s.pwr.state = 0 → nextAccept s d c = some (n, cls, taken, y) → y.read = false →
      s.hbm.wq.find? (fun w => w.agent = y.agent && w.wid = y.id && w.die = y.die && w.unit = y.unit) = some w →
      ∃ v, exec (.writeAccept d c) s = .next (settleCopies (drainHost (answerRacks v))) ∧
        (w.bytes.length = 64 → v.mem = memWrite s.mem (hbmCell w.die (64 * w.unit)) w.bytes ∧ unitErrs v w.die w.unit = [] ∧
          v.hbm.wq = s.hbm.wq.erase w ∧ v.hbm.rq = s.hbm.rq ∧ v.scr = s.scr ∧ v.tiles = s.tiles) ∧
        (w.bytes.length ≠ 64 → unitErrs s w.die w.unit = [] →
          let b := memRead s.mem (hbmCell w.die (64 * w.unit)) 64
          v.mem = memWrite s.mem (hbmCell w.die (64 * w.unit)) (b.take w.off ++ w.bytes ++ b.drop (w.off + w.bytes.length)) ∧
          v.hbm.wq = s.hbm.wq.erase w ∧ v.scr = s.scr ∧ v.tiles = s.tiles) ∧
        (w.bytes.length ≠ 64 → w.agent = .host → unitBad s w.die w.unit = true → v.mem = s.mem)) ∧
    (∀ (d : Die) (c : Ctrl) (s : State) (n cls taken : Nat) (y : Waiting),
      s.live = true → s.pwr.state = 0 → nextAccept s d c = some (n, cls, taken, y) → y.read = true →
      ∃ v, exec (.writeAccept d c) s = .next (settleCopies (drainHost (answerRacks v))) ∧
        v.hbm.rq = s.hbm.rq.erase { agent := y.agent, rid := y.id, die := y.die, unit := y.unit } ∧ v.hbm.wq = s.hbm.wq ∧
        mapGet 0 v.hbm.rot (3 * slotKey d c + cls) = agentNo y.agent ∧
        mapGet (0, 0, 0) v.hbm.slot (slotKey d c) = (n + 1, cls, taken + 1) ∧ v.mem = s.mem ∧ v.scr = s.scr ∧ v.tiles = s.tiles))

/-- One symbol error in the data or the check symbols of a unit is corrected, whatever its value; a unit without error is
delivered as it is; an error in a symbol of the index is uncorrectable. A demand read of a unit whose slot has not come
waits as it is; any other is made and queued for its slot. Without an error it changes nothing else, and fills a line of a
core's cache; a corrected one is counted in HBM_CE_COUNT and queued for its rewrite; an uncorrectable one that its owner was
told of is counted in HBM_UE_INFO. The first uncorrectable one of a unit is recorded in HBM_UE_INFO with its unit and the
owner's step, HBM_UNCORRECTABLE is raised and the owning context's job is aborted; a stream's descriptor that read the unit
ends first. Where an uncorrectable unit waits to be written whole by its reader, that reader finds its own bytes. No read
writes a byte of HBM. A stack that crosses its threshold shows it in HOT; a maintenance window that opens is run once, and
rewrites the queued units of its pseudo-channel that can be corrected; for a background check of the die it reads up to 8 of
the pseudo-channel's units. (Where a full L2 cache makes room for a line, which one goes is free: log entry 118.) -/
def Obligations.HbmReadsCorrectAndMaintenance : Prop :=
  (decodeErrs [] = .delivered [] false ∧
    (∀ (i : Nat) (v : Byte), (i < 64 ∨ (68 ≤ i ∧ i < 71)) → v ≠ 0 → decodeErrs [(i, v)] = .delivered [] true) ∧
    (∀ (i : Nat) (v : Byte), 64 ≤ i → i < 68 → v ≠ 0 → decodeErrs [(i, v)] = .bad)) ∧
  ((∀ (a : Agent) (d : Die) (k : Ctrl) (unit : Nat) (s : State),
      let info := aHbm d k 0x10
      let own := ownerCtx s d (64 * unit) none
      let told := fun x => s.hbm.ueRaised.contains (unitKey d unit, x)
      s.live = true → s.pwr.state = 0 → unit < hbmUnits → ctrlOf (64 * unit) = k.val → readNext s a d unit = false →
      ∃ u, exec (.hbmRead a d k unit []) s = .next u ∧
        (readWaits s a d unit = true ∨ cacheHit s a d unit = true →
          u.hbm.rq = s.hbm.rq ∧ u.hbm.wq = s.hbm.wq ∧ u.regs = s.regs ∧ u.icu = s.icu ∧ u.mem = s.mem ∧ u.scr = s.scr ∧ u.tiles = s.tiles ∧
          u.out = s.out) ∧
        (readWaits s a d unit = false → cacheHit s a d unit = false →
          ((unitErrs s d unit = [] ∨ ownWhole a s d unit = true) →
            (∀ c, a = .core c → (s.icu.l2.filter fun l => l.2.core = c.val).length < l2Lines) →
            u.hbm.rq = s.hbm.rq ++ [{ agent := a, rid := s.hbm.nextWid, die := d, unit := unit }] ∧ u.hbm.wq = s.hbm.wq ∧
            (∀ c, a = .core c → lineOf u d unit = some { bytes := hbmPeek (.core c) d (64 * unit) 64 s, core := c.val }) ∧
            u.regs = s.regs ∧ u.mem = s.mem ∧ u.scr = s.scr ∧ u.tiles = s.tiles ∧ u.rows = s.rows ∧ u.out = s.out) ∧
          (∀ l, decodeErrs (unitErrs s d unit) = .delivered l true → ownWhole a s d unit = false → reg s (aHbm d k 0xC) = 0 →
            reg u (aHbm d k 8) = min 0xFFFFFFFF (reg s (aHbm d k 8) + 1) ∧
            ((mapGet [] s.hbm.cq (slotKey d k)).length < 16 → unit ∈ mapGet [] u.hbm.cq (slotKey d k)) ∧
            u.mem = s.mem ∧ u.scr = s.scr ∧ u.tiles = s.tiles ∧ u.rows = s.rows ∧ u.out = s.out) ∧
          (unitBad s d unit = true → a = .host → ownWhole a s d unit = false → own < 8 → told own = false → regF s info 31 31 = 0 →
            let w := hwPut info (2 ^ 31 + bit (captureBase s ≤ 64 * unit && 64 * unit < hbmTop) 30 + own * 2 ^ 27 + 5 * 2 ^ 24 + 1)
              (hwPut64 (aHbm d k 0x18) (64 * unit) (hwPut64 (aHbm d k 0x20) (stepOf s own) s))
            let n := stepOf s own
            let ue : Ev := { die := d, code := 0x0403, ctx := some own, p0 := d + (2 * d + k) * 2 ^ 8 + own * 2 ^ 16, p1 := unit, p2 := n, p3 := n / 2 ^ 32 }
            u = (postRead a d [unit] (abortJob own 5 (raise ue
              { w with hbm := { w.hbm with ueRaised := s.hbm.ueRaised ++ [(unitKey d unit, own)] } }))).1) ∧
          (∀ d' t q x, unitBad s d unit = true → a = .stream d' t q → ownWhole a s d unit = false →
            readerAt s (engine d' t) q d unit = some x →
            u = (postRead a d [unit] (markUe a (some (sdCtx s (engine d' t) x.bytes)) d unit
              (modStream (engine d' t) q (fun st => { st with q := st.q.map fun y => if y = x then { y with fail := 3 } else y }) s))).1) ∧
          (unitBad s d unit = true → a = .host → ownWhole a s d unit = false → told own = true → (ueContexts s own).all told = true →
            regF s info 31 31 = 1 →
            reg u info = setBits (reg s info) 15 0 (min 0xFFFF (regF s info 15 0 + 1)) ∧
            (∀ b, canon b ≠ canon info → regW u b = regW s b) ∧ u.mem = s.mem ∧ u.scr = s.scr ∧ u.tiles = s.tiles ∧ u.out = s.out))) ∧
    (∀ (d : Die) (c : Ctrl) (hot : Bool) (s : State),
      s.live = true → awakeHbm s = true → regF s (aHbm d c 0) 1 1 ≠ bit hot 0 →
      ∃ u, exec (.stackHot d c hot) s = .next u ∧ regF u (aHbm d c 0) 1 1 = bit hot 0 ∧ u.mem = s.mem ∧ u.scr = s.scr ∧ u.tiles = s.tiles) ∧
    (∀ (d : Die) (c : Ctrl) (pc : Fin 64) (s : State) (o : Nat),
      s.live = true → awakeHbm s = true → windowDue s d c pc = some o → checkOf s d = none →
      ∃ u, exec (.maintenanceWindow d c pc) s = .next u ∧ mapGet 0 u.hbm.windows (pcKey d c pc) = o + 1 ∧
        (∀ q ∈ mapGet [] s.hbm.cq (slotKey d c), ctrlOf (64 * q) = c → pchanOf (64 * q) = pc → unitBad s d q = false → unitErrs u d q = []) ∧
        u.scr = s.scr ∧ u.tiles = s.tiles) ∧
    (∀ (d : Die) (c : Ctrl) (pc : Fin 64) (s : State) (o : Nat) (k : CheckS),
      let due := ((passUnits s d k).filter fun y => ctrlOf (64 * y.2) = c.val && pchanOf (64 * y.2) = pc.val && !k.read.contains y.2).take 8
      s.live = true → awakeHbm s = true → windowDue s d c pc = some o → checkOf s d = some k → mapGet [] s.hbm.cq (slotKey d c) = [] →
      scrubMarked s (o / 4096) = false → (∀ y ∈ passUnits s d k, unitErrs s d y.2 = []) →
      ∃ u k', exec (.maintenanceWindow d c pc) s = .next u ∧ checkOf u d = some k' ∧ k'.read = (due.map (·.2)).reverse ++ k.read ∧
        k'.bad = k.bad ∧ k'.cover = k.cover ∧ u.mem = s.mem ∧ u.scr = s.scr ∧ u.tiles = s.tiles ∧ u.hbm.rq = s.hbm.rq))

/-- A core's load finds the line that is in the caches, and reads HBM where none is; its store stays in the line, where HBM and
every other agent keep what they read before, until the line is cleaned. An invalidated line is read from HBM again. A line that
one core has filled is found by every core. In user mode a core reaches neither a scratchpad nor the set-up space nor the boot
ROM: its access is a synchronous abort. (What a core's program asks for is free: log entry 118.) -/
def Obligations.CachesHoldLinesUntilCleaned : Prop :=
  (∀ (c : Core) (pa d h : Nat) (s : State), corePlace s pa = .hbm d h →
    (∀ l n, lineOf s d (h / 64) = some l → ∀ c', coreLoad c' pa n s = (s, some ((l.bytes.drop (h % 64)).take n))) ∧
    (∀ n, lineOf s d (h / 64) = none → unitErrs s d (h / 64) = [] →
      ∃ u, coreLoad c pa n s = (u, some (((hbmPeek (.core c) d (64 * (h / 64)) 64 s).drop (h % 64)).take n)) ∧
        lineOf u d (h / 64) = some { bytes := hbmPeek (.core c) d (64 * (h / 64)) 64 s, core := c.val } ∧
        u.mem = s.mem ∧ u.scr = s.scr ∧ u.regs = s.regs) ∧
    (∀ b l, lineOf s d (h / 64) = some l → h % 64 + b.length ≤ 64 → l.bytes.length = 64 →
      ∃ u, coreStore c pa b s = (u, true) ∧ (∀ c', (coreLoad c' pa b.length u).2 = some b) ∧ u.mem = s.mem ∧
        (∀ a d' h' n, hbmPeek a d' h' n u = hbmPeek a d' h' n s) ∧
        hbmPeek (.core c) d h b.length (cleanLine c.val d (h / 64) u) = b ∧
        (∀ d' u', (d', u') ≠ (d, h / 64) → d' < 8 → u' < 2 ^ 32 → d < 8 → h / 64 < 2 ^ 32 → lineOf u d' u' = lineOf s d' u')) ∧
    lineOf (dropLine d (h / 64) s) d (h / 64) = none ∧ (dropLine d (h / 64) s).mem = s.mem) ∧
  (∀ (c : Core) (pa n : Nat) (b : List Byte) (s : State), (getCore s c).mode = .user → (∀ d h, corePlace s pa ≠ .hbm d h) →
    coreLoad c pa n s = (s, none) ∧ coreStore c pa b s = (s, false)) ∧
  (∀ (c : Core) (x : Config.CoreStep) (s : State),
    (x.act = .own →
      getCore (coreStep c x s) c = { (getCore s c) with
        pc := x.pc, mode := x.mode, mmu := x.mmu, handling := (getCore s c).handling && x.handling } ∧
      (coreStep c x s).mem = s.mem ∧ (coreStep c x s).regs = s.regs ∧ (coreStep c x s).out = s.out) ∧
    (x.act = .sleep → (getCore (coreStep c x s) c).asleep = true ∧ coreGoes (coreStep c x s) c = false) ∧
    (x.act = .barrier → coreBarrier c s = false → coreGoes (coreStep c x s) c = false))

/-! ## The fabric -/

/-- A frame in error, by its FEC or by its CRC, is counted, takes nothing in, and is answered by a NAK. A sound frame without
quarters returns its credits and acknowledges what it names; with NAK, what is not acknowledged goes again, and the 16th NAK in a
row takes the link DOWN. A sound frame in its turn is taken: a message that fills one quarter, next in its stream, is at its die.
One that was taken before is acknowledged again, one ahead of its turn is answered by one NAK, and neither takes anything in. -/
def Obligations.FramesAreTakenOrRefused : Prop :=
  (∀ (d : Die) (k : PortK) (h : Half) (b : List Byte) (fec : Option Nat) (s : State),
    let p := portNo d k h
    s.live = true → b.length = 1072 → ((getPort s p).st = 2 ∨ (getPort s p).st = 3) →
    (∀ n, fec = some n → wordAt b 0x42C ≠ crc32 (b.take 0x42C)) →
    ∃ u f, exec (.frame d k h b fec) s = .next u ∧ u.out = .frame d k h f :: s.out ∧ frNak f = true ∧ (getPort u p).naking = true ∧
      (getPort u p).rxSeq = (getPort s p).rxSeq ∧ (getPort u p).parts = (getPort s p).parts ∧
      reg u (aPort d k (if fec = none then 0x1C else 0x20)) = min 0xFFFFFFFF (reg s (aPort d k (if fec = none then 0x1C else 0x20)) + 1) ∧
      u.fab.inbox = s.fab.inbox ∧ u.mem = s.mem ∧ u.scr = s.scr ∧ u.tiles = s.tiles) ∧
  (∀ (d : Die) (k : PortK) (h : Half) (b : List Byte) (n : Nat) (s : State),
    let p := portNo d k h
    s.soundFrame p b → frIdle b = true → (getPort s p).queue = [] → (getPort s p).naks < 15 →
    ∃ u, exec (.frame d k h b (some n)) s = .next u ∧
      (∀ c < 5, mapGet 0 (getPort u p).used c = mapGet 0 (getPort s p).used c - creditsFor b c) ∧
      (∀ a, frAck b = some a → (getPort s p).replay.any (·.1 = a) = true →
        (getPort u p).replay = ((getPort s p).replay.dropWhile (·.1 ≠ a)).drop 1) ∧
      (frNak b = true → frAck b = none → (∀ f ∈ (getPort s p).replay, .frame d k h (asResend f.2) ∈ u.out) ∧
        reg u (aPort d k 0x24) = min 0xFFFFFFFF (reg s (aPort d k 0x24) + (getPort s p).replay.length)) ∧
      u.fab.inbox = s.fab.inbox ∧ u.mem = s.mem ∧ u.scr = s.scr ∧ u.tiles = s.tiles) ∧
  (∀ (d : Die) (k : PortK) (h : Half) (b : List Byte) (n : Nat) (s : State) (f : Nat × List Byte) (l : List (Nat × List Byte)),
    let p := portNo d k h
    s.soundFrame p b → frIdle b = true → frNak b = true → frAck b = none → (getPort s p).replay = f :: l →
    (getPort s p).naks = 15 → (getPort s p).nakSeq = f.1 →
    ∃ u, exec (.frame d k h b (some n)) s = .next u ∧ (getPort u p).st = 1 ∧ (getPort u p).failed = true) ∧
  (∀ (d : Die) (k : PortK) (h : Half) (b : List Byte) (n : Nat) (s : State),
    let p := portNo d k h
    let i := headMsg b p 0
    let m : Msg := { i.msg with bytes := b.take (64 * (bitsOf (frQuarter b 0) 1 0 + 1)) }
    let r := rxKey m.spkg m.sdie m.ddie m.cls
    s.soundFrame p b → frNak b = false → (getPort s p).naks < 16 → frFseq b = s.wantedFrame p →
    s.pwr.state = 0 → bitsOf (frQuarter b 0) 4 2 = 7 → (∀ q ∈ [1, 2, 3], bitsOf (frQuarter b q) 4 4 = 0) →
    regF s (aFab 0 0) 31 31 = 1 → m.dpkg = pkgId s → m.ty ≠ 0 → m.ty ≠ 7 → hasTaker m = true →
    (getRx s r).expect = m.msn → (getRx s r).held = [] →
    ∃ u, exec (.frame d k h b (some n)) s = .next u ∧ (getPort u p).rxSeq = some (frFseq b) ∧ (getPort u p).naking = false ∧
      inboxOf u m.ddie = inboxOf s m.ddie ++ [{ i with msg := m, quarters := 1 }] ∧ (getRx u r).expect = (m.msn + 1) % 256 ∧
      u.mem = s.mem ∧ u.scr = s.scr ∧ u.tiles = s.tiles) ∧
  (∀ (d : Die) (k : PortK) (h : Half) (b : List Byte) (n : Nat) (s : State),
    let p := portNo d k h
    let behind := (s.wantedFrame p + 65536 - frFseq b) % 65536
    s.soundFrame p b → frIdle b = false → frNak b = false → (getPort s p).naks < 16 → behind ≠ 0 →
    ∃ u, exec (.frame d k h b (some n)) s = .next u ∧ (getPort u p).rxSeq = (getPort s p).rxSeq ∧ u.fab.inbox = s.fab.inbox ∧
      (behind < 32768 → ∃ f, u.out = .frame d k h f :: s.out ∧ frNak f = false ∧ (frAck f).isSome = (getPort s p).rxSeq.isSome) ∧
      (32768 ≤ behind → (getPort u p).naking = true ∧
        if (getPort s p).naking then u.out = s.out else ∃ f, u.out = .frame d k h f :: s.out ∧ frNak f = true) ∧
      u.mem = s.mem ∧ u.scr = s.scr ∧ u.tiles = s.tiles)

/-- A DELIVERED message ends the waiting of every message of its stream up to the one it names; a stream that owes one sends it, with
the number of the last message that it has taken, and counts anew; a message undelivered for too long fails its path. -/
def Obligations.DeliveryIsConfirmed : Prop :=
  (∀ (d : Die) (s : State) (i : InMsg) (l : List InMsg) (t : TxMsg) (r : List TxMsg),
    let a := ctlArg i.msg 0
    let c := bitsOf a 9 8
    let k := txKey (bitsOf a 2 0) i.msg.spkg (bitsOf a 6 4) c
    let n := (bitsOf (ctlArg i.msg 1) 7 0 + 257 - t.msg.msn) % 256
    s.live = true → ctlMsgs s d 2 = i :: l → ctlValid i.msg = true → bitsOf a 16 16 = 0 → (c = 1 ∨ c = 2) →
    (getTx s k).undel = t :: r → (getTx s k).undel.any (·.again) = false → (getTx s k).wait = [] → n ≤ (getTx s k).undel.length →
    ∃ u, exec (.delivered d) s = .next u ∧ (getTx u k).undel = (t :: r).drop n ∧
      (getTx u k).backed = decide (bitsOf a 17 17 = 1) ∧ u.mem = s.mem) ∧
  (∀ (d : Die) (s : State), s.live = true → rxDue s d ≠ [] →
    ∃ u, exec (.deliveredInterval d) s = .next u ∧ (∀ k ∈ rxDue s d, (getRx u k).count = 0 ∧ (getRx u k).expect = (getRx s k).expect) ∧
      u.mem = s.mem ∧ u.scr = s.scr ∧ u.tiles = s.tiles ∧
      (∀ k ∈ rxDue s d,
        let a0 := k / 32 % 8 + d * 2 ^ 4 + k % 4 * 2 ^ 8 + bit (k % 4 = 1 && mcWaits s d (k / 256)) 17
        let m := ctlMsg d (k / 256) (k / 32 % 8) 2 0 [a0, ((getRx s k).expect + 255) % 256]
        (k % 4 ≠ 1 ∨ rxDue s d = [k]) → s.canSend m = true → u.sent m)) ∧
  (∀ (d : Die) (s : State) (p : Nat), s.live = true → e2eDue s d = some p →
    ∃ u, exec (.e2eTimeout d) s = .next u ∧ (getPort u p).failed = true ∧ u.mem = s.mem)

/-- A window: an OPEN that is refused sets its flag and opens nothing, any other makes it OPEN with the next generation; a CLOSE
of an OPEN window makes it CLOSING at once; a CLOSING window without admitted accesses closes. A remote access through a
window of its target die: a write to a window that is not OPEN, or of another generation, is counted and answered
WINDOW_CLOSED; an access that the window does not let in, or a read of one that is not OPEN, is answered TARGET_REFUSED;
none of them writes a byte. An admitted write to a scratchpad stores its bytes at the window's offset, fills its tagged
slots and is answered OK; one to HBM waits at the controllers as its agent's. An admitted read of a scratchpad is answered
with its bytes; one of HBM is answered once it has had its slots. -/
def Obligations.WindowsAdmitRemoteAccesses : Prop :=
  ((∀ (d : Die) (w : Byte) (s : State),
      let u := effWinOpen d w.toNat s
      (if openBad s d w.toNat then regF u (aFab d 0xC) 0 0 = 1 ∧ winState u d w.toNat = winState s d w.toNat
       else winState u d w.toNat = 1 ∧ winGen u d w.toNat = (winGen s d w.toNat + 1) % 2 ^ 16) ∧
      u.mem = s.mem ∧ u.scr = s.scr ∧ u.tiles = s.tiles ∧
      (∀ (m : Master) (a : Nat) (v : Word) (i j : Nat), s.lastKind .fabWinCmd m a v i j → a / 0x4000000 = d → v.toNat = 2 ^ 30 + w.toNat →
        exec .arbitrationWindowEnd s = .next (drainHost (effWinOpen d w.toNat (s.taken a v.toNat))))) ∧
    (∀ (m : Master) (d : Die) (w : Byte) (s : State), s.hears m = true → s.pwr.state = 0 → reaches m (aFab d 0x24) = true →
      ∃ u, exec (.windowClose m d w) s = .next u ∧
        winState u d w.toNat = (if winState s d w.toNat = 1 then 2 else winState s d w.toNat) ∧ winGen u d w.toNat = winGen s d w.toNat ∧
        u.setup = s.setup ∧ u.mem = s.mem ∧ u.scr = s.scr ∧ u.tiles = s.tiles ∧ u.out = s.out) ∧
    (∀ (d : Die) (w : Byte) (s : State), s.live = true → winState s d w.toNat = 2 → winBusy s d w.toNat = false →
      ∃ u, exec (.windowClosingEnd d w) s = .next u ∧ winState u d w.toNat = 0 ∧ winGen u d w.toNat = winGen s d w.toNat ∧
        u.mem = s.mem ∧ u.scr = s.scr ∧ u.tiles = s.tiles ∧ u.out = s.out)) ∧
  ((∀ (d : Die) (s : State) (i : InMsg),
      let m := i.msg
      let w := rmWin m
      let p := winPlace s d w (rmOff m)
      let data := (m.bytes.drop 64).take (rmLen m)
      let answer (status : Nat) : Msg := answerMsg d m 4 status []
      s.live = true → nextAccess s d 1 = some i → i.admitted = false → s.clk.replaying = false → s.clk.recording = false →
      isNeighbourMode s = false → gaPkg (rmAddr m) = pkgId s → gaDie (rmAddr m) = d → 0 < rmLen m → rmLen m ≤ 4096 →
      m.bytes.length = 64 + (rmLen m + 63) / 64 * 64 → s.canSend (answer 0) = true →
      (winState s d w ≠ 1 ∨ winGen s d w ≠ rmGen m →
        ∃ u, exec (.rwrite d) s = .next u ∧ u.sent (answer 4) ∧
          reg u (aFab d 0x1C) = min 0xFFFFFFFF (reg s (aFab d 0x1C) + 1) ∧ u.hbm = s.hbm ∧ u.mem = s.mem ∧ u.scr = s.scr ∧ u.tiles = s.tiles) ∧
      (winState s d w = 1 → winGen s d w = rmGen m → winAllows s d w true m = false →
        ∃ u, exec (.rwrite d) s = .next u ∧ u.sent (answer 6) ∧ reg u (aFab d 0x1C) = reg s (aFab d 0x1C) ∧
          u.hbm = s.hbm ∧ u.mem = s.mem ∧ u.scr = s.scr ∧ u.tiles = s.tiles) ∧
      (∀ d' t o, winState s d w = 1 → winGen s d w = rmGen m → winAllows s d w true m = true → p = .scr d' t o →
        wholeOk s p (rmLen m) = true → tagBlocked s p (rmLen m) .fill = false →
        ∃ u, exec (.rwrite d) s = .next u ∧ u.sent (answer 0) ∧ u.scr = memWrite s.scr (scrCell (engine d' t) o) data ∧
          (∀ sl ∈ slotsOf o (rmLen m), isTagged s (engine d' t) sl = true → (getTag u (engine d' t) sl).st = 2) ∧ u.hbm = s.hbm ∧ u.mem = s.mem) ∧
      (∀ d' h, winState s d w = 1 → winGen s d w = rmGen m → winAllows s d w true m = true → p = .hbm d' h →
        ∃ u, exec (.rwrite d) s = .next u ∧ u.mem = s.mem ∧ u.scr = s.scr ∧ u.tiles = s.tiles ∧
          u.fab.racks = s.fab.racks ++ [{ die := d, win := some w, wid := s.hbm.nextWid, msg := answer 0 }] ∧
          hbmPeek .remote d' h (rmLen m) u = data)) ∧
    (∀ (d : Die) (s : State) (i : InMsg),
      let m := i.msg
      let w := rmWin m
      let p := winPlace s d w (rmOff m)
      s.live = true → nextAccess s d 2 = some i → i.admitted = false → isNeighbourMode s = false →
      gaPkg (rmAddr m) = pkgId s → gaDie (rmAddr m) = d → 0 < rmLen m → rmLen m ≤ 4096 → s.canSend (answerMsg d m 3 6 []) = true →
      (winState s d w ≠ 1 ∨ winAllows s d w false m = false →
        ∃ u, exec (.rread d) s = .next u ∧ u.sent (answerMsg d m 3 6 []) ∧ u.hbm = s.hbm ∧ u.mem = s.mem ∧ u.scr = s.scr ∧ u.tiles = s.tiles) ∧
      (∀ d' t o, winState s d w = 1 → winAllows s d w false m = true → p = .scr d' t o → tagBlocked s p (rmLen m) .peek = false →
        ∃ u, exec (.rread d) s = .next u ∧ u.sent (answerMsg d m 3 0 (readScr (engine d' t) o (rmLen m) s)) ∧
          u.hbm = s.hbm ∧ u.mem = s.mem ∧ u.scr = s.scr ∧ u.tiles = s.tiles) ∧
      (∀ d' h, winState s d w = 1 → winAllows s d w false m = true → p = .hbm d' h →
        (∀ q ∈ unitsOf h (rmLen m), unitErrs s d' q = []) →
        ∃ u, exec (.rread d) s = .next u ∧ u.mem = s.mem ∧ u.scr = s.scr ∧ u.tiles = s.tiles ∧
          u.fab.racks = s.fab.racks ++
            [⟨d, some w, s.hbm.nextWid, answerMsg d m 3 0 (hbmPeek .remote d' h (rmLen m) s)⟩])))

/-- Answers to the package's own accesses: the last of a read, or one with a status, ends what waits for its tag, an earlier one
counts its bytes; read data of a COPY are at their place; an acknowledgement ends it, and a rejected COPY ends with its status. -/
def Obligations.AnswersEndWhatWaits : Prop :=
  (∀ (d : Die) (s : State) (i : InMsg) (p : Pend),
    let data := (i.msg.bytes.drop 64).take (rmLen i.msg)
    let got := p.got + data.length
    s.live = true → nextRData s d = some i → pendOf s (rmTag i.msg) = some p →
    ∃ u, exec (.rdata d) s = .next u ∧ u.mem = s.mem ∧
      pendOf u (rmTag i.msg) = (if rmStatus i.msg ≠ 0 ∨ p.len ≤ got then none else some { p with got := got }) ∧
      (∀ x c d' h, p.own = .copy x c → rmStatus i.msg = 0 → placeRun s (p.dst + p.got) data.length = .hbm d' h →
        hbmPeek (agFab x) d' h data.length u = data)) ∧
  (∀ (d : Die) (s : State) (i : InMsg) (p : Pend),
    s.live = true → nextRAck s d = some i → pendOf s (rmTag i.msg) = some p →
    ∃ u, exec (.rack d) s = .next u ∧ pendOf u (rmTag i.msg) = none ∧ u.mem = s.mem ∧ u.scr = s.scr ∧
      (∀ x c o, p.own = .copy x c → getOp s x = some o → o.status = none →
        ∃ o', getOp u x = some o' ∧ o'.tags = o.tags.erase (rmTag i.msg) ∧
          o'.status = (if rmStatus i.msg = 0 then none else some (9, rmStatus i.msg))))

/-- A fabric operation begins where its row's opcode is at the head of a queue that may begin it: HEAD moves on, and one that is
refused is to end with the status and cause of its refusal; of any other, only its own work is left to do, and a collective has
the next number of its ring. The work of a COPY begins with it, and a piece of it between places of this package's HBM puts the
source's bytes at the target. An operation ends when its work is done: it leaves the queue, and its record is written where it asks
for one or has a status other than OK; such a status halts the queue and is reported by FABRIC_OP_FAULT. RESUME lets the queue go on. -/
def Obligations.FabricOperationsBeginAndEnd : Prop :=
  (∀ (c : Instr) (op : Nat) (x : Ctx) (s : State) (b : List Byte),
    let s1 := putReg (aFab 0 (0x110 + 0x20 * x)) ((opqHead s x + 1) % 2 ^ opqLog s x) s
    let q := mapGet 0 s.fab.collSeq x
    fabOpRow c = some (op, x) → s.live = true → opqReady s x = true → opqNext s x = (b, false) → foOp b = op →
    s.cleanGa (opqAddr s x) 64 = true →
    (∀ r, foRefuse s1 x b = some r →
      ∃ u, exec c s = .next u ∧ opqHead u x = (opqHead s x + 1) % 2 ^ opqLog s x ∧
        getOp u x = some { desc := b, index := opqHead s x, status := some r } ∧ u.mem = s.mem ∧ u.scr = s.scr ∧ u.tiles = s.tiles) ∧
    (foRefuse s1 x b = none →
      ∃ u o, exec c s = .next u ∧ opqHead u x = (opqHead s x + 1) % 2 ^ opqLog s x ∧ getOp u x = some o ∧ o.desc = b ∧
        o.index = opqHead s x ∧ (∀ t ∈ o.todo, t ∈ foTodo s1 x b) ∧ u.mem = s.mem ∧
        (op = 0x50 →
          let w := (readGa (agFab x) (some x.val) (opqAddr s x) 64 s).1
          u = runWork x (setOp x { desc := b, index := opqHead s x, todo := foTodo s1 x b }
            (putReg (aFab 0 (0x110 + 0x20 * x)) ((opqHead s x + 1) % 2 ^ opqLog s x) w))) ∧
        (if isColl b then o.seqNo = q ∧ mapGet 0 u.fab.collSeq x = q + 1 else mapGet 0 u.fab.collSeq x = q))) ∧
  (∀ (x : Ctx) (s : State) (o : FabOp), s.live = true → getOp s x = some o → opDone s x o = true →
    ∃ u, exec (.fabOpEnd x) s = .next u ∧ getOp u x = none ∧ u.mem = s.mem ∧ u.tiles = s.tiles ∧
      mapGet false u.fab.halted x = ((o.status.getD (0, 0)).1 != 0 || mapGet false s.fab.halted x) ∧
      (let ga := foCq o.desc / 16 * 16
       (o.status = none → foComplete o.desc = true → s.isMemory ga →
          u.bytesAt (agFab x) ga 16 = wordsLE [0, o.index, foUser o.desc, s.clk.count]) ∧
       (∀ st c, o.status = some (st, c) → st ≠ 0 →
          let w := writeGa (agFab x) ga (wordsLE [c * 2 ^ 16 + st, o.index, foUser o.desc, s.clk.count])
            { s with fab := { s.fab with
              ops := mapErase s.fab.ops x
              pend := s.fab.pend.filter fun e => match e.2.own with | .copy y _ => y ≠ x.val | _ => true } } (some x.val)
          u = raise { die := 0, code := 0x0504, ctx := some x.val, p0 := x, p1 := o.index, p2 := st, p3 := c }
            { w with fab := { w.fab with halted := mapSet false w.fab.halted x true } }))) ∧
  (∀ (d : Die) (x : Ctx) (s : State) (o : FabOp) (off n d1 h1 d2 h2 : Nat),
    placeRun s (foSrc o.desc + off) n = .hbm d1 h1 → placeRun s (foDst o.desc + off) n = .hbm d2 h2 →
    (∀ q ∈ unitsOf h1 n, unitErrs s d1 q = []) →
    ∃ u, runCopy d x off n o s = some u ∧ hbmPeek (agFab x) d2 h2 n u = hbmPeek (agFab x) d1 h1 n s ∧ u.mem = s.mem) ∧
  (∀ (m : Master) (a : Nat) (v : Word) (i j : Nat) (s : State), s.lastKind .fabOpqCtrl m a v i j → bitsOf v.toNat 31 31 = 1 →
    ∃ u, exec .arbitrationWindowEnd s = .next u ∧ mapGet false u.fab.halted i = false ∧ u.fab.ops = s.fab.ops ∧ u.mem = s.mem)

/-- Collectives and multicasts. A piece of the gather phase is written at its place and goes on to the successor, but for the last
member; in the reduce phase a member that does not own the chunk sends on its element-wise combination with its own, and the owner
writes it. A piece that does not agree with the descriptor ends the collective COLL_MISMATCH and breaks the ring. A wait that lasts
is reported once: MULTICAST_STALL names the context, the multicast and the member that holds it up. A removal is noted, by
FAB_MC_REMOVE for the running multicast of the lowest context, where it is passed on both ways; an offset reported to a root is kept, and with the last report of
a die the root sends again from the lowest offset of those that remain. -/
def Obligations.CollectivesGoOn : Prop :=
  (∀ (d : Die) (s : State) (i : InMsg) (x : Nat) (o : FabOp),
    let m := i.msg
    let b := o.desc
    let n := ringN s x
    let j := chChunk m
    let k := pieceNo b n d m
    let t := (d.val, chPhase m, j, k)
    let next := ringNextPkg s x 0
    s.live = true → nextColl s d = some i → ringOfJob s (chJob m) [2, 3, 4] = some x → chSeq m ≠ loaderSeq → getOp s x = some o →
    isColl b = true → o.status = none → o.seqNo = chSeq m →
    (collAgrees s x d b m = false → mapLookup s.fab.aborts x = none →
      ∃ u, exec (.coll d) s = .next u ∧ getOp u x = some { o with status := some (9, 9), aborted := true } ∧ (ringOf u x).st = 5) ∧
    (collAgrees s x d b m = true → foOp b ≠ 0x54 → o.todo.contains t = true →
      (∀ d' h, chPhase m = 1 → placeRun s (dstOf b n j (chAt m)) (chLen m * foElem b) = .hbm d' h →
        m.bytes.length = 64 + (chLen m * foElem b + 63) / 64 * 64 →
        let data := (m.bytes.drop 64).take (chLen m * foElem b)
        let onward := pieceMsg s d x o next j 1 k data
        s.canSend onward = true →
        ∃ u o', exec (.coll d) s = .next u ∧ getOp u x = some o' ∧ o'.todo = o.todo.erase t ∧
          hbmPeek (agFab x) d' h data.length u = data ∧ ((ringPos s x + 1) % n ≠ j → u.sent onward) ∧ u.mem = s.mem ∧ u.scr = s.scr) ∧
      (chPhase m = 0 →
        let src := srcOf b n j (chAt m)
        let own := widenOwn (foDtype b) (s.bytesAt (agFab x) src (chLen m * foElem b))
        let r := (((List.range (chLen m)).map fun i => wordAt (m.bytes.drop 64) (4 * i)).zip own).map fun (a, c) => combine (foDtype b) (foRed b) a c
        s.cleanGa src (chLen m * foElem b) = true → placeRun s src (chLen m * foElem b) = placeOf s src →
        (ringPos s x ≠ j →
          let onward := pieceMsg s d x o next j 0 k (wordsLE r)
          s.canSend onward = true →
          ∃ u o', exec (.coll d) s = .next u ∧ getOp u x = some o' ∧ o'.todo = o.todo.erase t ∧ u.sent onward ∧ u.mem = s.mem ∧ u.scr = s.scr) ∧
        (∀ d' h, ringPos s x = j → foOp b = 0x52 →
          let out := finalBytes (foDtype b) r
          placeRun s (dstOf b n j (chAt m)) out.length = .hbm d' h →
          ∃ u o', exec (.coll d) s = .next u ∧ getOp u x = some o' ∧ o'.todo = o.todo.erase t ∧
            hbmPeek (agFab x) d' h out.length u = out ∧ u.mem = s.mem ∧ u.scr = s.scr)))) ∧
  (∀ (d : Die) (x : Ctx) (s : State) (t : TxMsg) (w : CastWait), s.live = true → castStall s d x = some (t, w) →
    ∃ u, exec (.multicastStall d x) s = .next u ∧ mapGet none u.fab.stalls (8 * d.val + x.val) = some { w with said := true } ∧
      castStall u d x = none ∧ u.mem = s.mem ∧ u.scr = s.scr ∧ u.tiles = s.tiles ∧
      u = raise { die := d, code := 0x0505, ctx := some x.val, p0 := x, p1 := chSeq t.msg, p2 := (ringMembers s x).idxOf t.msg.dpkg }
        { s with fab := { s.fab with stalls := mapSet none s.fab.stalls (8 * d.val + x.val) (some { w with said := true }) } }) ∧
  (∀ (d : Die) (s : State) (i : InMsg) (l : List InMsg) (x : Nat), s.live = true → ctlMsgs s d 0x30 = i :: l →
    ctlValid i.msg = true → ringOfJob s (ctlJob i.msg) [2, 3, 4] = some x →
    ∃ u, exec (.mcRemove d) s = .next u ∧ bitsOf (ctlArg i.msg 1) 6 0 ∈ removedOf u x (ctlArg i.msg 0) ∧ u.mem = s.mem ∧ u.scr = s.scr) ∧
  (∀ (d : Die) (s : State) (i : InMsg) (l : List InMsg) (x : Nat) (o : FabOp), s.live = true → ctlMsgs s d 0x31 = i :: l →
    ctlValid i.msg = true → ringOfJob s (ctlJob i.msg) [2, 3, 4] = some x → getOp s x = some o → foOp o.desc = 0x54 →
    o.seqNo = ctlArg i.msg 0 → foRoot o.desc = ringPos s x → o.status = none →
    ∃ u o', exec (.mcOffset d) s = .next u ∧ getOp u x = some o' ∧
      (d.val, bitsOf (ctlArg i.msg 1) 6 0, ctlArg i.msg 2 + ctlArg i.msg 3 * 2 ^ 32) ∈ o'.offs ∧ u.mem = s.mem ∧
      (let p := { o with offs := o.offs ++ [(d.val, bitsOf (ctlArg i.msg 1) 6 0, ctlArg i.msg 2 + 2 ^ 32 * ctlArg i.msg 3)] }
       let w := setRootCast x p (takeMsg d i s)
       allReported s x d p = true → allReported s x d o = false →
       ∀ low, lowOff s x d p = some low → u = tellAll (castFrom d x low p w))) ∧
  (∀ (m : Master) (a : Nat) (v : Word) (i j x : Nat) (s : State) (o : FabOp),
    let r := bitsOf v.toNat 7 0
    let s' := s.taken a v.toNat
    s.lastKind .fabMcRemove m a v i j → x < 8 → getOp s x = some o → foOp o.desc = 0x54 → o.status = none →
    (∀ y < x, ∀ p, getOp s y = some p → foOp p.desc ≠ 0x54 ∨ p.status ≠ none) →
    r ≠ foRoot o.desc → r < ringN s x → r ∉ removedOf s x o.seqNo →
    ∃ u, exec .arbitrationWindowEnd s = .next u ∧ r ∈ removedOf u x o.seqNo ∧ u.mem = s.mem ∧
      u = drainHost (noteRemoved x o.seqNo r (sendRemove x 1 o.seqNo r (sendRemove x 0 o.seqNo r s'))))

/-- A job abort: JOB_ABORT for a ring that has not halted makes it BROKEN, halts its operation queue, and ends a running COPY
ABORTED; the abort settles FAB_ABORT_SETTLE after the halt. -/
def Obligations.JobAbortsHaltAndSettle : Prop :=
  (∀ (d : Die) (s : State) (i : InMsg) (l : List InMsg) (x : Nat), s.live = true → ctlMsgs s d 0x20 = i :: l →
    ctlValid i.msg = true → ringOfJob s (ctlJob i.msg) [1, 2, 3, 4, 5] = some x → (ringOf s x).st ≠ 5 → mapLookup s.fab.aborts x = none →
    abortOfJob s (ctlJob i.msg) = none →
    ∃ u, exec (.jobAbortMessage d) s = .next u ∧ (ringOf u x).st = 5 ∧ mapGet false u.fab.halted x = true ∧
      (∀ o, getOp s x = some o → foOp o.desc = 0x50 → o.status = none → getOp u x = some { o with status := some (4, 0), aborted := true }) ∧ u.mem = s.mem) ∧
  (∀ (x : Ctx) (s : State), s.live = true → settleDue s x = true →
    ∃ u, exec (.abortSettle x) s = .next u ∧ mapLookup u.fab.aborts x = none ∧ settleDue u x = false ∧ u.mem = s.mem ∧
      (∀ a, mapLookup s.fab.aborts x = some a →
        let w := discardHeld x (raise { die := 0, code := 0x0506, ctx := some x.val, p0 := x + a.cause * 2 ^ 8, p1 := a.job,
                                        p2 := a.step, p3 := a.step / 2 ^ 32 }
          { s with fab := { s.fab with aborts := mapErase s.fab.aborts x } })
        launched w x = false → lostRequests w x = [] → abortCmds w x = [] → u = w))

/-! ## Timekeeping -/

/-- A sync pulse: one that an acquisition waits for loads the counter, unless that would move it backward; one within the window
is measured, and its correction is spread over the next interval, or the sync is lost where its error exceeds the limit. An
edge before its window counts as a missing pulse and moves nothing; a window that passes without an edge does, and the
expected count moves on; the eighth missing in a row loses the sync. A pulse counts once: an edge that comes after its
window has counted with it, and a window whose edge came early has (both are the model's reading, log entry 116; that a load
which would move the counter backward leaves the sync not acquired is log entry 44). A write of GCT_SYNC_CTRL that claims
SYNC_IN from the other mode meets a conflict; one that arms in rack mode with no context launched waits for a pulse. A
trigger edge captures the count and sets source 67 of die 0 pending; a compare unit that is reached is disabled and reports
it. A write that enables a compare unit which a launch or a replay holds is refused with CONFLICT (0x0005) and its holder;
any other sets EN as written. GCT_REC_CTRL is dropped while a context is launched; a mode that would take the capture region
from trace is refused with a conflict; any other write sets the mode and the context. -/
def Obligations.SyncTriggersAndCompares : Prop :=
  ((∀ s : State, s.live = true → syncSrc s = 1 → s.clk.armed = true →
      let v := reg64 s (aGct 0 0x18) + syncDelay s
      ∃ u, exec .syncPulse s = .next u ∧ u.clk.armed = false ∧ u.mem = s.mem ∧ u.scr = s.scr ∧ u.tiles = s.tiles ∧ u.out = s.out ∧
        (if s.clk.count ≤ v ∧ v < 2 ^ 64 then
          u.clk.count = v ∧ u.clk.acquired = true ∧ u.clk.expect = (reg64 s (aGct 0 0x18) + 1000000) % 2 ^ 64
         else u.clk.count = s.clk.count ∧ u.clk.acquired = false ∧ regF u aSync 29 29 = 1)) ∧
    (∀ s : State, s.live = true → syncSrc s = 1 → s.clk.armed = false → s.clk.acquired = true →
      s.clk.expect ≤ s.clk.count + syncLimit s → s.clk.count ≤ s.clk.expect + syncLimit s → level s ≠ 2 →
      ∃ u, exec .syncPulse s = .next u ∧ regF u aSync 15 0 = err16 (syncError s) ∧ u.clk.count = s.clk.count ∧
        u.mem = s.mem ∧ u.scr = s.scr ∧ u.tiles = s.tiles ∧
        (if (syncError s).natAbs ≤ syncLimit s then
          regF u aSync 19 16 = 0 ∧ u.clk.expect = (s.clk.expect + 1000000) % 2 ^ 64 ∧ u.clk.adjust.natAbs ≤ 64 ∧
          ((syncError s).natAbs < 2 → u.clk.adjust = 0) ∧
          (2 ≤ (syncError s).natAbs → (syncError s).natAbs ≤ 64 → u.clk.adjust = -syncError s) ∧ u.out = s.out
         else u.clk.acquired = false ∧ regF u aSync 30 30 = 1 ∧ regF u aSync 31 31 = 0 ∧ u.clk.adjust = 0)) ∧
    (∀ (s : State) (c : Instr) (late : Bool), s.live = true → syncSrc s = 1 → s.clk.armed = false → s.clk.acquired = true → level s ≠ 2 →
      ((c = .syncPulse ∧ late = false ∧ s.clk.count + syncLimit s < s.clk.expect ∧ s.clk.owed = false) ∨
        (c = .syncPulseMissing ∧ late = true ∧ s.clk.expect + syncLimit s < s.clk.count ∧ s.clk.early = false)) →
      ∃ u, exec c s = .next u ∧ u.clk.count = s.clk.count ∧ u.mem = s.mem ∧ u.scr = s.scr ∧ u.tiles = s.tiles ∧
        u.clk.expect = (if late then (s.clk.expect + 1000000) % 2 ^ 64 else s.clk.expect) ∧
        (if regF s aSync 19 16 < 7 then regF u aSync 19 16 = regF s aSync 19 16 + 1 ∧ u.clk.acquired = true
         else u.clk.acquired = false ∧ regF u aSync 30 30 = 1 ∧ regF u aSync 31 31 = 0 ∧ u.clk.adjust = 0)) ∧
    (∀ s : State, s.live = true → syncSrc s = 1 → s.clk.armed = false → s.clk.acquired = true →
      (s.clk.owed = true → s.clk.count + syncLimit s < s.clk.expect →
        exec .syncPulse s = .next { s with clk := { s.clk with owed := false } }) ∧
      (s.clk.early = true → s.clk.expect + syncLimit s < s.clk.count →
        exec .syncPulseMissing s = .next { s with clk := { s.clk with
          expect := (s.clk.expect + 1000000) % 2 ^ 64, owed := false, early := false } })) ∧
    (∀ (m : Master) (a : Nat) (v : Word) (i j : Nat) (s : State),
      let want := bitsOf v.toNat 1 0
      s.lastKind .gctSyncCtrl m a v i j → s.setup.committed = false →
      ((want = 1 ∨ want = 2) → want ≠ syncSrc s → syncSrc s ≠ 0 →
        exec .arbitrationWindowEnd s = .next (drainHost (raiseConflict (aGct 0 0x10) (if syncSrc s = 1 then 7 else 8) m (s.taken a v.toNat)))) ∧
      (want = 1 → (syncSrc s = 0 ∨ syncSrc s = 1) → bitsOf v.toNat 31 31 = 1 → anyBusy s = false →
        ∃ u, exec .arbitrationWindowEnd s = .next u ∧ syncSrc u = 1 ∧ u.clk.armed = true ∧ u.mem = s.mem ∧ u.scr = s.scr ∧ u.tiles = s.tiles))) ∧
  ((∀ s : State, s.live = true → syncSrc s = 2 → s.clk.trigAt = none → s.clk.replaying = false → s.clk.recording = false →
      s.clk.count < 2 ^ 64 →
      ∃ u, exec .trigger s = .next u ∧ reg64 u (aGct 0 0x28) = s.clk.count ∧ mapGet false u.icu.pend 67 = true ∧
        u.clk.trigAt = some s.now ∧ u.mem = s.mem ∧ u.scr = s.scr ∧ u.tiles = s.tiles ∧ u.out = s.out) ∧
    (∀ (d : Die) (k : Fin 8) (s : State), s.live = true → softHolds s d k = true → reg64 s (aGct d (0x300 + 0x10 * k)) ≤ s.clk.count →
      swSetNow s (aCmpCtrl d k) = 0 →
      ∃ u, exec (.gctCompare d k) s = .next u ∧ softHolds u d k = false ∧ u.mem = s.mem ∧ u.scr = s.scr ∧ u.tiles = s.tiles ∧
        mapGet false u.icu.pend (d * 1024 + eventSource 0x0603) = true) ∧
    (∀ (m : Master) (a : Nat) (v : Word) (i j : Nat) (s : State),
      let d := a / 0x4000000
      s.lastKind .gctCmpCtrl m a v i j → a = aCmpCtrl d i →
      (bitsOf v.toNat 31 31 = 1 → regF s a 30 30 = 1 →
        let e : Ev := { die := d, code := 5, p0 := a, p1 := if i = 7 then 1 else if i = 6 then 2 else 3, p2 := masterCode m }
        exec .arbitrationWindowEnd s = .next (drainHost (raise e (s.taken a v.toNat)))) ∧
      (¬(bitsOf v.toNat 31 31 = 1 ∧ regF s a 30 30 = 1) →
        ∃ u, exec .arbitrationWindowEnd s = .next u ∧ reg u a = setBits (reg s a) 31 31 (bitsOf v.toNat 31 31) ∧
          u.mem = s.mem ∧ u.scr = s.scr ∧ u.tiles = s.tiles ∧ u.out = s.out)) ∧
    (∀ (m : Master) (a : Nat) (v : Word) (i j : Nat) (s : State),
      let mode := bitsOf v.toNat 1 0
      s.lastKind .gctRecCtrl m a v i j → mode < 3 →
      (anyBusy s = true → exec .arbitrationWindowEnd s = .next (drainHost (s.taken a v.toNat))) ∧
      (anyBusy s = false → mode ≠ 0 → regF s (aLcc 0 0 0x104) 0 0 = 1 →
        exec .arbitrationWindowEnd s = .next (drainHost (raiseConflict (aGct 0 0x50) 6 m (s.taken a v.toNat)))) ∧
      (anyBusy s = false → (mode = 0 ∨ regF s (aLcc 0 0 0x104) 0 0 = 0) → (mode = 2 → ∀ d < 8, softHolds s d 5 = false) →
        ∃ u, exec .arbitrationWindowEnd s = .next u ∧ recMode u = mode ∧ recCtx u = bitsOf v.toNat 4 2 ∧
          u.mem = s.mem ∧ u.scr = s.scr ∧ u.tiles = s.tiles ∧ u.out = s.out)))

/-- The launch of an armed context: it runs at step 0, or finds step 0 closed, and the arming ends; an input that was held takes
effect unless it was written after a close. The step of a context that is closed and idle advances, below LEVEL_TIME when it is
found so and at LEVEL_TIME at its boundary; a context that is not idle at its boundary takes a step fault, and its work halts. A
write of GCT_LAUNCH_CTRL: an arming that comes less than 10,000 ticks before LAUNCH_AT is refused with cause 1, one that meets a
unit which another feature holds conflicts and is refused with cause 2, and one without a cause of refusal arms the context; END of
a launched context is noted. GCT_STEP_CLOSE closes the step of a running context, and step 0 of an armed one. A write to a held
register of a context waits with its inputs. (What a START before the launch does where step 0 is closed is log entry 33, which
cause is told first log entry 48; what ARM does in the launch's own tick is log entry 128.) -/
def Obligations.LaunchesAndStepsGoOn : Prop :=
  (∀ s : State,
    let x := regF s aLaunch 2 0
    s.live = true → launchArmed s = true → mapGet 0 s.clk.launchAt x ≤ s.clk.count →
    (s.clk.closed.contains x = true → ∀ e < 320, sqWaiting e s = false) →
    (s.clk.held = [] →
      ∃ u, exec .launch s = .next u ∧ launchArmed u = false ∧ ctxSt u x = (if s.clk.closed.contains x then 3 else 2) ∧ stepOf u x = 0 ∧
        mapGet [] u.clk.ran x = tilesAtWork s x ∧ u.mem = s.mem ∧ u.scr = s.scr ∧ u.tiles = s.tiles ∧ u.out = s.out) ∧
    (∀ h r i j hi, s.clk.held = [h] → h.ctx = x → findReg h.addr = some (r, i, j, hi) → r.kind = .fabOpqTail → s.clk.closed.contains x = false →
      ∃ u, exec .launch s = .next u ∧ ctxSt u x = 2 ∧
        (if h.after then reg u h.addr = reg s h.addr ∧ u.clk.held = [h]
         else reg u h.addr = r.write true (reg s h.addr) h.v.toNat ∧ u.clk.held = []))) ∧
  (∀ (c : Instr) (x : Ctx) (s : State),
    ((c = .stepAdvance x ∧ level s ≠ 2) ∨
      (c = .stepBoundary x ∧ level s = 2 ∧ mapLookup s.fab.aborts x = none ∧ boundaryAt s x ≤ s.clk.count)) →
    s.live = true → ctxSt s x = 3 → ctxIdle s x = true → s.clk.held = [] → s.clk.recording = false →
    ∃ u, exec c s = .next u ∧ stepOf u x = stepOf s x + 1 ∧ ctxSt u x = (if s.clk.ends.contains x.val then 0 else 2) ∧
      mapGet [] u.clk.ran x = [] ∧ u.mem = s.mem ∧ u.scr = s.scr ∧ u.tiles = s.tiles ∧ u.out = s.out) ∧
  (∀ (x : Ctx) (s : State), s.live = true → level s = 2 → launched s x = true → mapLookup s.fab.aborts x = none →
    boundaryAt s x ≤ s.clk.count → ¬(ctxSt s x = 3 ∧ ctxIdle s x = true) →
    ∃ u, exec (.stepBoundary x) s = .next u ∧ regF u (aCtxSt x) 27 27 = 1 ∧ stepOf u x = stepOf s x ∧ mapGet false u.fab.halted x = true ∧
      (ringOf u x).st = (if (ringOf s x).st = 0 then 0 else 5) ∧ u.mem = s.mem) ∧
  (∀ (m : Master) (a : Nat) (v : Word) (i j : Nat) (s : State),
    let x := bitsOf v.toNat 2 0
    let cause := armRefused s x
    s.lastKind .gctLaunchCtrl m a v i j →
    (launchArmed s = false → bitsOf v.toNat 31 31 = 1 →
      (reg64 s (aGct 0 0x30) < s.clk.count + 10000 → cause = 1) ∧
      (∀ h, armConflict s x = some h →
        exec .arbitrationWindowEnd s = .next (drainHost (raiseConflict aLaunch h m (putRegF aLaunch 11 8 2 (s.taken a v.toNat))))) ∧
      (armConflict s x = none → cause ≠ 0 →
        ∃ u, exec .arbitrationWindowEnd s = .next u ∧ regF u aLaunch 11 8 = cause ∧ launchArmed u = false ∧
          ctxSt u x = ctxSt s x ∧ u.mem = s.mem ∧ u.scr = s.scr ∧ u.tiles = s.tiles) ∧
      (cause = 0 → replays s x = false →
        ∃ u, exec .arbitrationWindowEnd s = .next u ∧ launchArmed u = true ∧ ctxSt u x = 1 ∧ regF u aLaunch 11 8 = 0 ∧
          regF u aLaunch 2 0 = x ∧ mapGet 0 u.clk.launchAt x = reg64 s (aGct 0 0x30) ∧ u.mem = s.mem ∧ u.scr = s.scr ∧ u.tiles = s.tiles)) ∧
    ((launchArmed s = true ∨ bitsOf v.toNat 31 31 = 0) → bitsOf v.toNat 30 30 = 1 → launched s x = true →
      ∃ u, exec .arbitrationWindowEnd s = .next u ∧ x ∈ u.clk.ends ∧ regF u aLaunch 30 30 = 1 ∧
        u.mem = s.mem ∧ u.scr = s.scr ∧ u.tiles = s.tiles ∧ u.out = s.out)) ∧
  (∀ (m : Master) (a : Nat) (v : Word) (i j : Nat) (s : State),
    let x := bitsOf v.toNat 2 0
    s.lastKind .gctStepClose m a v i j →
    ∃ u, exec .arbitrationWindowEnd s = .next u ∧ u.mem = s.mem ∧ u.scr = s.scr ∧ u.tiles = s.tiles ∧ u.out = s.out ∧
      ctxSt u x = (if ctxSt s x = 2 then 3 else ctxSt s x) ∧ (ctxSt s x = 1 → x ∈ u.clk.closed) ∧
      (ctxSt s x ≠ 1 → u.clk.closed = s.clk.closed)) ∧
  (∀ (m : Master) (a : Nat) (v : Word) (r : Reg) (i j x : Nat) (s : State),
    s.lastWrite m a v → findReg a = some (r, i, j, false) → r.wide = false → (s.setup.committed && r.breaksLock (reg s a) v.toNat) = false →
    queueCtx s r i j (a / 0x4000000) = some x → holdsInputs s x = true →
    ∃ u, exec .arbitrationWindowEnd s = .next u ∧ reg u a = reg s a ∧ u.mem = s.mem ∧ u.scr = s.scr ∧ u.tiles = s.tiles ∧
      u.clk.held = s.clk.held ++ [{ ctx := x, addr := a, v := v, after := ctxSt s x = 3 || s.clk.closed.contains x }])

/-- Replay: the END record of a die's log ends the log there, is counted in GCT_REC_USED, and with the last die's ends the replay. A set-up write joins the
arbitration window, an interrupt is pending, a trigger's count is captured, bytes of the host land; the log moves on to the next
record. A command waits while its ring has no place for it, which is counted once. A fuse burn that ends shows DONE, and the next
cold reset reads the new grade. A write of GCT_REGRADE_CTRL with its key and GO: a part that is graded already refuses with cause 1,
any other cause is shown too, and without one the masks are burnt and the burn is under way; without the key nothing changes. (The
global address of a record that a command read for itself is free, log entry 117; how a core's write replays is log entry 65; that
the masks are burnt at GO is log entry 48.) -/
def Obligations.ReplayAndFuseBurnsEnd : Prop :=
  (∀ (d : Die) (s : State),
    let h := replayHead s d
    let kind := fld h 0 31 24
    let len := fld h 0 15 0
    let b := hbmPeek (agReplay d) d (replayAt s d + 16) len s
    s.live = true → s.clk.replaying = true → s.clk.logDone.contains d.val = false → replayDue s d = true →
    (unitsOf (replayAt s d) (16 + len)).all (fun u => (unitErrs s d u).isEmpty) = true → pastStop s d h = false →
    (kind = 3 → dwordAt b 0 ≠ Config.recordAddress.toNat) →
    ∃ u, exec (.replayRecord d) s = .next u ∧
      (kind = 0x0F →
        u.clk.logDone = s.clk.logDone ++ [d.val] ∧ reg64 u (aGct d 0x58) = (logAtOf s d + recordSize len) % 2 ^ 64 ∧ u.mem = s.mem ∧ u.scr = s.scr ∧ u.tiles = s.tiles ∧ u.out = s.out ∧
        u.clk.replaying = !(List.range 8).all (s.clk.logDone ++ [d.val]).contains) ∧
      (kind ∈ [1, 3, 5, 6, 7] → logAtOf u d = logAtOf s d + recordSize len ∧ u.clk.replaying = true) ∧
      (∀ m, (kind = 1 ∧ m = .host ∨ kind = 7 ∧ m = masterOf (leNat ((b.drop 8).take 1))) → accessOk s m (wordAt b 0) 4 = true →
        wideWord (wordAt b 0) ≠ some true → closesWindow (wordAt b 0) (BitVec.ofNat 32 (wordAt b 4)) = false →
        u.setup.acts = s.setup.acts ++
          [(s.clk.count / 40, .write m (wordAt b 0) (BitVec.ofNat 32 (wordAt b 4)) (highFor s m (wordAt b 0)))]) ∧
      (∀ d' o, kind = 3 → placeOf s (dwordAt b 0) = .hbm d' o → hbmPeek .host d' o (b.drop 8).length u = b.drop 8) ∧
      (kind = 5 → sourceDefined (leNat ((b.drop 2).take 1)) (leNat (b.take 2)) = true →
        srcPending u (leNat ((b.drop 2).take 1)) (leNat (b.take 2)) = true) ∧
      (kind = 6 → reg64 u (aGct 0 0x28) = dwordAt b 0) ∧
      (∀ g, kind = 2 → getRing s (recCtx s + 1) = some g → canReserve s (Fin.ofNat 9 (recCtx s + 1)) g = false → level s ≠ 2 →
        u.host.cmds = s.host.cmds ∧ logAtOf u d = logAtOf s d ∧ (mapLookup u.clk.skewed d).isSome = true ∧
        reg u (aGct d 0x228) = (if (mapLookup s.clk.skewed d).isSome then reg s (aGct d 0x228) else min 0xFFFFFFFF (reg s (aGct d 0x228) + 1)))) ∧
  (∀ s : State, s.live = true → burning s = true → s.boot.dueReset = 0 →
    ∃ u, exec .fuseBurnComplete s = .next u ∧ reg u (aGct 0 0x64) = 0x200 ∧ u.boot.fuseGrade = 2 ∧ u.boot.grade = s.boot.grade ∧
      u.mem = s.mem ∧ u.scr = s.scr ∧ u.tiles = s.tiles) ∧
  (∀ (m : Master) (a : Nat) (v : Word) (i j : Nat) (s : State),
    let c := regradeBad s
    let key := bitsOf v.toNat 0 0 = 1 ∧ bitsOf v.toNat 31 16 = 0x5A38 ∧ regF s (aGct 0 0x64) 9 8 ≠ 1 ∧ regF s (aGct 0 0x64) 9 8 ≠ 2
    s.lastKind .gctRegradeCtrl m a v i j →
    (¬key → exec .arbitrationWindowEnd s = .next (drainHost (s.taken a v.toNat))) ∧
    (key →
      ∃ u, exec .arbitrationWindowEnd s = .next u ∧ reg u (aGct 0 0x64) = (if c = 0 then 0x100 else 0x300 + c) ∧
        (s.boot.grade ≠ 0 → c = 1) ∧ (c ≠ 0 → u.boot = s.boot) ∧
        (c = 0 → ∀ d < 8, mapGet 0 u.boot.fuseMasks d = regradeMask s d) ∧
        u.mem = s.mem ∧ u.scr = s.scr ∧ u.tiles = s.tiles ∧ u.out = s.out))

/-! ## The loader -/

/-- The manifest of a load: an invalid one refuses the load, which is then no longer in progress; a valid one is taken, and
where its allotments fit, its fetch begins on them. (How a load goes on inside the loader is the model's, log entry 66; a
context whose inputs are captured or replayed is left out.) (Attempts, their timers and what a failure gives are R339 and
R340; the loader's own states are log entry 66.) A shard or a REPLICATE set that arrives malformed, or with another digest,
is asked for again while attempts are left, and fails the load with SHARD_CORRUPT when none is; a sound one is taken. An
attempt without a byte for too long fails the load, with the member's shard, or with 0xFFFF for the REPLICATE set at the
head. -/
def Obligations.ManifestsAndShardsArrive : Prop :=
  (∀ (x : Ctx) (b : List Byte) (s : State) (j : LoadJob), s.live = true → s.host.link = 3 → s.clk.recording = false → s.clk.replaying = false →
      (getLoad s x).job = some j → j.phase = 1 →
      b.length = recManLen j.record →
      ∃ u, exec (.manifestFetched x b) s = .next u ∧ u.mem = s.mem ∧ u.scr = s.scr ∧ u.tiles = s.tiles ∧
        (∀ o, manBad (ringN s x) j.record b = some o → (getLoad u x).job = none ∧ (getLoad u x).kind = (getLoad s x).kind ∧
          u.hbm.allots = s.hbm.allots) ∧
        (∀ j', manBad (ringN s x) j.record b = none → (getLoad u x).job = some j' → j'.man = b ∧ j'.record = j.record ∧ (j'.phase = 2 ∨ j'.phase = 3)) ∧
        (∀ ids w, manBad (ringN s x) j.record b = none → j.swap = false → makeAllots x (loadNeed b j.record (ringPos s x)) [] s = .inr (ids, w) →
          ∃ j', (getLoad u x).job = some j' ∧ j'.phase = 3 ∧ j'.allots = ids ∧ j'.since = s.now ∧ u.hbm.allots = w.hbm.allots ∧
            regF u (aLoad 0 x 0) 31 29 = 1) ∧
        (∀ e, manBad (ringN s x) j.record b = none → j.swap = false → makeAllots x (loadNeed b j.record (ringPos s x)) [] s = .inl e →
          (getLoad u x).job = none)) ∧
  ((∀ (x : Ctx) (segs : List (List Byte)) (s : State) (j : LoadJob), s.live = true → s.host.link = 3 → (getLoad s x).job = some j →
      j.phase = 3 → j.shardOk = false → segs.map (·.length) = shardLens s x j →
      let p := ringPos s x
      let got := decodeAll ((List.range (manT j.man)).map fun t => ((tensorAt j.man t).comp, segSrcLen j.man p t, segs.getD t []))
      (∀ im, got = some im → sha256 im.flatten = shardDigest j.man p →
        ∃ u j', exec (.shardArrived x segs) s = .next u ∧ (getLoad u x).job = some j' ∧ j'.shardOk = true ∧
          j'.lanes.length = j.lanes.length + 8 ∧ u.mem = s.mem ∧ u.scr = s.scr ∧ u.tiles = s.tiles ∧ u.out = s.out) ∧
      ((got = none ∨ ∃ im, got = some im ∧ sha256 im.flatten ≠ shardDigest j.man p) →
        ∃ u j', exec (.shardArrived x segs) s = .next u ∧ (getLoad u x).job = some j' ∧ j'.shardOk = false ∧ u.mem = s.mem ∧ u.scr = s.scr ∧
          u.tiles = s.tiles ∧
          (j.attempts ≤ regF s (aSec 0 0x80000) 3 0 → j'.attempts = j.attempts + 1 ∧ j'.since = s.now ∧ j'.lanes = []) ∧
          (regF s (aSec 0 0x80000) 3 0 < j.attempts → j.fail = none → j'.phase = 5 ∧ j'.fail = some (p, 0x25, p, s.now)))) ∧
    (∀ (x : Ctx) (srcs : List (List Byte)) (s : State) (j : LoadJob), s.live = true → s.host.link = 3 → ringPos s x = 0 →
      (getLoad s x).job = some j → j.phase = 3 → j.replOk = false → srcs.map (·.length) = replLens j →
      let got := decodeAll ((List.range (manR j.man)).map fun r => (replComp j.man r = 1, replSrcLen j.man r, srcs.getD r []))
      (∀ im, got = some im → sha256 im.flatten = (j.man.drop 0x20).take 32 →
        ∃ u j', exec (.replicateArrived x srcs) s = .next u ∧ (getLoad u x).job = some j' ∧ j'.replOk = true ∧ u.mem = s.mem) ∧
      ((got = none ∨ ∃ im, got = some im ∧ sha256 im.flatten ≠ (j.man.drop 0x20).take 32) →
        ∃ u j', exec (.replicateArrived x srcs) s = .next u ∧ (getLoad u x).job = some j' ∧ j'.replOk = false ∧
          u.mem = s.mem ∧ u.scr = s.scr ∧ u.tiles = s.tiles ∧
          (j.replAttempts ≤ regF s (aSec 0 0x80000) 3 0 → j'.replAttempts = j.replAttempts + 1 ∧ j'.replSince = s.now ∧ j'.since = j.since) ∧
          (regF s (aSec 0 0x80000) 3 0 < j.replAttempts → j.fail = none → j'.phase = 5 ∧ j'.fail = some (0xFFFF, 0x25, 0xFFFF, s.now)))) ∧
    (∀ (x : Ctx) (s : State) (j : LoadJob) (sh : Nat), s.live = true → (getLoad s x).job = some j → j.phase = 3 → j.fail = none →
      ((sh = ringPos s x ∧ j.shardOk = false ∧ j.since + reg s (aSec 0 0x80004) ≤ s.now) ∨
        (sh = 0xFFFF ∧ ringPos s x = 0 ∧ j.replOk = false ∧ j.replSince + reg s (aSec 0 0x80004) ≤ s.now ∧
          (j.shardOk = true ∨ s.now < j.since + reg s (aSec 0 0x80004)))) →
      ∃ u j', exec (.fetchTimeout x) s = .next u ∧ (getLoad u x).job = some j' ∧ j'.phase = 5 ∧
        j'.fail = some (sh, 0x26, sh, s.now) ∧ j'.allots = [] ∧ regF u (aLoad 0 x 0) 15 0 = sh % 2 ^ 16 ∧
        u.mem = s.mem ∧ u.scr = s.scr ∧ u.tiles = s.tiles))

/-- The ring's agreement on a load. A member whose shard and REPLICATE set are there is LOCAL_DONE: it reads its parts' digests;
the head sends DONE with them, one alone commits, another waits for DONE; parts that cannot be read end it there. A member passes on a DONE that agrees with its own load, and fails it with
the digests that differ; the head commits and sends COMMIT when all have agreed. COMMIT makes the slot valid and ends the load;
ABORT fails it, and it ends once the abort has settled; a member without the load that has not committed it passes ABORT on.
(The tokens' order and the loader's own states are the model's, log entry 66; that a commit needs its old shard tables readable
is R237 with log entry 36.) -/
def Obligations.LoadsCommitOrFail : Prop :=
  (∀ (x : Ctx) (s : State) (j : LoadJob),
    s.live = true → (getLoad s x).job = some j → j.phase = 3 → j.shardOk = true → j.parts = [] → replDone s x j = true →
    (∀ w, partDigests x j s = (w, none) → exec (.localDone x) s = .next w) ∧
    (∀ w parts, partDigests x j s = (w, some parts) → (getLoad w x).job = some j →
      let done : Msg := { cls := 3, ty := 6, dpkg := ringNextPkg w x 0, bytes := ctlGrain 0x50 4 (ringJob w x) (loadArgs j ++ [1]) ++ parts.flatten }
      ∃ u, exec (.localDone x) s = .next u ∧ u.mem = w.mem ∧
        (ringPos w x = 0 → ringN w x ≠ 1 → w.canSend done = true → (getLoad u x).job = some { j with parts := parts, phase := 4 } ∧ u.sent done) ∧
        (ringPos w x = 0 → ringN w x = 1 → j.swap = false → j.slot < 2 → (getLoad u x).job = none ∧ slotValid u x j.slot = true) ∧
        (ringPos w x ≠ 0 → ctlMsgs w 0 0x50 = [] → (getLoad u x).job = some { j with parts := parts }))) ∧
  (∀ (d : Die) (s : State) (i : InMsg) (x : Nat) (j : LoadJob),
    let count := bitsOf (ctlArg i.msg 4) 7 0
    let agrees := (List.range 4).all fun k => ctlArg i.msg k = (loadArgs j).getD k 0
    s.live = true → nextDone s d = some i → tokenCtx s i.msg = some x → ctlValid i.msg = true → (getLoad s x).job = some j → j.phase ≠ 5 →
    j.fail = none →
    ∃ u, exec (.loadDone d) s = .next u ∧ u.mem = s.mem ∧
      (ringPos s x = 0 → j.phase = 4 → count = ringN s x % 256 → (oldTables x j s).2.all (·.isSome) = true → j.slot < 2 →
        (getLoad u x).job = none ∧ slotValid u x j.slot = true ∧ regF u (aLoad 0 x 0) 31 29 = 2) ∧
      (ringPos s x ≠ 0 → agrees = false → ∃ j', (getLoad u x).job = some j' ∧ j'.phase = 5 ∧ j'.fail = some (ringPos s x, 0x27, ringPos s x, s.now)) ∧
      (ringPos s x ≠ 0 → agrees = true → tokenParts i.msg ≠ j.parts →
        ∃ j', (getLoad u x).job = some j' ∧ j'.phase = 5 ∧ j'.fail = some (0xFFFF, 0x25, 0xFFFF, s.now)) ∧
      (ringPos s x ≠ 0 → agrees = true → tokenParts i.msg = j.parts →
        let done : Msg := { cls := 3, ty := 6, dpkg := ringNextPkg s x 0,
                            bytes := ctlGrain 0x50 4 (ringJob s x) (loadArgs j ++ [count + 1]) ++ j.parts.flatten }
        s.canSend done = true → (getLoad u x).job = some { j with phase := 4 } ∧ u.sent done)) ∧
  (∀ (d : Die) (s : State) (i : InMsg) (l : List InMsg) (x : Nat) (j : LoadJob),
    let commit := ctlMsg 0 (ringNextPkg s x 0) 0 0x51 (ringJob s x) (loadArgs j)
    s.live = true → ctlMsgs s d 0x51 = i :: l →
    tokenCtx s i.msg = some x → (getLoad s x).job = some j → ctlValid i.msg = true → j.phase = 4 → ringPos s x ≠ 0 → j.slot < 2 →
    (oldTables x j s).2.all (·.isSome) = true → s.canSend commit = true →
    ∃ u, exec (.loadCommit d) s = .next u ∧ (getLoad u x).job = none ∧ (getLoad u x).kind = recKind j.record ∧
      (getLoad u x).modelId = recModel j.record ∧ slotValid u x j.slot = true ∧
      slotVal u x j.slot = (if recKind j.record = 1 then recVersion j.record else recGen j.record) ∧
      regF u (aLoad 0 x 0) 31 29 = 2 ∧ u.sent commit ∧ u.mem = s.mem) ∧
  (∀ (d : Die) (s : State) (i : InMsg) (l : List InMsg) (x : Nat) (j : LoadJob),
    let shard := bitsOf (ctlArg i.msg 4) 15 0
    let status := bitsOf (ctlArg i.msg 5) 15 0
    let onward := ctlMsg 0 (ringNextPkg s x 0) 0 0x52 (ringJob s x) ((List.range 6).map (ctlArg i.msg))
    s.live = true → ctlMsgs s d 0x52 = i :: l →
    tokenCtx s i.msg = some x → (getLoad s x).job = some j → ctlValid i.msg = true → j.fail = none →
    bitsOf (ctlArg i.msg 4) 22 16 ≠ ringPos s x → s.canSend onward = true →
    ∃ u j', exec (.loadAbort d) s = .next u ∧ (getLoad u x).job = some j' ∧ j'.phase = 5 ∧
      j'.fail = some (shard, status, abortDetail status shard (bitsOf (ctlArg i.msg 4) 22 16), s.now) ∧ u.sent onward ∧ u.mem = s.mem) ∧
  (∀ (d : Die) (s : State) (i : InMsg) (l : List InMsg) (x : Nat),
    let onward := ctlMsg 0 (ringNextPkg s x 0) 0 0x52 (ringJob s x) ((List.range 6).map (ctlArg i.msg))
    s.live = true → ctlMsgs s d 0x52 = i :: l →
    tokenCtx s i.msg = some x → (getLoad s x).job = none → ctlValid i.msg = true → committedAs s x i.msg = false →
    bitsOf (ctlArg i.msg 4) 22 16 ≠ ringPos s x → s.canSend onward = true →
    ∃ u, exec (.loadAbort d) s = .next u ∧ (getLoad u x).job = none ∧ u.sent onward ∧ u.mem = s.mem ∧ u.regs = s.regs) ∧
  (∀ (x : Ctx) (s : State) (j : LoadJob) (f : Nat × Nat × Nat × Nat), s.live = true → (getLoad s x).job = some j → j.fail = some f →
    f.2.2.2 + reg s (aFab 0 0x18) ≤ s.now →
    ∃ u, exec (.loadAbortSettle x) s = .next u ∧ (getLoad u x).job = none ∧ u.mem = s.mem ∧ u.scr = s.scr ∧ u.tiles = s.tiles)

/-- Pass tokens: the head begins a count of the two oldest generations that may still have requests; a member adds its requests
and sends it on; at the head it ends, and with requests for the older one left the pass serves that; a chosen generation goes on
round the ring. A background check covers the slots valid when it begins and ends once its reads are made; a slot whose lane has its
digest is clean at the step of that moment, a lane that differs raises DIGEST_FAULT, halts its context with cause 2 and leaves
STATE at 3, and one with an uncorrectable unit is not clean; the end of the check counts it. (How the head chooses, and which
generations it asks after once it has retired one, is the model's reading, log entry 67; that a pass covers what is valid as it
begins, and LAST_OK only a pass with every digest equal, is log entry 68.) -/
def Obligations.PassesAndChecks : Prop :=
  (∀ (d : Die) (s : State) (i : InMsg) (l : List InMsg) (x : Nat),
    let arg (k : Nat) : Nat := ctlArg i.msg k
    let cur := (unserved s x (bitsOf (arg 1) 15 0)).length
    let new := if bitsOf (arg 3) 31 31 = 1 then (unserved s x (bitsOf (arg 3) 15 0)).length else 0
    let onward := ctlMsg 0 (ringNextPkg s x 0) 0 0x40 (ctlJob i.msg) [arg 0, arg 1, arg 2 + cur, arg 3, arg 4 + new]
    let chosen := ctlMsg 0 (ringNextPkg s x 0) 0 0x41 (ringJob s x) [arg 0, (passGens (getLoad s x)).1]
    s.live = true → ctlMsgs s d 0x40 = i :: l → tokenCtx s i.msg = some x → ctlValid i.msg = true →
    ∃ u, exec (.passCount d) s = .next u ∧ u.mem = s.mem ∧
      (ringPos s x ≠ 0 → s.canSend onward = true → u.sent onward ∧ u.loads = s.loads ∧ u.host = s.host) ∧
      (ringPos s x = 0 → (getLoad u x).counting = false) ∧
      (ringPos s x = 0 → 1 < ringN s x → arg 2 ≠ 0 → s.canSend chosen = true → (getLoad u x).pass = arg 0 ∧ u.sent chosen)) ∧
  (∀ (s : State) (x : Nat),
    let y := getLoad s x
    let old := match y.genOld with | some g => g | none => y.genCur
    let young := match y.genOld with | some _ => some y.genCur | none => if y.newValid then some y.genNew else none
    let first := ctlMsg 0 (ringNextPkg s x 0) 0 0x40 (ringJob s x)
      [(y.pass + 1) % 2 ^ 32, old, (unserved s x old).length, bit young.isSome 31 + young.getD y.genNew,
        match young with | some g => (unserved s x g).length | none => 0]
    s.live = true → ctlMsgs s 0 0x40 = [] → (List.range 8).find? (countable s) = some x →
    ∃ u, exec (.passCount 0) s = .next u ∧ u.mem = s.mem ∧
      (1 < ringN s x → s.canSend first = true → (getLoad u x).counting = true ∧ u.sent first)) ∧
  (∀ (d : Die) (s : State) (i : InMsg) (l : List InMsg) (x : Nat),
    let onward := ctlMsg 0 (ringNextPkg s x 0) 0 0x41 (ctlJob i.msg) [ctlArg i.msg 0, ctlArg i.msg 1]
    s.live = true → ctlMsgs s d 0x41 = i :: l → tokenCtx s i.msg = some x →
    ctlValid i.msg = true → ringPos s x ≠ 0 → s.canSend onward = true →
    ∃ u, exec (.passGen d) s = .next u ∧ (getLoad u x).pass = ctlArg i.msg 0 ∧ u.sent onward ∧ u.mem = s.mem) ∧
  (∀ (d : Die) (s : State), s.live = true → awakeHbm s = true → checkOf s d = none → mapGet 0 s.checkAt d + reg s (aSec 0 0x80008) * 10 ^ 9 ≤ s.now →
    ∃ u, exec (.checkPassStart d) s = .next u ∧ checkOf u d = some { begun := s.now, cover := coverNow s } ∧
      mapGet 0 u.checkAt d = s.now ∧ u.regs = s.regs ∧ u.mem = s.mem ∧ u.scr = s.scr ∧ u.tiles = s.tiles ∧ u.out = s.out) ∧
  (∀ (d : Die) (s : State) (c : CheckS), s.live = true → awakeHbm s = true → checkOf s d = some c →
    passRead s d c = true →
    (coverLeft s c = [] → ∃ u, exec (.checkPassEnd d) s = .next u ∧ checkOf u d = none ∧ u.mem = s.mem ∧
      reg u (aSec d 0x8000C) = min 0xFFFFFFFF (reg s (aSec d 0x8000C) + 1)) ∧
    (∀ x k v st w p, coverLeft s c = [(x, k, v, st)] → x < 8 → c.bad.contains x = false → lanePayload d x k s = (w, some p) →
      let ok := reg64 w (aLoad 0 x 0x18)
      let e := raise { die := d, code := 0x0701, ctx := some x, p0 := x + d * 2 ^ 8, p1 := v, p2 := ok, p3 := ok / 2 ^ 32 } w
      let h := setLoadState x 3 (if (ringOf e x).st = 0 then haltCtx x 2 e else abortJob x 2 e)
      ∃ u, exec (.checkPassEnd d) s = .next u ∧ checkOf u d = none ∧ u.mem = s.mem ∧
        (if sha256 p = mapGet [] (getLoad w x).digests (8 * k + d) then reg64 u (aLoad 0 x 0x18) = st % 2 ^ 64
         else u = bump (aSec d 0x8000C) { h with checks := mapSet none h.checks d none } ∧ regF u (aLoad 0 x 0) 31 29 = 3)) ∧
    (∀ x k v st, coverLeft s c = [(x, k, v, st)] → x < 8 → c.bad.contains x = true →
      ∃ u, exec (.checkPassEnd d) s = .next u ∧ checkOf u d = none ∧ u.mem = s.mem ∧
        reg64 u (aLoad 0 x 0x18) = reg64 s (aLoad 0 x 0x18)))

/-! ## The host interface -/

/-- The host link: aligned training goes on to IDENT; IDENT, which carries the identity key's fingerprint, the link protocol
version 1.0 and the boot state, brings the link UP and sends what waited for it, in order, losses of the link told last; a loss is
counted, raises HOST_LINK_DOWN and the link trains again; a replayed flit is counted. (That the fingerprint reads zero before
the identity key exists is log entry 129.) -/
def Obligations.TheHostLinkTrainsAndFails : Prop :=
  (∀ (al : Bool) (s : State), s.live = true → s.host.link = 1 →
    ∃ u, exec (.hostLinkTrain al) s = .next u ∧ u.host.link = (if al then 2 else 1) ∧ u.regs = s.regs ∧ u.mem = s.mem ∧ u.scr = s.scr ∧
      u.tiles = s.tiles ∧ u.out = s.out) ∧
  (∀ s : State, s.live = true → s.host.link = 2 → s.host.downDue = [] →
    ∃ u, exec .hostIdent s = .next u ∧ u.host.link = 3 ∧ u.host.held = [] ∧
      u.out = s.host.held.reverse ++ (.hostIdent (wordsLE [reg s (aSec 0 0x40), reg s (aSec 0 0x44)]) 1 0 (bootCode s) :: s.out) ∧ u.regs = s.regs ∧ u.mem = s.mem ∧ u.scr = s.scr ∧ u.tiles = s.tiles) ∧
  (∀ s : State, s.live = true → s.host.link = 2 →
    ∃ u, exec .hostIdent s = .next u ∧ u.host.link = 3 ∧ u.host.held = [] ∧ u.host.downDue = [] ∧ u.mem = s.mem ∧ u.scr = s.scr ∧
      u.tiles = s.tiles) ∧
  (∀ s : State, s.live = true → s.host.link = 3 →
    let n := min 0xFFFFFFFF (reg s (aHlk 0x8C) + 1)
    ∃ u, exec .hostLinkDown s = .next u ∧ u.host.link = 1 ∧ reg u (aHlk 0x8C) = n ∧
      u.host.downDue = s.host.downDue ++ [(s.clk.count, n)] ∧ mapGet false u.icu.pend (eventSource 6) = true ∧ u.mem = s.mem ∧ u.scr = s.scr ∧ u.tiles = s.tiles) ∧
  (∀ s : State, s.live = true → s.host.link = 3 →
    ∃ u, exec .flitReplay s = .next u ∧ reg u (aHlk 0x88) = min 0xFFFFFFFF (reg s (aHlk 0x88) + 1) ∧ u.mem = s.mem ∧ u.scr = s.scr ∧
      u.tiles = s.tiles ∧ u.out = s.out)

/-- An access to host memory that the adapter refuses, or does not answer in time, completes its command with HOST_ACCESS_FAULT, a
load's manifest refusing the load; one that it answers is at an end. An ALLOT completes with its allotment, a COPY_IN keeps the
bytes that came, a formation record forms its ring, a load record accepts its load, and a nonce signs its report. (Accesses of one
command go eight at a time for COPY and one at a time for REQUEST, the model's choice, log entries 60 and 62.) -/
def Obligations.HostAccessesComplete : Prop :=
  (∀ (a : Nat) (s : State) (q : Access) (x : Cmd), s.live = true → getAcc s a = some q → q.issued + reg s (aHlk 0x80) ≤ s.now →
    getCmd s q.cmd = some x →
    let s1 := dropAccs (fun b _ => b == a) s
    ∃ u, exec (.hostAccessTimeout a) s = .next u ∧ u.mem = s.mem ∧ u.scr = s.scr ∧ u.tiles = s.tiles ∧
      (q.purpose ≠ .manifest → getCmd u q.cmd = none) ∧
      (q.purpose = .manifest → u = refuseLoad (cmdCtx x) 9 q.off s1) ∧
      (q.purpose ≠ .manifest → q.purpose ≠ .firmware → u = completeCmd q.cmd 9 q.off s1)) ∧
  (∀ (a : Nat) (ok : Bool) (b : List Byte) (s : State) (q : Access), s.live = true → s.host.link = 3 → getAcc s a = some q →
    a < s.host.nextAcc → s.clk.replaying = false → s.clk.recording = false → (getCmd s q.cmd).isSome = true →
    (q.write = true ∨ ok = false ∨ (b.length = q.len ∧ q.purpose ≠ .manifest ∧ q.purpose ≠ .firmware)) →
    let s1 := { s with host := { s.host with accs := mapErase s.host.accs a } }
    let s2 := dropAccs (fun c _ => c == a) s
    ∃ u, exec (.hostAccessComplete a ok b) s = .next u ∧ getAcc u a = none ∧ u.mem = s.mem ∧
      ((∀ x, getCmd s q.cmd = some x → cmdOp x ≠ 0x18) → q.purpose ≠ .ringRecord → u.tiles = s.tiles) ∧
      (ok = true → q.purpose = .ringRecord → u = formRing q.cmd b s2) ∧
      (ok = true → q.purpose = .loadRecord → u = acceptLoad q.cmd b s2) ∧
      (ok = true → q.purpose = .nonce → u = signReport q.cmd b s2) ∧
      (ok = false → u = failAccess q s1) ∧
      (∀ id x, ok = true → q.purpose = .allotResult id → getCmd s q.cmd = some x → u = completeCmd q.cmd 0 id s1) ∧
      (∀ n x, ok = true → q.purpose = .report n → getCmd s q.cmd = some x → u = completeCmd q.cmd 0 n s1) ∧
      (∀ ga x d t o, ok = true → q.purpose = .copyIn ga → getCmd s q.cmd = some x → cmdOp x = 0x17 →
        placeOf s ga = .scr d t o → readScr (engine d t) o b.length u = b))

/-- An aperture access: a write takes effect in link order, behind the host's set-up writes whose windows have not ended (R354); then
one to a scratchpad stores its bytes, one to HBM is read back by the host; a read gives the bytes that
stand there; one that no aperture maps, or whose bytes are uncorrectable, is answered as failed, a read with ones. -/
def Obligations.ApertureAccesses : Prop :=
  (∀ (k : Fin 4) (off : Nat) (b : List Byte) (s : State), s.live = true → s.host.link = 3 → apertureOk off b.length = true →
    (s.pwr.state = 0 → s.host.inOrder = [] → setupBusy s = true →
      ∃ u, exec (.apertureWrite k off b) s = .next u ∧ u.host.inOrder = [.aperture k off b] ∧ u.out = s.out ∧ u.regs = s.regs ∧
        u.mem = s.mem ∧ u.hbm = s.hbm ∧ u.scr = s.scr ∧ u.tiles = s.tiles) ∧
    (s.pwr.state ≠ 0 →
      ∃ u, exec (.apertureWrite k off b) s = .next u ∧ u.host.inOrder = s.host.inOrder ++ [.aperture k off b] ∧ u.pwr.waking = true ∧
        u.out = s.out ∧ u.mem = s.mem ∧ u.hbm = s.hbm ∧ u.scr = s.scr ∧ u.tiles = s.tiles) ∧
    (apertureAt s k off b.length = none → s.pwr.state = 0 → s.host.inOrder = [] → setupBusy s = false →
      ∃ u, exec (.apertureWrite k off b) s = .next u ∧ u.out = .aperture [] true :: s.out ∧ u.regs = s.regs ∧ u.mem = s.mem ∧
        u.hbm = s.hbm ∧ u.scr = s.scr ∧ u.tiles = s.tiles) ∧
    (∀ ga, apertureAt s k off b.length = some ga → s.pwr.state = 0 → s.host.inOrder = [] → setupBusy s = false →
      s.clk.replaying = false → s.clk.recording = false →
      ∃ u, exec (.apertureWrite k off b) s = .next u ∧ u.out = .aperture [] false :: s.out ∧ u.regs = s.regs ∧ u.mem = s.mem ∧
        u.tiles = s.tiles ∧ (∀ d t o, placeOf s ga = .scr d t o → u.scr = memWrite s.scr (scrCell (engine d t) o) b ∧ u.hbm = s.hbm) ∧
        (∀ d h, placeOf s ga = .hbm d h → hbmPeek .host d h b.length u = b ∧ u.scr = s.scr))) ∧
  (∀ (k : Fin 4) (off n : Nat) (s : State), s.live = true → s.host.link = 3 → s.pwr.state = 0 → apertureOk off n = true →
    (apertureAt s k off n = none →
      ∃ u, exec (.apertureRead k off n) s = .next u ∧ u.out = .aperture (List.replicate n 0xFF) true :: s.out ∧ u.regs = s.regs ∧
        u.mem = s.mem ∧ u.scr = s.scr ∧ u.tiles = s.tiles) ∧
    (∀ ga, apertureAt s k off n = some ga → s.cleanGa ga n = true →
      ∃ u, exec (.apertureRead k off n) s = .next u ∧ u.out = .aperture (s.bytesAt .host ga n) false :: s.out ∧ u.regs = s.regs ∧
        u.mem = s.mem ∧ u.scr = s.scr ∧ u.tiles = s.tiles) ∧
    (∀ ga d h, apertureAt s k off n = some ga → placeOf s ga = .hbm d h → (unitsOf h n).any (unitBad s d) = true →
      ∃ u, exec (.apertureRead k off n) s = .next u ∧ u.out.head? = some (.aperture (List.replicate n 0xFF) true) ∧ u.mem = s.mem))

/-- A fetched command of a defined opcode enters in the order of its ring, read at the ring's base and index, and the index moves
on; a request is bound to its generation as it is fetched (R186); a command of a core's port is read from the port's queue. A
doorbell write sets its index at the end of its window, CMD_TAIL raising the ring's interrupt and EV_HEAD letting lost events be
told. A coalesced interrupt goes out when its interval is over. (That a completion ring keeps one entry free is the model's choice,
log entry 59.) -/
def Obligations.CommandsAreFetched : Prop :=
  (∀ (r : RingSet) (b : List Byte) (s : State) (g : RingS), s.live = true → mayFetchRing s r = true → getRing s r.val = some g →
    b.length = 64 → s.clk.recording = false → opAllowed { src := .ring r, words := toWords 16 b, seqNo := 0 } = true →
    let x : Cmd := { src := .ring r, words := toWords 16 b, seqNo := mapGet 0 s.host.fetched r.val }
    ∃ u g', exec (.commandFetch (.ring r) b) s = .next u ∧
      ((cmdOp x = 0x19 → ∀ e ∈ s.host.cmds, opAllowed e.2 = true) →
        getCmd u s.host.nextCmd = some (if cmdOp x = 0x19 then { x with aux := bindingOf s x } else x)) ∧
      u.tells (.hostRead s.host.nextAcc (g.cmdBase + 64 * g.fetch) 64) ∧
      getRing u r.val = some g' ∧ g'.fetch = (g.fetch + 1) % 2 ^ g.cmdLog ∧ u.mem = s.mem ∧ u.scr = s.scr ∧ u.tiles = s.tiles) ∧
  (∀ (c : Core) (b : List Byte) (s : State),
    let base := aLcc (c.val / 4) (c.val % 4)
    let addr := reg64 s (base 0x20) + 64 * reg s (base 0x30)
    let w := toWords 16 (s.bytesAt (agCmd 0) addr 64)
    s.live = true → mayFetchCore s c = true → s.cleanGa addr 64 = true →
    opAllowed { src := .core c, words := w, seqNo := 0 } = true →
    let x : Cmd := { src := .core c, words := w, seqNo := mapGet 0 s.host.fetched (16 + c.val) }
    ∃ u, exec (.commandFetch (.core c) b) s = .next u ∧
      ((cmdOp x = 0x19 → ∀ e ∈ s.host.cmds, opAllowed e.2 = true) →
        getCmd u s.host.nextCmd = some (if cmdOp x = 0x19 then { x with aux := bindingOf s x } else x)) ∧
      mapGet 0 u.host.fetched (16 + c.val) = mapGet 0 s.host.fetched (16 + c.val) + 1 ∧ u.mem = s.mem ∧ u.scr = s.scr ∧ u.tiles = s.tiles) ∧
  (∀ (v : Fin 18) (s : State), s.live = true → s.host.link = 3 → v.val ∈ s.host.irqWait →
    mapGet 0 s.host.irqLast v.val + reg s (aHlk 0x84) ≤ s.now + 1 →
    ∃ u, exec (.irqCoalesceExpiry v) s = .next u ∧ u.out = .irq v.val :: s.out ∧ v.val ∉ u.host.irqWait ∧
      mapGet 0 u.host.irqLast v.val = s.now + 1 ∧ u.regs = s.regs ∧ u.mem = s.mem ∧ u.scr = s.scr ∧ u.tiles = s.tiles) ∧
  (∀ (m : Master) (v : Word) (i j : Nat) (s : State), i < 9 → (i = 0 ∨ holdsInputs s (i - 1) = false) →
    (s.lastKind .cmdTail m (aBell i 0) v i j →
      ∃ u, exec .arbitrationWindowEnd s = .next u ∧ reg u (aBell i 0) = v.toNat % 4096 ∧ mapGet false u.icu.pend (32 + i) = true ∧
        u.mem = s.mem ∧ u.scr = s.scr ∧ u.tiles = s.tiles ∧ u.out = s.out) ∧
    (s.lastKind .cplHead m (aBell i 4) v i j →
      ∃ u, exec .arbitrationWindowEnd s = .next u ∧ reg u (aBell i 4) = v.toNat % 4096 ∧ u.icu = s.icu ∧ u.mem = s.mem ∧ u.scr = s.scr ∧
        u.tiles = s.tiles ∧ u.out = s.out) ∧
    (s.lastKind .evHead m (aBell i 8) v i j →
      exec .arbitrationWindowEnd s = .next (drainHost (evFlush i (putReg (aBell i 8) (v.toNat % 4096) (s.taken (aBell i 8) v.toNat))))))

/-- Completing a command takes it off the list of commands, changes no byte of the package, and leaves every other command, but
that the end of a swap that was not accepted binds the requests behind it (log entry 62); for a command of a ring set its
completion entry, with the ring's phase, goes to the entry at the ring's tail; for a core's, source 96 + j of its die is
pending. A command begins, in firmware's stages of boot: before negotiation one that needs it completes with NOT_NEGOTIATED,
SETUP_COMMIT with BAD_STATE; one whose descriptor breaks a rule completes with MALFORMED and the offset of its first
offending field; nothing else is done for these, and the ring moves on. Any other command acts as its row says, NEGOTIATE,
ATTEST_REPORT and FW_UPDATE before negotiation too: at once, or, where its action is on a context, at the end of its
arbitration window. In FAILED admin commands end in BAD_STATE, in RECOVERY NEGOTIATE and ATTEST_REPORT (R426, R427). A
reserved opcode that may begin then is refused in its turn. (Which commands wait for their window's end is the model's
reading of R370 and R371, log entry 6.) -/
def Obligations.RingCommandsBeginAndComplete : Prop :=
  (∀ (c st det : Nat) (s : State),
      getCmd (completeCmd c st det s) c = none ∧
      (∀ c', c' ≠ c → (∀ x, getCmd s c = some x → cmdOp x ≠ 0x13) → getCmd (completeCmd c st det s) c' = getCmd s c') ∧
      (∀ c', c' ≠ c → ((getCmd (completeCmd c st det s) c').map fun y => { y with aux := 0 }) = (getCmd s c').map fun y => { y with aux := 0 }) ∧
      (∀ x k, getCmd s c = some x → x.src = .core k → mapGet false (completeCmd c st det s).icu.pend (1024 * (k.val / 4) + 96 + k.val % 4) = true) ∧
      (∀ x r g, getCmd s c = some x → x.src = .ring r → getRing s r.val = some g →
        (completeCmd c st det s).tells (.hostWrite (g.cplBase + 16 * g.cplTail) (cplEntry x g.cplPhase st det)) ∧
        ∃ g', getRing (completeCmd c st det s) r.val = some g' ∧ (g'.cplTail, g'.cplPhase) = ringNext g.cplTail g.cplLog g.cplPhase) ∧
      (completeCmd c st det s).mem = s.mem ∧ (completeCmd c st det s).scr = s.scr ∧ (completeCmd c st det s).tiles = s.tiles) ∧
  ((∀ (i : Instr) (op c : Nat) (act : Nat → State → State) (s : State) (x : Cmd),
      let s1 := modCmd c (fun x => { x with begun := true }) (numberCore c s)
      commandRow s i = some (op, c, act) → s.live = true → canBegin s c (fun x => opAllowed x && cmdOp x = op) = true →
      getCmd s c = some x →
      (bootStage s = 9 → op < 0x10 → exec i s = .next (refuseReserved (completeCmd c 4 0 s1))) ∧
      (bootStage s = 8 → op = 1 ∨ op = 5 → exec i s = .next (refuseReserved (completeCmd c 4 0 s1))) ∧
      (bootStage s = 8 → s.host.negotiated = false → op ∉ [1, 5, 6] → exec i s = .next (refuseReserved (completeCmd c 2 0 s1))) ∧
      ((bootStage s = 6 ∨ bootStage s = 7) →
        (s.host.negotiated = false → op ∉ [1, 2, 5, 6] → exec i s = .next (refuseReserved (completeCmd c 2 0 s1))) ∧
        (s.host.negotiated = false → op = 2 → exec i s = .next (refuseReserved (completeCmd c 4 0 s1))) ∧
        ((s.host.negotiated = true ∨ op ∈ [1, 5, 6]) →
          (∀ o, cmdBad s x = some o → exec i s = .next (refuseReserved (completeCmd c 1 o s1))) ∧
          (cmdBad s x = none → windowed op = false → exec i s = .next (refuseReserved (act c s1))) ∧
          (cmdBad s x = none → windowed op = true →
            ∃ u, exec i s = .next u ∧ u.setup.acts = s.setup.acts ++ [(s.clk.count / 40, .cmd c)] ∧
              (∀ r, x.src = .ring r → (op = 0x19 → ∀ e ∈ s.host.cmds, opAllowed e.2 = true) → getCmd u c = some { x with begun := true }) ∧ u.mem = s.mem ∧ u.scr = s.scr ∧ u.tiles = s.tiles)))) ∧
    (∀ (i : Instr) (op c w : Nat) (act : Nat → State → State) (s : State) (x : Cmd),
      commandRow s i = some (op, c, act) → windowed op = true → getCmd s c = some x → cmdOp x = op → s.live = true → s.pwr.state = 0 →
      s.setup.acts = [(w, .cmd c)] → 40 * w + 40 ≤ s.clk.count →
      exec .arbitrationWindowEnd s = .next (drainHost (act c { s with setup := { s.setup with acts := [] } }))))

/-- The effects of the admin commands: NEGOTIATE takes the lower minor version of each interface where every major agrees;
SETUP_COMMIT waits for its window's end, where the set-up locks and its digest is taken, or names the register that is wrong;
CTX_OPEN opens the context's ring set once the set-up is committed, and its uncorrectable units are told again; a MARK completes
when every earlier command of its ring has. (Their rows act so by RingCommandsBeginAndComplete; that a command of a context's own ring may not
close it before its abort settles is log entry 82.) -/
def Obligations.AdminCommandsAct : Prop :=
  (∀ (c : Nat) (s : State) (x : Cmd), getCmd s c = some x → s.host.negotiated = false →
    ((List.range 5).all (fun i => bitsOf (cmdA x i) 15 8 == regF s (aHlk (0x10 + 4 * i)) 31 24) = true →
      let u := effNegotiate c s
      u.host.negotiated = true ∧ getCmd u c = none ∧
        (∀ i, i < 5 → regF u (aHlk (0x10 + 4 * i)) 15 8 = bitsOf (cmdA x i) 15 8 ∧
          regF u (aHlk (0x10 + 4 * i)) 7 0 = min (bitsOf (cmdA x i) 7 0) (regF s (aHlk (0x10 + 4 * i)) 23 16))) ∧
    (∀ i, i < 5 → bitsOf (cmdA x i) 15 8 ≠ regF s (aHlk (0x10 + 4 * i)) 31 24 → (effNegotiate c s).host.negotiated = false)) ∧
  (∀ (c : Nat) (s : State), s.host.negotiated = true → s.setup.committed = false →
    (∀ a, commitBad s = some a → (effSetupCommit c s).setup.acts = s.setup.acts ∧ getCmd (effSetupCommit c s) c = none ∧
      ((getCmd s c).isSome = true → a < 2 ^ 32 → reg (effSetupCommit c s) (aHlk 0x30) = a)) ∧
    (commitBad s = none → (effSetupCommit c s).setup.acts = s.setup.acts ++ [(s.clk.count / 40, .lock c)] ∧
      (effSetupCommit c s).regs = s.regs)) ∧
  (∀ (c : Nat) (s : State),
    (setupLock c s).setup.committed = true ∧ (setupLock c s).setup.locking = false ∧ getCmd (setupLock c s) c = none ∧
      readDigest (setupLock c s) (aSec 0 0x80) = configDigest s ∧ (setupLock c s).mem = s.mem ∧ (setupLock c s).scr = s.scr) ∧
  (∀ (c : Nat) (s : State) (x : Cmd), getCmd s c = some x →
    (s.setup.committed = true → getRing s (cmdCtx x + 1) = none → x.src = .ring 0 →
      ∃ g, getRing (effCtxOpen c s) (cmdCtx x + 1) = some g ∧ g.cmdBase = cmdA64 x 0 ∧ g.cplBase = cmdA64 x 2 ∧ g.evBase = cmdA64 x 4 ∧
        g.fetch = 0 ∧ g.cplTail = 0 ∧ g.cplPhase = true ∧ g.evTail = 0 ∧ g.evPhase = true ∧ g.lost = 0 ∧
        ∀ k, (k, cmdCtx x) ∉ (effCtxOpen c s).hbm.ueRaised) ∧
    (s.setup.committed = false → (effCtxOpen c s) = completeCmd c 4 0 s)) ∧
  (∀ (c : Nat) (s : State) (x : Cmd), getCmd s c = some x → (earlierCmds s x = [] ↔ getCmd (effMark c s) c = none))

/-- The effects of the memory commands: an ALLOT makes an allotment that meets no other and stores the eight global addresses of
its runs, die by die, at its result address, or names the lowest die without room (where a run lies is the model's choice,
log entry 35; when an ALLOT completes is log entry 61); FREE takes away an allotment of its own context; closing an
unlaunched context closes its ring set and frees what it holds. The effects of the commands on a context. COPY asks for, or
sends, its pieces of 4 KiB (eight at a time, log entry 60); REQUEST keeps the generation that it was bound to and waits to
be served; JOB_ABORT breaks the context's ring; RING_FORM reads its record, and is then refused with the place of what is
wrong in it, or the ring is FORMING and its head sends FORM; MODEL_LOAD and MODEL_SWAP are refused, or read their load
record and then ask the host for the manifest, a swap naming the incoming generation; MODEL_UNLOAD makes the model's slots
invalid; RING_DISSOLVE makes a READY ring IDLE. (The order of RING_FORM's checks is log entry 27.) -/
def Obligations.CommandsActOnMemoryAndContexts : Prop :=
  ((∀ (x : Nat) (need : List (Nat × Nat)) (s u : State) (ids : List Nat), makeAllots x need [] s = .inr (ids, u) →
      ids.length = need.length ∧ u.hbm.nextAllot = s.hbm.nextAllot + need.length ∧ u.mem = s.mem ∧ u.regs = s.regs ∧ u.hbm.wq = s.hbm.wq ∧
      (∀ d, d < 8 → ∀ r, fitRuns s (need.map (·.2)) (usedRuns s d []) = some r →
        ∀ y ∈ r, y.2 ≠ 0 → reserveTop ≤ y.1 ∧ y.1 + y.2 * 65536 ≤ captureBase s ∧
          ∀ v ∈ usedRuns s d [], y.1 + y.2 * 65536 ≤ v.1 ∨ v.2 ≤ y.1)) ∧
    (∀ (c : Nat) (s : State) (x : Cmd), getCmd s c = some x →
      (∀ d, makeAllots (cmdCtx x) [(cmdA x 0, cmdA x 1)] [] s = .inl d → effAllot c s = completeCmd c 0x24 d s) ∧
      (∀ id v, makeAllots (cmdCtx x) [(cmdA x 0, cmdA x 1)] [] s = .inr ([id], v) →
        ∃ a, mapLookup (effAllot c s).hbm.allots id = some a ∧ a.ctx = cmdCtx x ∧ a.cat = cmdA x 0 ∧ a.runs.length = 8 ∧
          (∀ y ∈ a.runs, y.2 = cmdA x 1) ∧
          (effAllot c s).tells (.hostStore s.host.nextAcc (cmdA64 x 2)
            ((List.range 8).map fun d => natLE 8 (hbmGa s d (a.runs.getD d (0, 0)).1)).flatten))) ∧
    (∀ (c : Nat) (s : State) (x : Cmd) (a : Allot), getCmd s c = some x → cmdOp x = 0x16 → mapLookup s.hbm.allots (cmdA x 0) = some a →
      (a.ctx = cmdCtx x → 2 ≤ a.cat → a.cat ≤ 5 → mapLookup (effFree c s).hbm.allots (cmdA x 0) = none ∧ getCmd (effFree c s) c = none) ∧
      (a.ctx ≠ cmdCtx x → (effFree c s) = completeCmd c 1 0x10 s)) ∧
    (∀ (c : Nat) (s : State) (x : Cmd), getCmd s c = some x → ctxOpen s (cmdCtx x) = true → launched s (cmdCtx x) = false →
      mapLookup s.fab.aborts (cmdCtx x) = none →
      let u := effCtxClose c s
      getRing u (cmdCtx x + 1) = none ∧ getCmd u c = none ∧ (∀ a ∈ u.hbm.allots, a.2.ctx ≠ cmdCtx x) ∧ (getLoad u (cmdCtx x)).job = none ∧
        u.mem = s.mem)) ∧
  ((∀ (c : Nat) (s : State) (x : Cmd), getCmd s c = some x → cmdOp x = 0x17 →
      (copyPlaced s x = false → effCopyCmd c s = completeCmd c 1 0x18 s) ∧
      (copyPlaced s x = true → 0 < cmdA x 4 → s.host.accs = [] →
        let u := effCopyCmd c s
        u.host.accs.length = min (copyUnits (cmdA x 4)) 8 ∧ getCmd u c = some { x with phase := max 2 x.phase, left := copyUnits (cmdA x 4) } ∧
          ∀ i, i < min (copyUnits (cmdA x 4)) 8 →
            u.tells (.hostRead (s.host.nextAcc + i) (cmdA64 x 0 + 4096 * i) (min 4096 (cmdA x 4 - 4096 * i))))) ∧
    (∀ (c : Nat) (s : State) (x : Cmd), getCmd s c = some x → cmdOp x = 0x18 →
      (copyPlaced s x = false → effCopyCmd c s = completeCmd c 1 0x10 s) ∧
      (copyPlaced s x = true → 0 < cmdA x 4 → cmdA x 4 ≤ 4096 → s.cleanGa (cmdA64 x 0) (cmdA x 4) = true →
        (effCopyCmd c s).tells (.hostStore s.host.nextAcc (cmdA64 x 2) (s.bytesAt (agCmd (cmdCtx x)) (cmdA64 x 0) (cmdA x 4))))) ∧
    (∀ (c : Nat) (s : State) (x : Cmd), getCmd s c = some x →
      getCmd (effRequest c s) c = some { x with phase := 1 } ∧
      (mapLookup s.fab.aborts (cmdCtx x) = none → (ringOf s (cmdCtx x)).st = 2 → ringN s (cmdCtx x) = 1 →
        (ringOf (effJobAbort c s) (cmdCtx x)).st = 5)) ∧
    (∀ (c : Nat) (s : State) (x : Cmd) (b : List Byte), getCmd s c = some x → b.length = 272 →
      ((ringOf s (cmdCtx x)).st ≠ 0 → effRingForm c s = completeCmd c 0x10 0 s ∧ formRing c b s = completeCmd c 0x10 0 s) ∧
      ((ringOf s (cmdCtx x)).st = 0 → (effRingForm c s).tells (.hostRead s.host.nextAcc (cmdA64 x 0) 272)) ∧
      ((ringOf s (cmdCtx x)).st = 0 →
        (∀ p, ringListBad s (cmdCtx x) b = some p → formRing c b s = completeCmd c 0x11 p s) ∧
        (∀ p, ringListBad s (cmdCtx x) b = none → hopBad b = some p → formRing c b s = completeCmd c 0x12 p s) ∧
        (∀ p, ringListBad s (cmdCtx x) b = none → hopBad b = none → transitBad s b = some p → formRing c b s = completeCmd c 0x13 p s) ∧
        (ringListBad s (cmdCtx x) b = none → hopBad b = none → transitBad s b = none → cmdCtx x < 8 →
          (ringOf (formRing c b s) (cmdCtx x)).rcd = b ∧
          (ringOf (formRing c b s) (cmdCtx x)).st = (if rcdN b = 1 then 2 else 1) ∧
          (rcdN b = 1 → getCmd (formRing c b s) c = none) ∧
          (∀ v, v = formRing c b s → rcdN b ≠ 1 → rcdMember b 0 = pkgId s →
            v.canSend (ctlMsg 0 (ringNextPkg v (cmdCtx x) 0) 0 0x10 (rcdJob b) ((rcdN b + 2 ^ 8) :: ringDigestWords v (cmdCtx x))) = true →
            v.sent (ctlMsg 0 (ringNextPkg v (cmdCtx x) 0) 0 0x10 (rcdJob b) ((rcdN b + 2 ^ 8) :: ringDigestWords v (cmdCtx x))))))) ∧
    (∀ (c : Nat) (s : State) (x : Cmd) (b : List Byte), getCmd s c = some x → b.length = 96 → cmdCtx x < 8 →
      let k := cmdCtx x
      (cmdOp x = 0x12 →
        (loadBusy s k false = true → effModelLoad c s = completeCmd c 0x20 0 s) ∧
        (loadBusy s k false = false → (ringOf s k).st ≠ 2 → effModelLoad c s = completeCmd c 0x22 0 s) ∧
        (loadBusy s k false = false → (ringOf s k).st = 2 →
          (effModelLoad c s).tells (.hostRead s.host.nextAcc (cmdA64 x 0) 96) ∧
          (∀ o, recBad false b = some o → acceptLoad c b s = completeCmd c 1 o s) ∧
          (recBad false b = none →
            (∃ j, (getLoad (acceptLoad c b s) k).job = some j ∧ j.record = b ∧ j.cmd = c ∧ j.swap = false ∧ j.phase = 1) ∧
              (acceptLoad c b s).tells (.hostRead s.host.nextAcc (recManAddr b) (recManLen b))))) ∧
      (cmdOp x = 0x13 → loadBusy s k true = false →
        ((getLoad s k).newValid = true → effModelLoad c s = completeCmd c 0x21 0 s) ∧
        ((getLoad s k).newValid = false → (ringOf s k).st = 2 → (getLoad s k).kind ≠ 2 → effModelLoad c s = completeCmd c 4 0 s) ∧
        ((getLoad s k).newValid = false → ((ringOf s k).st = 2 ∨ (ringOf s k).st = 3) → (getLoad s k).kind = 2 →
          (effModelLoad c s).tells (.hostRead s.host.nextAcc (cmdA64 x 0) 96) ∧
          (recBad true b = none →
            let u := acceptLoad c b s
            (∃ j, (getLoad u k).job = some j ∧ j.record = b ∧ j.cmd = c ∧ j.swap = true ∧ j.phase = 1) ∧ (getLoad u k).newValid = true ∧
              (getLoad u k).genNew = recGen b ∧ u.tells (.hostRead s.host.nextAcc (recManAddr b) (recManLen b)))))) ∧
    (∀ (c : Nat) (s : State) (x : Cmd), getCmd s c = some x → cmdCtx x < 8 →
      ((ringOf s (cmdCtx x)).st = 3 → effModelUnload c s = completeCmd c 0x20 0 s) ∧
      ((ringOf s (cmdCtx x)).st = 2 → (getLoad s (cmdCtx x)).job = none →
        slotValid (effModelUnload c s) (cmdCtx x) 0 = false ∧ slotValid (effModelUnload c s) (cmdCtx x) 1 = false ∧
          (getLoad (effModelUnload c s) (cmdCtx x)).kind = 0 ∧ getCmd (effModelUnload c s) c = none) ∧
      ((ringOf s (cmdCtx x)).st = 2 → (ringOf s (cmdCtx x)).cmd = none →
        (ringOf (effRingDissolve c s) (cmdCtx x)).st = 0 ∧ getCmd (effRingDissolve c s) c = none)))

/-- FW_UPDATE asks the host for its image, or ends in BAD_STATE while one is at work. An image that is staged is checked before it is
written; a sector that fails twice ends the update in error with the sectors before it programmed, a whole image in success with
every sector of the flash holding its bytes, filled with ones (what a failed sector holds is a free value, log entry 85).
ATTEST_REPORT takes its snapshot as its tick ends: a buffer that is too small ends it, else its nonce is read, and the report of
that nonce, signed, goes to the host (log entry 84). A write of SEC_UPDATE_STATUS sets its fields, but does not clear STATE while
an update runs. -/
def Obligations.FirmwareUpdates : Prop :=
  (∀ (c : Nat) (s : State) (x : Cmd), getCmd s c = some x →
    ((updateCmd s).isSome = true → effFwUpdate c s = completeCmd c 4 0 s) ∧
    (updateCmd s = none → bootStage s ≠ 8 → swSetNow s aUpdate = 0 → regF (effFwUpdate c s) aUpdate 31 29 = 1 ∧
      (effFwUpdate c s).tells (.hostRead s.host.nextAcc (cmdA64 x 0) (cmdA x 2)) ∧ (effFwUpdate c s).mem = s.mem)) ∧
  (∀ (c : Nat) (s : State) (x : Cmd), getCmd s c = some x →
    (s.boot.attKey = none → effAttest c s = completeCmd c 4 0 s) ∧
    (s.boot.attKey ≠ none → getCmd (effAttest c s) c = some { x with phase := 1 }) ∧
    (cmdA x 2 < reportLen s (cmdA x 5 = 1) → snapReport c s = completeCmd c 1 0x18 s) ∧
    (reportLen s (cmdA x 5 = 1) ≤ cmdA x 2 →
      (snapReport c s).tells (.hostRead s.host.nextAcc (cmdA64 x 3) 32) ∧
        mapLookup (snapReport c s).boot.reports c = some (reportBody s (List.replicate 32 0))) ∧
    (∀ key body nonce, s.boot.attKey = some key → mapLookup s.boot.reports c = some body → nonce.length = 32 → 0x40 ≤ body.length →
      ∃ b, (signReport c nonce s).tells (.hostStore s.host.nextAcc (cmdA64 x 0) b) ∧
        b.take body.length = body.take 0x20 ++ nonce ++ body.drop 0x40)) ∧
  (∀ (im : List Byte) (s : State) (a : Nat) (q : Access), s.live = true → s.host.link = 3 → imageAcc s = some (a, q) → im.length = q.len →
    swSetNow s aUpdate = 0 →
    ∃ u, exec (.fwUpdateStaged im) s = .next u ∧ u.mem = s.mem ∧ u.scr = s.scr ∧ u.tiles = s.tiles ∧
      (∀ cause off, imageBad s im = some (cause, off) → cause < 256 → regF u aUpdate 31 29 = 4 ∧ regF u aUpdate 23 16 = cause ∧ getCmd u q.cmd = none) ∧
      (imageBad s im = none → regF u aUpdate 31 29 = 2 ∧ u.boot.staged = im)) ∧
  (∀ (sectors : Nat) (ok : Bool) (s : State) (c : Nat) (x : Cmd), s.live = true → updateCmd s = some c → getCmd s c = some x → x.phase = 2 →
    swSetNow s aUpdate = 0 → s.boot.staged.length ≤ 2 ^ 25 →
    let n := imageSectors s.boot.staged
    (ok = true → sectors = n) → (ok = false → sectors < n) →
    ∃ u, exec (.fwUpdateWritten sectors ok) s = .next u ∧ getCmd u c = none ∧
      regF u aUpdate 31 29 = (if ok then 3 else 4) ∧
      regF u aUpdate 9 0 = sectors % 1024 ∧
      (ok = true → regF u (aSec 0 4) 0 0 = 1 ∧ mapGet false u.icu.pend (eventSource 0x0703) = true) ∧
      (∀ k, k < sectors → mapLookup u.boot.flash k = some (imageSector s.boot.staged k)) ∧
      u.mem = s.mem ∧ u.scr = s.scr ∧ u.tiles = s.tiles) ∧
  (∀ (new : Nat) (s : State), new < 2 ^ 32 →
    (bitsOf new 31 29 ≠ 0 ∨ updateCmd s = none → effUpdateStatus new s = putReg aUpdate new s) ∧
    (bitsOf new 31 29 = 0 → updateCmd s ≠ none → regF (effUpdateStatus new s) aUpdate 31 29 = regF s aUpdate 31 29))

/-! ## Cores and interrupts -/

/-- A source that is pending and enabled reaches its target once; a delivered source wakes a core that runs. Clearing a source
ends its delivery, unless it was set in the same cycle (that two act in one cycle where both act in one tick is the model's
choice, log entry 124). A write of ICU_PENDw sets the sources of its ones that are defined, and raises only the interrupt:
no queue entry, no counter, no post, no unit's state; a reserved source is never set, and its bit reads 0. A write of
ICU_SRCs_CFG sets ENABLE, and TARGET before the lock. A delivered source wakes its target; with MASK = 0 the core goes to a
place of its own (a free value: what a core executes is another book's, log entries 78 and 118). What debug and a core's
command port do at the end of a write's window. LCC_DBG_CTRL halts a core, and lets one that is halted go on; after the
set-up lock it acts only where the lock found debug allowed (R383). LCC_CMD_TAIL places the port's tail, and the tick of its
doorbell orders the commands of several cores (R382). (Where a halt finds a core is a free value, log entry 78.) Events are
entered in their die's queue and copied to the host. In the queue an entry of 32 bytes, with its number and PHASE, goes to
the place at TAIL; a queue that is full, or lies outside the system reserve, loses it and counts it; once there is room
EVENTS_LOST with the number lost goes first (R364, R389). In a host event ring the same: the entry goes to the place at the
tail of the context's ring, or of the admin ring; a full ring loses it and counts it; EVENTS_LOST goes first once an entry
is free (R365); a context whose ring set is not open has no copy (log entry 93). The event's source is pending on its die.
(That the queue's entry is merged into a whole unit as it is raised is log entry 125.) -/
def Obligations.InterruptsReachTheirCores : Prop :=
  ((∀ (d : Die) (src : Fin 1024) (s : State), s.live = true → srcDelivered s d src.val = true → srcSignalled s d src.val = false →
      ∃ u, exec (.interruptDelivery d src) s = .next u ∧ srcSignalled u d src.val = true ∧ u.icu.pend = s.icu.pend ∧ u.regs = s.regs ∧
        u.mem = s.mem ∧ u.scr = s.scr ∧ u.tiles = s.tiles ∧ u.out = s.out) ∧
    (∀ (c : Core) (s : State), s.live = true → coreRuns s c = true → signalFor s c = true →
      ∃ u, exec (.coreWake c) s = .next u ∧ (getCore u c).asleep = false ∧ (getCore u c).halted = (getCore s c).halted ∧
        (regF s (aIcu (c.val / 4) (0x1200 + 4 * (c.val % 4))) 0 0 ≠ 0 → (getCore u c).pc = (getCore s c).pc) ∧
        u.icu.pend = s.icu.pend ∧ u.regs = s.regs ∧ u.mem = s.mem ∧ u.scr = s.scr ∧ u.tiles = s.tiles ∧ u.out = s.out) ∧
    (∀ (d v : Nat) (s : State),
      let k := bitsOf v 9 0
      let u := effIcuAck d v s
      srcSignalled u d k = false ∧
        srcPending u d k = (srcPending s d k && decide (bitsOf (hwSetNow s (aPend d k)) (k % 32) (k % 32) = 1)) ∧
        (∀ j, j < 1024 → j ≠ k → srcPending u d j = srcPending s d j)) ∧
    ((∀ (d w v : Nat) (s : State),
        let u := effIcuPend d w v s
        (∀ k, k < 1024 → srcPending u d k =
          (srcPending s d k || (sourceDefined d k && decide (32 * w ≤ k ∧ k < 32 * w + 32) && v.testBit (k - 32 * w)))) ∧
        u.icu.evq = s.icu.evq ∧ u.regs = s.regs ∧ u.hbm = s.hbm ∧ u.host = s.host ∧ u.out = s.out ∧ u.clk = s.clk ∧ u.mem = s.mem ∧
        u.scr = s.scr ∧ u.tiles = s.tiles ∧ u.fab = s.fab ∧ u.rings = s.rings ∧ u.rows = s.rows ∧ u.loads = s.loads) ∧
      (∀ (d src : Nat) (s : State), sourceDefined d src = false → pendSource d src s = s ∧ (setPending d src s).icu = s.icu) ∧
      (∀ (s : State) (r : Reg) (i j a k : Nat), r.kind = .icuPend → k < 32 → sourceDefined (a / 0x4000000) (32 * i + k) = false →
        (regValue s r i j a).testBit k = false)) ∧
    (∀ (m : Master) (a : Nat) (v : Word) (i j : Nat) (s : State),
      let d := a / 0x4000000
      (s.lastKind .icuSrc m a v i j → a = aIcu d (4 * i) →
        ∃ u, exec .arbitrationWindowEnd s = .next u ∧ srcEnabled u d i = decide (bitsOf v.toNat 31 31 = 1) ∧
          srcTarget u d i = (if s.setup.committed then srcTarget s d i else bitsOf v.toNat 4 0) ∧ u.icu.pend = s.icu.pend ∧
          (bitsOf v.toNat 31 31 = 0 → srcSignalled u d i = false) ∧ u.mem = s.mem ∧ u.scr = s.scr ∧ u.tiles = s.tiles ∧ u.out = s.out) ∧
      (s.lastKind .icuPend m a v i j →
        exec .arbitrationWindowEnd s = .next (drainHost (effIcuPend d i v.toNat (s.taken a v.toNat)))) ∧
      (s.lastKind .icuAck m a v i j →
        exec .arbitrationWindowEnd s = .next (drainHost (effIcuAck d v.toNat (s.taken a v.toNat)))) ∧
      (s.lastKind .icuEvqHead m a v i j →
        exec .arbitrationWindowEnd s = .next (drainHost (evqFlush d (putReg (aIcu d 0x1250) (v.toNat % 4096) (s.taken a v.toNat))))) ∧
      (s.lastKind .lccTrace m a v i j →
        let on := regF s (aLcc 0 0 0x104) 0 0
        (bitsOf v.toNat 0 0 = 1 → on = 0 → recMode s ≠ 0 →
          exec .arbitrationWindowEnd s = .next (drainHost (raiseConflict (aLcc 0 0 0x104) 5 m (s.taken a v.toNat)))) ∧
        (bitsOf v.toNat 0 0 = 0 ∨ on = 1 ∨ recMode s = 0 →
          ∃ u, exec .arbitrationWindowEnd s = .next u ∧ regF u (aLcc 0 0 0x104) 0 0 = bitsOf v.toNat 0 0 ∧
            (bitsOf v.toNat 0 0 = 1 → on = 0 → u.icu.trace = []) ∧ u.mem = s.mem ∧ u.scr = s.scr ∧ u.tiles = s.tiles ∧ u.out = s.out)))) ∧
  (∀ (m : Master) (a : Nat) (v : Word) (i j : Nat) (s : State),
      let c := 4 * (a / 0x4000000) + j
      (s.lastKind .lccDbgCtrl m a v i j → c < 32 →
        (s.setup.committed = true → s.setup.debugAllowed = false → exec .arbitrationWindowEnd s = .next (drainHost (s.taken a v.toNat))) ∧
        ((s.setup.committed = false ∨ s.setup.debugAllowed = true) →
          (bitsOf v.toNat 2 0 = 1 → ∃ u, exec .arbitrationWindowEnd s = .next u ∧ (getCore u c).halted = true ∧
            (getCore u c).asleep = (getCore s c).asleep ∧ u.regs = s.regs ∧ u.icu.pend = s.icu.pend ∧ u.mem = s.mem ∧ u.scr = s.scr ∧ u.tiles = s.tiles ∧
            u.out = s.out) ∧
          (bitsOf v.toNat 2 0 = 2 → ∃ u, exec .arbitrationWindowEnd s = .next u ∧ getCore u c = { getCore s c with halted := false } ∧
            u.regs = s.regs ∧ u.icu.pend = s.icu.pend ∧ u.mem = s.mem ∧ u.scr = s.scr ∧ u.tiles = s.tiles ∧ u.out = s.out) ∧
          (bitsOf v.toNat 2 0 = 3 → (getCore s c).halted = true → (getCore s c).stopped = false →
            exec .arbitrationWindowEnd s = .next (drainHost (stepCore c (s.taken a v.toNat)))))) ∧
      (s.lastKind .lccCmdTail m a v i j → c < 32 → hwSetNow s a = 0 →
        ∃ u, exec .arbitrationWindowEnd s = .next u ∧ regF u a 9 0 = bitsOf v.toNat 9 0 ∧ (getCore u c).bellAt = s.now ∧
          u.host.cmds = s.host.cmds ∧ u.icu.pend = s.icu.pend ∧ u.mem = s.mem ∧ u.scr = s.scr ∧ u.tiles = s.tiles ∧ u.out = s.out)) ∧
  ((∀ (d d' h : Nat) (e : Ev) (s : State), d < 8 → evqBase d s = some (d', h) → h % 32 = 0 →
      let log := regF s (aIcu d 0x1248) 3 0
      let tail := reg s (aIcu d 0x124C)
      let q := mapGet {} s.icu.evq d
      let full := (tail + 1) % 2 ^ log = reg s (aIcu d 0x1250) % 2 ^ log
      let at_ := h + 32 * tail
      tail < 2 ^ log → badFor (.icu (Fin.ofNat 8 d)) s d' (at_ / 64) = false →
      (q.lost = 0 → ¬full →
        let u := evqAdd d e s
        hbmPeek (.icu (Fin.ofNat 8 d)) d' at_ 32 u = evEntry e q.phase q.num s.clk.count ∧
          (∀ k, k < 32 * 2 ^ log → k / 32 ≠ tail →
            hbmPeek (.icu (Fin.ofNat 8 d)) d' (h + k) 1 u = hbmPeek (.icu (Fin.ofNat 8 d)) d' (h + k) 1 s) ∧
          (reg u (aIcu d 0x124C), (mapGet {} u.icu.evq d).phase) = ringNext tail log q.phase ∧ (mapGet {} u.icu.evq d).num = q.num + 1 ∧
          (mapGet {} u.icu.evq d).lost = 0 ∧ u.mem = s.mem ∧ u.scr = s.scr ∧ u.tiles = s.tiles ∧ u.host = s.host) ∧
      (full → let u := evqAdd d e s
        reg u (aIcu d 0x1254) = min 0xFFFFFFFF (reg s (aIcu d 0x1254) + 1) ∧ mapGet {} u.icu.evq d = { q with lost := q.lost + 1 } ∧
          reg u (aIcu d 0x124C) = tail ∧ u.mem = s.mem ∧ u.hbm.wq = s.hbm.wq ∧ u.host = s.host) ∧
      (q.lost ≠ 0 → ¬full →
        let u := evqFlush d s
        hbmPeek (.icu (Fin.ofNat 8 d)) d' at_ 32 u = evEntry { die := d, code := 1, p0 := q.lost } q.phase q.num s.clk.count ∧
          (mapGet {} u.icu.evq d).lost = 0 ∧ (mapGet {} u.icu.evq d).num = q.num + 1)) ∧
    (∀ (d : Nat) (e : Ev) (s : State), d < 8 → evqBase d s = none →
      let u := evqAdd d e s
      reg u (aIcu d 0x1254) = min 0xFFFFFFFF (reg s (aIcu d 0x1254) + 1) ∧ reg u (aIcu d 0x124C) = reg s (aIcu d 0x124C) ∧
        u.hbm = s.hbm ∧ u.mem = s.mem ∧ u.host = s.host) ∧
    (∀ (e : Ev) (s : State) (g : RingS),
      let r := match e.ctx with | some c => c + 1 | none => 0
      (mapLookup s.host.rings r = none → evHost e s = s) ∧
      (mapLookup s.host.rings r = some g → g.lost = 0 → evRoom s r g = true →
        let u := evHost e s
        u.tells (.hostWrite (g.evBase + 32 * g.evTail) (evEntry e g.evPhase g.evNum (e.at_.getD s.clk.count))) ∧
          (∃ g', mapLookup u.host.rings r = some g' ∧ (g'.evTail, g'.evPhase) = ringNext g.evTail g.evLog g.evPhase ∧ g'.evNum = g.evNum + 1 ∧
            g'.lost = 0) ∧ u.regs = s.regs ∧ u.mem = s.mem ∧ u.tiles = s.tiles) ∧
      (mapLookup s.host.rings r = some g → evRoom s r g = false →
        let u := evHost e s
        mapLookup u.host.rings r = some { g with lost := g.lost + 1 } ∧
          reg u (aHlk (0x104 + 0x10 * r)) = min 0xFFFFFFFF (reg s (aHlk (0x104 + 0x10 * r)) + 1) ∧ u.out = s.out ∧ u.host.held = s.host.held) ∧
      (mapLookup s.host.rings r = some g → g.lost ≠ 0 → evRoom s r g = true →
        (evFlush r s).tells (.hostWrite (g.evBase + 32 * g.evTail)
          (evEntry { die := 0, code := 1, ctx := e.ctx, p0 := g.lost } g.evPhase g.evNum s.clk.count)))) ∧
    (∀ (e : Ev) (s : State), sourceDefined e.die (eventSource e.code) = true →
      mapGet false (raise e s).icu.pend (e.die * 1024 + eventSource e.code) = true))

/-! ## Power -/

/-- The charges of a die's grants never pass its budget by a grant; a grid's request that fits is granted, and one that does not is
held; after a trip none is. A grant that has come begins the start ramp (its 10 cycles at least are log entry 73), and one that has
ended is released. Where the budget has fallen below what is charged, grid grants are marked for return, newest first, until what
is not marked fits or no grid grant is left, and each counts in POWER_HOLD (log entry 74); a write of PWR_LIMIT looks at every die's
budget again. -/
def Obligations.LeaveStaysWithinTheBudget : Prop :=
  (∀ (d : Nat) (s : State), charges (leavePump d s) d ≤ max (charges s d) (budgetOf s d)) ∧
  (∀ (d : Die) (t : TileId) (s : State),
    let x := getTile s (engine d t)
    s.live = true → x.phase = 1 → gridGrant s (engine d t) = none → reqsOf s d = [] → s.pwr.tripped = false →
    mapGet 0 s.pwr.nextGrant d ≤ cycleOf s →
    ∃ u, exec (.leaveRequest d (.grid t)) s = .next u ∧ u.mem = s.mem ∧ u.scr = s.scr ∧ u.tiles = s.tiles ∧ u.out = s.out ∧
      (if charges s d + gridMw x.klass ≤ budgetOf s d then
        grantsOf u d = grantsOf s d ++ [{ src := t.val, mw := gridMw x.klass, due := x.phaseAt + 10 }] ∧ reqsOf u d = []
       else grantsOf u d = grantsOf s d ∧ reqsOf u d = [{ tile := t.val, mw := gridMw x.klass, since := x.phaseAt, held := true }])) ∧
  (∀ (d : Die) (src : LeaveSrc) (s : State), (∀ t, src ≠ .grid t) → s.live = true → s.pwr.tripped = false →
    leavePending s d (leaveSrc src) = true → (grantsOf s d).all (·.src ≠ leaveSrc src) = true →
    ∃ u, exec (.leaveRequest d src) s = .next u ∧ u.mem = s.mem ∧ u.scr = s.scr ∧ u.tiles = s.tiles ∧ u.out = s.out ∧
      grantsOf u d = grantsOf s d ++ [{ src := leaveSrc src, mw := leaveMw src, due := s.now, here := true }]) ∧
  (∀ (d : Die) (t : TileId) (s : State) (g : LeaveGrant), s.live = true → firstOnWay s d t = true →
    mapGet 0 s.pwr.nextHere d ≤ cycleOf s → gridGrant s (engine d t) = some g → g.due ≤ cycleOf s → g.marked = false →
    ∃ u, exec (.leaveGrant d t) s = .next u ∧ getTile u (engine d t) = { getTile s (engine d t) with phase := 2, phaseAt := cycleOf s } ∧
      u.mem = s.mem ∧ u.scr = s.scr ∧ u.out = s.out) ∧
  (∀ (d : Die) (src : LeaveSrc) (s : State), s.live = true → grantOver s d (leaveSrc src) = true → reqsOf s d = [] →
    ∃ u, exec (.leaveRelease d src) s = .next u ∧ grantsOf u d = (grantsOf s d).filter (fun g => g.src ≠ leaveSrc src) ∧
      u.mem = s.mem ∧ u.scr = s.scr ∧ u.tiles = s.tiles ∧ u.out = s.out) ∧
  (∀ (d : Nat) (s : State), s.pwr.tripped = true → leavePump d s = s) ∧
  (∀ (d : Nat) (s : State),
    let gs := grantsOf s d
    let u := markReturns d s
    (gs.map (·.src)).Nodup →
    (grantsOf u d).map (fun g => { g with marked := false }) = gs.map (fun g => { g with marked := false }) ∧
      (∀ g ∈ grantsOf u d, g ∉ gs → g.src < 40 ∧ g.marked = true) ∧
      (sumMw ((grantsOf u d).filter fun g => !g.marked) ≤ budgetOf s d ∨ ∀ g ∈ grantsOf u d, g.src < 40 → g.marked = true) ∧
      (∀ (i j : Nat) (g h : LeaveGrant), i < j → (grantsOf u d)[i]? = some g → (grantsOf u d)[j]? = some h → g ∉ gs → h.src < 40 → h.marked = true)) ∧
  (∀ (m : Master) (a : Nat) (v : Word) (i j : Nat) (s : State), s.lastKind .pwrLimit m a v i j → hwSetNow s a = 0 →
    ∃ r, findReg a = some (r, i, j, false) ∧
      exec .arbitrationWindowEnd s = .next (drainHost (rebudgetAll (putReg a (r.write s.setup.committed (reg s a) v.toNat) (s.taken a v.toNat)))))

/-- The package enters the deepest state that may be entered once it has been idle for the dwell time, and is in P0 again when the
exit latency has passed after a wake event; what has come in the meantime then acts in its order. Outside P0 no write is accepted,
no unit is read and no message is served. (That a deeper state asks for what the lighter ones ask for is log entry 38; that a
message which waits wakes the package is log entry 133; P4's ports are log entry 81.) -/
def Obligations.PowerStatesAreEnteredAndLeft : Prop :=
  (∀ s : State, s.live = true → s.pwr.state = 0 → pkgIdle s = true → s.pwr.idleSince + 1000 * regF s (aPwr 0 0xC) 15 0 ≤ s.now → deepest s ≠ 0 →
    ∃ u, exec .dwellExpiry s = .next u ∧ u.pwr.state = deepest s ∧ u.pwr.waking = !(s.fab.inbox.all (·.2.isEmpty)) ∧ regF u (aPwr 0 0x10) 2 0 = deepest s ∧
      (deepest s = 4 → ∀ p ∈ allPorts s, (getPort u p).st = 0) ∧ u.mem = s.mem ∧ u.scr = s.scr ∧ u.tiles = s.tiles ∧ u.out = s.out) ∧
  (∀ s : State, s.live = true → s.pwr.waking = true → s.pwr.wakeAt + 1000 * exitLatency s.pwr.state ≤ s.now → s.host.inOrder = [] → s.fab.early = [] →
    ∃ u, exec .wake s = .next u ∧ u.pwr.state = 0 ∧ u.pwr.waking = false ∧ regF u (aPwr 0 0x10) 2 0 = 0 ∧ u.pwr.idleSince = s.now ∧
      u.mem = s.mem ∧ u.scr = s.scr ∧ u.tiles = s.tiles ∧ u.out = s.out) ∧
  (∀ s : State, s.live = true → s.pwr.waking = true → s.pwr.wakeAt + 1000 * exitLatency s.pwr.state ≤ s.now →
    let w := putRegF (aPwr 0 0x10) 2 0 0 { s with pwr := { s.pwr with state := 0, waking := false, idleSince := s.now } }
    exec .wake s = .next (applyEarly (if s.pwr.state = 4 then trainPorts w else w))) ∧
  (∀ s : State, s.pwr.state ≠ 0 →
    (∀ d c, exec (.writeAccept d c) s = .next s) ∧ (∀ a d c n e, exec (.hbmRead a d c n e) s = .next s) ∧ (∀ d, served s d = []) ∧
      ∀ d i, (arriveMsg d i s).fab.early = s.fab.early ++ [(d, i)] ∧ (arriveMsg d i s).pwr.waking = true)

/-- The reference, temperatures and the input: the status bits follow them; a warning temperature sets WARN and raises
TEMP_WARN, a trip temperature trips the package and raises THERMAL_TRIP; an input below 38.0 V for 100 µs raises VIN_LOW; the rails go
100 µs after a trip, or where the input has been outside its limits for 10 µs. (Temperatures are operands in 1/8 °C, log entry 72;
a stack's trip is log entry 75; sampling through a warm reset is log entry 130.) -/
def Obligations.SensorsAndTrips : Prop :=
  (∀ s : State, s.live = true →
    ∃ u v, exec .refLost s = .next u ∧ exec .refReturn s = .next v ∧ (∀ d, d < 8 → regF u (aPwr d 0) 6 6 = 1 ∧ regF v (aPwr d 0) 6 6 = 0) ∧
      u.mem = s.mem ∧ u.scr = s.scr ∧ u.tiles = s.tiles ∧ u.out = s.out ∧ v.mem = s.mem ∧ v.scr = s.scr ∧ v.tiles = s.tiles ∧ v.out = s.out) ∧
  (∀ (d : Die) (t a b : Int) (s : State), s.live = true →
    ∃ u, exec (.temperatureSample d t a b) s = .next u ∧ reg u (aPwr d 0x24) = err16 (max a b) * 2 ^ 16 + err16 t ∧
      u.pwr.tripped = (s.pwr.tripped || decide (8 * (regF s (aPwr 0 0x20) 15 8 : Int) ≤ t) || decide (840 ≤ max a b)) ∧
      (regF s (aPwr d 0) 2 2 = 0 → 8 * (regF s (aPwr 0 0x20) 23 16 : Int) ≤ t → regF u (aPwr d 0) 2 2 = 1 ∧
        mapGet false u.icu.pend (d * 1024 + eventSource 0x0803) = true) ∧
      (s.pwr.tripped = false → u.pwr.tripped = true → mapGet false u.icu.pend (d * 1024 + eventSource 0x0804) = true) ∧
      u.mem = s.mem ∧ u.scr = s.scr) ∧
  (∀ s : State, s.live = true → s.pwr.tripped = true → s.pwr.trippedAt + 100000 ≤ s.now →
    ∃ u, exec .tripRailRemoval s = .next u ∧ u.pwr.rails = false ∧ u.out = .railsOff :: s.out ∧ u.regs = s.regs ∧ u.mem = s.mem) ∧
  (∀ (as : Bool) (s : State), s.live = true → regF s (aPwr 0 0) 5 5 ≠ bit as 0 → s.clk.replaying = false →
    ∃ u, exec (.thermAlert as) s = .next u ∧ (∀ d, d < 8 → regF u (aPwr d 0) 5 5 = bit as 0) ∧
      (as = true → mapGet false u.icu.pend 64 = true) ∧ u.mem = s.mem ∧ u.scr = s.scr) ∧
  (∀ (mv ma : Nat) (s : State), s.pwr.rails = true →
    ∃ u, exec (.vinSample mv ma) s = .next u ∧
      u.pwr.rails = !heldFor (holdSince (mv < 35000 || 46000 < mv) s.pwr.cutSince s.now) s.now 10000 ∧
      (s.boot.inReset = false ∨ s.boot.resetCold = false →
        regF u (aPwr 0 0x30) 15 0 = mv % 2 ^ 16 ∧ regF u (aPwr 0 0x34) 15 0 = ma % 2 ^ 16 ∧ u.pwr.energy = s.pwr.energy + mv * ma) ∧
      (s.boot.inReset = false → regF s (aPwr 0 0) 3 3 = 0 → mv < 38000 → heldFor s.pwr.lowSince s.now 100000 = true →
        (∀ d, d < 8 → regF u (aPwr d 0) 3 3 = 1) ∧ mapGet false u.icu.pend (eventSource 0x0801) = true) ∧ u.mem = s.mem ∧ u.scr = s.scr) ∧
  (∀ s : State, s.live = true → s.clk.replaying = false →
    ∃ u, exec .powerControllerAlert s = .next u ∧ mapGet false u.icu.pend 65 = true ∧ u.mem = s.mem ∧ u.scr = s.scr ∧ u.tiles = s.tiles)

/-! ## Boot and reset -/

/-- The stages of boot: each goes on to the next where what it checks is sound; inconsistent fuses, clocks that do not lock, a bridge
or a stack that does not train leave the package FAILED; a flash or an image that fails its checks leads to RECOVERY. After a warm reset the retained copy boots where its digest still holds,
else the ROM goes back to the flash. The security version's fuses burn before hand-off where the image asks for it. (What the flash
holds as delivered is a free value, log entry 143; a bridge that does not train at CLOCKS is log entry 83.) -/
def Obligations.BootGoesThroughItsStages : Prop :=
  (∀ (ok : Bool) (s : State), s.live = true → bootStage s = 0 →
    ∃ u, exec (.fuses ok) s = .next u ∧ bootStage u = (if ok then 1 else 9) ∧ u.host.link ≠ 0 ∧ (ok = true → u.boot.grade = s.boot.fuseGrade) ∧
      u.mem = s.mem ∧ u.scr = s.scr ∧ u.tiles = s.tiles) ∧
  (∀ (ok : Bool) (e : Option (Fin 10)) (s : State), s.live = true → bootStage s = 1 →
    ∃ u, exec (.clocks ok e) s = .next u ∧ bootStage u = (if ok ∧ e = none then 2 else 9) ∧
      (ok = true → e ≠ none → u.boot.bridgeFault = true) ∧ u.mem = s.mem) ∧
  (∀ (tb he si : Bool) (s : State), s.live = true → bootStage s = 2 →
    let h := flashRead s 0 192
    let g := flashRead s 4096 256
    ∃ u, exec (.flash tb he si) s = .next u ∧ u.mem = s.mem ∧ u.scr = s.scr ∧ u.tiles = s.tiles ∧
      bootStage u = (if bootsRetained s then 3 else if (tb && he && si) = true ∧ firstBad (headChecks s h g) = none then 3 else 8) ∧
      (bootsRetained s = false → (tb && he && si) = true → firstBad (headChecks s h g) = none → u.boot.header = h ++ g)) ∧
  (∀ (tr bo : Bool) (s : State), s.live = true → bootStage s = 3 → bootsRetained s = false →
    let b := flashRead s 8192 (wordAt (imgHeader s) 0xC)
    ∃ u, exec (.hbm tr bo) s = .next u ∧ u.scr = s.scr ∧ u.tiles = s.tiles ∧
      bootStage u = (if !tr then 9 else if bo = true ∧ firstBad (bodyChecks s (imgHeader s) b) = none then 4 else 8) ∧
      (tr = true → bo = true → u.mem = memWrite s.mem (hbmCell 0 bodyAt) b)) ∧
  (∀ s : State,
    let n := wordAt (imgHeader s) 0xC
    let ok := decide (sha256 (hbmPeek .boot 0 bodyAt n s) = ((imgHeader s).drop 0x20).take 32)
    s.live = true → bootStage s = 3 → bootsRetained s = true → (unitsOf bodyAt n).all (fun u => (unitErrs s 0 u).isEmpty) = true →
    ∀ bo, ∃ u, exec (.hbm true bo) s = .next u ∧ bootStage u = (if ok then 4 else 2) ∧ u.boot.warmBoot = (s.boot.warmBoot && ok) ∧
      u.boot.retained = (if ok then s.boot.header else []) ∧ u.mem = s.mem ∧ u.scr = s.scr ∧ u.tiles = s.tiles) ∧
  (∀ (bad : List (Nat × List Nat)) (s : State), s.live = true → bootStage s = 4 →
    ∃ u, exec (.selftest bad) s = .next u ∧ bootStage u = 5 ∧ u.scr = [] ∧ u.rows = [] ∧ u.mem = s.mem ∧ u.tiles = s.tiles) ∧
  (∀ s : State, s.live = true → bootStage s = 5 →
    (s.boot.attKey = none → ∃ u, exec .identity s = .next u ∧ u.boot.attKey = some (attKeyOf Config.uds (measurement s)) ∧ bootStage u = 5 ∧
      u.mem = s.mem ∧ u.scr = s.scr ∧ u.tiles = s.tiles ∧ u.out = s.out) ∧
    (s.boot.attKey = none → ∃ u, exec .identity s = .next u ∧ u.boot.svnBurn =
      (if fld (imgHeader s) 8 8 8 = 1 ∧ s.boot.svn < fld (imgHeader s) 8 21 16 then some (fld (imgHeader s) 8 21 16) else none)) ∧
    (s.boot.svnBurn ≠ none → exec .firmware s = .next s) ∧
    (s.boot.attKey ≠ none → s.boot.svnBurn = none → ∃ u, exec .firmware s = .next u ∧ bootStage u = 6 ∧ u.icu.l2 = [] ∧
      (getCore u 0).mode = .firmware ∧ (getCore u 0).mmu = false ∧
      (getCore u 0).pc = BitVec.ofNat 64 (0x40 * 2 ^ 37 + bodyAt + wordAt (imgHeader s) 0x10) ∧ u.mem = s.mem ∧ u.scr = s.scr ∧ u.tiles = s.tiles)) ∧
  (∀ (m : Master) (a : Nat) (v : Word) (i j : Nat) (s : State), s.lastKind .secReady m a v i j →
    (bitsOf v.toNat 0 0 = 0 → exec .arbitrationWindowEnd s = .next (drainHost (s.taken a v.toNat))) ∧
    (bitsOf v.toNat 0 0 = 1 → ∃ u, exec .arbitrationWindowEnd s = .next u ∧ regF u (aSec 0 0) 0 0 = 1 ∧
      bootStage u = (if bootStage s = 6 then 7 else bootStage s) ∧ u.mem = s.mem ∧ u.scr = s.scr ∧ u.tiles = s.tiles))

/-- A cold reset leaves every register at its reset word, memory empty, the fuses and the flash as they are, and the package in
reset. A warm reset keeps the counter, die 0's stacks, the RWS fields of every register and the input energy (log entry
130), and leaves every other field at its reset value, and every other memory, every tile and every row engine empty; after
a thermal trip it counts as cold. During a fuse burn the reset waits. Release comes at least 1 ms after the last reset
input's return high, and at power-up 1 ms of the reference (when the inputs return and when the reference comes into range
is the board's, free values of log entry 145); a reset written to IDV_RESET with its key is recognised 10 µs after; what is
written to IDV_MBOX stands there, and the management controller's raises source 66. Power-up: the rise of the input is
remembered while the rails are off, and 10 ms later the rails in regulation leave the package in cold reset. (A burn of the
security version's fuses that the loss of power cut short is left out: how far it came is a free value, log entry 144.) -/
def Obligations.ResetsAndPowerUp : Prop :=
  ((∀ s : State, (s.pwr.rails = true ∨ s.pwr.tripped = true) → burning s = false →
      ∃ u, exec .coldReset s = .next u ∧ (∀ a, regW u a = resetWord a) ∧ u.mem = [] ∧ u.scr = [] ∧ u.tiles = [] ∧ u.rows = [] ∧
        u.live = false ∧ (flashWriting s = false → u.boot.flash = s.boot.flash) ∧ u.boot.fuseGrade = s.boot.fuseGrade ∧ u.boot.svn = s.boot.svn ∧ u.boot.revoke = s.boot.revoke ∧
        u.clk.count = 0 ∧ u.clk.t = s.clk.t ∧ u.pending = s.pending ∧ u.setup.committed = false) ∧
    (∀ s : State, s.pwr.rails = true → burning s = false → (s.boot.inReset && s.boot.resetCold) = false → regraded s = false → s.pwr.tripped = false →
      ∃ u, exec .warmReset s = .next u ∧ u.clk.count = s.clk.count ∧ u.pwr.energy = s.pwr.energy ∧
        (∀ a, a ≠ aPwr 0 0x40 → a ≠ aPwr 0 0x44 → reg u a = (match findReg a with
          | some (r, _, _, hi) => (reg s a &&& rwsMask r hi) + ((resetWord a).toNat - ((resetWord a).toNat &&& rwsMask r hi))
          | none => (resetWord a).toNat)) ∧
        u.mem = s.mem.filter (fun e => e.1 < 2 ^ 38) ∧ u.scr = [] ∧ u.tiles = [] ∧ u.rows = [] ∧ u.live = false ∧
        u.boot.retained = s.boot.retained ∧ u.pending = s.pending ∧ u.setup.committed = false) ∧
    (∀ s : State, s.pwr.tripped = true → burning s = false →
      ∃ u, exec .warmReset s = .next u ∧ (∀ a, regW u a = resetWord a) ∧ u.mem = [] ∧ u.boot.resetCold = true ∧ u.live = false) ∧
    (∀ s : State, s.pwr.rails = true → burning s = true →
      ∃ u v, exec .coldReset s = .next u ∧ exec .warmReset s = .next v ∧ u.boot.dueReset = max s.boot.dueReset 2 ∧
        v.boot.dueReset = max s.boot.dueReset 1 ∧ u.regs = s.regs ∧ v.regs = s.regs ∧ u.mem = s.mem ∧ v.mem = s.mem ∧ u.scr = s.scr ∧ v.scr = s.scr) ∧
    (∀ (v : Nat) (s : State), s.pwr.rails = true → s.boot.svnBurn = some v → s.boot.dueReset = 0 →
      ∃ u, exec .fuseBurnComplete s = .next u ∧ u.boot.svn = v ∧ u.boot.svnBurn = none ∧ regF u (aSec 0 4) 29 24 = v % 64 ∧ u.mem = s.mem ∧
        u.scr = s.scr ∧ u.tiles = s.tiles ∧ u.out = s.out) ∧
    (∀ s : State, s.boot.inReset = true → s.pwr.rails = true → s.boot.resetAt + 1000000 ≤ s.clk.t →
      (s.boot.rstLow = true ∨ s.boot.wrstLow = true ∨ s.boot.fromPower = true →
        s.boot.resetAt + Config.inputLow s.boot.resetAt + 1000000 ≤ s.clk.t) →
      (s.boot.fromPower = true → Config.refclkAt s.boot.resetAt + 1000000 ≤ s.clk.t) →
      ∃ u, exec .resetRelease s = .next u ∧ u.live = true ∧ u.boot.releaseAt = s.clk.t ∧ u.regs = s.regs ∧ u.mem = s.mem ∧
        u.scr = s.scr) ∧
    (∀ s : State, s.clk.t < s.boot.resetAt + 1000000 ∨
        ((s.boot.rstLow = true ∨ s.boot.wrstLow = true) ∧ s.clk.t < s.boot.resetAt + Config.inputLow s.boot.resetAt + 1000000) →
      exec .resetRelease s = .next s) ∧
    (∀ (m : Master) (a : Nat) (v : Word) (i j : Nat) (s : State),
      let op := bitsOf v.toNat 1 0
      (s.lastKind .idvReset m a v i j →
        (bitsOf v.toNat 31 16 = 0x5A38 → op = 1 ∨ op = 2 →
          ∃ u, exec .arbitrationWindowEnd s = .next u ∧ u.boot.idvResets = s.boot.idvResets ++ [(s.clk.t, op)] ∧ u.regs = s.regs ∧
            u.mem = s.mem ∧ u.scr = s.scr ∧ u.tiles = s.tiles ∧ u.out = s.out) ∧
        (¬(bitsOf v.toNat 31 16 = 0x5A38 ∧ (op = 1 ∨ op = 2)) →
          exec .arbitrationWindowEnd s = .next (drainHost (s.taken a v.toNat)))) ∧
      (s.lastKind .idvMbox m a v i j → s.clk.replaying = false → s.clk.recording = false →
        ∃ u, exec .arbitrationWindowEnd s = .next u ∧ reg u (aIdv 0 0x10) = v.toNat ∧ (m = .bmc → mapGet false u.icu.pend 66 = true) ∧
          (m ≠ .bmc → u.icu.pend = s.icu.pend) ∧ u.mem = s.mem ∧ u.scr = s.scr ∧ u.tiles = s.tiles)) ∧
    (∀ (s : State) (t op : Nat) (r : List (Nat × Nat)), s.boot.idvResets = (t, op) :: r → s.pwr.rails = true → t + 10000 ≤ s.clk.t →
      exec .idvResetRecognised s = .next (recognise (op = 2) { s with boot := { s.boot with idvResets := r } }))) ∧
  ((∀ s : State, s.pwr.rails = false → s.pwr.tripped = false → s.pwr.vinAt = none →
      ∃ u, exec .vinRise s = .next u ∧ u.pwr.vinAt = some s.clk.t ∧ u.regs = s.regs ∧ u.mem = s.mem ∧ u.scr = s.scr ∧ u.out = s.out) ∧
    (∀ (s : State) (t : Nat), s.pwr.rails = false → s.boot.svnBurn = none → s.pwr.vinAt = some t → t + 10000000 ≤ s.clk.t →
      ∃ u, exec .powerGood s = .next u ∧ u.pwr.rails = true ∧ u.live = false ∧ (∀ a, regW u a = resetWord a) ∧ u.mem = [] ∧ u.scr = [] ∧
        u.tiles = [] ∧ u.boot.svn = s.boot.svn))

/-! ## The management bus -/

/-- The commands of the management bus: a dynamic address is taken where none is held, SETDASA's where its static address is 0x3A (both
follow the standard that R437 names, log entry 77), RSTDAA takes it away, the GET commands return
their bytes (whose values are the device's own), and ENEC and DISEC switch the in-band interrupts. A private transfer acts where it
is addressed to the target: one of another length than the rule's is NACKed and does nothing else; a read of 4 bytes returns the
register that its address names. -/
def Obligations.ManagementBusCommands : Prop :=
  ∀ (s : State) (a : BitVec 7), s.live = true →
    (s.boot.dynAddr = none → ∃ u v, exec (.entdaa a) s = .next u ∧ exec (.setdasa ⟨0x3A, a⟩) s = .next v ∧ u.boot.dynAddr = some a.toNat ∧ v = u ∧
      u.regs = s.regs ∧ u.mem = s.mem ∧ u.out = s.out) ∧
    (s.boot.dynAddr ≠ none → exec (.entdaa a) s = .next s ∧ ∀ b, exec (.setdasa ⟨b, a⟩) s = .next s) ∧
    (∀ b, b ≠ 0x3A → exec (.setdasa ⟨b, a⟩) s = .next s) ∧
    (∀ b, i3cMine s a = true → b.length ≠ 8 → exec (.i3cPrivateWrite ⟨a, b⟩) s = .next (emit .i3cNack s)) ∧
    (∀ b n, i3cMine s a = true → ¬(b.length = 4 ∧ n = 4) → exec (.i3cPrivateRead ⟨a, b⟩ n) s = .next (emit .i3cNack s)) ∧
    (∀ b, i3cMine s a = true → b.length = 4 →
      exec (.i3cPrivateRead ⟨a, b⟩ 4) s = .next (emit (.i3c (natLE 4 (readSetup .bmc (wordAt b 0) 4 s).2)) (readSetup .bmc (wordAt b 0) 4 s).1)) ∧
    (∀ b n, i3cMine s a = false → exec (.i3cPrivateWrite ⟨a, b⟩) s = .next s ∧ exec (.i3cPrivateRead ⟨a, b⟩ n) s = .next s) ∧
    (∃ u, exec .rstdaa s = .next u ∧ u.boot.dynAddr = none ∧ u.regs = s.regs ∧ u.mem = s.mem ∧ u.out = s.out) ∧
    (∃ u b, exec .getpid s = .next u ∧ b.length = 6 ∧ u = emit (.i3c b) s) ∧ (∃ u b, exec .getbcr s = .next u ∧ u = emit (.i3c [b]) s) ∧
    (∃ u b, exec .getdcr s = .next u ∧ u = emit (.i3c [b]) s) ∧
    (∃ u b, exec .getstatus s = .next u ∧ b.length = 2 ∧ u.out = .i3c b :: s.out ∧ u.regs = s.regs ∧ u.mem = s.mem ∧ u.boot = s.boot) ∧
    (∃ u, exec .enec s = .next u ∧ u.boot.ibi = true ∧ u.regs = s.regs ∧ u.mem = s.mem ∧ u.out = s.out) ∧
    (∃ u, exec .disec s = .next u ∧ u.boot.ibi = false ∧ u.regs = s.regs ∧ u.mem = s.mem ∧ u.out = s.out)

/-! ## Numbers -/

/-- Rounding to nearest, ties to even: the multiple chosen is no further than half a unit away, at a tie it is the even one, and
a number that is a multiple already is kept. A finite value that a floating-point format of an element holds is converted to
that format without change, by either rounding and with any key, and is not saturated. Widening is exact (R208): a finite
value that a floating-point format of an element holds has, as binary32, its sign and its value, and sets no flag. Turning
(R197): vector t of a row group, at row r of entry k, carries element t mod n of source row r of the tile that the order of
tiles gives, under the scale byte of its own source block. (Every format of the grid is turned, log entry 138.) The codec
(R201, R202): the image of a source row has the length that the rule gives, padded to 64 bytes, and a block whose scale is
0xFF expands to the canonical NaN of the target in every element. (What a value past the target's largest magnitude becomes
is log entry 139.) -/
def Obligations.ConversionsRoundAndHold : Prop :=
  (∀ (m k : Nat),
      let d : Int := 2 ^ k
      let r := rne m (-(k : Int))
      2 * ((m : Int) - r * d).natAbs ≤ 2 ^ k ∧ (k ≠ 0 → 2 * ((m : Int) - r * d).natAbs = 2 ^ k → r % 2 = 0) ∧ (m % 2 ^ k = 0 → (r : Int) * d = m)) ∧
  (∀ (c : Nat) (f : FpFmt) (k : ConvKey) (i x : Nat) (neg : Bool) (m : Nat) (e : Int),
      codeFp c = some f → x < 2 ^ (f.eb + f.mb + 1) → f.decode x = .fin neg m e →
      (convPlain c k i (f.decode x)).bits = x ∧ (convPlain c k i (f.decode x)).sat = false) ∧
  (∀ (c : Nat) (f : FpFmt) (x : Nat) (neg : Bool) (m : Nat) (e : Int),
      codeFp c = some f → x < 2 ^ (f.eb + f.mb + 1) → f.decode x = .fin neg m e →
      (widen32 (.fin neg m e)).fl = 0 ∧
        ∃ n g, val32 (widen32 (.fin neg m e)).bits = .fin neg n g ∧ m * 2 ^ (e - min e g).toNat = n * 2 ^ (g - min e g).toNat) ∧
  (∀ (b : List Byte) (u : Sub) (batch : Nat) (part : List Byte),
      let n := tdSide b
      let f := tdX b
      let bands := bandsOf b u batch
      let w := if tdSwapped b then 1 else if tdClass b = 0 then 2 else 1
      let ents := if tdSwapped b then 1 else (maskBits (tdUse b)).length
      let place (k bd : Nat) : Nat := (k / w * bands + bd) * w + k % w
      let tile (i : Nat) : List Byte := (part.drop (i * tileBytes b)).take (tileBytes b)
      (∀ k bd, k < ents → bd < bands → (place k bd + 1) * tileBytes b ≤ part.length) →
      ∀ t k r, t < (subRows b u batch).length → k < ents → r < n →
        let tb := tile (place k (t / n))
        (((turnedVals b u batch part)[t]?).bind (·[k * n + r]?)) =
          (rowVals f (((elems f (n * n) tb).drop (r * n)).take n)
            (((tb.drop (elemBytes f (n * n))).drop (r * (n / 32))).take (n / 32)))[t % n]?) ∧
  ((∀ (c : Nat) (k : ConvKey) (ix : Nat) (row : List Byte), c = 1 ∨ c = 2 → row.length % 64 = 0 →
      (narrow c k ix row).1.length = imageBytes c row.length) ∧
    (∀ (c l i : Nat) (img : List Byte), c = 1 ∨ c = 2 → l % 64 = 0 → i < codecElems c l → img.length = imageBytes c l →
      (img.drop (l / 2))[i / 32]? = some 0xFF →
      (elems (codecSrc c) (codecElems c l) (expand c l img).1)[i]? = some (if c = 1 then 0x7FC0 else 0x7F)))

/-- The residue lane of a partial sum follows what truncation and clipping took from its exact products, and the residue word of
an accumulator follows its sum: a sum that agrees with its residue still agrees after every partial sum that is added.
Read-out (R55): the marks decide the result first; without marks the accumulator's value Q × 2^(A − 64), held within its
window, is rounded once to binary32, to nearest even, and passes to infinity at the overflow threshold, with the flags that
say so. Rows (R209, R211): the maximum of a row is a NaN where an element is, else the greatest element, −0 below +0; a row
of the soft maximum that is wholly masked gives m = lg = −Inf and +0 throughout, one with a NaN that is not masked the
canonical NaN throughout; RELU passes what is greater than 0; and partials combine to the same sum in whatever order they
come (R56). -/
def Obligations.ResiduesFollowTheSums : Prop :=
  ((∀ (a : Int) (ps : Psum) (s t : Bool) (m n : Nat) (e f : Int),
      let ps' := addProduct a ps (.fin s m e) (.fin t n f)
      (ps'.lane + rotQ (resOf ps'.p 0) (a - 64)) % resQ =
        (ps.lane + rotQ (resOf ps.p 0) (a - 64) + resOf (if s != t then -((m * n : Nat) : Int) else ((m * n : Nat) : Int)) (e + f)) % resQ) ∧
    (∀ (c : Accu) (ps : Psum), c.checks = true → (c.add ps).checks = true)) ∧
  (∀ (a : Int) (c : Accu),
      let q := max winMin (min winMax c.q)
      let u := fpFP32.ulp q.natAbs (a - 64)
      let mag := min 0x7F800000 (fpFP32.encodeMag (rne q.natAbs (a - 64 - u)) u)
      (c.nan = true ∨ (c.pinf = true ∧ c.ninf = true) → (readOut a c).1 = 0x7FC00000) ∧
      (c.nan = false → c.pinf = true → c.ninf = false → (readOut a c).1 = 0x7F800000) ∧
      (c.nan = false → c.pinf = false → c.ninf = true → (readOut a c).1 = 0xFF800000) ∧
      (c.nan = false → c.pinf = false → c.ninf = false →
        (q = 0 → (readOut a c).1 = 0) ∧
        (q ≠ 0 → (readOut a c).1 = (if q < 0 then 2 ^ 31 else 0) + mag ∧ (readOut a c).2.f32Ovf = decide (mag = 0x7F800000) ∧
          (readOut a c).2.f32Unf = decide (mag < 0x800000)))) ∧
  ((∀ l : List Nat, (∀ x ∈ l, x < 2 ^ 32) →
      ((∃ x ∈ l, isNan32 x = true) → maxRow l = 0x7FC00000) ∧
      ((∀ x ∈ l, isNan32 x = false) → l ≠ [] → maxRow l ∈ l ∧ ∀ x ∈ l, ordKey x ≤ ordKey (maxRow l))) ∧
    (∀ (alpha : Nat) (hidden : Nat → Bool) (v : List Nat),
      let r := smaxFwd alpha hidden v
      ((∀ j, j < v.length → hidden j = true) → r.out = List.replicate v.length 0 ∧ r.stat = (0xFF800000, 0xFF800000)) ∧
      (∀ j x, v[j]? = some x → hidden j = false → isNan32 x = true →
        r.out = List.replicate v.length 0x7FC00000 ∧ r.stat.1 = 0x7FC00000)) ∧
    (∀ x y : Nat, (isNan32 x = true → (act32 0 x).bits = 0x7FC00000 ∧ (actBwd32 0 x y).bits = 0x7FC00000) ∧
      (isNan32 x = false → 0 < x → x < 2 ^ 31 → (act32 0 x).bits = x ∧ (actBwd32 0 x y).bits = y) ∧
      (isNan32 x = false → x = 0 ∨ 2 ^ 31 ≤ x → (act32 0 x).bits = 0 ∧ (actBwd32 0 x y).bits = 0) ∧ (act32 0 x).fl = 0) ∧
    (∀ ps qs : List Partial, ps.Perm qs → (ps.map fun p => (p.engine, p.chunk)).Nodup → combineParts ps = combineParts qs))
end

