-- ==== Sys2Proof/Laws/Link.lean ====
section
/-! SUPPORT. Frames and their check word: a CRC is a word, and a frame that is closed by its CRC carries it where a receiver
reads it. -/

namespace Sys2Proof.Machine

@[simp] theorem length_natLE (n v : Nat) : (natLE n v).length = n := by
  induction n generalizing v with
  | zero => rfl
  | succ n ih => simp [natLE, ih]

theorem leNat_natLE (n v : Nat) (h : v < 256 ^ n) : leNat (natLE n v) = v := by
  induction n generalizing v with
  | zero => simp only [natLE, leNat]; omega
  | succ n ih =>
    have hq : v / 256 < 256 ^ n := Nat.div_lt_of_lt_mul (by rw [Nat.pow_succ, Nat.mul_comm] at h; exact h)
    simp only [natLE, leNat, ih _ hq, BitVec.toNat_ofNat]
    omega

theorem crcByte_lt (c b : Nat) (hc : c < 2 ^ 32) (hb : b < 2 ^ 32) : crcByte c b < 2 ^ 32 := by
  have step : ∀ (l : List Nat) (x : Nat), x < 2 ^ 32 →
      l.foldl (fun x _ => if x % 2 = 1 then (x / 2) ^^^ 0xEDB88320 else x / 2) x < 2 ^ 32 := by
    intro l
    induction l with
    | nil => exact fun x h => h
    | cons a l ih =>
      intro x h
      refine ih _ ?_
      show (if x % 2 = 1 then x / 2 ^^^ 0xEDB88320 else x / 2) < 2 ^ 32
      split
      · exact Nat.xor_lt_two_pow (by omega) (by omega)
      · omega
  exact step _ _ (Nat.xor_lt_two_pow hc hb)

theorem crc32_lt (l : List Byte) : crc32 l < 2 ^ 32 := by
  have step : ∀ (l : List Byte) (c : Nat), c < 2 ^ 32 → l.foldl (fun c b => crcByte c b.toNat) c < 2 ^ 32 := by
    intro l
    induction l with
    | nil => exact fun c h => h
    | cons a l ih => exact fun c h => ih _ (crcByte_lt _ _ h (by have := a.isLt; omega))
  exact Nat.xor_lt_two_pow (step _ _ (by omega)) (by omega)

/-- Bytes closed by their CRC are a frame whose check word is right (R245). -/
theorem crc_of_closed (l : List Byte) (h : l.length = 0x42C) :
    (l ++ natLE 4 (crc32 l)).length = 1072 ∧ wordAt (l ++ natLE 4 (crc32 l)) 0x42C = crc32 ((l ++ natLE 4 (crc32 l)).take 0x42C) := by
  refine ⟨by simp [h], ?_⟩
  rw [List.take_left' h]
  unfold wordAt
  rw [List.drop_left' h, List.take_of_length_le (by simp), leNat_natLE _ _ (crc32_lt l)]

end Sys2Proof.Machine
end

