-- ==== Sys2Proof/Laws/Map.lean ====
section
/-! SUPPORT. The laws of the maps and of the byte memories: a read after a write gives what was written, a write leaves
every other place alone, and every write keeps the canonical form. -/

namespace Sys2Proof.Machine

variable {α : Type}

@[simp] theorem mapLookup_insert_same (m : SMap α) (n : Nat) (v : α) : mapLookup (mapInsert m n v) n = some v := by
  induction m with
  | nil => simp [mapInsert, mapLookup]
  | cons e r ih =>
    obtain ⟨k, w⟩ := e
    by_cases h1 : n < k
    · simp [mapInsert, mapLookup, h1]
    · by_cases h2 : n = k
      · simp [mapInsert, mapLookup, h2]
      · simp [mapInsert, mapLookup, h1, h2, ih]

theorem mapLookup_insert_other (m : SMap α) (n k : Nat) (v : α) (h : k ≠ n) :
    mapLookup (mapInsert m n v) k = mapLookup m k := by
  induction m with
  | nil => simp [mapInsert, mapLookup, h]
  | cons e r ih =>
    obtain ⟨j, w⟩ := e
    by_cases h1 : n < j
    · simp [mapInsert, mapLookup, h1, h]
    · by_cases h2 : n = j
      · subst h2; simp [mapInsert, mapLookup, h]
      · simp only [mapInsert, h1, h2, if_false, mapLookup, ih]

@[simp] theorem mapLookup_erase_same (m : SMap α) (n : Nat) : mapLookup (mapErase m n) n = none := by
  induction m with
  | nil => rfl
  | cons e r ih =>
    obtain ⟨k, w⟩ := e
    by_cases h : k = n
    · subst h; simpa [mapErase] using ih
    · have h' : ¬ n = k := fun e => h e.symm
      simpa [mapErase, mapLookup, h, h'] using ih

theorem mapLookup_erase_other (m : SMap α) (n k : Nat) (h : k ≠ n) : mapLookup (mapErase m n) k = mapLookup m k := by
  induction m with
  | nil => rfl
  | cons e r ih =>
    obtain ⟨j, w⟩ := e
    by_cases hj : j = n
    · subst hj
      have : mapErase ((j, w) :: r) j = mapErase r j := by simp [mapErase]
      rw [this, ih]; simp [mapLookup, h]
    · have : mapErase ((j, w) :: r) n = (j, w) :: mapErase r n := by simp [mapErase, hj]
      rw [this]; simp only [mapLookup, ih]

@[simp] theorem mapGet_nil (d : α) (n : Nat) : mapGet d ([] : SMap α) n = d := rfl

variable [DecidableEq α]

@[simp] theorem mapGet_set_same (d : α) (m : SMap α) (n : Nat) (v : α) : mapGet d (mapSet d m n v) n = v := by
  by_cases h : v = d <;> simp [mapGet, mapSet, h]

theorem mapGet_set_other (d : α) (m : SMap α) (n k : Nat) (v : α) (h : k ≠ n) :
    mapGet d (mapSet d m n v) k = mapGet d m k := by
  by_cases hv : v = d
  · simp [mapGet, mapSet, hv, mapLookup_erase_other m n k h]
  · simp [mapGet, mapSet, hv, mapLookup_insert_other m n k v h]

/-- Reading any key after a write. -/
theorem mapGet_set (d : α) (m : SMap α) (n k : Nat) (v : α) :
    mapGet d (mapSet d m n v) k = if k = n then v else mapGet d m k := by
  by_cases h : k = n
  · subst h; simp
  · simp [h, mapGet_set_other d m n k v h]

/-! ## The canonical form -/

/-- The canonical form, said of a whole list: keys strictly rising, no entry at the default. -/
theorem mapWf_iff (d : α) (m : SMap α) :
    mapWf d m = true ↔ m.Pairwise (fun a b => a.1 < b.1) ∧ ∀ e ∈ m, e.2 ≠ d := by
  induction m with
  | nil => simp [mapWf]
  | cons e r ih =>
    obtain ⟨k, v⟩ := e
    cases r with
    | nil => simp [mapWf]
    | cons f q =>
      obtain ⟨k', v'⟩ := f
      have : mapWf d ((k, v) :: (k', v') :: q) = (decide (k < k') && v != d && mapWf d ((k', v') :: q)) := rfl
      rw [this, Bool.and_eq_true, Bool.and_eq_true, ih]
      constructor
      · rintro ⟨⟨h1, h2⟩, h3, h4⟩
        have h1 : k < k' := by simpa using h1
        have h2 : v ≠ d := by simpa using h2
        refine ⟨List.Pairwise.cons ?_ h3, ?_⟩
        · intro b hb
          rcases List.mem_cons.1 hb with rfl | hb
          · exact h1
          · exact Nat.lt_trans h1 ((List.pairwise_cons.1 h3).1 b hb)
        · intro e he
          rcases List.mem_cons.1 he with rfl | he
          · exact h2
          · exact h4 e he
      · rintro ⟨h1, h2⟩
        obtain ⟨h3, h4⟩ := List.pairwise_cons.1 h1
        exact ⟨⟨by simpa using h3 (k', v') (by simp), by simpa using h2 (k, v) (by simp)⟩, h4, fun e he => h2 e (by simp [he])⟩

theorem mapErase_wf (d : α) (m : SMap α) (n : Nat) (h : mapWf d m = true) : mapWf d (mapErase m n) = true := by
  rw [mapWf_iff] at h ⊢
  exact ⟨h.1.filter _, fun e he => h.2 e (List.mem_filter.1 he).1⟩

omit [DecidableEq α] in
theorem mem_mapInsert (m : SMap α) (n : Nat) (v : α) (e : Nat × α) (h : e ∈ mapInsert m n v) : e = (n, v) ∨ e ∈ m := by
  induction m with
  | nil => simpa [mapInsert] using h
  | cons f r ih =>
    obtain ⟨k, w⟩ := f
    by_cases h1 : n < k
    · simpa [mapInsert, h1] using h
    · by_cases h2 : n = k
      · subst h2
        rcases (by simpa [mapInsert] using h : e = (n, v) ∨ e ∈ r) with h | h <;> simp [h]
      · simp only [mapInsert, h1, h2, if_false, List.mem_cons] at h
        rcases h with rfl | h
        · simp
        · rcases ih h with h | h <;> simp [h]

theorem mapInsert_wf (d : α) (m : SMap α) (n : Nat) (v : α) (hv : v ≠ d) (h : mapWf d m = true) :
    mapWf d (mapInsert m n v) = true := by
  rw [mapWf_iff] at h ⊢
  refine ⟨?_, fun e he => ?_⟩
  · replace h := h.1
    induction m with
    | nil => simp [mapInsert]
    | cons f r ih =>
      obtain ⟨k, w⟩ := f
      obtain ⟨h3, h4⟩ := List.pairwise_cons.1 h
      by_cases h1 : n < k
      · simp only [mapInsert, h1, if_true]
        refine List.Pairwise.cons ?_ h
        intro b hb
        rcases List.mem_cons.1 hb with rfl | hb
        · exact h1
        · exact Nat.lt_trans h1 (h3 b hb)
      · by_cases h2 : n = k
        · subst h2
          simp only [mapInsert, Nat.lt_irrefl, if_false, if_true]
          exact List.Pairwise.cons h3 h4
        · simp only [mapInsert, h1, h2, if_false]
          refine List.Pairwise.cons ?_ (ih h4)
          intro b hb
          rcases mem_mapInsert r n v b hb with rfl | hb
          · show k < n; omega
          · exact h3 b hb
  · rcases mem_mapInsert m n v e he with rfl | he
    · exact hv
    · exact h.2 e he

/-- A write keeps the canonical form. -/
theorem mapSet_wf (d : α) (m : SMap α) (n : Nat) (v : α) (h : mapWf d m = true) : mapWf d (mapSet d m n v) = true := by
  by_cases hv : v = d
  · simpa [mapSet, hv] using mapErase_wf d m n h
  · simpa [mapSet, hv] using mapInsert_wf d m n v hv h

/-- Dropping entries keeps the canonical form. -/
theorem mapFilter_wf (d : α) (m : SMap α) (p : Nat × α → Bool) (h : mapWf d m = true) : mapWf d (m.filter p) = true := by
  rw [mapWf_iff] at h ⊢
  exact ⟨h.1.filter _, fun e he => h.2 e (List.mem_filter.1 he).1⟩

/-! ## Bytes of memory -/

theorem memSet_wf (m : List Host.Cell) (a : Nat) (b : Byte) (h : Memory.wf m) : Memory.wf (memSet m a b) :=
  mapSet_wf emptyCell m a b h

theorem memWrite_wf (m : List Host.Cell) (a : Nat) (l : List Byte) (h : Memory.wf m) : Memory.wf (memWrite m a l) := by
  induction l generalizing m a with
  | nil => exact h
  | cons b r ih => exact ih _ _ (memSet_wf m a b h)

theorem memGet_write_below (m : List Host.Cell) (a x : Nat) (l : List Byte) (h : x < a) : memGet (memWrite m a l) x = memGet m x := by
  induction l generalizing m a with
  | nil => rfl
  | cons b r ih =>
    rw [memWrite, ih _ _ (by omega)]
    exact mapGet_set_other emptyCell m a x b (by omega)

/-- A byte after a write: one of those written, or what it was. -/
theorem memGet_write (m : List Host.Cell) (a x : Nat) (l : List Byte) :
    memGet (memWrite m a l) x = if h : a ≤ x ∧ x < a + l.length then l[x - a]'(by omega) else memGet m x := by
  induction l generalizing m a with
  | nil =>
    have : ¬ (a ≤ x ∧ x < a + ([] : List Byte).length) := fun h => by have := h.2; simp at this; omega
    rw [dif_neg this]; rfl
  | cons b r ih =>
    rw [memWrite]
    by_cases hx : x = a
    · subst hx
      rw [memGet_write_below _ _ _ _ (by omega), dif_pos (by simp)]
      simp [memGet, memSet]
    · rw [ih]
      by_cases h1 : a + 1 ≤ x ∧ x < a + 1 + r.length
      · rw [dif_pos h1, dif_pos ⟨by omega, by simp; omega⟩]
        have : x - a = (x - (a + 1)) + 1 := by omega
        simp [this]
      · rw [dif_neg h1, dif_neg (by simp; omega)]
        exact mapGet_set_other emptyCell m a x b hx

@[simp] theorem memRead_length (m : List Host.Cell) (a n : Nat) : (memRead m a n).length = n := by
  induction n generalizing a with
  | zero => rfl
  | succ k ih => simp [memRead, ih]

end Sys2Proof.Machine
end

