-- ==== Sys2Proof/Laws/State.lean ====
section
/-! SUPPORT. What each update of the state leaves alone: one lemma per field per update, each true by unfolding. -/

namespace Sys2Proof.Machine

/-! ### emit -/

@[simp] theorem emit_pending (o : Out) (s : State) : (emit o s).pending = s.pending := rfl
@[simp] theorem emit_regs (o : Out) (s : State) : (emit o s).regs = s.regs := rfl
@[simp] theorem emit_setup (o : Out) (s : State) : (emit o s).setup = s.setup := rfl
@[simp] theorem emit_mem (o : Out) (s : State) : (emit o s).mem = s.mem := rfl
@[simp] theorem emit_scr (o : Out) (s : State) : (emit o s).scr = s.scr := rfl
@[simp] theorem emit_hbm (o : Out) (s : State) : (emit o s).hbm = s.hbm := rfl
@[simp] theorem emit_host (o : Out) (s : State) : (emit o s).host = s.host := rfl
@[simp] theorem emit_icu (o : Out) (s : State) : (emit o s).icu = s.icu := rfl
@[simp] theorem emit_tiles (o : Out) (s : State) : (emit o s).tiles = s.tiles := rfl
@[simp] theorem emit_fab (o : Out) (s : State) : (emit o s).fab = s.fab := rfl
@[simp] theorem emit_rings (o : Out) (s : State) : (emit o s).rings = s.rings := rfl
@[simp] theorem emit_loads (o : Out) (s : State) : (emit o s).loads = s.loads := rfl
@[simp] theorem emit_checks (o : Out) (s : State) : (emit o s).checks = s.checks := rfl
@[simp] theorem emit_checkAt (o : Out) (s : State) : (emit o s).checkAt = s.checkAt := rfl
@[simp] theorem emit_stones (o : Out) (s : State) : (emit o s).stones = s.stones := rfl
@[simp] theorem emit_rows (o : Out) (s : State) : (emit o s).rows = s.rows := rfl
@[simp] theorem emit_clk (o : Out) (s : State) : (emit o s).clk = s.clk := rfl
@[simp] theorem emit_boot (o : Out) (s : State) : (emit o s).boot = s.boot := rfl
@[simp] theorem emit_pwr (o : Out) (s : State) : (emit o s).pwr = s.pwr := rfl
@[simp] theorem emit_out (o : Out) (s : State) : (emit o s).out = o :: s.out := rfl
@[simp] theorem emit_freeCtr (o : Out) (s : State) : (emit o s).freeCtr = s.freeCtr := rfl

/-! ### putRegW -/

@[simp] theorem putRegW_pending (a : Nat) (v : Word) (s : State) : (putRegW a v s).pending = s.pending := rfl
@[simp] theorem putRegW_setup (a : Nat) (v : Word) (s : State) : (putRegW a v s).setup = s.setup := rfl
@[simp] theorem putRegW_mem (a : Nat) (v : Word) (s : State) : (putRegW a v s).mem = s.mem := rfl
@[simp] theorem putRegW_scr (a : Nat) (v : Word) (s : State) : (putRegW a v s).scr = s.scr := rfl
@[simp] theorem putRegW_hbm (a : Nat) (v : Word) (s : State) : (putRegW a v s).hbm = s.hbm := rfl
@[simp] theorem putRegW_host (a : Nat) (v : Word) (s : State) : (putRegW a v s).host = s.host := rfl
@[simp] theorem putRegW_icu (a : Nat) (v : Word) (s : State) : (putRegW a v s).icu = s.icu := rfl
@[simp] theorem putRegW_tiles (a : Nat) (v : Word) (s : State) : (putRegW a v s).tiles = s.tiles := rfl
@[simp] theorem putRegW_fab (a : Nat) (v : Word) (s : State) : (putRegW a v s).fab = s.fab := rfl
@[simp] theorem putRegW_rings (a : Nat) (v : Word) (s : State) : (putRegW a v s).rings = s.rings := rfl
@[simp] theorem putRegW_loads (a : Nat) (v : Word) (s : State) : (putRegW a v s).loads = s.loads := rfl
@[simp] theorem putRegW_checks (a : Nat) (v : Word) (s : State) : (putRegW a v s).checks = s.checks := rfl
@[simp] theorem putRegW_checkAt (a : Nat) (v : Word) (s : State) : (putRegW a v s).checkAt = s.checkAt := rfl
@[simp] theorem putRegW_stones (a : Nat) (v : Word) (s : State) : (putRegW a v s).stones = s.stones := rfl
@[simp] theorem putRegW_rows (a : Nat) (v : Word) (s : State) : (putRegW a v s).rows = s.rows := rfl
@[simp] theorem putRegW_clk (a : Nat) (v : Word) (s : State) : (putRegW a v s).clk = s.clk := rfl
@[simp] theorem putRegW_boot (a : Nat) (v : Word) (s : State) : (putRegW a v s).boot = s.boot := rfl
@[simp] theorem putRegW_pwr (a : Nat) (v : Word) (s : State) : (putRegW a v s).pwr = s.pwr := rfl
@[simp] theorem putRegW_out (a : Nat) (v : Word) (s : State) : (putRegW a v s).out = s.out := rfl
@[simp] theorem putRegW_freeCtr (a : Nat) (v : Word) (s : State) : (putRegW a v s).freeCtr = s.freeCtr := rfl

/-! ### putReg -/

@[simp] theorem putReg_pending (a v : Nat) (s : State) : (putReg a v s).pending = s.pending := by simp only [putReg, putRegW_pending]
@[simp] theorem putReg_setup (a v : Nat) (s : State) : (putReg a v s).setup = s.setup := by simp only [putReg, putRegW_setup]
@[simp] theorem putReg_mem (a v : Nat) (s : State) : (putReg a v s).mem = s.mem := by simp only [putReg, putRegW_mem]
@[simp] theorem putReg_scr (a v : Nat) (s : State) : (putReg a v s).scr = s.scr := by simp only [putReg, putRegW_scr]
@[simp] theorem putReg_hbm (a v : Nat) (s : State) : (putReg a v s).hbm = s.hbm := by simp only [putReg, putRegW_hbm]
@[simp] theorem putReg_host (a v : Nat) (s : State) : (putReg a v s).host = s.host := by simp only [putReg, putRegW_host]
@[simp] theorem putReg_icu (a v : Nat) (s : State) : (putReg a v s).icu = s.icu := by simp only [putReg, putRegW_icu]
@[simp] theorem putReg_tiles (a v : Nat) (s : State) : (putReg a v s).tiles = s.tiles := by simp only [putReg, putRegW_tiles]
@[simp] theorem putReg_fab (a v : Nat) (s : State) : (putReg a v s).fab = s.fab := by simp only [putReg, putRegW_fab]
@[simp] theorem putReg_rings (a v : Nat) (s : State) : (putReg a v s).rings = s.rings := by simp only [putReg, putRegW_rings]
@[simp] theorem putReg_loads (a v : Nat) (s : State) : (putReg a v s).loads = s.loads := by simp only [putReg, putRegW_loads]
@[simp] theorem putReg_checks (a v : Nat) (s : State) : (putReg a v s).checks = s.checks := by simp only [putReg, putRegW_checks]
@[simp] theorem putReg_checkAt (a v : Nat) (s : State) : (putReg a v s).checkAt = s.checkAt := by simp only [putReg, putRegW_checkAt]
@[simp] theorem putReg_stones (a v : Nat) (s : State) : (putReg a v s).stones = s.stones := by simp only [putReg, putRegW_stones]
@[simp] theorem putReg_rows (a v : Nat) (s : State) : (putReg a v s).rows = s.rows := by simp only [putReg, putRegW_rows]
@[simp] theorem putReg_clk (a v : Nat) (s : State) : (putReg a v s).clk = s.clk := by simp only [putReg, putRegW_clk]
@[simp] theorem putReg_boot (a v : Nat) (s : State) : (putReg a v s).boot = s.boot := by simp only [putReg, putRegW_boot]
@[simp] theorem putReg_pwr (a v : Nat) (s : State) : (putReg a v s).pwr = s.pwr := by simp only [putReg, putRegW_pwr]
@[simp] theorem putReg_out (a v : Nat) (s : State) : (putReg a v s).out = s.out := by simp only [putReg, putRegW_out]
@[simp] theorem putReg_freeCtr (a v : Nat) (s : State) : (putReg a v s).freeCtr = s.freeCtr := by simp only [putReg, putRegW_freeCtr]

/-! ### putReg64 -/

@[simp] theorem putReg64_pending (a v : Nat) (s : State) : (putReg64 a v s).pending = s.pending := by simp only [putReg64, putReg_pending]
@[simp] theorem putReg64_setup (a v : Nat) (s : State) : (putReg64 a v s).setup = s.setup := by simp only [putReg64, putReg_setup]
@[simp] theorem putReg64_mem (a v : Nat) (s : State) : (putReg64 a v s).mem = s.mem := by simp only [putReg64, putReg_mem]
@[simp] theorem putReg64_scr (a v : Nat) (s : State) : (putReg64 a v s).scr = s.scr := by simp only [putReg64, putReg_scr]
@[simp] theorem putReg64_hbm (a v : Nat) (s : State) : (putReg64 a v s).hbm = s.hbm := by simp only [putReg64, putReg_hbm]
@[simp] theorem putReg64_host (a v : Nat) (s : State) : (putReg64 a v s).host = s.host := by simp only [putReg64, putReg_host]
@[simp] theorem putReg64_icu (a v : Nat) (s : State) : (putReg64 a v s).icu = s.icu := by simp only [putReg64, putReg_icu]
@[simp] theorem putReg64_tiles (a v : Nat) (s : State) : (putReg64 a v s).tiles = s.tiles := by simp only [putReg64, putReg_tiles]
@[simp] theorem putReg64_fab (a v : Nat) (s : State) : (putReg64 a v s).fab = s.fab := by simp only [putReg64, putReg_fab]
@[simp] theorem putReg64_rings (a v : Nat) (s : State) : (putReg64 a v s).rings = s.rings := by simp only [putReg64, putReg_rings]
@[simp] theorem putReg64_loads (a v : Nat) (s : State) : (putReg64 a v s).loads = s.loads := by simp only [putReg64, putReg_loads]
@[simp] theorem putReg64_checks (a v : Nat) (s : State) : (putReg64 a v s).checks = s.checks := by simp only [putReg64, putReg_checks]
@[simp] theorem putReg64_checkAt (a v : Nat) (s : State) : (putReg64 a v s).checkAt = s.checkAt := by simp only [putReg64, putReg_checkAt]
@[simp] theorem putReg64_stones (a v : Nat) (s : State) : (putReg64 a v s).stones = s.stones := by simp only [putReg64, putReg_stones]
@[simp] theorem putReg64_rows (a v : Nat) (s : State) : (putReg64 a v s).rows = s.rows := by simp only [putReg64, putReg_rows]
@[simp] theorem putReg64_clk (a v : Nat) (s : State) : (putReg64 a v s).clk = s.clk := by simp only [putReg64, putReg_clk]
@[simp] theorem putReg64_boot (a v : Nat) (s : State) : (putReg64 a v s).boot = s.boot := by simp only [putReg64, putReg_boot]
@[simp] theorem putReg64_pwr (a v : Nat) (s : State) : (putReg64 a v s).pwr = s.pwr := by simp only [putReg64, putReg_pwr]
@[simp] theorem putReg64_out (a v : Nat) (s : State) : (putReg64 a v s).out = s.out := by simp only [putReg64, putReg_out]
@[simp] theorem putReg64_freeCtr (a v : Nat) (s : State) : (putReg64 a v s).freeCtr = s.freeCtr := by simp only [putReg64, putReg_freeCtr]

/-! ### putRegF -/

@[simp] theorem putRegF_pending (a hi lo x : Nat) (s : State) : (putRegF a hi lo x s).pending = s.pending := by simp only [putRegF, putReg_pending]
@[simp] theorem putRegF_setup (a hi lo x : Nat) (s : State) : (putRegF a hi lo x s).setup = s.setup := by simp only [putRegF, putReg_setup]
@[simp] theorem putRegF_mem (a hi lo x : Nat) (s : State) : (putRegF a hi lo x s).mem = s.mem := by simp only [putRegF, putReg_mem]
@[simp] theorem putRegF_scr (a hi lo x : Nat) (s : State) : (putRegF a hi lo x s).scr = s.scr := by simp only [putRegF, putReg_scr]
@[simp] theorem putRegF_hbm (a hi lo x : Nat) (s : State) : (putRegF a hi lo x s).hbm = s.hbm := by simp only [putRegF, putReg_hbm]
@[simp] theorem putRegF_host (a hi lo x : Nat) (s : State) : (putRegF a hi lo x s).host = s.host := by simp only [putRegF, putReg_host]
@[simp] theorem putRegF_icu (a hi lo x : Nat) (s : State) : (putRegF a hi lo x s).icu = s.icu := by simp only [putRegF, putReg_icu]
@[simp] theorem putRegF_tiles (a hi lo x : Nat) (s : State) : (putRegF a hi lo x s).tiles = s.tiles := by simp only [putRegF, putReg_tiles]
@[simp] theorem putRegF_fab (a hi lo x : Nat) (s : State) : (putRegF a hi lo x s).fab = s.fab := by simp only [putRegF, putReg_fab]
@[simp] theorem putRegF_rings (a hi lo x : Nat) (s : State) : (putRegF a hi lo x s).rings = s.rings := by simp only [putRegF, putReg_rings]
@[simp] theorem putRegF_loads (a hi lo x : Nat) (s : State) : (putRegF a hi lo x s).loads = s.loads := by simp only [putRegF, putReg_loads]
@[simp] theorem putRegF_checks (a hi lo x : Nat) (s : State) : (putRegF a hi lo x s).checks = s.checks := by simp only [putRegF, putReg_checks]
@[simp] theorem putRegF_checkAt (a hi lo x : Nat) (s : State) : (putRegF a hi lo x s).checkAt = s.checkAt := by simp only [putRegF, putReg_checkAt]
@[simp] theorem putRegF_stones (a hi lo x : Nat) (s : State) : (putRegF a hi lo x s).stones = s.stones := by simp only [putRegF, putReg_stones]
@[simp] theorem putRegF_rows (a hi lo x : Nat) (s : State) : (putRegF a hi lo x s).rows = s.rows := by simp only [putRegF, putReg_rows]
@[simp] theorem putRegF_clk (a hi lo x : Nat) (s : State) : (putRegF a hi lo x s).clk = s.clk := by simp only [putRegF, putReg_clk]
@[simp] theorem putRegF_boot (a hi lo x : Nat) (s : State) : (putRegF a hi lo x s).boot = s.boot := by simp only [putRegF, putReg_boot]
@[simp] theorem putRegF_pwr (a hi lo x : Nat) (s : State) : (putRegF a hi lo x s).pwr = s.pwr := by simp only [putRegF, putReg_pwr]
@[simp] theorem putRegF_out (a hi lo x : Nat) (s : State) : (putRegF a hi lo x s).out = s.out := by simp only [putRegF, putReg_out]
@[simp] theorem putRegF_freeCtr (a hi lo x : Nat) (s : State) : (putRegF a hi lo x s).freeCtr = s.freeCtr := by simp only [putRegF, putReg_freeCtr]

/-! ### bumpBy -/

@[simp] theorem bumpBy_pending (a n : Nat) (s : State) : (bumpBy a n s).pending = s.pending := by simp only [bumpBy, putReg_pending]
@[simp] theorem bumpBy_setup (a n : Nat) (s : State) : (bumpBy a n s).setup = s.setup := by simp only [bumpBy, putReg_setup]
@[simp] theorem bumpBy_mem (a n : Nat) (s : State) : (bumpBy a n s).mem = s.mem := by simp only [bumpBy, putReg_mem]
@[simp] theorem bumpBy_scr (a n : Nat) (s : State) : (bumpBy a n s).scr = s.scr := by simp only [bumpBy, putReg_scr]
@[simp] theorem bumpBy_hbm (a n : Nat) (s : State) : (bumpBy a n s).hbm = s.hbm := by simp only [bumpBy, putReg_hbm]
@[simp] theorem bumpBy_host (a n : Nat) (s : State) : (bumpBy a n s).host = s.host := by simp only [bumpBy, putReg_host]
@[simp] theorem bumpBy_icu (a n : Nat) (s : State) : (bumpBy a n s).icu = s.icu := by simp only [bumpBy, putReg_icu]
@[simp] theorem bumpBy_tiles (a n : Nat) (s : State) : (bumpBy a n s).tiles = s.tiles := by simp only [bumpBy, putReg_tiles]
@[simp] theorem bumpBy_fab (a n : Nat) (s : State) : (bumpBy a n s).fab = s.fab := by simp only [bumpBy, putReg_fab]
@[simp] theorem bumpBy_rings (a n : Nat) (s : State) : (bumpBy a n s).rings = s.rings := by simp only [bumpBy, putReg_rings]
@[simp] theorem bumpBy_loads (a n : Nat) (s : State) : (bumpBy a n s).loads = s.loads := by simp only [bumpBy, putReg_loads]
@[simp] theorem bumpBy_checks (a n : Nat) (s : State) : (bumpBy a n s).checks = s.checks := by simp only [bumpBy, putReg_checks]
@[simp] theorem bumpBy_checkAt (a n : Nat) (s : State) : (bumpBy a n s).checkAt = s.checkAt := by simp only [bumpBy, putReg_checkAt]
@[simp] theorem bumpBy_stones (a n : Nat) (s : State) : (bumpBy a n s).stones = s.stones := by simp only [bumpBy, putReg_stones]
@[simp] theorem bumpBy_rows (a n : Nat) (s : State) : (bumpBy a n s).rows = s.rows := by simp only [bumpBy, putReg_rows]
@[simp] theorem bumpBy_clk (a n : Nat) (s : State) : (bumpBy a n s).clk = s.clk := by simp only [bumpBy, putReg_clk]
@[simp] theorem bumpBy_boot (a n : Nat) (s : State) : (bumpBy a n s).boot = s.boot := by simp only [bumpBy, putReg_boot]
@[simp] theorem bumpBy_pwr (a n : Nat) (s : State) : (bumpBy a n s).pwr = s.pwr := by simp only [bumpBy, putReg_pwr]
@[simp] theorem bumpBy_out (a n : Nat) (s : State) : (bumpBy a n s).out = s.out := by simp only [bumpBy, putReg_out]
@[simp] theorem bumpBy_freeCtr (a n : Nat) (s : State) : (bumpBy a n s).freeCtr = s.freeCtr := by simp only [bumpBy, putReg_freeCtr]

/-! ### bump -/

@[simp] theorem bump_pending (a : Nat) (s : State) : (bump a s).pending = s.pending := by simp only [bump, bumpBy_pending]
@[simp] theorem bump_setup (a : Nat) (s : State) : (bump a s).setup = s.setup := by simp only [bump, bumpBy_setup]
@[simp] theorem bump_mem (a : Nat) (s : State) : (bump a s).mem = s.mem := by simp only [bump, bumpBy_mem]
@[simp] theorem bump_scr (a : Nat) (s : State) : (bump a s).scr = s.scr := by simp only [bump, bumpBy_scr]
@[simp] theorem bump_hbm (a : Nat) (s : State) : (bump a s).hbm = s.hbm := by simp only [bump, bumpBy_hbm]
@[simp] theorem bump_host (a : Nat) (s : State) : (bump a s).host = s.host := by simp only [bump, bumpBy_host]
@[simp] theorem bump_icu (a : Nat) (s : State) : (bump a s).icu = s.icu := by simp only [bump, bumpBy_icu]
@[simp] theorem bump_tiles (a : Nat) (s : State) : (bump a s).tiles = s.tiles := by simp only [bump, bumpBy_tiles]
@[simp] theorem bump_fab (a : Nat) (s : State) : (bump a s).fab = s.fab := by simp only [bump, bumpBy_fab]
@[simp] theorem bump_rings (a : Nat) (s : State) : (bump a s).rings = s.rings := by simp only [bump, bumpBy_rings]
@[simp] theorem bump_loads (a : Nat) (s : State) : (bump a s).loads = s.loads := by simp only [bump, bumpBy_loads]
@[simp] theorem bump_checks (a : Nat) (s : State) : (bump a s).checks = s.checks := by simp only [bump, bumpBy_checks]
@[simp] theorem bump_checkAt (a : Nat) (s : State) : (bump a s).checkAt = s.checkAt := by simp only [bump, bumpBy_checkAt]
@[simp] theorem bump_stones (a : Nat) (s : State) : (bump a s).stones = s.stones := by simp only [bump, bumpBy_stones]
@[simp] theorem bump_rows (a : Nat) (s : State) : (bump a s).rows = s.rows := by simp only [bump, bumpBy_rows]
@[simp] theorem bump_clk (a : Nat) (s : State) : (bump a s).clk = s.clk := by simp only [bump, bumpBy_clk]
@[simp] theorem bump_boot (a : Nat) (s : State) : (bump a s).boot = s.boot := by simp only [bump, bumpBy_boot]
@[simp] theorem bump_pwr (a : Nat) (s : State) : (bump a s).pwr = s.pwr := by simp only [bump, bumpBy_pwr]
@[simp] theorem bump_out (a : Nat) (s : State) : (bump a s).out = s.out := by simp only [bump, bumpBy_out]
@[simp] theorem bump_freeCtr (a : Nat) (s : State) : (bump a s).freeCtr = s.freeCtr := by simp only [bump, bumpBy_freeCtr]

/-! ### bumpF -/

@[simp] theorem bumpF_pending (a hi lo : Nat) (s : State) : (bumpF a hi lo s).pending = s.pending := by simp only [bumpF, putRegF_pending]
@[simp] theorem bumpF_setup (a hi lo : Nat) (s : State) : (bumpF a hi lo s).setup = s.setup := by simp only [bumpF, putRegF_setup]
@[simp] theorem bumpF_mem (a hi lo : Nat) (s : State) : (bumpF a hi lo s).mem = s.mem := by simp only [bumpF, putRegF_mem]
@[simp] theorem bumpF_scr (a hi lo : Nat) (s : State) : (bumpF a hi lo s).scr = s.scr := by simp only [bumpF, putRegF_scr]
@[simp] theorem bumpF_hbm (a hi lo : Nat) (s : State) : (bumpF a hi lo s).hbm = s.hbm := by simp only [bumpF, putRegF_hbm]
@[simp] theorem bumpF_host (a hi lo : Nat) (s : State) : (bumpF a hi lo s).host = s.host := by simp only [bumpF, putRegF_host]
@[simp] theorem bumpF_icu (a hi lo : Nat) (s : State) : (bumpF a hi lo s).icu = s.icu := by simp only [bumpF, putRegF_icu]
@[simp] theorem bumpF_tiles (a hi lo : Nat) (s : State) : (bumpF a hi lo s).tiles = s.tiles := by simp only [bumpF, putRegF_tiles]
@[simp] theorem bumpF_fab (a hi lo : Nat) (s : State) : (bumpF a hi lo s).fab = s.fab := by simp only [bumpF, putRegF_fab]
@[simp] theorem bumpF_rings (a hi lo : Nat) (s : State) : (bumpF a hi lo s).rings = s.rings := by simp only [bumpF, putRegF_rings]
@[simp] theorem bumpF_loads (a hi lo : Nat) (s : State) : (bumpF a hi lo s).loads = s.loads := by simp only [bumpF, putRegF_loads]
@[simp] theorem bumpF_checks (a hi lo : Nat) (s : State) : (bumpF a hi lo s).checks = s.checks := by simp only [bumpF, putRegF_checks]
@[simp] theorem bumpF_checkAt (a hi lo : Nat) (s : State) : (bumpF a hi lo s).checkAt = s.checkAt := by simp only [bumpF, putRegF_checkAt]
@[simp] theorem bumpF_stones (a hi lo : Nat) (s : State) : (bumpF a hi lo s).stones = s.stones := by simp only [bumpF, putRegF_stones]
@[simp] theorem bumpF_rows (a hi lo : Nat) (s : State) : (bumpF a hi lo s).rows = s.rows := by simp only [bumpF, putRegF_rows]
@[simp] theorem bumpF_clk (a hi lo : Nat) (s : State) : (bumpF a hi lo s).clk = s.clk := by simp only [bumpF, putRegF_clk]
@[simp] theorem bumpF_boot (a hi lo : Nat) (s : State) : (bumpF a hi lo s).boot = s.boot := by simp only [bumpF, putRegF_boot]
@[simp] theorem bumpF_pwr (a hi lo : Nat) (s : State) : (bumpF a hi lo s).pwr = s.pwr := by simp only [bumpF, putRegF_pwr]
@[simp] theorem bumpF_out (a hi lo : Nat) (s : State) : (bumpF a hi lo s).out = s.out := by simp only [bumpF, putRegF_out]
@[simp] theorem bumpF_freeCtr (a hi lo : Nat) (s : State) : (bumpF a hi lo s).freeCtr = s.freeCtr := by simp only [bumpF, putRegF_freeCtr]

/-! ### ndcCount -/

@[simp] theorem ndcCount_pending (k d : Nat) (s : State) : (ndcCount k d s).pending = s.pending := by simp only [ndcCount, bump_pending]
@[simp] theorem ndcCount_setup (k d : Nat) (s : State) : (ndcCount k d s).setup = s.setup := by simp only [ndcCount, bump_setup]
@[simp] theorem ndcCount_mem (k d : Nat) (s : State) : (ndcCount k d s).mem = s.mem := by simp only [ndcCount, bump_mem]
@[simp] theorem ndcCount_scr (k d : Nat) (s : State) : (ndcCount k d s).scr = s.scr := by simp only [ndcCount, bump_scr]
@[simp] theorem ndcCount_hbm (k d : Nat) (s : State) : (ndcCount k d s).hbm = s.hbm := by simp only [ndcCount, bump_hbm]
@[simp] theorem ndcCount_host (k d : Nat) (s : State) : (ndcCount k d s).host = s.host := by simp only [ndcCount, bump_host]
@[simp] theorem ndcCount_icu (k d : Nat) (s : State) : (ndcCount k d s).icu = s.icu := by simp only [ndcCount, bump_icu]
@[simp] theorem ndcCount_tiles (k d : Nat) (s : State) : (ndcCount k d s).tiles = s.tiles := by simp only [ndcCount, bump_tiles]
@[simp] theorem ndcCount_fab (k d : Nat) (s : State) : (ndcCount k d s).fab = s.fab := by simp only [ndcCount, bump_fab]
@[simp] theorem ndcCount_rings (k d : Nat) (s : State) : (ndcCount k d s).rings = s.rings := by simp only [ndcCount, bump_rings]
@[simp] theorem ndcCount_loads (k d : Nat) (s : State) : (ndcCount k d s).loads = s.loads := by simp only [ndcCount, bump_loads]
@[simp] theorem ndcCount_checks (k d : Nat) (s : State) : (ndcCount k d s).checks = s.checks := by simp only [ndcCount, bump_checks]
@[simp] theorem ndcCount_checkAt (k d : Nat) (s : State) : (ndcCount k d s).checkAt = s.checkAt := by simp only [ndcCount, bump_checkAt]
@[simp] theorem ndcCount_stones (k d : Nat) (s : State) : (ndcCount k d s).stones = s.stones := by simp only [ndcCount, bump_stones]
@[simp] theorem ndcCount_rows (k d : Nat) (s : State) : (ndcCount k d s).rows = s.rows := by simp only [ndcCount, bump_rows]
@[simp] theorem ndcCount_clk (k d : Nat) (s : State) : (ndcCount k d s).clk = s.clk := by simp only [ndcCount, bump_clk]
@[simp] theorem ndcCount_boot (k d : Nat) (s : State) : (ndcCount k d s).boot = s.boot := by simp only [ndcCount, bump_boot]
@[simp] theorem ndcCount_pwr (k d : Nat) (s : State) : (ndcCount k d s).pwr = s.pwr := by simp only [ndcCount, bump_pwr]
@[simp] theorem ndcCount_out (k d : Nat) (s : State) : (ndcCount k d s).out = s.out := by simp only [ndcCount, bump_out]
@[simp] theorem ndcCount_freeCtr (k d : Nat) (s : State) : (ndcCount k d s).freeCtr = s.freeCtr := by simp only [ndcCount, bump_freeCtr]

/-! ### writeScr -/

@[simp] theorem writeScr_pending (e o : Nat) (b : List Byte) (s : State) : (writeScr e o b s).pending = s.pending := rfl
@[simp] theorem writeScr_regs (e o : Nat) (b : List Byte) (s : State) : (writeScr e o b s).regs = s.regs := rfl
@[simp] theorem writeScr_setup (e o : Nat) (b : List Byte) (s : State) : (writeScr e o b s).setup = s.setup := rfl
@[simp] theorem writeScr_mem (e o : Nat) (b : List Byte) (s : State) : (writeScr e o b s).mem = s.mem := rfl
@[simp] theorem writeScr_hbm (e o : Nat) (b : List Byte) (s : State) : (writeScr e o b s).hbm = s.hbm := rfl
@[simp] theorem writeScr_host (e o : Nat) (b : List Byte) (s : State) : (writeScr e o b s).host = s.host := rfl
@[simp] theorem writeScr_icu (e o : Nat) (b : List Byte) (s : State) : (writeScr e o b s).icu = s.icu := rfl
@[simp] theorem writeScr_tiles (e o : Nat) (b : List Byte) (s : State) : (writeScr e o b s).tiles = s.tiles := rfl
@[simp] theorem writeScr_fab (e o : Nat) (b : List Byte) (s : State) : (writeScr e o b s).fab = s.fab := rfl
@[simp] theorem writeScr_rings (e o : Nat) (b : List Byte) (s : State) : (writeScr e o b s).rings = s.rings := rfl
@[simp] theorem writeScr_loads (e o : Nat) (b : List Byte) (s : State) : (writeScr e o b s).loads = s.loads := rfl
@[simp] theorem writeScr_checks (e o : Nat) (b : List Byte) (s : State) : (writeScr e o b s).checks = s.checks := rfl
@[simp] theorem writeScr_checkAt (e o : Nat) (b : List Byte) (s : State) : (writeScr e o b s).checkAt = s.checkAt := rfl
@[simp] theorem writeScr_stones (e o : Nat) (b : List Byte) (s : State) : (writeScr e o b s).stones = s.stones := rfl
@[simp] theorem writeScr_rows (e o : Nat) (b : List Byte) (s : State) : (writeScr e o b s).rows = s.rows := rfl
@[simp] theorem writeScr_clk (e o : Nat) (b : List Byte) (s : State) : (writeScr e o b s).clk = s.clk := rfl
@[simp] theorem writeScr_boot (e o : Nat) (b : List Byte) (s : State) : (writeScr e o b s).boot = s.boot := rfl
@[simp] theorem writeScr_pwr (e o : Nat) (b : List Byte) (s : State) : (writeScr e o b s).pwr = s.pwr := rfl
@[simp] theorem writeScr_out (e o : Nat) (b : List Byte) (s : State) : (writeScr e o b s).out = s.out := rfl
@[simp] theorem writeScr_freeCtr (e o : Nat) (b : List Byte) (s : State) : (writeScr e o b s).freeCtr = s.freeCtr := rfl

/-! ### hbmWrite -/

@[simp] theorem hbmWrite_pending (a : Agent) (d h : Nat) (b : List Byte) (s : State) : (hbmWrite a d h b s).pending = s.pending := rfl
@[simp] theorem hbmWrite_regs (a : Agent) (d h : Nat) (b : List Byte) (s : State) : (hbmWrite a d h b s).regs = s.regs := rfl
@[simp] theorem hbmWrite_setup (a : Agent) (d h : Nat) (b : List Byte) (s : State) : (hbmWrite a d h b s).setup = s.setup := rfl
@[simp] theorem hbmWrite_mem (a : Agent) (d h : Nat) (b : List Byte) (s : State) : (hbmWrite a d h b s).mem = s.mem := rfl
@[simp] theorem hbmWrite_scr (a : Agent) (d h : Nat) (b : List Byte) (s : State) : (hbmWrite a d h b s).scr = s.scr := rfl
@[simp] theorem hbmWrite_host (a : Agent) (d h : Nat) (b : List Byte) (s : State) : (hbmWrite a d h b s).host = s.host := rfl
@[simp] theorem hbmWrite_icu (a : Agent) (d h : Nat) (b : List Byte) (s : State) : (hbmWrite a d h b s).icu = s.icu := rfl
@[simp] theorem hbmWrite_tiles (a : Agent) (d h : Nat) (b : List Byte) (s : State) : (hbmWrite a d h b s).tiles = s.tiles := rfl
@[simp] theorem hbmWrite_fab (a : Agent) (d h : Nat) (b : List Byte) (s : State) : (hbmWrite a d h b s).fab = s.fab := rfl
@[simp] theorem hbmWrite_rings (a : Agent) (d h : Nat) (b : List Byte) (s : State) : (hbmWrite a d h b s).rings = s.rings := rfl
@[simp] theorem hbmWrite_loads (a : Agent) (d h : Nat) (b : List Byte) (s : State) : (hbmWrite a d h b s).loads = s.loads := rfl
@[simp] theorem hbmWrite_checks (a : Agent) (d h : Nat) (b : List Byte) (s : State) : (hbmWrite a d h b s).checks = s.checks := rfl
@[simp] theorem hbmWrite_checkAt (a : Agent) (d h : Nat) (b : List Byte) (s : State) : (hbmWrite a d h b s).checkAt = s.checkAt := rfl
@[simp] theorem hbmWrite_stones (a : Agent) (d h : Nat) (b : List Byte) (s : State) : (hbmWrite a d h b s).stones = s.stones := rfl
@[simp] theorem hbmWrite_rows (a : Agent) (d h : Nat) (b : List Byte) (s : State) : (hbmWrite a d h b s).rows = s.rows := rfl
@[simp] theorem hbmWrite_clk (a : Agent) (d h : Nat) (b : List Byte) (s : State) : (hbmWrite a d h b s).clk = s.clk := rfl
@[simp] theorem hbmWrite_boot (a : Agent) (d h : Nat) (b : List Byte) (s : State) : (hbmWrite a d h b s).boot = s.boot := rfl
@[simp] theorem hbmWrite_pwr (a : Agent) (d h : Nat) (b : List Byte) (s : State) : (hbmWrite a d h b s).pwr = s.pwr := rfl
@[simp] theorem hbmWrite_out (a : Agent) (d h : Nat) (b : List Byte) (s : State) : (hbmWrite a d h b s).out = s.out := rfl
@[simp] theorem hbmWrite_freeCtr (a : Agent) (d h : Nat) (b : List Byte) (s : State) : (hbmWrite a d h b s).freeCtr = s.freeCtr := rfl

/-! ### clearPending -/

@[simp] theorem clearPending_pending (d src : Nat) (s : State) : (clearPending d src s).pending = s.pending := rfl
@[simp] theorem clearPending_regs (d src : Nat) (s : State) : (clearPending d src s).regs = s.regs := rfl
@[simp] theorem clearPending_setup (d src : Nat) (s : State) : (clearPending d src s).setup = s.setup := rfl
@[simp] theorem clearPending_mem (d src : Nat) (s : State) : (clearPending d src s).mem = s.mem := rfl
@[simp] theorem clearPending_scr (d src : Nat) (s : State) : (clearPending d src s).scr = s.scr := rfl
@[simp] theorem clearPending_hbm (d src : Nat) (s : State) : (clearPending d src s).hbm = s.hbm := rfl
@[simp] theorem clearPending_host (d src : Nat) (s : State) : (clearPending d src s).host = s.host := rfl
@[simp] theorem clearPending_tiles (d src : Nat) (s : State) : (clearPending d src s).tiles = s.tiles := rfl
@[simp] theorem clearPending_fab (d src : Nat) (s : State) : (clearPending d src s).fab = s.fab := rfl
@[simp] theorem clearPending_rings (d src : Nat) (s : State) : (clearPending d src s).rings = s.rings := rfl
@[simp] theorem clearPending_loads (d src : Nat) (s : State) : (clearPending d src s).loads = s.loads := rfl
@[simp] theorem clearPending_checks (d src : Nat) (s : State) : (clearPending d src s).checks = s.checks := rfl
@[simp] theorem clearPending_checkAt (d src : Nat) (s : State) : (clearPending d src s).checkAt = s.checkAt := rfl
@[simp] theorem clearPending_stones (d src : Nat) (s : State) : (clearPending d src s).stones = s.stones := rfl
@[simp] theorem clearPending_rows (d src : Nat) (s : State) : (clearPending d src s).rows = s.rows := rfl
@[simp] theorem clearPending_clk (d src : Nat) (s : State) : (clearPending d src s).clk = s.clk := rfl
@[simp] theorem clearPending_boot (d src : Nat) (s : State) : (clearPending d src s).boot = s.boot := rfl
@[simp] theorem clearPending_pwr (d src : Nat) (s : State) : (clearPending d src s).pwr = s.pwr := rfl
@[simp] theorem clearPending_out (d src : Nat) (s : State) : (clearPending d src s).out = s.out := rfl
@[simp] theorem clearPending_freeCtr (d src : Nat) (s : State) : (clearPending d src s).freeCtr = s.freeCtr := rfl

/-! ### setCmd -/

@[simp] theorem setCmd_pending (c : Nat) (x : Cmd) (s : State) : (setCmd c x s).pending = s.pending := rfl
@[simp] theorem setCmd_regs (c : Nat) (x : Cmd) (s : State) : (setCmd c x s).regs = s.regs := rfl
@[simp] theorem setCmd_setup (c : Nat) (x : Cmd) (s : State) : (setCmd c x s).setup = s.setup := rfl
@[simp] theorem setCmd_mem (c : Nat) (x : Cmd) (s : State) : (setCmd c x s).mem = s.mem := rfl
@[simp] theorem setCmd_scr (c : Nat) (x : Cmd) (s : State) : (setCmd c x s).scr = s.scr := rfl
@[simp] theorem setCmd_hbm (c : Nat) (x : Cmd) (s : State) : (setCmd c x s).hbm = s.hbm := rfl
@[simp] theorem setCmd_icu (c : Nat) (x : Cmd) (s : State) : (setCmd c x s).icu = s.icu := rfl
@[simp] theorem setCmd_tiles (c : Nat) (x : Cmd) (s : State) : (setCmd c x s).tiles = s.tiles := rfl
@[simp] theorem setCmd_fab (c : Nat) (x : Cmd) (s : State) : (setCmd c x s).fab = s.fab := rfl
@[simp] theorem setCmd_rings (c : Nat) (x : Cmd) (s : State) : (setCmd c x s).rings = s.rings := rfl
@[simp] theorem setCmd_loads (c : Nat) (x : Cmd) (s : State) : (setCmd c x s).loads = s.loads := rfl
@[simp] theorem setCmd_checks (c : Nat) (x : Cmd) (s : State) : (setCmd c x s).checks = s.checks := rfl
@[simp] theorem setCmd_checkAt (c : Nat) (x : Cmd) (s : State) : (setCmd c x s).checkAt = s.checkAt := rfl
@[simp] theorem setCmd_stones (c : Nat) (x : Cmd) (s : State) : (setCmd c x s).stones = s.stones := rfl
@[simp] theorem setCmd_rows (c : Nat) (x : Cmd) (s : State) : (setCmd c x s).rows = s.rows := rfl
@[simp] theorem setCmd_clk (c : Nat) (x : Cmd) (s : State) : (setCmd c x s).clk = s.clk := rfl
@[simp] theorem setCmd_boot (c : Nat) (x : Cmd) (s : State) : (setCmd c x s).boot = s.boot := rfl
@[simp] theorem setCmd_pwr (c : Nat) (x : Cmd) (s : State) : (setCmd c x s).pwr = s.pwr := rfl
@[simp] theorem setCmd_out (c : Nat) (x : Cmd) (s : State) : (setCmd c x s).out = s.out := rfl
@[simp] theorem setCmd_freeCtr (c : Nat) (x : Cmd) (s : State) : (setCmd c x s).freeCtr = s.freeCtr := rfl

/-! ### setCore -/

@[simp] theorem setCore_pending (c : Nat) (x : CoreS) (s : State) : (setCore c x s).pending = s.pending := rfl
@[simp] theorem setCore_regs (c : Nat) (x : CoreS) (s : State) : (setCore c x s).regs = s.regs := rfl
@[simp] theorem setCore_setup (c : Nat) (x : CoreS) (s : State) : (setCore c x s).setup = s.setup := rfl
@[simp] theorem setCore_mem (c : Nat) (x : CoreS) (s : State) : (setCore c x s).mem = s.mem := rfl
@[simp] theorem setCore_scr (c : Nat) (x : CoreS) (s : State) : (setCore c x s).scr = s.scr := rfl
@[simp] theorem setCore_hbm (c : Nat) (x : CoreS) (s : State) : (setCore c x s).hbm = s.hbm := rfl
@[simp] theorem setCore_host (c : Nat) (x : CoreS) (s : State) : (setCore c x s).host = s.host := rfl
@[simp] theorem setCore_tiles (c : Nat) (x : CoreS) (s : State) : (setCore c x s).tiles = s.tiles := rfl
@[simp] theorem setCore_fab (c : Nat) (x : CoreS) (s : State) : (setCore c x s).fab = s.fab := rfl
@[simp] theorem setCore_rings (c : Nat) (x : CoreS) (s : State) : (setCore c x s).rings = s.rings := rfl
@[simp] theorem setCore_loads (c : Nat) (x : CoreS) (s : State) : (setCore c x s).loads = s.loads := rfl
@[simp] theorem setCore_checks (c : Nat) (x : CoreS) (s : State) : (setCore c x s).checks = s.checks := rfl
@[simp] theorem setCore_checkAt (c : Nat) (x : CoreS) (s : State) : (setCore c x s).checkAt = s.checkAt := rfl
@[simp] theorem setCore_stones (c : Nat) (x : CoreS) (s : State) : (setCore c x s).stones = s.stones := rfl
@[simp] theorem setCore_rows (c : Nat) (x : CoreS) (s : State) : (setCore c x s).rows = s.rows := rfl
@[simp] theorem setCore_clk (c : Nat) (x : CoreS) (s : State) : (setCore c x s).clk = s.clk := rfl
@[simp] theorem setCore_boot (c : Nat) (x : CoreS) (s : State) : (setCore c x s).boot = s.boot := rfl
@[simp] theorem setCore_pwr (c : Nat) (x : CoreS) (s : State) : (setCore c x s).pwr = s.pwr := rfl
@[simp] theorem setCore_out (c : Nat) (x : CoreS) (s : State) : (setCore c x s).out = s.out := rfl
@[simp] theorem setCore_freeCtr (c : Nat) (x : CoreS) (s : State) : (setCore c x s).freeCtr = s.freeCtr := rfl

/-! ### joinWindow -/

@[simp] theorem joinWindow_pending (a : Act) (s : State) : (joinWindow a s).pending = s.pending := rfl
@[simp] theorem joinWindow_regs (a : Act) (s : State) : (joinWindow a s).regs = s.regs := rfl
@[simp] theorem joinWindow_mem (a : Act) (s : State) : (joinWindow a s).mem = s.mem := rfl
@[simp] theorem joinWindow_scr (a : Act) (s : State) : (joinWindow a s).scr = s.scr := rfl
@[simp] theorem joinWindow_hbm (a : Act) (s : State) : (joinWindow a s).hbm = s.hbm := rfl
@[simp] theorem joinWindow_host (a : Act) (s : State) : (joinWindow a s).host = s.host := rfl
@[simp] theorem joinWindow_icu (a : Act) (s : State) : (joinWindow a s).icu = s.icu := rfl
@[simp] theorem joinWindow_tiles (a : Act) (s : State) : (joinWindow a s).tiles = s.tiles := rfl
@[simp] theorem joinWindow_fab (a : Act) (s : State) : (joinWindow a s).fab = s.fab := rfl
@[simp] theorem joinWindow_rings (a : Act) (s : State) : (joinWindow a s).rings = s.rings := rfl
@[simp] theorem joinWindow_loads (a : Act) (s : State) : (joinWindow a s).loads = s.loads := rfl
@[simp] theorem joinWindow_checks (a : Act) (s : State) : (joinWindow a s).checks = s.checks := rfl
@[simp] theorem joinWindow_checkAt (a : Act) (s : State) : (joinWindow a s).checkAt = s.checkAt := rfl
@[simp] theorem joinWindow_stones (a : Act) (s : State) : (joinWindow a s).stones = s.stones := rfl
@[simp] theorem joinWindow_rows (a : Act) (s : State) : (joinWindow a s).rows = s.rows := rfl
@[simp] theorem joinWindow_clk (a : Act) (s : State) : (joinWindow a s).clk = s.clk := rfl
@[simp] theorem joinWindow_boot (a : Act) (s : State) : (joinWindow a s).boot = s.boot := rfl
@[simp] theorem joinWindow_pwr (a : Act) (s : State) : (joinWindow a s).pwr = s.pwr := rfl
@[simp] theorem joinWindow_out (a : Act) (s : State) : (joinWindow a s).out = s.out := rfl
@[simp] theorem joinWindow_freeCtr (a : Act) (s : State) : (joinWindow a s).freeCtr = s.freeCtr := rfl

/-! ### setTile -/

@[simp] theorem setTile_pending (e : Nat) (x : TileS) (s : State) : (setTile e x s).pending = s.pending := rfl
@[simp] theorem setTile_regs (e : Nat) (x : TileS) (s : State) : (setTile e x s).regs = s.regs := rfl
@[simp] theorem setTile_setup (e : Nat) (x : TileS) (s : State) : (setTile e x s).setup = s.setup := rfl
@[simp] theorem setTile_mem (e : Nat) (x : TileS) (s : State) : (setTile e x s).mem = s.mem := rfl
@[simp] theorem setTile_scr (e : Nat) (x : TileS) (s : State) : (setTile e x s).scr = s.scr := rfl
@[simp] theorem setTile_hbm (e : Nat) (x : TileS) (s : State) : (setTile e x s).hbm = s.hbm := rfl
@[simp] theorem setTile_host (e : Nat) (x : TileS) (s : State) : (setTile e x s).host = s.host := rfl
@[simp] theorem setTile_icu (e : Nat) (x : TileS) (s : State) : (setTile e x s).icu = s.icu := rfl
@[simp] theorem setTile_fab (e : Nat) (x : TileS) (s : State) : (setTile e x s).fab = s.fab := rfl
@[simp] theorem setTile_rings (e : Nat) (x : TileS) (s : State) : (setTile e x s).rings = s.rings := rfl
@[simp] theorem setTile_loads (e : Nat) (x : TileS) (s : State) : (setTile e x s).loads = s.loads := rfl
@[simp] theorem setTile_checks (e : Nat) (x : TileS) (s : State) : (setTile e x s).checks = s.checks := rfl
@[simp] theorem setTile_checkAt (e : Nat) (x : TileS) (s : State) : (setTile e x s).checkAt = s.checkAt := rfl
@[simp] theorem setTile_stones (e : Nat) (x : TileS) (s : State) : (setTile e x s).stones = s.stones := rfl
@[simp] theorem setTile_rows (e : Nat) (x : TileS) (s : State) : (setTile e x s).rows = s.rows := rfl
@[simp] theorem setTile_clk (e : Nat) (x : TileS) (s : State) : (setTile e x s).clk = s.clk := rfl
@[simp] theorem setTile_boot (e : Nat) (x : TileS) (s : State) : (setTile e x s).boot = s.boot := rfl
@[simp] theorem setTile_pwr (e : Nat) (x : TileS) (s : State) : (setTile e x s).pwr = s.pwr := rfl
@[simp] theorem setTile_out (e : Nat) (x : TileS) (s : State) : (setTile e x s).out = s.out := rfl
@[simp] theorem setTile_freeCtr (e : Nat) (x : TileS) (s : State) : (setTile e x s).freeCtr = s.freeCtr := rfl

/-! ### modTile -/

@[simp] theorem modTile_pending (e : Nat) (f : TileS → TileS) (s : State) : (modTile e f s).pending = s.pending := by simp only [modTile, setTile_pending]
@[simp] theorem modTile_regs (e : Nat) (f : TileS → TileS) (s : State) : (modTile e f s).regs = s.regs := by simp only [modTile, setTile_regs]
@[simp] theorem modTile_setup (e : Nat) (f : TileS → TileS) (s : State) : (modTile e f s).setup = s.setup := by simp only [modTile, setTile_setup]
@[simp] theorem modTile_mem (e : Nat) (f : TileS → TileS) (s : State) : (modTile e f s).mem = s.mem := by simp only [modTile, setTile_mem]
@[simp] theorem modTile_scr (e : Nat) (f : TileS → TileS) (s : State) : (modTile e f s).scr = s.scr := by simp only [modTile, setTile_scr]
@[simp] theorem modTile_hbm (e : Nat) (f : TileS → TileS) (s : State) : (modTile e f s).hbm = s.hbm := by simp only [modTile, setTile_hbm]
@[simp] theorem modTile_host (e : Nat) (f : TileS → TileS) (s : State) : (modTile e f s).host = s.host := by simp only [modTile, setTile_host]
@[simp] theorem modTile_icu (e : Nat) (f : TileS → TileS) (s : State) : (modTile e f s).icu = s.icu := by simp only [modTile, setTile_icu]
@[simp] theorem modTile_fab (e : Nat) (f : TileS → TileS) (s : State) : (modTile e f s).fab = s.fab := by simp only [modTile, setTile_fab]
@[simp] theorem modTile_rings (e : Nat) (f : TileS → TileS) (s : State) : (modTile e f s).rings = s.rings := by simp only [modTile, setTile_rings]
@[simp] theorem modTile_loads (e : Nat) (f : TileS → TileS) (s : State) : (modTile e f s).loads = s.loads := by simp only [modTile, setTile_loads]
@[simp] theorem modTile_checks (e : Nat) (f : TileS → TileS) (s : State) : (modTile e f s).checks = s.checks := by simp only [modTile, setTile_checks]
@[simp] theorem modTile_checkAt (e : Nat) (f : TileS → TileS) (s : State) : (modTile e f s).checkAt = s.checkAt := by simp only [modTile, setTile_checkAt]
@[simp] theorem modTile_stones (e : Nat) (f : TileS → TileS) (s : State) : (modTile e f s).stones = s.stones := by simp only [modTile, setTile_stones]
@[simp] theorem modTile_rows (e : Nat) (f : TileS → TileS) (s : State) : (modTile e f s).rows = s.rows := by simp only [modTile, setTile_rows]
@[simp] theorem modTile_clk (e : Nat) (f : TileS → TileS) (s : State) : (modTile e f s).clk = s.clk := by simp only [modTile, setTile_clk]
@[simp] theorem modTile_boot (e : Nat) (f : TileS → TileS) (s : State) : (modTile e f s).boot = s.boot := by simp only [modTile, setTile_boot]
@[simp] theorem modTile_pwr (e : Nat) (f : TileS → TileS) (s : State) : (modTile e f s).pwr = s.pwr := by simp only [modTile, setTile_pwr]
@[simp] theorem modTile_out (e : Nat) (f : TileS → TileS) (s : State) : (modTile e f s).out = s.out := by simp only [modTile, setTile_out]
@[simp] theorem modTile_freeCtr (e : Nat) (f : TileS → TileS) (s : State) : (modTile e f s).freeCtr = s.freeCtr := by simp only [modTile, setTile_freeCtr]

/-! ### setTctx -/

@[simp] theorem setTctx_pending (e n : Nat) (x : TaskCtx) (s : State) : (setTctx e n x s).pending = s.pending := by simp only [setTctx, modTile_pending]
@[simp] theorem setTctx_regs (e n : Nat) (x : TaskCtx) (s : State) : (setTctx e n x s).regs = s.regs := by simp only [setTctx, modTile_regs]
@[simp] theorem setTctx_setup (e n : Nat) (x : TaskCtx) (s : State) : (setTctx e n x s).setup = s.setup := by simp only [setTctx, modTile_setup]
@[simp] theorem setTctx_mem (e n : Nat) (x : TaskCtx) (s : State) : (setTctx e n x s).mem = s.mem := by simp only [setTctx, modTile_mem]
@[simp] theorem setTctx_scr (e n : Nat) (x : TaskCtx) (s : State) : (setTctx e n x s).scr = s.scr := by simp only [setTctx, modTile_scr]
@[simp] theorem setTctx_hbm (e n : Nat) (x : TaskCtx) (s : State) : (setTctx e n x s).hbm = s.hbm := by simp only [setTctx, modTile_hbm]
@[simp] theorem setTctx_host (e n : Nat) (x : TaskCtx) (s : State) : (setTctx e n x s).host = s.host := by simp only [setTctx, modTile_host]
@[simp] theorem setTctx_icu (e n : Nat) (x : TaskCtx) (s : State) : (setTctx e n x s).icu = s.icu := by simp only [setTctx, modTile_icu]
@[simp] theorem setTctx_fab (e n : Nat) (x : TaskCtx) (s : State) : (setTctx e n x s).fab = s.fab := by simp only [setTctx, modTile_fab]
@[simp] theorem setTctx_rings (e n : Nat) (x : TaskCtx) (s : State) : (setTctx e n x s).rings = s.rings := by simp only [setTctx, modTile_rings]
@[simp] theorem setTctx_loads (e n : Nat) (x : TaskCtx) (s : State) : (setTctx e n x s).loads = s.loads := by simp only [setTctx, modTile_loads]
@[simp] theorem setTctx_checks (e n : Nat) (x : TaskCtx) (s : State) : (setTctx e n x s).checks = s.checks := by simp only [setTctx, modTile_checks]
@[simp] theorem setTctx_checkAt (e n : Nat) (x : TaskCtx) (s : State) : (setTctx e n x s).checkAt = s.checkAt := by simp only [setTctx, modTile_checkAt]
@[simp] theorem setTctx_stones (e n : Nat) (x : TaskCtx) (s : State) : (setTctx e n x s).stones = s.stones := by simp only [setTctx, modTile_stones]
@[simp] theorem setTctx_rows (e n : Nat) (x : TaskCtx) (s : State) : (setTctx e n x s).rows = s.rows := by simp only [setTctx, modTile_rows]
@[simp] theorem setTctx_clk (e n : Nat) (x : TaskCtx) (s : State) : (setTctx e n x s).clk = s.clk := by simp only [setTctx, modTile_clk]
@[simp] theorem setTctx_boot (e n : Nat) (x : TaskCtx) (s : State) : (setTctx e n x s).boot = s.boot := by simp only [setTctx, modTile_boot]
@[simp] theorem setTctx_pwr (e n : Nat) (x : TaskCtx) (s : State) : (setTctx e n x s).pwr = s.pwr := by simp only [setTctx, modTile_pwr]
@[simp] theorem setTctx_out (e n : Nat) (x : TaskCtx) (s : State) : (setTctx e n x s).out = s.out := by simp only [setTctx, modTile_out]
@[simp] theorem setTctx_freeCtr (e n : Nat) (x : TaskCtx) (s : State) : (setTctx e n x s).freeCtr = s.freeCtr := by simp only [setTctx, modTile_freeCtr]

/-! ### modTctx -/

@[simp] theorem modTctx_pending (e n : Nat) (f : TaskCtx → TaskCtx) (s : State) : (modTctx e n f s).pending = s.pending := by simp only [modTctx, setTctx_pending]
@[simp] theorem modTctx_regs (e n : Nat) (f : TaskCtx → TaskCtx) (s : State) : (modTctx e n f s).regs = s.regs := by simp only [modTctx, setTctx_regs]
@[simp] theorem modTctx_setup (e n : Nat) (f : TaskCtx → TaskCtx) (s : State) : (modTctx e n f s).setup = s.setup := by simp only [modTctx, setTctx_setup]
@[simp] theorem modTctx_mem (e n : Nat) (f : TaskCtx → TaskCtx) (s : State) : (modTctx e n f s).mem = s.mem := by simp only [modTctx, setTctx_mem]
@[simp] theorem modTctx_scr (e n : Nat) (f : TaskCtx → TaskCtx) (s : State) : (modTctx e n f s).scr = s.scr := by simp only [modTctx, setTctx_scr]
@[simp] theorem modTctx_hbm (e n : Nat) (f : TaskCtx → TaskCtx) (s : State) : (modTctx e n f s).hbm = s.hbm := by simp only [modTctx, setTctx_hbm]
@[simp] theorem modTctx_host (e n : Nat) (f : TaskCtx → TaskCtx) (s : State) : (modTctx e n f s).host = s.host := by simp only [modTctx, setTctx_host]
@[simp] theorem modTctx_icu (e n : Nat) (f : TaskCtx → TaskCtx) (s : State) : (modTctx e n f s).icu = s.icu := by simp only [modTctx, setTctx_icu]
@[simp] theorem modTctx_fab (e n : Nat) (f : TaskCtx → TaskCtx) (s : State) : (modTctx e n f s).fab = s.fab := by simp only [modTctx, setTctx_fab]
@[simp] theorem modTctx_rings (e n : Nat) (f : TaskCtx → TaskCtx) (s : State) : (modTctx e n f s).rings = s.rings := by simp only [modTctx, setTctx_rings]
@[simp] theorem modTctx_loads (e n : Nat) (f : TaskCtx → TaskCtx) (s : State) : (modTctx e n f s).loads = s.loads := by simp only [modTctx, setTctx_loads]
@[simp] theorem modTctx_checks (e n : Nat) (f : TaskCtx → TaskCtx) (s : State) : (modTctx e n f s).checks = s.checks := by simp only [modTctx, setTctx_checks]
@[simp] theorem modTctx_checkAt (e n : Nat) (f : TaskCtx → TaskCtx) (s : State) : (modTctx e n f s).checkAt = s.checkAt := by simp only [modTctx, setTctx_checkAt]
@[simp] theorem modTctx_stones (e n : Nat) (f : TaskCtx → TaskCtx) (s : State) : (modTctx e n f s).stones = s.stones := by simp only [modTctx, setTctx_stones]
@[simp] theorem modTctx_rows (e n : Nat) (f : TaskCtx → TaskCtx) (s : State) : (modTctx e n f s).rows = s.rows := by simp only [modTctx, setTctx_rows]
@[simp] theorem modTctx_clk (e n : Nat) (f : TaskCtx → TaskCtx) (s : State) : (modTctx e n f s).clk = s.clk := by simp only [modTctx, setTctx_clk]
@[simp] theorem modTctx_boot (e n : Nat) (f : TaskCtx → TaskCtx) (s : State) : (modTctx e n f s).boot = s.boot := by simp only [modTctx, setTctx_boot]
@[simp] theorem modTctx_pwr (e n : Nat) (f : TaskCtx → TaskCtx) (s : State) : (modTctx e n f s).pwr = s.pwr := by simp only [modTctx, setTctx_pwr]
@[simp] theorem modTctx_out (e n : Nat) (f : TaskCtx → TaskCtx) (s : State) : (modTctx e n f s).out = s.out := by simp only [modTctx, setTctx_out]
@[simp] theorem modTctx_freeCtr (e n : Nat) (f : TaskCtx → TaskCtx) (s : State) : (modTctx e n f s).freeCtr = s.freeCtr := by simp only [modTctx, setTctx_freeCtr]

/-! ### setStream -/

@[simp] theorem setStream_pending (e q : Nat) (x : StreamS) (s : State) : (setStream e q x s).pending = s.pending := by simp only [setStream, modTile_pending]
@[simp] theorem setStream_regs (e q : Nat) (x : StreamS) (s : State) : (setStream e q x s).regs = s.regs := by simp only [setStream, modTile_regs]
@[simp] theorem setStream_setup (e q : Nat) (x : StreamS) (s : State) : (setStream e q x s).setup = s.setup := by simp only [setStream, modTile_setup]
@[simp] theorem setStream_mem (e q : Nat) (x : StreamS) (s : State) : (setStream e q x s).mem = s.mem := by simp only [setStream, modTile_mem]
@[simp] theorem setStream_scr (e q : Nat) (x : StreamS) (s : State) : (setStream e q x s).scr = s.scr := by simp only [setStream, modTile_scr]
@[simp] theorem setStream_hbm (e q : Nat) (x : StreamS) (s : State) : (setStream e q x s).hbm = s.hbm := by simp only [setStream, modTile_hbm]
@[simp] theorem setStream_host (e q : Nat) (x : StreamS) (s : State) : (setStream e q x s).host = s.host := by simp only [setStream, modTile_host]
@[simp] theorem setStream_icu (e q : Nat) (x : StreamS) (s : State) : (setStream e q x s).icu = s.icu := by simp only [setStream, modTile_icu]
@[simp] theorem setStream_fab (e q : Nat) (x : StreamS) (s : State) : (setStream e q x s).fab = s.fab := by simp only [setStream, modTile_fab]
@[simp] theorem setStream_rings (e q : Nat) (x : StreamS) (s : State) : (setStream e q x s).rings = s.rings := by simp only [setStream, modTile_rings]
@[simp] theorem setStream_loads (e q : Nat) (x : StreamS) (s : State) : (setStream e q x s).loads = s.loads := by simp only [setStream, modTile_loads]
@[simp] theorem setStream_checks (e q : Nat) (x : StreamS) (s : State) : (setStream e q x s).checks = s.checks := by simp only [setStream, modTile_checks]
@[simp] theorem setStream_checkAt (e q : Nat) (x : StreamS) (s : State) : (setStream e q x s).checkAt = s.checkAt := by simp only [setStream, modTile_checkAt]
@[simp] theorem setStream_stones (e q : Nat) (x : StreamS) (s : State) : (setStream e q x s).stones = s.stones := by simp only [setStream, modTile_stones]
@[simp] theorem setStream_rows (e q : Nat) (x : StreamS) (s : State) : (setStream e q x s).rows = s.rows := by simp only [setStream, modTile_rows]
@[simp] theorem setStream_clk (e q : Nat) (x : StreamS) (s : State) : (setStream e q x s).clk = s.clk := by simp only [setStream, modTile_clk]
@[simp] theorem setStream_boot (e q : Nat) (x : StreamS) (s : State) : (setStream e q x s).boot = s.boot := by simp only [setStream, modTile_boot]
@[simp] theorem setStream_pwr (e q : Nat) (x : StreamS) (s : State) : (setStream e q x s).pwr = s.pwr := by simp only [setStream, modTile_pwr]
@[simp] theorem setStream_out (e q : Nat) (x : StreamS) (s : State) : (setStream e q x s).out = s.out := by simp only [setStream, modTile_out]
@[simp] theorem setStream_freeCtr (e q : Nat) (x : StreamS) (s : State) : (setStream e q x s).freeCtr = s.freeCtr := by simp only [setStream, modTile_freeCtr]

/-! ### modStream -/

@[simp] theorem modStream_pending (e q : Nat) (f : StreamS → StreamS) (s : State) : (modStream e q f s).pending = s.pending := by simp only [modStream, setStream_pending]
@[simp] theorem modStream_regs (e q : Nat) (f : StreamS → StreamS) (s : State) : (modStream e q f s).regs = s.regs := by simp only [modStream, setStream_regs]
@[simp] theorem modStream_setup (e q : Nat) (f : StreamS → StreamS) (s : State) : (modStream e q f s).setup = s.setup := by simp only [modStream, setStream_setup]
@[simp] theorem modStream_mem (e q : Nat) (f : StreamS → StreamS) (s : State) : (modStream e q f s).mem = s.mem := by simp only [modStream, setStream_mem]
@[simp] theorem modStream_scr (e q : Nat) (f : StreamS → StreamS) (s : State) : (modStream e q f s).scr = s.scr := by simp only [modStream, setStream_scr]
@[simp] theorem modStream_hbm (e q : Nat) (f : StreamS → StreamS) (s : State) : (modStream e q f s).hbm = s.hbm := by simp only [modStream, setStream_hbm]
@[simp] theorem modStream_host (e q : Nat) (f : StreamS → StreamS) (s : State) : (modStream e q f s).host = s.host := by simp only [modStream, setStream_host]
@[simp] theorem modStream_icu (e q : Nat) (f : StreamS → StreamS) (s : State) : (modStream e q f s).icu = s.icu := by simp only [modStream, setStream_icu]
@[simp] theorem modStream_fab (e q : Nat) (f : StreamS → StreamS) (s : State) : (modStream e q f s).fab = s.fab := by simp only [modStream, setStream_fab]
@[simp] theorem modStream_rings (e q : Nat) (f : StreamS → StreamS) (s : State) : (modStream e q f s).rings = s.rings := by simp only [modStream, setStream_rings]
@[simp] theorem modStream_loads (e q : Nat) (f : StreamS → StreamS) (s : State) : (modStream e q f s).loads = s.loads := by simp only [modStream, setStream_loads]
@[simp] theorem modStream_checks (e q : Nat) (f : StreamS → StreamS) (s : State) : (modStream e q f s).checks = s.checks := by simp only [modStream, setStream_checks]
@[simp] theorem modStream_checkAt (e q : Nat) (f : StreamS → StreamS) (s : State) : (modStream e q f s).checkAt = s.checkAt := by simp only [modStream, setStream_checkAt]
@[simp] theorem modStream_stones (e q : Nat) (f : StreamS → StreamS) (s : State) : (modStream e q f s).stones = s.stones := by simp only [modStream, setStream_stones]
@[simp] theorem modStream_rows (e q : Nat) (f : StreamS → StreamS) (s : State) : (modStream e q f s).rows = s.rows := by simp only [modStream, setStream_rows]
@[simp] theorem modStream_clk (e q : Nat) (f : StreamS → StreamS) (s : State) : (modStream e q f s).clk = s.clk := by simp only [modStream, setStream_clk]
@[simp] theorem modStream_boot (e q : Nat) (f : StreamS → StreamS) (s : State) : (modStream e q f s).boot = s.boot := by simp only [modStream, setStream_boot]
@[simp] theorem modStream_pwr (e q : Nat) (f : StreamS → StreamS) (s : State) : (modStream e q f s).pwr = s.pwr := by simp only [modStream, setStream_pwr]
@[simp] theorem modStream_out (e q : Nat) (f : StreamS → StreamS) (s : State) : (modStream e q f s).out = s.out := by simp only [modStream, setStream_out]
@[simp] theorem modStream_freeCtr (e q : Nat) (f : StreamS → StreamS) (s : State) : (modStream e q f s).freeCtr = s.freeCtr := by simp only [modStream, setStream_freeCtr]

/-! ### setEntry -/

@[simp] theorem setEntry_pending (e i : Nat) (x : Entry) (s : State) : (setEntry e i x s).pending = s.pending := by simp only [setEntry, modTile_pending]
@[simp] theorem setEntry_regs (e i : Nat) (x : Entry) (s : State) : (setEntry e i x s).regs = s.regs := by simp only [setEntry, modTile_regs]
@[simp] theorem setEntry_setup (e i : Nat) (x : Entry) (s : State) : (setEntry e i x s).setup = s.setup := by simp only [setEntry, modTile_setup]
@[simp] theorem setEntry_mem (e i : Nat) (x : Entry) (s : State) : (setEntry e i x s).mem = s.mem := by simp only [setEntry, modTile_mem]
@[simp] theorem setEntry_scr (e i : Nat) (x : Entry) (s : State) : (setEntry e i x s).scr = s.scr := by simp only [setEntry, modTile_scr]
@[simp] theorem setEntry_hbm (e i : Nat) (x : Entry) (s : State) : (setEntry e i x s).hbm = s.hbm := by simp only [setEntry, modTile_hbm]
@[simp] theorem setEntry_host (e i : Nat) (x : Entry) (s : State) : (setEntry e i x s).host = s.host := by simp only [setEntry, modTile_host]
@[simp] theorem setEntry_icu (e i : Nat) (x : Entry) (s : State) : (setEntry e i x s).icu = s.icu := by simp only [setEntry, modTile_icu]
@[simp] theorem setEntry_fab (e i : Nat) (x : Entry) (s : State) : (setEntry e i x s).fab = s.fab := by simp only [setEntry, modTile_fab]
@[simp] theorem setEntry_rings (e i : Nat) (x : Entry) (s : State) : (setEntry e i x s).rings = s.rings := by simp only [setEntry, modTile_rings]
@[simp] theorem setEntry_loads (e i : Nat) (x : Entry) (s : State) : (setEntry e i x s).loads = s.loads := by simp only [setEntry, modTile_loads]
@[simp] theorem setEntry_checks (e i : Nat) (x : Entry) (s : State) : (setEntry e i x s).checks = s.checks := by simp only [setEntry, modTile_checks]
@[simp] theorem setEntry_checkAt (e i : Nat) (x : Entry) (s : State) : (setEntry e i x s).checkAt = s.checkAt := by simp only [setEntry, modTile_checkAt]
@[simp] theorem setEntry_stones (e i : Nat) (x : Entry) (s : State) : (setEntry e i x s).stones = s.stones := by simp only [setEntry, modTile_stones]
@[simp] theorem setEntry_rows (e i : Nat) (x : Entry) (s : State) : (setEntry e i x s).rows = s.rows := by simp only [setEntry, modTile_rows]
@[simp] theorem setEntry_clk (e i : Nat) (x : Entry) (s : State) : (setEntry e i x s).clk = s.clk := by simp only [setEntry, modTile_clk]
@[simp] theorem setEntry_boot (e i : Nat) (x : Entry) (s : State) : (setEntry e i x s).boot = s.boot := by simp only [setEntry, modTile_boot]
@[simp] theorem setEntry_pwr (e i : Nat) (x : Entry) (s : State) : (setEntry e i x s).pwr = s.pwr := by simp only [setEntry, modTile_pwr]
@[simp] theorem setEntry_out (e i : Nat) (x : Entry) (s : State) : (setEntry e i x s).out = s.out := by simp only [setEntry, modTile_out]
@[simp] theorem setEntry_freeCtr (e i : Nat) (x : Entry) (s : State) : (setEntry e i x s).freeCtr = s.freeCtr := by simp only [setEntry, modTile_freeCtr]

/-! ### setTag -/

@[simp] theorem setTag_pending (e slot : Nat) (x : Tag) (s : State) : (setTag e slot x s).pending = s.pending := by simp only [setTag, modTile_pending]
@[simp] theorem setTag_regs (e slot : Nat) (x : Tag) (s : State) : (setTag e slot x s).regs = s.regs := by simp only [setTag, modTile_regs]
@[simp] theorem setTag_setup (e slot : Nat) (x : Tag) (s : State) : (setTag e slot x s).setup = s.setup := by simp only [setTag, modTile_setup]
@[simp] theorem setTag_mem (e slot : Nat) (x : Tag) (s : State) : (setTag e slot x s).mem = s.mem := by simp only [setTag, modTile_mem]
@[simp] theorem setTag_scr (e slot : Nat) (x : Tag) (s : State) : (setTag e slot x s).scr = s.scr := by simp only [setTag, modTile_scr]
@[simp] theorem setTag_hbm (e slot : Nat) (x : Tag) (s : State) : (setTag e slot x s).hbm = s.hbm := by simp only [setTag, modTile_hbm]
@[simp] theorem setTag_host (e slot : Nat) (x : Tag) (s : State) : (setTag e slot x s).host = s.host := by simp only [setTag, modTile_host]
@[simp] theorem setTag_icu (e slot : Nat) (x : Tag) (s : State) : (setTag e slot x s).icu = s.icu := by simp only [setTag, modTile_icu]
@[simp] theorem setTag_fab (e slot : Nat) (x : Tag) (s : State) : (setTag e slot x s).fab = s.fab := by simp only [setTag, modTile_fab]
@[simp] theorem setTag_rings (e slot : Nat) (x : Tag) (s : State) : (setTag e slot x s).rings = s.rings := by simp only [setTag, modTile_rings]
@[simp] theorem setTag_loads (e slot : Nat) (x : Tag) (s : State) : (setTag e slot x s).loads = s.loads := by simp only [setTag, modTile_loads]
@[simp] theorem setTag_checks (e slot : Nat) (x : Tag) (s : State) : (setTag e slot x s).checks = s.checks := by simp only [setTag, modTile_checks]
@[simp] theorem setTag_checkAt (e slot : Nat) (x : Tag) (s : State) : (setTag e slot x s).checkAt = s.checkAt := by simp only [setTag, modTile_checkAt]
@[simp] theorem setTag_stones (e slot : Nat) (x : Tag) (s : State) : (setTag e slot x s).stones = s.stones := by simp only [setTag, modTile_stones]
@[simp] theorem setTag_rows (e slot : Nat) (x : Tag) (s : State) : (setTag e slot x s).rows = s.rows := by simp only [setTag, modTile_rows]
@[simp] theorem setTag_clk (e slot : Nat) (x : Tag) (s : State) : (setTag e slot x s).clk = s.clk := by simp only [setTag, modTile_clk]
@[simp] theorem setTag_boot (e slot : Nat) (x : Tag) (s : State) : (setTag e slot x s).boot = s.boot := by simp only [setTag, modTile_boot]
@[simp] theorem setTag_pwr (e slot : Nat) (x : Tag) (s : State) : (setTag e slot x s).pwr = s.pwr := by simp only [setTag, modTile_pwr]
@[simp] theorem setTag_out (e slot : Nat) (x : Tag) (s : State) : (setTag e slot x s).out = s.out := by simp only [setTag, modTile_out]
@[simp] theorem setTag_freeCtr (e slot : Nat) (x : Tag) (s : State) : (setTag e slot x s).freeCtr = s.freeCtr := by simp only [setTag, modTile_freeCtr]

/-! ### setPort -/

@[simp] theorem setPort_pending (p : Nat) (x : PortS) (s : State) : (setPort p x s).pending = s.pending := rfl
@[simp] theorem setPort_regs (p : Nat) (x : PortS) (s : State) : (setPort p x s).regs = s.regs := rfl
@[simp] theorem setPort_setup (p : Nat) (x : PortS) (s : State) : (setPort p x s).setup = s.setup := rfl
@[simp] theorem setPort_mem (p : Nat) (x : PortS) (s : State) : (setPort p x s).mem = s.mem := rfl
@[simp] theorem setPort_scr (p : Nat) (x : PortS) (s : State) : (setPort p x s).scr = s.scr := rfl
@[simp] theorem setPort_hbm (p : Nat) (x : PortS) (s : State) : (setPort p x s).hbm = s.hbm := rfl
@[simp] theorem setPort_host (p : Nat) (x : PortS) (s : State) : (setPort p x s).host = s.host := rfl
@[simp] theorem setPort_icu (p : Nat) (x : PortS) (s : State) : (setPort p x s).icu = s.icu := rfl
@[simp] theorem setPort_tiles (p : Nat) (x : PortS) (s : State) : (setPort p x s).tiles = s.tiles := rfl
@[simp] theorem setPort_rings (p : Nat) (x : PortS) (s : State) : (setPort p x s).rings = s.rings := rfl
@[simp] theorem setPort_loads (p : Nat) (x : PortS) (s : State) : (setPort p x s).loads = s.loads := rfl
@[simp] theorem setPort_checks (p : Nat) (x : PortS) (s : State) : (setPort p x s).checks = s.checks := rfl
@[simp] theorem setPort_checkAt (p : Nat) (x : PortS) (s : State) : (setPort p x s).checkAt = s.checkAt := rfl
@[simp] theorem setPort_stones (p : Nat) (x : PortS) (s : State) : (setPort p x s).stones = s.stones := rfl
@[simp] theorem setPort_rows (p : Nat) (x : PortS) (s : State) : (setPort p x s).rows = s.rows := rfl
@[simp] theorem setPort_clk (p : Nat) (x : PortS) (s : State) : (setPort p x s).clk = s.clk := rfl
@[simp] theorem setPort_boot (p : Nat) (x : PortS) (s : State) : (setPort p x s).boot = s.boot := rfl
@[simp] theorem setPort_pwr (p : Nat) (x : PortS) (s : State) : (setPort p x s).pwr = s.pwr := rfl
@[simp] theorem setPort_out (p : Nat) (x : PortS) (s : State) : (setPort p x s).out = s.out := rfl
@[simp] theorem setPort_freeCtr (p : Nat) (x : PortS) (s : State) : (setPort p x s).freeCtr = s.freeCtr := rfl

/-! ### modPort -/

@[simp] theorem modPort_pending (p : Nat) (f : PortS → PortS) (s : State) : (modPort p f s).pending = s.pending := by simp only [modPort, setPort_pending]
@[simp] theorem modPort_regs (p : Nat) (f : PortS → PortS) (s : State) : (modPort p f s).regs = s.regs := by simp only [modPort, setPort_regs]
@[simp] theorem modPort_setup (p : Nat) (f : PortS → PortS) (s : State) : (modPort p f s).setup = s.setup := by simp only [modPort, setPort_setup]
@[simp] theorem modPort_mem (p : Nat) (f : PortS → PortS) (s : State) : (modPort p f s).mem = s.mem := by simp only [modPort, setPort_mem]
@[simp] theorem modPort_scr (p : Nat) (f : PortS → PortS) (s : State) : (modPort p f s).scr = s.scr := by simp only [modPort, setPort_scr]
@[simp] theorem modPort_hbm (p : Nat) (f : PortS → PortS) (s : State) : (modPort p f s).hbm = s.hbm := by simp only [modPort, setPort_hbm]
@[simp] theorem modPort_host (p : Nat) (f : PortS → PortS) (s : State) : (modPort p f s).host = s.host := by simp only [modPort, setPort_host]
@[simp] theorem modPort_icu (p : Nat) (f : PortS → PortS) (s : State) : (modPort p f s).icu = s.icu := by simp only [modPort, setPort_icu]
@[simp] theorem modPort_tiles (p : Nat) (f : PortS → PortS) (s : State) : (modPort p f s).tiles = s.tiles := by simp only [modPort, setPort_tiles]
@[simp] theorem modPort_rings (p : Nat) (f : PortS → PortS) (s : State) : (modPort p f s).rings = s.rings := by simp only [modPort, setPort_rings]
@[simp] theorem modPort_loads (p : Nat) (f : PortS → PortS) (s : State) : (modPort p f s).loads = s.loads := by simp only [modPort, setPort_loads]
@[simp] theorem modPort_checks (p : Nat) (f : PortS → PortS) (s : State) : (modPort p f s).checks = s.checks := by simp only [modPort, setPort_checks]
@[simp] theorem modPort_checkAt (p : Nat) (f : PortS → PortS) (s : State) : (modPort p f s).checkAt = s.checkAt := by simp only [modPort, setPort_checkAt]
@[simp] theorem modPort_stones (p : Nat) (f : PortS → PortS) (s : State) : (modPort p f s).stones = s.stones := by simp only [modPort, setPort_stones]
@[simp] theorem modPort_rows (p : Nat) (f : PortS → PortS) (s : State) : (modPort p f s).rows = s.rows := by simp only [modPort, setPort_rows]
@[simp] theorem modPort_clk (p : Nat) (f : PortS → PortS) (s : State) : (modPort p f s).clk = s.clk := by simp only [modPort, setPort_clk]
@[simp] theorem modPort_boot (p : Nat) (f : PortS → PortS) (s : State) : (modPort p f s).boot = s.boot := by simp only [modPort, setPort_boot]
@[simp] theorem modPort_pwr (p : Nat) (f : PortS → PortS) (s : State) : (modPort p f s).pwr = s.pwr := by simp only [modPort, setPort_pwr]
@[simp] theorem modPort_out (p : Nat) (f : PortS → PortS) (s : State) : (modPort p f s).out = s.out := by simp only [modPort, setPort_out]
@[simp] theorem modPort_freeCtr (p : Nat) (f : PortS → PortS) (s : State) : (modPort p f s).freeCtr = s.freeCtr := by simp only [modPort, setPort_freeCtr]

/-! ### setTx -/

@[simp] theorem setTx_pending (k : Nat) (x : TxS) (s : State) : (setTx k x s).pending = s.pending := rfl
@[simp] theorem setTx_regs (k : Nat) (x : TxS) (s : State) : (setTx k x s).regs = s.regs := rfl
@[simp] theorem setTx_setup (k : Nat) (x : TxS) (s : State) : (setTx k x s).setup = s.setup := rfl
@[simp] theorem setTx_mem (k : Nat) (x : TxS) (s : State) : (setTx k x s).mem = s.mem := rfl
@[simp] theorem setTx_scr (k : Nat) (x : TxS) (s : State) : (setTx k x s).scr = s.scr := rfl
@[simp] theorem setTx_hbm (k : Nat) (x : TxS) (s : State) : (setTx k x s).hbm = s.hbm := rfl
@[simp] theorem setTx_host (k : Nat) (x : TxS) (s : State) : (setTx k x s).host = s.host := rfl
@[simp] theorem setTx_icu (k : Nat) (x : TxS) (s : State) : (setTx k x s).icu = s.icu := rfl
@[simp] theorem setTx_tiles (k : Nat) (x : TxS) (s : State) : (setTx k x s).tiles = s.tiles := rfl
@[simp] theorem setTx_rings (k : Nat) (x : TxS) (s : State) : (setTx k x s).rings = s.rings := rfl
@[simp] theorem setTx_loads (k : Nat) (x : TxS) (s : State) : (setTx k x s).loads = s.loads := rfl
@[simp] theorem setTx_checks (k : Nat) (x : TxS) (s : State) : (setTx k x s).checks = s.checks := rfl
@[simp] theorem setTx_checkAt (k : Nat) (x : TxS) (s : State) : (setTx k x s).checkAt = s.checkAt := rfl
@[simp] theorem setTx_stones (k : Nat) (x : TxS) (s : State) : (setTx k x s).stones = s.stones := rfl
@[simp] theorem setTx_rows (k : Nat) (x : TxS) (s : State) : (setTx k x s).rows = s.rows := rfl
@[simp] theorem setTx_clk (k : Nat) (x : TxS) (s : State) : (setTx k x s).clk = s.clk := rfl
@[simp] theorem setTx_boot (k : Nat) (x : TxS) (s : State) : (setTx k x s).boot = s.boot := rfl
@[simp] theorem setTx_pwr (k : Nat) (x : TxS) (s : State) : (setTx k x s).pwr = s.pwr := rfl
@[simp] theorem setTx_out (k : Nat) (x : TxS) (s : State) : (setTx k x s).out = s.out := rfl
@[simp] theorem setTx_freeCtr (k : Nat) (x : TxS) (s : State) : (setTx k x s).freeCtr = s.freeCtr := rfl

/-! ### setRx -/

@[simp] theorem setRx_pending (k : Nat) (x : RxS) (s : State) : (setRx k x s).pending = s.pending := rfl
@[simp] theorem setRx_regs (k : Nat) (x : RxS) (s : State) : (setRx k x s).regs = s.regs := rfl
@[simp] theorem setRx_setup (k : Nat) (x : RxS) (s : State) : (setRx k x s).setup = s.setup := rfl
@[simp] theorem setRx_mem (k : Nat) (x : RxS) (s : State) : (setRx k x s).mem = s.mem := rfl
@[simp] theorem setRx_scr (k : Nat) (x : RxS) (s : State) : (setRx k x s).scr = s.scr := rfl
@[simp] theorem setRx_hbm (k : Nat) (x : RxS) (s : State) : (setRx k x s).hbm = s.hbm := rfl
@[simp] theorem setRx_host (k : Nat) (x : RxS) (s : State) : (setRx k x s).host = s.host := rfl
@[simp] theorem setRx_icu (k : Nat) (x : RxS) (s : State) : (setRx k x s).icu = s.icu := rfl
@[simp] theorem setRx_tiles (k : Nat) (x : RxS) (s : State) : (setRx k x s).tiles = s.tiles := rfl
@[simp] theorem setRx_rings (k : Nat) (x : RxS) (s : State) : (setRx k x s).rings = s.rings := rfl
@[simp] theorem setRx_loads (k : Nat) (x : RxS) (s : State) : (setRx k x s).loads = s.loads := rfl
@[simp] theorem setRx_checks (k : Nat) (x : RxS) (s : State) : (setRx k x s).checks = s.checks := rfl
@[simp] theorem setRx_checkAt (k : Nat) (x : RxS) (s : State) : (setRx k x s).checkAt = s.checkAt := rfl
@[simp] theorem setRx_stones (k : Nat) (x : RxS) (s : State) : (setRx k x s).stones = s.stones := rfl
@[simp] theorem setRx_rows (k : Nat) (x : RxS) (s : State) : (setRx k x s).rows = s.rows := rfl
@[simp] theorem setRx_clk (k : Nat) (x : RxS) (s : State) : (setRx k x s).clk = s.clk := rfl
@[simp] theorem setRx_boot (k : Nat) (x : RxS) (s : State) : (setRx k x s).boot = s.boot := rfl
@[simp] theorem setRx_pwr (k : Nat) (x : RxS) (s : State) : (setRx k x s).pwr = s.pwr := rfl
@[simp] theorem setRx_out (k : Nat) (x : RxS) (s : State) : (setRx k x s).out = s.out := rfl
@[simp] theorem setRx_freeCtr (k : Nat) (x : RxS) (s : State) : (setRx k x s).freeCtr = s.freeCtr := rfl

/-! ### setRing -/

@[simp] theorem setRing_pending (x : Nat) (r : RingC) (s : State) : (setRing x r s).pending = s.pending := rfl
@[simp] theorem setRing_regs (x : Nat) (r : RingC) (s : State) : (setRing x r s).regs = s.regs := rfl
@[simp] theorem setRing_setup (x : Nat) (r : RingC) (s : State) : (setRing x r s).setup = s.setup := rfl
@[simp] theorem setRing_mem (x : Nat) (r : RingC) (s : State) : (setRing x r s).mem = s.mem := rfl
@[simp] theorem setRing_scr (x : Nat) (r : RingC) (s : State) : (setRing x r s).scr = s.scr := rfl
@[simp] theorem setRing_hbm (x : Nat) (r : RingC) (s : State) : (setRing x r s).hbm = s.hbm := rfl
@[simp] theorem setRing_host (x : Nat) (r : RingC) (s : State) : (setRing x r s).host = s.host := rfl
@[simp] theorem setRing_icu (x : Nat) (r : RingC) (s : State) : (setRing x r s).icu = s.icu := rfl
@[simp] theorem setRing_tiles (x : Nat) (r : RingC) (s : State) : (setRing x r s).tiles = s.tiles := rfl
@[simp] theorem setRing_fab (x : Nat) (r : RingC) (s : State) : (setRing x r s).fab = s.fab := rfl
@[simp] theorem setRing_loads (x : Nat) (r : RingC) (s : State) : (setRing x r s).loads = s.loads := rfl
@[simp] theorem setRing_checks (x : Nat) (r : RingC) (s : State) : (setRing x r s).checks = s.checks := rfl
@[simp] theorem setRing_checkAt (x : Nat) (r : RingC) (s : State) : (setRing x r s).checkAt = s.checkAt := rfl
@[simp] theorem setRing_stones (x : Nat) (r : RingC) (s : State) : (setRing x r s).stones = s.stones := rfl
@[simp] theorem setRing_rows (x : Nat) (r : RingC) (s : State) : (setRing x r s).rows = s.rows := rfl
@[simp] theorem setRing_clk (x : Nat) (r : RingC) (s : State) : (setRing x r s).clk = s.clk := rfl
@[simp] theorem setRing_boot (x : Nat) (r : RingC) (s : State) : (setRing x r s).boot = s.boot := rfl
@[simp] theorem setRing_pwr (x : Nat) (r : RingC) (s : State) : (setRing x r s).pwr = s.pwr := rfl
@[simp] theorem setRing_out (x : Nat) (r : RingC) (s : State) : (setRing x r s).out = s.out := rfl
@[simp] theorem setRing_freeCtr (x : Nat) (r : RingC) (s : State) : (setRing x r s).freeCtr = s.freeCtr := rfl

/-! ### modRing -/

@[simp] theorem modRing_pending (x : Nat) (f : RingC → RingC) (s : State) : (modRing x f s).pending = s.pending := by simp only [modRing, setRing_pending]
@[simp] theorem modRing_regs (x : Nat) (f : RingC → RingC) (s : State) : (modRing x f s).regs = s.regs := by simp only [modRing, setRing_regs]
@[simp] theorem modRing_setup (x : Nat) (f : RingC → RingC) (s : State) : (modRing x f s).setup = s.setup := by simp only [modRing, setRing_setup]
@[simp] theorem modRing_mem (x : Nat) (f : RingC → RingC) (s : State) : (modRing x f s).mem = s.mem := by simp only [modRing, setRing_mem]
@[simp] theorem modRing_scr (x : Nat) (f : RingC → RingC) (s : State) : (modRing x f s).scr = s.scr := by simp only [modRing, setRing_scr]
@[simp] theorem modRing_hbm (x : Nat) (f : RingC → RingC) (s : State) : (modRing x f s).hbm = s.hbm := by simp only [modRing, setRing_hbm]
@[simp] theorem modRing_host (x : Nat) (f : RingC → RingC) (s : State) : (modRing x f s).host = s.host := by simp only [modRing, setRing_host]
@[simp] theorem modRing_icu (x : Nat) (f : RingC → RingC) (s : State) : (modRing x f s).icu = s.icu := by simp only [modRing, setRing_icu]
@[simp] theorem modRing_tiles (x : Nat) (f : RingC → RingC) (s : State) : (modRing x f s).tiles = s.tiles := by simp only [modRing, setRing_tiles]
@[simp] theorem modRing_fab (x : Nat) (f : RingC → RingC) (s : State) : (modRing x f s).fab = s.fab := by simp only [modRing, setRing_fab]
@[simp] theorem modRing_loads (x : Nat) (f : RingC → RingC) (s : State) : (modRing x f s).loads = s.loads := by simp only [modRing, setRing_loads]
@[simp] theorem modRing_checks (x : Nat) (f : RingC → RingC) (s : State) : (modRing x f s).checks = s.checks := by simp only [modRing, setRing_checks]
@[simp] theorem modRing_checkAt (x : Nat) (f : RingC → RingC) (s : State) : (modRing x f s).checkAt = s.checkAt := by simp only [modRing, setRing_checkAt]
@[simp] theorem modRing_stones (x : Nat) (f : RingC → RingC) (s : State) : (modRing x f s).stones = s.stones := by simp only [modRing, setRing_stones]
@[simp] theorem modRing_rows (x : Nat) (f : RingC → RingC) (s : State) : (modRing x f s).rows = s.rows := by simp only [modRing, setRing_rows]
@[simp] theorem modRing_clk (x : Nat) (f : RingC → RingC) (s : State) : (modRing x f s).clk = s.clk := by simp only [modRing, setRing_clk]
@[simp] theorem modRing_boot (x : Nat) (f : RingC → RingC) (s : State) : (modRing x f s).boot = s.boot := by simp only [modRing, setRing_boot]
@[simp] theorem modRing_pwr (x : Nat) (f : RingC → RingC) (s : State) : (modRing x f s).pwr = s.pwr := by simp only [modRing, setRing_pwr]
@[simp] theorem modRing_out (x : Nat) (f : RingC → RingC) (s : State) : (modRing x f s).out = s.out := by simp only [modRing, setRing_out]
@[simp] theorem modRing_freeCtr (x : Nat) (f : RingC → RingC) (s : State) : (modRing x f s).freeCtr = s.freeCtr := by simp only [modRing, setRing_freeCtr]

/-! ### setGrants -/

@[simp] theorem setGrants_pending (d : Nat) (g : List LeaveGrant) (s : State) : (setGrants d g s).pending = s.pending := rfl
@[simp] theorem setGrants_regs (d : Nat) (g : List LeaveGrant) (s : State) : (setGrants d g s).regs = s.regs := rfl
@[simp] theorem setGrants_setup (d : Nat) (g : List LeaveGrant) (s : State) : (setGrants d g s).setup = s.setup := rfl
@[simp] theorem setGrants_mem (d : Nat) (g : List LeaveGrant) (s : State) : (setGrants d g s).mem = s.mem := rfl
@[simp] theorem setGrants_scr (d : Nat) (g : List LeaveGrant) (s : State) : (setGrants d g s).scr = s.scr := rfl
@[simp] theorem setGrants_hbm (d : Nat) (g : List LeaveGrant) (s : State) : (setGrants d g s).hbm = s.hbm := rfl
@[simp] theorem setGrants_host (d : Nat) (g : List LeaveGrant) (s : State) : (setGrants d g s).host = s.host := rfl
@[simp] theorem setGrants_icu (d : Nat) (g : List LeaveGrant) (s : State) : (setGrants d g s).icu = s.icu := rfl
@[simp] theorem setGrants_tiles (d : Nat) (g : List LeaveGrant) (s : State) : (setGrants d g s).tiles = s.tiles := rfl
@[simp] theorem setGrants_fab (d : Nat) (g : List LeaveGrant) (s : State) : (setGrants d g s).fab = s.fab := rfl
@[simp] theorem setGrants_rings (d : Nat) (g : List LeaveGrant) (s : State) : (setGrants d g s).rings = s.rings := rfl
@[simp] theorem setGrants_loads (d : Nat) (g : List LeaveGrant) (s : State) : (setGrants d g s).loads = s.loads := rfl
@[simp] theorem setGrants_checks (d : Nat) (g : List LeaveGrant) (s : State) : (setGrants d g s).checks = s.checks := rfl
@[simp] theorem setGrants_checkAt (d : Nat) (g : List LeaveGrant) (s : State) : (setGrants d g s).checkAt = s.checkAt := rfl
@[simp] theorem setGrants_stones (d : Nat) (g : List LeaveGrant) (s : State) : (setGrants d g s).stones = s.stones := rfl
@[simp] theorem setGrants_rows (d : Nat) (g : List LeaveGrant) (s : State) : (setGrants d g s).rows = s.rows := rfl
@[simp] theorem setGrants_clk (d : Nat) (g : List LeaveGrant) (s : State) : (setGrants d g s).clk = s.clk := rfl
@[simp] theorem setGrants_boot (d : Nat) (g : List LeaveGrant) (s : State) : (setGrants d g s).boot = s.boot := rfl
@[simp] theorem setGrants_out (d : Nat) (g : List LeaveGrant) (s : State) : (setGrants d g s).out = s.out := rfl
@[simp] theorem setGrants_freeCtr (d : Nat) (g : List LeaveGrant) (s : State) : (setGrants d g s).freeCtr = s.freeCtr := rfl

/-! ### setReqs -/

@[simp] theorem setReqs_pending (d : Nat) (q : List LeaveReq) (s : State) : (setReqs d q s).pending = s.pending := rfl
@[simp] theorem setReqs_regs (d : Nat) (q : List LeaveReq) (s : State) : (setReqs d q s).regs = s.regs := rfl
@[simp] theorem setReqs_setup (d : Nat) (q : List LeaveReq) (s : State) : (setReqs d q s).setup = s.setup := rfl
@[simp] theorem setReqs_mem (d : Nat) (q : List LeaveReq) (s : State) : (setReqs d q s).mem = s.mem := rfl
@[simp] theorem setReqs_scr (d : Nat) (q : List LeaveReq) (s : State) : (setReqs d q s).scr = s.scr := rfl
@[simp] theorem setReqs_hbm (d : Nat) (q : List LeaveReq) (s : State) : (setReqs d q s).hbm = s.hbm := rfl
@[simp] theorem setReqs_host (d : Nat) (q : List LeaveReq) (s : State) : (setReqs d q s).host = s.host := rfl
@[simp] theorem setReqs_icu (d : Nat) (q : List LeaveReq) (s : State) : (setReqs d q s).icu = s.icu := rfl
@[simp] theorem setReqs_tiles (d : Nat) (q : List LeaveReq) (s : State) : (setReqs d q s).tiles = s.tiles := rfl
@[simp] theorem setReqs_fab (d : Nat) (q : List LeaveReq) (s : State) : (setReqs d q s).fab = s.fab := rfl
@[simp] theorem setReqs_rings (d : Nat) (q : List LeaveReq) (s : State) : (setReqs d q s).rings = s.rings := rfl
@[simp] theorem setReqs_loads (d : Nat) (q : List LeaveReq) (s : State) : (setReqs d q s).loads = s.loads := rfl
@[simp] theorem setReqs_checks (d : Nat) (q : List LeaveReq) (s : State) : (setReqs d q s).checks = s.checks := rfl
@[simp] theorem setReqs_checkAt (d : Nat) (q : List LeaveReq) (s : State) : (setReqs d q s).checkAt = s.checkAt := rfl
@[simp] theorem setReqs_stones (d : Nat) (q : List LeaveReq) (s : State) : (setReqs d q s).stones = s.stones := rfl
@[simp] theorem setReqs_rows (d : Nat) (q : List LeaveReq) (s : State) : (setReqs d q s).rows = s.rows := rfl
@[simp] theorem setReqs_clk (d : Nat) (q : List LeaveReq) (s : State) : (setReqs d q s).clk = s.clk := rfl
@[simp] theorem setReqs_boot (d : Nat) (q : List LeaveReq) (s : State) : (setReqs d q s).boot = s.boot := rfl
@[simp] theorem setReqs_out (d : Nat) (q : List LeaveReq) (s : State) : (setReqs d q s).out = s.out := rfl
@[simp] theorem setReqs_freeCtr (d : Nat) (q : List LeaveReq) (s : State) : (setReqs d q s).freeCtr = s.freeCtr := rfl

/-! ### setRow -/

@[simp] theorem setRow_pending (x : Nat) (y : RowS) (s : State) : (setRow x y s).pending = s.pending := rfl
@[simp] theorem setRow_regs (x : Nat) (y : RowS) (s : State) : (setRow x y s).regs = s.regs := rfl
@[simp] theorem setRow_setup (x : Nat) (y : RowS) (s : State) : (setRow x y s).setup = s.setup := rfl
@[simp] theorem setRow_mem (x : Nat) (y : RowS) (s : State) : (setRow x y s).mem = s.mem := rfl
@[simp] theorem setRow_scr (x : Nat) (y : RowS) (s : State) : (setRow x y s).scr = s.scr := rfl
@[simp] theorem setRow_hbm (x : Nat) (y : RowS) (s : State) : (setRow x y s).hbm = s.hbm := rfl
@[simp] theorem setRow_host (x : Nat) (y : RowS) (s : State) : (setRow x y s).host = s.host := rfl
@[simp] theorem setRow_icu (x : Nat) (y : RowS) (s : State) : (setRow x y s).icu = s.icu := rfl
@[simp] theorem setRow_tiles (x : Nat) (y : RowS) (s : State) : (setRow x y s).tiles = s.tiles := rfl
@[simp] theorem setRow_fab (x : Nat) (y : RowS) (s : State) : (setRow x y s).fab = s.fab := rfl
@[simp] theorem setRow_rings (x : Nat) (y : RowS) (s : State) : (setRow x y s).rings = s.rings := rfl
@[simp] theorem setRow_loads (x : Nat) (y : RowS) (s : State) : (setRow x y s).loads = s.loads := rfl
@[simp] theorem setRow_checks (x : Nat) (y : RowS) (s : State) : (setRow x y s).checks = s.checks := rfl
@[simp] theorem setRow_checkAt (x : Nat) (y : RowS) (s : State) : (setRow x y s).checkAt = s.checkAt := rfl
@[simp] theorem setRow_stones (x : Nat) (y : RowS) (s : State) : (setRow x y s).stones = s.stones := rfl
@[simp] theorem setRow_clk (x : Nat) (y : RowS) (s : State) : (setRow x y s).clk = s.clk := rfl
@[simp] theorem setRow_boot (x : Nat) (y : RowS) (s : State) : (setRow x y s).boot = s.boot := rfl
@[simp] theorem setRow_pwr (x : Nat) (y : RowS) (s : State) : (setRow x y s).pwr = s.pwr := rfl
@[simp] theorem setRow_out (x : Nat) (y : RowS) (s : State) : (setRow x y s).out = s.out := rfl
@[simp] theorem setRow_freeCtr (x : Nat) (y : RowS) (s : State) : (setRow x y s).freeCtr = s.freeCtr := rfl

/-! ### setLoad -/

@[simp] theorem setLoad_pending (x : Nat) (y : LoadS) (s : State) : (setLoad x y s).pending = s.pending := rfl
@[simp] theorem setLoad_regs (x : Nat) (y : LoadS) (s : State) : (setLoad x y s).regs = s.regs := rfl
@[simp] theorem setLoad_setup (x : Nat) (y : LoadS) (s : State) : (setLoad x y s).setup = s.setup := rfl
@[simp] theorem setLoad_mem (x : Nat) (y : LoadS) (s : State) : (setLoad x y s).mem = s.mem := rfl
@[simp] theorem setLoad_scr (x : Nat) (y : LoadS) (s : State) : (setLoad x y s).scr = s.scr := rfl
@[simp] theorem setLoad_hbm (x : Nat) (y : LoadS) (s : State) : (setLoad x y s).hbm = s.hbm := rfl
@[simp] theorem setLoad_host (x : Nat) (y : LoadS) (s : State) : (setLoad x y s).host = s.host := rfl
@[simp] theorem setLoad_icu (x : Nat) (y : LoadS) (s : State) : (setLoad x y s).icu = s.icu := rfl
@[simp] theorem setLoad_tiles (x : Nat) (y : LoadS) (s : State) : (setLoad x y s).tiles = s.tiles := rfl
@[simp] theorem setLoad_fab (x : Nat) (y : LoadS) (s : State) : (setLoad x y s).fab = s.fab := rfl
@[simp] theorem setLoad_rings (x : Nat) (y : LoadS) (s : State) : (setLoad x y s).rings = s.rings := rfl
@[simp] theorem setLoad_checks (x : Nat) (y : LoadS) (s : State) : (setLoad x y s).checks = s.checks := rfl
@[simp] theorem setLoad_checkAt (x : Nat) (y : LoadS) (s : State) : (setLoad x y s).checkAt = s.checkAt := rfl
@[simp] theorem setLoad_stones (x : Nat) (y : LoadS) (s : State) : (setLoad x y s).stones = s.stones := rfl
@[simp] theorem setLoad_rows (x : Nat) (y : LoadS) (s : State) : (setLoad x y s).rows = s.rows := rfl
@[simp] theorem setLoad_clk (x : Nat) (y : LoadS) (s : State) : (setLoad x y s).clk = s.clk := rfl
@[simp] theorem setLoad_boot (x : Nat) (y : LoadS) (s : State) : (setLoad x y s).boot = s.boot := rfl
@[simp] theorem setLoad_pwr (x : Nat) (y : LoadS) (s : State) : (setLoad x y s).pwr = s.pwr := rfl
@[simp] theorem setLoad_out (x : Nat) (y : LoadS) (s : State) : (setLoad x y s).out = s.out := rfl
@[simp] theorem setLoad_freeCtr (x : Nat) (y : LoadS) (s : State) : (setLoad x y s).freeCtr = s.freeCtr := rfl

/-! ### modLoad -/

@[simp] theorem modLoad_pending (x : Nat) (f : LoadS → LoadS) (s : State) : (modLoad x f s).pending = s.pending := by simp only [modLoad, setLoad_pending]
@[simp] theorem modLoad_regs (x : Nat) (f : LoadS → LoadS) (s : State) : (modLoad x f s).regs = s.regs := by simp only [modLoad, setLoad_regs]
@[simp] theorem modLoad_setup (x : Nat) (f : LoadS → LoadS) (s : State) : (modLoad x f s).setup = s.setup := by simp only [modLoad, setLoad_setup]
@[simp] theorem modLoad_mem (x : Nat) (f : LoadS → LoadS) (s : State) : (modLoad x f s).mem = s.mem := by simp only [modLoad, setLoad_mem]
@[simp] theorem modLoad_scr (x : Nat) (f : LoadS → LoadS) (s : State) : (modLoad x f s).scr = s.scr := by simp only [modLoad, setLoad_scr]
@[simp] theorem modLoad_hbm (x : Nat) (f : LoadS → LoadS) (s : State) : (modLoad x f s).hbm = s.hbm := by simp only [modLoad, setLoad_hbm]
@[simp] theorem modLoad_host (x : Nat) (f : LoadS → LoadS) (s : State) : (modLoad x f s).host = s.host := by simp only [modLoad, setLoad_host]
@[simp] theorem modLoad_icu (x : Nat) (f : LoadS → LoadS) (s : State) : (modLoad x f s).icu = s.icu := by simp only [modLoad, setLoad_icu]
@[simp] theorem modLoad_tiles (x : Nat) (f : LoadS → LoadS) (s : State) : (modLoad x f s).tiles = s.tiles := by simp only [modLoad, setLoad_tiles]
@[simp] theorem modLoad_fab (x : Nat) (f : LoadS → LoadS) (s : State) : (modLoad x f s).fab = s.fab := by simp only [modLoad, setLoad_fab]
@[simp] theorem modLoad_rings (x : Nat) (f : LoadS → LoadS) (s : State) : (modLoad x f s).rings = s.rings := by simp only [modLoad, setLoad_rings]
@[simp] theorem modLoad_checks (x : Nat) (f : LoadS → LoadS) (s : State) : (modLoad x f s).checks = s.checks := by simp only [modLoad, setLoad_checks]
@[simp] theorem modLoad_checkAt (x : Nat) (f : LoadS → LoadS) (s : State) : (modLoad x f s).checkAt = s.checkAt := by simp only [modLoad, setLoad_checkAt]
@[simp] theorem modLoad_stones (x : Nat) (f : LoadS → LoadS) (s : State) : (modLoad x f s).stones = s.stones := by simp only [modLoad, setLoad_stones]
@[simp] theorem modLoad_rows (x : Nat) (f : LoadS → LoadS) (s : State) : (modLoad x f s).rows = s.rows := by simp only [modLoad, setLoad_rows]
@[simp] theorem modLoad_clk (x : Nat) (f : LoadS → LoadS) (s : State) : (modLoad x f s).clk = s.clk := by simp only [modLoad, setLoad_clk]
@[simp] theorem modLoad_boot (x : Nat) (f : LoadS → LoadS) (s : State) : (modLoad x f s).boot = s.boot := by simp only [modLoad, setLoad_boot]
@[simp] theorem modLoad_pwr (x : Nat) (f : LoadS → LoadS) (s : State) : (modLoad x f s).pwr = s.pwr := by simp only [modLoad, setLoad_pwr]
@[simp] theorem modLoad_out (x : Nat) (f : LoadS → LoadS) (s : State) : (modLoad x f s).out = s.out := by simp only [modLoad, setLoad_out]
@[simp] theorem modLoad_freeCtr (x : Nat) (f : LoadS → LoadS) (s : State) : (modLoad x f s).freeCtr = s.freeCtr := by simp only [modLoad, setLoad_freeCtr]

/-! ### hwPut -/

@[simp] theorem hwPut_pending (a v : Nat) (s : State) : (hwPut a v s).pending = s.pending := by simp only [hwPut, putReg_pending]
@[simp] theorem hwPut_setup (a v : Nat) (s : State) : (hwPut a v s).setup = s.setup := by simp only [hwPut, putReg_setup]
@[simp] theorem hwPut_mem (a v : Nat) (s : State) : (hwPut a v s).mem = s.mem := by simp only [hwPut, putReg_mem]
@[simp] theorem hwPut_scr (a v : Nat) (s : State) : (hwPut a v s).scr = s.scr := by simp only [hwPut, putReg_scr]
@[simp] theorem hwPut_hbm (a v : Nat) (s : State) : (hwPut a v s).hbm = s.hbm := by simp only [hwPut, putReg_hbm]
@[simp] theorem hwPut_host (a v : Nat) (s : State) : (hwPut a v s).host = s.host := by simp only [hwPut, putReg_host]
@[simp] theorem hwPut_icu (a v : Nat) (s : State) : (hwPut a v s).icu = s.icu := by simp only [hwPut, putReg_icu]
@[simp] theorem hwPut_tiles (a v : Nat) (s : State) : (hwPut a v s).tiles = s.tiles := by simp only [hwPut, putReg_tiles]
@[simp] theorem hwPut_fab (a v : Nat) (s : State) : (hwPut a v s).fab = s.fab := by simp only [hwPut, putReg_fab]
@[simp] theorem hwPut_rings (a v : Nat) (s : State) : (hwPut a v s).rings = s.rings := by simp only [hwPut, putReg_rings]
@[simp] theorem hwPut_loads (a v : Nat) (s : State) : (hwPut a v s).loads = s.loads := by simp only [hwPut, putReg_loads]
@[simp] theorem hwPut_checks (a v : Nat) (s : State) : (hwPut a v s).checks = s.checks := by simp only [hwPut, putReg_checks]
@[simp] theorem hwPut_checkAt (a v : Nat) (s : State) : (hwPut a v s).checkAt = s.checkAt := by simp only [hwPut, putReg_checkAt]
@[simp] theorem hwPut_stones (a v : Nat) (s : State) : (hwPut a v s).stones = s.stones := by simp only [hwPut, putReg_stones]
@[simp] theorem hwPut_rows (a v : Nat) (s : State) : (hwPut a v s).rows = s.rows := by simp only [hwPut, putReg_rows]
@[simp] theorem hwPut_clk (a v : Nat) (s : State) : (hwPut a v s).clk = s.clk := by simp only [hwPut, putReg_clk]
@[simp] theorem hwPut_boot (a v : Nat) (s : State) : (hwPut a v s).boot = s.boot := by simp only [hwPut, putReg_boot]
@[simp] theorem hwPut_pwr (a v : Nat) (s : State) : (hwPut a v s).pwr = s.pwr := by simp only [hwPut, putReg_pwr]
@[simp] theorem hwPut_out (a v : Nat) (s : State) : (hwPut a v s).out = s.out := by simp only [hwPut, putReg_out]
@[simp] theorem hwPut_freeCtr (a v : Nat) (s : State) : (hwPut a v s).freeCtr = s.freeCtr := by simp only [hwPut, putReg_freeCtr]

/-! ### hwPut64 -/

@[simp] theorem hwPut64_pending (a v : Nat) (s : State) : (hwPut64 a v s).pending = s.pending := by simp only [hwPut64, hwPut_pending]
@[simp] theorem hwPut64_setup (a v : Nat) (s : State) : (hwPut64 a v s).setup = s.setup := by simp only [hwPut64, hwPut_setup]
@[simp] theorem hwPut64_mem (a v : Nat) (s : State) : (hwPut64 a v s).mem = s.mem := by simp only [hwPut64, hwPut_mem]
@[simp] theorem hwPut64_scr (a v : Nat) (s : State) : (hwPut64 a v s).scr = s.scr := by simp only [hwPut64, hwPut_scr]
@[simp] theorem hwPut64_hbm (a v : Nat) (s : State) : (hwPut64 a v s).hbm = s.hbm := by simp only [hwPut64, hwPut_hbm]
@[simp] theorem hwPut64_host (a v : Nat) (s : State) : (hwPut64 a v s).host = s.host := by simp only [hwPut64, hwPut_host]
@[simp] theorem hwPut64_icu (a v : Nat) (s : State) : (hwPut64 a v s).icu = s.icu := by simp only [hwPut64, hwPut_icu]
@[simp] theorem hwPut64_tiles (a v : Nat) (s : State) : (hwPut64 a v s).tiles = s.tiles := by simp only [hwPut64, hwPut_tiles]
@[simp] theorem hwPut64_fab (a v : Nat) (s : State) : (hwPut64 a v s).fab = s.fab := by simp only [hwPut64, hwPut_fab]
@[simp] theorem hwPut64_rings (a v : Nat) (s : State) : (hwPut64 a v s).rings = s.rings := by simp only [hwPut64, hwPut_rings]
@[simp] theorem hwPut64_loads (a v : Nat) (s : State) : (hwPut64 a v s).loads = s.loads := by simp only [hwPut64, hwPut_loads]
@[simp] theorem hwPut64_checks (a v : Nat) (s : State) : (hwPut64 a v s).checks = s.checks := by simp only [hwPut64, hwPut_checks]
@[simp] theorem hwPut64_checkAt (a v : Nat) (s : State) : (hwPut64 a v s).checkAt = s.checkAt := by simp only [hwPut64, hwPut_checkAt]
@[simp] theorem hwPut64_stones (a v : Nat) (s : State) : (hwPut64 a v s).stones = s.stones := by simp only [hwPut64, hwPut_stones]
@[simp] theorem hwPut64_rows (a v : Nat) (s : State) : (hwPut64 a v s).rows = s.rows := by simp only [hwPut64, hwPut_rows]
@[simp] theorem hwPut64_clk (a v : Nat) (s : State) : (hwPut64 a v s).clk = s.clk := by simp only [hwPut64, hwPut_clk]
@[simp] theorem hwPut64_boot (a v : Nat) (s : State) : (hwPut64 a v s).boot = s.boot := by simp only [hwPut64, hwPut_boot]
@[simp] theorem hwPut64_pwr (a v : Nat) (s : State) : (hwPut64 a v s).pwr = s.pwr := by simp only [hwPut64, hwPut_pwr]
@[simp] theorem hwPut64_out (a v : Nat) (s : State) : (hwPut64 a v s).out = s.out := by simp only [hwPut64, hwPut_out]
@[simp] theorem hwPut64_freeCtr (a v : Nat) (s : State) : (hwPut64 a v s).freeCtr = s.freeCtr := by simp only [hwPut64, hwPut_freeCtr]

/-! ### hwPutF -/

@[simp] theorem hwPutF_pending (a hi lo x : Nat) (s : State) : (hwPutF a hi lo x s).pending = s.pending := by simp only [hwPutF, hwPut_pending]
@[simp] theorem hwPutF_setup (a hi lo x : Nat) (s : State) : (hwPutF a hi lo x s).setup = s.setup := by simp only [hwPutF, hwPut_setup]
@[simp] theorem hwPutF_mem (a hi lo x : Nat) (s : State) : (hwPutF a hi lo x s).mem = s.mem := by simp only [hwPutF, hwPut_mem]
@[simp] theorem hwPutF_scr (a hi lo x : Nat) (s : State) : (hwPutF a hi lo x s).scr = s.scr := by simp only [hwPutF, hwPut_scr]
@[simp] theorem hwPutF_hbm (a hi lo x : Nat) (s : State) : (hwPutF a hi lo x s).hbm = s.hbm := by simp only [hwPutF, hwPut_hbm]
@[simp] theorem hwPutF_host (a hi lo x : Nat) (s : State) : (hwPutF a hi lo x s).host = s.host := by simp only [hwPutF, hwPut_host]
@[simp] theorem hwPutF_icu (a hi lo x : Nat) (s : State) : (hwPutF a hi lo x s).icu = s.icu := by simp only [hwPutF, hwPut_icu]
@[simp] theorem hwPutF_tiles (a hi lo x : Nat) (s : State) : (hwPutF a hi lo x s).tiles = s.tiles := by simp only [hwPutF, hwPut_tiles]
@[simp] theorem hwPutF_fab (a hi lo x : Nat) (s : State) : (hwPutF a hi lo x s).fab = s.fab := by simp only [hwPutF, hwPut_fab]
@[simp] theorem hwPutF_rings (a hi lo x : Nat) (s : State) : (hwPutF a hi lo x s).rings = s.rings := by simp only [hwPutF, hwPut_rings]
@[simp] theorem hwPutF_loads (a hi lo x : Nat) (s : State) : (hwPutF a hi lo x s).loads = s.loads := by simp only [hwPutF, hwPut_loads]
@[simp] theorem hwPutF_checks (a hi lo x : Nat) (s : State) : (hwPutF a hi lo x s).checks = s.checks := by simp only [hwPutF, hwPut_checks]
@[simp] theorem hwPutF_checkAt (a hi lo x : Nat) (s : State) : (hwPutF a hi lo x s).checkAt = s.checkAt := by simp only [hwPutF, hwPut_checkAt]
@[simp] theorem hwPutF_stones (a hi lo x : Nat) (s : State) : (hwPutF a hi lo x s).stones = s.stones := by simp only [hwPutF, hwPut_stones]
@[simp] theorem hwPutF_rows (a hi lo x : Nat) (s : State) : (hwPutF a hi lo x s).rows = s.rows := by simp only [hwPutF, hwPut_rows]
@[simp] theorem hwPutF_clk (a hi lo x : Nat) (s : State) : (hwPutF a hi lo x s).clk = s.clk := by simp only [hwPutF, hwPut_clk]
@[simp] theorem hwPutF_boot (a hi lo x : Nat) (s : State) : (hwPutF a hi lo x s).boot = s.boot := by simp only [hwPutF, hwPut_boot]
@[simp] theorem hwPutF_pwr (a hi lo x : Nat) (s : State) : (hwPutF a hi lo x s).pwr = s.pwr := by simp only [hwPutF, hwPut_pwr]
@[simp] theorem hwPutF_out (a hi lo x : Nat) (s : State) : (hwPutF a hi lo x s).out = s.out := by simp only [hwPutF, hwPut_out]
@[simp] theorem hwPutF_freeCtr (a hi lo x : Nat) (s : State) : (hwPutF a hi lo x s).freeCtr = s.freeCtr := by simp only [hwPutF, hwPut_freeCtr]

/-! ### setCtxSt -/

@[simp] theorem setCtxSt_pending (x v : Nat) (s : State) : (setCtxSt x v s).pending = s.pending := by simp only [setCtxSt, putRegF_pending]
@[simp] theorem setCtxSt_setup (x v : Nat) (s : State) : (setCtxSt x v s).setup = s.setup := by simp only [setCtxSt, putRegF_setup]
@[simp] theorem setCtxSt_mem (x v : Nat) (s : State) : (setCtxSt x v s).mem = s.mem := by simp only [setCtxSt, putRegF_mem]
@[simp] theorem setCtxSt_scr (x v : Nat) (s : State) : (setCtxSt x v s).scr = s.scr := by simp only [setCtxSt, putRegF_scr]
@[simp] theorem setCtxSt_hbm (x v : Nat) (s : State) : (setCtxSt x v s).hbm = s.hbm := by simp only [setCtxSt, putRegF_hbm]
@[simp] theorem setCtxSt_host (x v : Nat) (s : State) : (setCtxSt x v s).host = s.host := by simp only [setCtxSt, putRegF_host]
@[simp] theorem setCtxSt_icu (x v : Nat) (s : State) : (setCtxSt x v s).icu = s.icu := by simp only [setCtxSt, putRegF_icu]
@[simp] theorem setCtxSt_tiles (x v : Nat) (s : State) : (setCtxSt x v s).tiles = s.tiles := by simp only [setCtxSt, putRegF_tiles]
@[simp] theorem setCtxSt_fab (x v : Nat) (s : State) : (setCtxSt x v s).fab = s.fab := by simp only [setCtxSt, putRegF_fab]
@[simp] theorem setCtxSt_rings (x v : Nat) (s : State) : (setCtxSt x v s).rings = s.rings := by simp only [setCtxSt, putRegF_rings]
@[simp] theorem setCtxSt_loads (x v : Nat) (s : State) : (setCtxSt x v s).loads = s.loads := by simp only [setCtxSt, putRegF_loads]
@[simp] theorem setCtxSt_checks (x v : Nat) (s : State) : (setCtxSt x v s).checks = s.checks := by simp only [setCtxSt, putRegF_checks]
@[simp] theorem setCtxSt_checkAt (x v : Nat) (s : State) : (setCtxSt x v s).checkAt = s.checkAt := by simp only [setCtxSt, putRegF_checkAt]
@[simp] theorem setCtxSt_stones (x v : Nat) (s : State) : (setCtxSt x v s).stones = s.stones := by simp only [setCtxSt, putRegF_stones]
@[simp] theorem setCtxSt_rows (x v : Nat) (s : State) : (setCtxSt x v s).rows = s.rows := by simp only [setCtxSt, putRegF_rows]
@[simp] theorem setCtxSt_clk (x v : Nat) (s : State) : (setCtxSt x v s).clk = s.clk := by simp only [setCtxSt, putRegF_clk]
@[simp] theorem setCtxSt_boot (x v : Nat) (s : State) : (setCtxSt x v s).boot = s.boot := by simp only [setCtxSt, putRegF_boot]
@[simp] theorem setCtxSt_pwr (x v : Nat) (s : State) : (setCtxSt x v s).pwr = s.pwr := by simp only [setCtxSt, putRegF_pwr]
@[simp] theorem setCtxSt_out (x v : Nat) (s : State) : (setCtxSt x v s).out = s.out := by simp only [setCtxSt, putRegF_out]
@[simp] theorem setCtxSt_freeCtr (x v : Nat) (s : State) : (setCtxSt x v s).freeCtr = s.freeCtr := by simp only [setCtxSt, putRegF_freeCtr]

/-! ### putRing -/

@[simp] theorem putRing_pending (r : Nat) (g : RingS) (s : State) : (putRing r g s).pending = s.pending := rfl
@[simp] theorem putRing_regs (r : Nat) (g : RingS) (s : State) : (putRing r g s).regs = s.regs := rfl
@[simp] theorem putRing_setup (r : Nat) (g : RingS) (s : State) : (putRing r g s).setup = s.setup := rfl
@[simp] theorem putRing_mem (r : Nat) (g : RingS) (s : State) : (putRing r g s).mem = s.mem := rfl
@[simp] theorem putRing_scr (r : Nat) (g : RingS) (s : State) : (putRing r g s).scr = s.scr := rfl
@[simp] theorem putRing_hbm (r : Nat) (g : RingS) (s : State) : (putRing r g s).hbm = s.hbm := rfl
@[simp] theorem putRing_icu (r : Nat) (g : RingS) (s : State) : (putRing r g s).icu = s.icu := rfl
@[simp] theorem putRing_tiles (r : Nat) (g : RingS) (s : State) : (putRing r g s).tiles = s.tiles := rfl
@[simp] theorem putRing_fab (r : Nat) (g : RingS) (s : State) : (putRing r g s).fab = s.fab := rfl
@[simp] theorem putRing_rings (r : Nat) (g : RingS) (s : State) : (putRing r g s).rings = s.rings := rfl
@[simp] theorem putRing_loads (r : Nat) (g : RingS) (s : State) : (putRing r g s).loads = s.loads := rfl
@[simp] theorem putRing_checks (r : Nat) (g : RingS) (s : State) : (putRing r g s).checks = s.checks := rfl
@[simp] theorem putRing_checkAt (r : Nat) (g : RingS) (s : State) : (putRing r g s).checkAt = s.checkAt := rfl
@[simp] theorem putRing_stones (r : Nat) (g : RingS) (s : State) : (putRing r g s).stones = s.stones := rfl
@[simp] theorem putRing_rows (r : Nat) (g : RingS) (s : State) : (putRing r g s).rows = s.rows := rfl
@[simp] theorem putRing_clk (r : Nat) (g : RingS) (s : State) : (putRing r g s).clk = s.clk := rfl
@[simp] theorem putRing_boot (r : Nat) (g : RingS) (s : State) : (putRing r g s).boot = s.boot := rfl
@[simp] theorem putRing_pwr (r : Nat) (g : RingS) (s : State) : (putRing r g s).pwr = s.pwr := rfl
@[simp] theorem putRing_out (r : Nat) (g : RingS) (s : State) : (putRing r g s).out = s.out := rfl
@[simp] theorem putRing_freeCtr (r : Nat) (g : RingS) (s : State) : (putRing r g s).freeCtr = s.freeCtr := rfl

/-! ### laterRead -/

@[simp] theorem laterRead_pending (a : Agent) (d u : Nat) (s : State) : (laterRead a d u s).pending = s.pending := rfl
@[simp] theorem laterRead_regs (a : Agent) (d u : Nat) (s : State) : (laterRead a d u s).regs = s.regs := rfl
@[simp] theorem laterRead_setup (a : Agent) (d u : Nat) (s : State) : (laterRead a d u s).setup = s.setup := rfl
@[simp] theorem laterRead_mem (a : Agent) (d u : Nat) (s : State) : (laterRead a d u s).mem = s.mem := rfl
@[simp] theorem laterRead_scr (a : Agent) (d u : Nat) (s : State) : (laterRead a d u s).scr = s.scr := rfl
@[simp] theorem laterRead_host (a : Agent) (d u : Nat) (s : State) : (laterRead a d u s).host = s.host := rfl
@[simp] theorem laterRead_icu (a : Agent) (d u : Nat) (s : State) : (laterRead a d u s).icu = s.icu := rfl
@[simp] theorem laterRead_tiles (a : Agent) (d u : Nat) (s : State) : (laterRead a d u s).tiles = s.tiles := rfl
@[simp] theorem laterRead_fab (a : Agent) (d u : Nat) (s : State) : (laterRead a d u s).fab = s.fab := rfl
@[simp] theorem laterRead_rings (a : Agent) (d u : Nat) (s : State) : (laterRead a d u s).rings = s.rings := rfl
@[simp] theorem laterRead_loads (a : Agent) (d u : Nat) (s : State) : (laterRead a d u s).loads = s.loads := rfl
@[simp] theorem laterRead_checks (a : Agent) (d u : Nat) (s : State) : (laterRead a d u s).checks = s.checks := rfl
@[simp] theorem laterRead_checkAt (a : Agent) (d u : Nat) (s : State) : (laterRead a d u s).checkAt = s.checkAt := rfl
@[simp] theorem laterRead_stones (a : Agent) (d u : Nat) (s : State) : (laterRead a d u s).stones = s.stones := rfl
@[simp] theorem laterRead_rows (a : Agent) (d u : Nat) (s : State) : (laterRead a d u s).rows = s.rows := rfl
@[simp] theorem laterRead_clk (a : Agent) (d u : Nat) (s : State) : (laterRead a d u s).clk = s.clk := rfl
@[simp] theorem laterRead_boot (a : Agent) (d u : Nat) (s : State) : (laterRead a d u s).boot = s.boot := rfl
@[simp] theorem laterRead_pwr (a : Agent) (d u : Nat) (s : State) : (laterRead a d u s).pwr = s.pwr := rfl
@[simp] theorem laterRead_out (a : Agent) (d u : Nat) (s : State) : (laterRead a d u s).out = s.out := rfl
@[simp] theorem laterRead_freeCtr (a : Agent) (d u : Nat) (s : State) : (laterRead a d u s).freeCtr = s.freeCtr := rfl

/-! ### deliver -/

@[simp] theorem deliver_pending (d : Nat) (i : InMsg) (s : State) : (deliver d i s).pending = s.pending := rfl
@[simp] theorem deliver_regs (d : Nat) (i : InMsg) (s : State) : (deliver d i s).regs = s.regs := rfl
@[simp] theorem deliver_setup (d : Nat) (i : InMsg) (s : State) : (deliver d i s).setup = s.setup := rfl
@[simp] theorem deliver_mem (d : Nat) (i : InMsg) (s : State) : (deliver d i s).mem = s.mem := rfl
@[simp] theorem deliver_scr (d : Nat) (i : InMsg) (s : State) : (deliver d i s).scr = s.scr := rfl
@[simp] theorem deliver_hbm (d : Nat) (i : InMsg) (s : State) : (deliver d i s).hbm = s.hbm := rfl
@[simp] theorem deliver_host (d : Nat) (i : InMsg) (s : State) : (deliver d i s).host = s.host := rfl
@[simp] theorem deliver_icu (d : Nat) (i : InMsg) (s : State) : (deliver d i s).icu = s.icu := rfl
@[simp] theorem deliver_tiles (d : Nat) (i : InMsg) (s : State) : (deliver d i s).tiles = s.tiles := rfl
@[simp] theorem deliver_rings (d : Nat) (i : InMsg) (s : State) : (deliver d i s).rings = s.rings := rfl
@[simp] theorem deliver_loads (d : Nat) (i : InMsg) (s : State) : (deliver d i s).loads = s.loads := rfl
@[simp] theorem deliver_checks (d : Nat) (i : InMsg) (s : State) : (deliver d i s).checks = s.checks := rfl
@[simp] theorem deliver_checkAt (d : Nat) (i : InMsg) (s : State) : (deliver d i s).checkAt = s.checkAt := rfl
@[simp] theorem deliver_stones (d : Nat) (i : InMsg) (s : State) : (deliver d i s).stones = s.stones := rfl
@[simp] theorem deliver_rows (d : Nat) (i : InMsg) (s : State) : (deliver d i s).rows = s.rows := rfl
@[simp] theorem deliver_clk (d : Nat) (i : InMsg) (s : State) : (deliver d i s).clk = s.clk := rfl
@[simp] theorem deliver_boot (d : Nat) (i : InMsg) (s : State) : (deliver d i s).boot = s.boot := rfl
@[simp] theorem deliver_pwr (d : Nat) (i : InMsg) (s : State) : (deliver d i s).pwr = s.pwr := rfl
@[simp] theorem deliver_out (d : Nat) (i : InMsg) (s : State) : (deliver d i s).out = s.out := rfl
@[simp] theorem deliver_freeCtr (d : Nat) (i : InMsg) (s : State) : (deliver d i s).freeCtr = s.freeCtr := rfl

end Sys2Proof.Machine
end

