-- ==== Sys2Proof/Laws/Ops.lean ====
section
/-! SUPPORT. What each shared operation leaves unchanged, said once: events, posts, interrupts, completions, registers and
HBM writes move nothing but the host side, the controllers' queues and the registers. -/

namespace Sys2Proof.Machine

/-- What no event, post, completion, register write or HBM write moves. -/
structure Quiet (s t : State) : Prop where
  pending : t.pending = s.pending
  mem : t.mem = s.mem
  scr : t.scr = s.scr
  tiles : t.tiles = s.tiles
  fab : t.fab = s.fab
  rings : t.rings = s.rings
  loads : t.loads = s.loads
  checks : t.checks = s.checks
  checkAt : t.checkAt = s.checkAt
  stones : t.stones = s.stones
  rows : t.rows = s.rows
  clk : t.clk = s.clk
  boot : t.boot = s.boot
  freeCtr : t.freeCtr = s.freeCtr

theorem Quiet.refl (s : State) : Quiet s s := by constructor <;> rfl

theorem Quiet.trans {s t u : State} (h : Quiet s t) (k : Quiet t u) : Quiet s u := by
  constructor
  · exact k.pending.trans h.pending
  · exact k.mem.trans h.mem
  · exact k.scr.trans h.scr
  · exact k.tiles.trans h.tiles
  · exact k.fab.trans h.fab
  · exact k.rings.trans h.rings
  · exact k.loads.trans h.loads
  · exact k.checks.trans h.checks
  · exact k.checkAt.trans h.checkAt
  · exact k.stones.trans h.stones
  · exact k.rows.trans h.rows
  · exact k.clk.trans h.clk
  · exact k.boot.trans h.boot
  · exact k.freeCtr.trans h.freeCtr

/-- A fold of quiet steps is quiet. -/
theorem Quiet.foldl {α : Type} (f : State → α → State) (hf : ∀ s a, Quiet s (f s a)) (l : List α) (s : State) : Quiet s (l.foldl f s) := by
  induction l generalizing s with
  | nil => exact .refl s
  | cons a l ih => exact (hf s a).trans (ih (f s a))

/-- A property that each step keeps, a fold keeps. -/
theorem foldl_keeps {α β : Type} (P : β → Prop) (f : β → α → β) (hf : ∀ b a, P b → P (f b a)) (l : List α) (b : β) (h : P b) :
    P (l.foldl f b) := by
  induction l generalizing b with
  | nil => exact h
  | cons a l ih => exact ih (f b a) (hf b a h)

/-! ## Guards -/

theorem onlyIf_true (p : State → Bool) (f : State → State) (s : State) (hl : s.live = true) (hp : p s = true) : onlyIf p f s = .next (f s) := by
  simp [onlyIf, hl, hp]

theorem onlyIf_false (p : State → Bool) (f : State → State) (s : State) (h : (s.live && p s) = false) : onlyIf p f s = .next s := by
  simp [onlyIf, h]

/-- Whatever its guard says, a guarded row goes on: with its effect, or with the state as it was. -/
theorem onlyIf_cases (p : State → Bool) (f : State → State) (s : State) :
    (s.live = true ∧ p s = true ∧ onlyIf p f s = .next (f s)) ∨ onlyIf p f s = .next s := by
  unfold onlyIf
  cases hl : s.live <;> cases hp : p s <;> simp

theorem onlyIf_keeps (P : State → Prop) (p : State → Bool) (f : State → State) (s t : State) (h : onlyIf p f s = .next t) (hs : P s)
    (hf : s.live = true → p s = true → P (f s)) : P t := by
  rcases onlyIf_cases p f s with ⟨hl, hp, e⟩ | e <;> rw [e] at h <;> cases h
  · exact hf hl hp
  · exact hs

/-! ## Posts, interrupts and events -/

theorem quiet_emit (o : Out) (s : State) : Quiet s (emit o s) := by constructor <;> rfl
theorem quiet_putRegW (a : Nat) (v : Word) (s : State) : Quiet s (putRegW a v s) := by constructor <;> rfl
theorem quiet_putReg (a v : Nat) (s : State) : Quiet s (putReg a v s) := quiet_putRegW _ _ _
theorem quiet_putReg64 (a v : Nat) (s : State) : Quiet s (putReg64 a v s) := (quiet_putReg _ _ _).trans (quiet_putReg _ _ _)
theorem quiet_putRegF (a hi lo x : Nat) (s : State) : Quiet s (putRegF a hi lo x s) := quiet_putReg _ _ _
theorem quiet_bump (a : Nat) (s : State) : Quiet s (bump a s) := quiet_putReg _ _ _
theorem quiet_hbmWrite (a : Agent) (d h : Nat) (b : List Byte) (s : State) : Quiet s (hbmWrite a d h b s) := by constructor <;> rfl

theorem quiet_hostPost (o : Out) (s : State) : Quiet s (hostPost o s) := by
  unfold hostPost
  split
  · exact quiet_emit _ _
  · constructor <;> rfl

theorem quiet_wakeEvent (s : State) : Quiet s (wakeEvent s) := by
  unfold wakeEvent
  split
  · exact .refl s
  · constructor <;> rfl

theorem quiet_host (h : HostS) (s : State) : Quiet s { s with host := h } := by constructor <;> rfl
theorem quiet_hbm (x : HbmS) (s : State) : Quiet s { s with hbm := x } := by constructor <;> rfl
theorem quiet_icu (i : IcuS) (s : State) : Quiet s { s with icu := i } := by constructor <;> rfl
theorem quiet_laterRead (a : Agent) (d u : Nat) (s : State) : Quiet s (laterRead a d u s) := quiet_hbm _ _

theorem quiet_sendIrq (v : Nat) (s : State) : Quiet s (sendIrq v s) := by
  unfold sendIrq
  dsimp only
  split
  · exact (quiet_host _ _).trans (quiet_hostPost _ _)
  · split
    · exact .refl s
    · exact quiet_host _ _

theorem quiet_pendSource (d src : Nat) (s : State) : Quiet s (pendSource d src s) := by
  unfold pendSource
  split
  · dsimp only
    split
    · exact (quiet_icu _ _).trans (quiet_wakeEvent _)
    · exact quiet_icu _ _
  · exact .refl s

/-- Quiet but for the set-up space's own state. -/
theorem quiet_setup (x : SetupS) (s : State) : Quiet s { s with setup := x } := by constructor <;> rfl
theorem quiet_markHw (a m : Nat) (s : State) : Quiet s (markHw a m s) := quiet_setup _ _
theorem quiet_setPending (d src : Nat) (s : State) : Quiet s (setPending d src s) := (quiet_markHw _ _ _).trans (quiet_pendSource _ _ _)

theorem quiet_clearPending (d src : Nat) (s : State) : Quiet s (clearPending d src s) := quiet_icu _ _

theorem quiet_evPut (r : Nat) (g : RingS) (e : Ev) (s : State) : Quiet s (evPut r g e s) :=
  ((quiet_host _ _).trans (quiet_hostPost _ _)).trans (quiet_sendIrq _ _)

theorem quiet_evFlush (r : Nat) (s : State) : Quiet s (evFlush r s) := by
  unfold evFlush
  split
  · split
    · exact quiet_evPut _ _ _ _
    · exact .refl s
  · exact .refl s

theorem quiet_evHost (e : Ev) (s : State) : Quiet s (evHost e s) := by
  have h : ∀ (r : Nat) (u : State), Quiet u (match mapLookup u.host.rings r with
      | none => u
      | some g =>
        if g.lost = 0 && evRoom u r g then evPut r g e u
        else bump (aHlk (0x104 + 0x10 * r)) { u with host := { u.host with rings := mapInsert u.host.rings r { g with lost := g.lost + 1 } } }) := by
    intro r u
    split
    · exact .refl _
    · split
      · exact quiet_evPut _ _ _ _
      · exact (quiet_host _ _).trans (quiet_bump _ _)
  exact (quiet_evFlush _ s).trans (h _ _)

theorem quiet_evqPut (d : Nat) (e : Ev) (s t : State) (h : evqPut d e s = some t) : Quiet s t := by
  unfold evqPut at h
  split at h
  · cases h
  · dsimp only at h
    split at h
    · cases h
    · split at h
      · cases h
      · cases h
        exact (((quiet_icu _ _).trans (quiet_laterRead _ _ _ _)).trans (quiet_hbmWrite _ _ _ _ _)).trans (quiet_putReg _ _ _)

theorem quiet_evqFlush (d : Nat) (s : State) : Quiet s (evqFlush d s) := by
  unfold evqFlush
  dsimp only
  split
  · exact .refl s
  · split
    · rename_i h
      exact (quiet_evqPut _ _ _ _ h).trans (quiet_icu _ _)
    · exact .refl s

theorem quiet_evqUe (d : Nat) (s : State) : Quiet s (evqUe d s) := by
  unfold evqUe
  split
  · exact quiet_hbm _ _
  · exact .refl s

theorem quiet_evqAdd (d : Nat) (e : Ev) (s : State) : Quiet s (evqAdd d e s) := by
  unfold evqAdd
  refine (quiet_evqFlush d s).trans ?_
  dsimp only
  split
  · rename_i h
    split at h
    · exact quiet_evqPut _ _ _ _ h
    · cases h
  · exact ((quiet_evqUe _ _).trans (quiet_icu _ _)).trans (quiet_bump _ _)

theorem quiet_traceAdd (d : Nat) (e : Ev) (s : State) : Quiet s (traceAdd d e s) := by
  unfold traceAdd
  dsimp only
  split
  · exact (quiet_icu _ _).trans (quiet_hbmWrite _ _ _ _ _)
  · exact .refl s

theorem quiet_sendIbi (b : Byte) (s : State) : Quiet s (sendIbi b s) := by
  unfold sendIbi
  split
  · exact quiet_emit _ _
  · exact .refl s

/-- An event moves no byte of the package, no tile, no ring, no clock: only its queue entry, its source and its posts. -/
theorem quiet_raise (e : Ev) (s : State) : Quiet s (raise e s) := by
  have h : ∀ u : State, Quiet u (match ibiByte e.code with | some b => sendIbi b u | none => u) := by
    intro u
    split
    · exact quiet_sendIbi _ _
    · exact .refl u
  have k : ∀ u : State, Quiet u (if e.code = 6 then u else evHost e u) := by
    intro u
    split
    · exact .refl u
    · exact quiet_evHost _ _
  exact ((((quiet_evqAdd e.die e s).trans (quiet_setPending _ _ _)).trans (k _)).trans (quiet_traceAdd _ _ _)).trans (h _)

theorem quiet_hwSetF (a lo x : Nat) (s : State) : Quiet s (hwSetF a lo x s) := (quiet_markHw _ _ _).trans (quiet_putReg _ _ _)

/-- A counted choice moves registers and their marks only. -/
theorem quiet_ndc (k d : Nat) (s : State) : Quiet s (ndc k d s) := by
  unfold ndc
  dsimp only
  split
  · refine Quiet.trans (quiet_bump _ _) (Quiet.foldl _ ?_ _ _)
    intro s x
    split
    · exact quiet_hwSetF _ _ _ _
    · exact .refl _
  · exact quiet_bump _ _

/-! ## Commands -/

theorem quiet_dropAccs (sel : Nat → Access → Bool) (s : State) : Quiet s (dropAccs sel s) := quiet_host _ _
theorem quiet_setCmd (c : Nat) (x : Cmd) (s : State) : Quiet s (setCmd c x s) := quiet_host _ _

theorem quiet_modCmd (c : Nat) (f : Cmd → Cmd) (s : State) : Quiet s (modCmd c f s) := by
  unfold modCmd
  split
  · exact quiet_setCmd _ _ _
  · exact .refl s

/-- A completion moves the host side, and for a core's command the completion's HBM write and the core's interrupt. -/
theorem quiet_completeCmd (c status detail : Nat) (s : State) : Quiet s (completeCmd c status detail s) := by
  unfold completeCmd
  split
  · exact .refl s
  · rename_i x _
    have hb : Quiet s (if cmdOp x = 0x13 then bindRequests c (boundGen s (cmdCtx x)) s else s) := by
      split
      · exact quiet_host _ _
      · exact .refl s
    refine hb.trans ?_
    generalize (if cmdOp x = 0x13 then bindRequests c (boundGen s (cmdCtx x)) s else s) = s₁
    refine Quiet.trans ((quiet_host { s₁.host with cmds := mapErase s₁.host.cmds c } s₁).trans (quiet_dropAccs (fun _ a => a.cmd == c) _)) ?_
    dsimp only
    split
    · split
      · exact .refl _
      · split
        · exact ((quiet_host _ _).trans (quiet_hostPost _ _)).trans (quiet_sendIrq _ _)
        · exact (quiet_host _ _).trans (quiet_hostPost _ _)
    · refine Quiet.trans ?_ (quiet_setPending _ _ _)
      refine Quiet.trans ?_ (quiet_icu _ _)
      split
      · exact quiet_hbmWrite _ _ _ _ _
      · exact .refl _

/-! ## Set-up accesses -/

theorem quiet_deny (m : Master) (addr : Nat) (s : State) : Quiet s (deny m addr s) := quiet_raise _ _

theorem quiet_joinWindow (a : Act) (s : State) : Quiet s (joinWindow a s) := quiet_setup _ _

theorem quiet_effWinClose (d w : Nat) (s : State) : Quiet s (effWinClose d w s) := by
  unfold effWinClose
  split
  · exact quiet_putRegF _ _ _ _ _
  · exact .refl s

/-- A set-up write that arrives moves no state of a unit: it joins its window, is held, is dropped, closes a fabric window, or is
refused with an event. -/
theorem quiet_arriveRaw (m : Master) (addr : Nat) (v : Word) (size : Nat) (s : State) : Quiet s (arriveRaw m addr v size s) := by
  unfold arriveRaw
  refine (quiet_wakeEvent s).trans ?_
  dsimp only
  split
  · exact quiet_deny _ _ _
  · split
    · exact .refl _
    · split
      · exact .refl _
      · split
        · exact .refl _
        · split
          · exact quiet_setup _ _
          · split
            · exact quiet_effWinClose _ _ _
            · exact (quiet_setup _ _).trans (quiet_joinWindow _ _)

end Sys2Proof.Machine
end

