-- ==== Sys2Proof/Laws/Tile.lean ====
section
/-! SUPPORT. Reads of a tile, a task context, a stream, an entry and a tag after an update of one. -/

namespace Sys2Proof.Machine

@[simp] theorem getTile_setTile (e : Nat) (x : TileS) (s : State) : getTile (setTile e x s) e = x := by
  simp [getTile, setTile]

theorem getTile_setTile_other (e f : Nat) (x : TileS) (s : State) (h : f ≠ e) : getTile (setTile e x s) f = getTile s f := by
  simp [getTile, setTile, mapGet_set, h]

@[simp] theorem getTile_modTile (e : Nat) (f : TileS → TileS) (s : State) : getTile (modTile e f s) e = f (getTile s e) := by
  simp [modTile]

@[simp] theorem getTctx_setTctx (e n : Nat) (x : TaskCtx) (s : State) : getTctx (setTctx e n x s) e n = x := by
  simp [getTctx, setTctx]

@[simp] theorem getTctx_modTctx (e n : Nat) (f : TaskCtx → TaskCtx) (s : State) : getTctx (modTctx e n f s) e n = f (getTctx s e n) := by
  simp [modTctx]

@[simp] theorem getStream_setStream (e q : Nat) (x : StreamS) (s : State) : getStream (setStream e q x s) e q = x := by
  simp [getStream, setStream]

@[simp] theorem getEntry_setEntry (e i : Nat) (x : Entry) (s : State) : getEntry (setEntry e i x s) e i = x := by
  simp [getEntry, setEntry]

@[simp] theorem getTag_setTag (e q : Nat) (x : Tag) (s : State) : getTag (setTag e q x s) e q = stampTag (cycleOf s) (getTag s e q) x := by
  simp [getTag, setTag]

/-- A stamp leaves a tag's state, its holds and its claim as the change makes them. -/
@[simp] theorem stampTag_st (n : Nat) (o x : Tag) : (stampTag n o x).st = x.st := by unfold stampTag; split <;> rfl
@[simp] theorem stampTag_holds (n : Nat) (o x : Tag) : (stampTag n o x).holds = x.holds := by unfold stampTag; split <;> rfl
@[simp] theorem stampTag_clm (n : Nat) (o x : Tag) : (stampTag n o x).clm = x.clm := by unfold stampTag; split <;> rfl

theorem getTag_setTag_other (e q r : Nat) (x : Tag) (s : State) (h : r ≠ q) : getTag (setTag e q x s) e r = getTag s e r := by
  simp [getTag, setTag, mapGet_set, h]

/-- A tile reads alike where only something else of the state differs. -/
theorem getTile_congr {s t : State} (h : t.tiles = s.tiles) (e : Nat) : getTile t e = getTile s e := by
  simp [getTile, h]

theorem getTctx_congr {s t : State} (h : t.tiles = s.tiles) (e n : Nat) : getTctx t e n = getTctx s e n := by
  simp [getTctx, getTile, h]

end Sys2Proof.Machine
end

