-- ==== Sys2Proof/Tests/Slice0.lean ====
section
/-! SUPPORT. Tests: worked examples of the manual and published check values, the bounds of WellFormed, single steps from small
states, and for each obligation states and operands that meet its premises together. -/

set_option Elab.async false

namespace Sys2Proof.Tests

open Sys2Proof Sys2Proof.Machine

/-! ## Worked examples -/

/-- Chapter 2, the example under R43: 0xB3 under the scale byte 0x7E. -/
theorem test_elements : decodeElem 0 3 0x7E = .fin false 3 (-2) ∧ decodeElem 0 0xB 0x7E = .fin true 3 (-2) ∧
    decodeElem 1 3 0x7E = .fin false 3 (-1) ∧ decodeElem 1 0xB 0x7E = .fin true 5 (-1) := by decide +kernel

/-- Chapter 2, the example under R48: block exponents under the scales 0x7F and 0x50. -/
theorem test_block_exponents : groupB 5 0x7F [] = some 9 ∧ groupB 5 0x50 [] = some (-38) ∧ operandB 5 [some 9, some (-38)] = 9 := by
  decide +kernel

/-- Chapter 2, the example under R56: the tree of five partials. -/
theorem test_tree : (tree32 [0x4B800000, 0x3F800000, 0x3F800000, 0, 0]).bits = 0x4B800000 := by decide +kernel

/-- Chapter 2, the example under R63: nibbles of an MXFP4 block, nearest even and by the generator (R308). -/
theorem test_conversion :
    (convFinite 0 {} 0 false 5 0).bits = 6 ∧ (convFinite 0 {} 1 true 11 (-4)).bits = 9 ∧ (convFinite 0 {} 2 false 0x428F5C29 (-32)).bits = 1 ∧
    (convFinite 0 { stoch := true, seed := 0x5000000A7, step := 812, tensor := 0x30002 } 1 true 11 (-4)).bits = 0xA := by decide +kernel

/-- Chapter 10, the example under R308. -/
theorem test_generator : gen 0x5000000A7 812 0x30002 1 = 0xDA6E33259470DC397826468711ABE765 := by decide +kernel

/-- Chapter 7, the example of the FP8 codec: the scale of a block whose largest value is 3.0, and its first element. -/
theorem test_codec : (convBlock 5 {} 0 (fpBF16.decode 0x4040 :: fpBF16.decode 0x3DCD :: List.replicate 30 (fpBF16.decode 0))).scale = 0x78 ∧
    (convBlock 5 {} 0 (fpBF16.decode 0x4040 :: fpBF16.decode 0x3DCD :: List.replicate 30 (fpBF16.decode 0))).elems.take 2 = [0x7C, 0x55] := by
  decide +kernel

/-- Chapter 3, the example under R89: partial sum and lane of column 1. -/
theorem test_residues :
    let c0 := addProduct 64 (addProduct 64 {} (fpE4M3.decode 0x42) (fpE4M3.decode 0x3C)) (fpE4M3.decode 0x3C) (fpE4M3.decode 0x30)
    let c1 := addProduct 64 (addProduct 64 {} (fpE4M3.decode 0x42) (fpE4M3.decode 0x44)) (fpE4M3.decode 0x3C) (fpE4M3.decode 0xC0)
    c0.p = 3 ∧ c1.p = 4 ∧ c0.lane = 0x1000000000000001 ∧ c1.lane = 0x1000000000000000 := by decide +kernel

/-- Chapter 11, the example under R334: the tokens of a frame. -/
theorem test_tokens : decodeFrame 12 (wordsLE [0x40000006, 0x1077, 0, 0] ++ [0x00, 0x4C, 0x10, 0xE0, 0xF0, 0x0F]) =
    some ([0x77, 0x77, 0, 0, 0, 0, 0, 0, 0x10, 0x77, 0xF0, 0xF0], []) := by decide +kernel

/-- Addresses of the chapters' examples. -/
theorem test_addresses : aTil 5 17 0 = 0x15440000 ∧ aTil 5 17 0x60 = 0x15440060 ∧ aCar 5 (0x108 + 0x40 * 2) = 0x14E00188 ∧
    aRow 4 2 0x1C = 0x1202001C ∧ aHbm 5 1 0x18 = 0x14600018 ∧ aWin 5 17 0 = 0x14B01110 ∧ aGct 1 (0x200 + 4 * 5) = 0x04200214 ∧
    aIcu 5 (4 * 321) = 0x14300504 ∧ aPwr 2 0x18 = 0x08100018 ∧ aBell 4 0 = 0x00C14000 := by decide +kernel

/-- Chapter 14, the example under R405: budget at 900 W, and the charge of a 4-bit issue. -/
theorem test_budget : budgetOf (putReg (aPwr 0 4) 900 State.reset) 2 = 87500 ∧ gridMw 0 = 2400 ∧
    2 * (leaveMw (.hbmRead 0) + leaveMw (.hbmWrite 0)) + 3 * leaveMw (.port 0) = 22750 := by decide +kernel

/-- Published check values: CRC-32 (R245) and SHA-256. -/
theorem test_crc32 : crc32 [0x31, 0x32, 0x33, 0x34, 0x35, 0x36, 0x37, 0x38, 0x39] = 0xCBF43926 := by decide +kernel
theorem test_sha256 : (sha256 [0x61, 0x62, 0x63]).take 8 = [0xBA, 0x78, 0x16, 0xBF, 0x8F, 0x01, 0xCF, 0xEA] := by decide +kernel

/-- R232, by hand: m₆₇ alone leaves x³ mod g, the coefficients of g(x) = (x − 1)(x − α)(x − α²) below x³. -/
theorem test_check_symbols : checkSymbols (List.replicate 67 0 ++ [1]) = (7, 14, 8) ∧ messageOf 0x01000000 [] = [0, 0, 0, 1] := by decide +kernel
/-- A unit of zeros at index 0x01000000 of die 0 holds them as its side bits: c₂, c₁, c₀ from bit 23 down. -/
theorem test_side_bits : sideBits State.reset 0 0x01000000 = 0x070E08 := by decide +kernel

/-- R378, R379: a core's store stays in its die's caches until it cleans the line. -/
theorem test_core_store :
    let s := (coreStore 0 (0x40 * 2 ^ 37 + 8) [5] State.reset).1
    (coreLoad 0 (0x40 * 2 ^ 37 + 8) 1 s).2 = some [5] ∧ hbmPeek .host 0 8 1 s = [0] ∧ hbmPeek (.core 0) 0 8 1 (cleanLine 0 0 0 s) = [5] ∧
    coreBarrier 0 (cleanLine 0 0 0 s) = false := by decide +kernel

/-- Commands of one master in a window act by SEQ in serial-number arithmetic: 0xFFFFFFFF precedes 0 (R370). -/
theorem test_seq_order :
    let x (n : Nat) : Cmd := { src := .ring 1, words := ([0x1B * 2 ^ 24, n] ++ List.replicate 14 0).map (BitVec.ofNat 32), seqNo := 0 }
    let s := setCmd 0 (x 0) (setCmd 1 (x 0xFFFFFFFF) State.reset)
    inOrder s [.cmd 0, .cmd 1] = [.cmd 1, .cmd 0] := by decide +kernel

/-! ## The bounds of WellFormed: one ill-formed term each -/

theorem wf_size : WellFormed (.setupRegisterWrite .host 0 0 3) = false := by decide
theorem wf_check : WellFormed (.checkResult 0 0 (some (256, 0))) = false := by decide
theorem wf_half : WellFormed (.halfDrained 0 0 none (some (0, 32))) = false := by decide
theorem wf_half_acc : WellFormed (.halfDrained 0 0 (some (0, 256)) none) = false := by decide
theorem wf_slot : WellFormed (.streamSlotEnd 0 0 0 12288) = false := by decide
theorem wf_unit : WellFormed (.hbmRead .host 0 0 3000000000 []) = false := by decide
theorem wf_symbol : WellFormed (.hbmRead .host 0 0 0 [(71, 1)]) = false := by decide
theorem wf_frame : WellFormed (.frame 0 0 0 [] none) = false := by decide
theorem wf_fec : fecOk (some 4) = false := by decide
theorem wf_aperture : WellFormed (.apertureWrite 0 2 [0, 0, 0, 0]) = false := by decide
theorem wf_aperture_read : WellFormed (.apertureRead 0 4294967292 8) = false := by decide
theorem wf_fetch : WellFormed (.commandFetch (.ring 0) []) = false := by decide
theorem wf_selftest : WellFormed (.selftest [(0, [128])]) = false := by decide
theorem wf_temp : WellFormed (.temperatureSample 0 32768 0 0) = false := by decide
theorem wf_i3c_write : WellFormed (.i3cPrivateWrite ⟨0x3A, []⟩) = false := by decide
theorem wf_i3c_read : WellFormed (.i3cPrivateRead ⟨0x3A, [0, 0, 0, 0]⟩ 0) = false := by decide
theorem wf_update : WellFormed (.fwUpdateWritten 1025 true) = false := by decide
theorem wf_clocks : WellFormed (.clocks false (some 0)) = false := by decide
theorem wf_sound : WellFormed (.setupRegisterWrite .host 0 0 4) = true ∧ WellFormed (.clocks true (some 0)) = true := by decide

/-- The host link is UP. -/
def hostUp (s : State) : State := { s with host := { s.host with link := 3 } }

/-- One set-up write waits, and its arbitration window is over. -/
def oneWrite (m : Master) (a : Nat) (v : Word) (s : State) (h : Option Word := none) : State :=
  { s with setup := { s.setup with acts := [(0, .write m a v h)] }, clk := { s.clk with count := s.clk.count + 40 } }

/-- What `State.lastKind` asks of a state, as a check. -/
def kindB (s : State) (k : RegKind) (m : Master) (a : Nat) (v : Word) (i j : Nat) : Bool :=
  (s.live && s.pwr.state == 0 && s.host.inOrder == []) &&
    ((match s.setup.acts with
      | [(w, x)] => x == .write m a v none && decide (40 * w + 40 ≤ s.clk.count)
      | _ => false) &&
    (match findReg a with
      | some (r, i', j', false) => (i' == i && j' == j) && (r.kind == k && !r.wide) && !(s.setup.committed && r.breaksLock (reg s a) v.toNat)
      | _ => false))

theorem kindB_lastKind (s : State) (k : RegKind) (m : Master) (a : Nat) (v : Word) (i j : Nat) (h : kindB s k m a v i j = true) :
    s.lastKind k m a v i j := by
  unfold kindB at h
  simp only [Bool.and_eq_true, beq_iff_eq] at h
  obtain ⟨⟨⟨h1, h2⟩, h3⟩, h4, h5⟩ := h
  have hw : ∃ w, s.setup.acts = [(w, .write m a v none)] ∧ 40 * w + 40 ≤ s.clk.count := by
    revert h4
    split
    · rename_i w x e
      intro h4
      simp only [Bool.and_eq_true, beq_iff_eq, decide_eq_true_eq] at h4
      exact ⟨w, by rw [e, h4.1], h4.2⟩
    · intro h4; cases h4
  refine ⟨⟨h1, h2, h3, hw⟩, ?_⟩
  revert h5
  split
  · rename_i r i' j' e
    intro h5
    simp only [Bool.and_eq_true, beq_iff_eq, Bool.not_eq_true'] at h5
    obtain ⟨⟨⟨rfl, rfl⟩, h6, h7⟩, h8⟩ := h5
    exact ⟨r, e, h6, h7, by simpa using h8⟩
  · intro h5; cases h5
/-! ## Small states -/

/-- Words in a record of n bytes. -/
def rcd (n : Nat) (l : List Nat) : List Byte := (wordsLE l ++ List.replicate n 0).take n

/-- Global addresses of this package, which has no ID after reset. -/
def gaH (d h : Nat) : Nat := d * 2 ^ 45 + 0x40 * 2 ^ 37 + h
def gaS (d t o : Nat) : Nat := d * 2 ^ 45 + t * 2 ^ 37 + o

/-- A control message from package 1 waits at a die. -/
def ctlIn (d cop job : Nat) (args : List Nat) : InMsg :=
  { msg := { cls := 3, ty := 6, spkg := 1, ddie := d, bytes := ctlGrain cop (if cop = 0x50 then 4 else 0) job args }, port := 0, pool := 3, quarters := 1 }
def told (d cop job : Nat) (args : List Nat) (s : State) : State := deliver d (ctlIn d cop job args) s

/-- A port in a state. -/
def portIn (p st : Nat) (s : State) : State := modPort p (fun x => { x with st }) s

/-- Package 0 has its ID, and a path to package 1 through port 0 of die 0. -/
def net (s : State) : State := portIn 0 3 (putReg (aFab 0 0x2804) (2 ^ 31 + 1) (putReg (aFab 0 0) (2 ^ 31) s))

/-! ## Witnesses: the machine, the set-up space, the bridges -/

theorem wit_StepRunsTheFrontCommand : ({ pending := [.rstdaa] } : State).pending = [.rstdaa] ∧ State.reset.pending = [] := by decide +kernel

theorem wit_StepsGoOnAndLeaveTheQueue : goesOn (exec .rstdaa State.reset) = true ∧ goesOn (exec (.coreWake 0) State.reset) = true := by
  decide +kernel

theorem wit_EveryStepKeepsMemoryForm : Memory.wf State.reset.mem ∧ Memory.wf State.reset.scr ∧ goesOn (step State.reset) = true := by decide +kernel

/-- Every row that writes a register, from reset, with a master that reaches it. -/
def regRows : List Instr := [
  .setupRegisterWrite .host 0x00C00004#32 1 4, .wideLowWordWrite (.core 0) 0x01000010#32 64, .i3cPrivateWrite ⟨0x3A, wordsLE [0x00100004, 600]⟩,
  .tilSqTail .host 0 0 1, .tilRegion .host 1 2 15 0, .setFull .host 0 39 1 0, .setEmpty .host 0 0 1 12275, .carRingQTail .host 0 7 1,
  .rowQTail .host 7 7 1, .rowResume .host 0 0, .rowSpillBase .host 0 0 0x10000, .rowSpillSize .host 0 0 1, .portEnable .fm 0 2 true,
  .rejoin .fm 0 0, .retrain .fm 7 0, .fabId .fm 0 0x80000001#32, .routeTableWrite .fm (BitVec.ofNat 32 (aFab 7 0x2800)) 0, .windowOpen .host 5 17,
  .fabOpqTail .host 0 0 1, .fabOpqResume .host 0 7, .fabMcRemove .host 0 3, .gctSyncArm .host 0 1, .launchArm .host 0 0x80000000#32,
  .launchEnd .host 0 0x40000000#32, .gctStepClose .host 0 3, .gctRecCtrl .host 0 1, .compareEnable .host 1 2, .regradeGo .host 0 1,
  .hostRetrain .host, .admEnable .host true, .cmdTail .host 0 1, .cplHead .host 8 1, .evHead .host 4 1, .lccRun .host 0 1,
  .lccCmdTail (.core 3) 0 3 1, .debugHalt .host 0 1, .debugResume .host 0 1, .debugStep .host 7 3, .icuSrcEnable .host 0 1023 1,
  .icuPend .host 0 31 1, .icuAck (.core 0) 0 5, .icuEvqHead .host 2 1, .icuEvqBase .host 2 64, .lccTraceCtrl .host 0 1,
  .pwrLimit .bmc 0 600, .ready .host 0, .idvResetWarm .bmc 0 0x1234, .idvResetCold .bmc 0 0x1234, .idvMbox .bmc 0 1]
theorem wit_RegisterRowsJoinTheWindow :
    regRows.all (fun c => match registerRow (hostUp State.reset) c with
      | some (m, a, v) => (hostUp State.reset).hears m && accessOk (hostUp State.reset) m a 4 && (wideWord a != some true) && !closesWindow a v
      | none => false) = true := by decide +kernel

theorem wit_WideWordsAndReads_1 : (hostUp State.reset).hears .host = true ∧ accessOk (hostUp State.reset) .host 0x01000014 4 = true ∧ wideWord 0x01000014 = some true := by
  decide +kernel
theorem wit_WideWordsAndReads_2 : State.reset.live = true ∧ ((Master.host = .fm) → fromManager State.reset = true) ∧
    masterBarred State.reset .host 0x01000010 = false ∧ masterBarred State.reset (.core 5) 0x01000010 = false ∧
    accessOk State.reset .host 0x01000010 4 = true ∧ (match findReg 0x01000010 with | some (r, 0, 0, false) => r.wide | _ => false) = true := by
  decide +kernel
def latched : State := { setup := { latches := [(masterKey .host, 0x01000010, 7)] } }
theorem wit_WideWordsAndReads_5 : latched.live = true ∧ accessOk latched .host 0x01000014 4 = true ∧ wideWord 0x01000014 = some true ∧
    latchOf latched .host (0x01000014 - 4) = some 7 := by decide +kernel
theorem wit_WideWordsAndReads_3 : State.reset.live = true ∧ reaches .host (aCar 7 0x100) = true ∧ Master.host ≠ .fm := by decide +kernel
theorem wit_WideWordsAndReads_4 : State.reset.live = true ∧ i3cMine State.reset 0x3A = true ∧ (wordsLE [0x00100004]).length = 4 ∧ accessOk State.reset .bmc (wordAt (wordsLE [0x00100004]) 0) 4 = true ∧
    (match findReg 0x00100004 with | some (r, 0, 0, false) => !r.wide | _ => false) = true := by decide +kernel

/-- The register at an address is of a kind. -/
def regAt (a : Nat) (p : Reg → Bool) : Bool := match findReg a with | some (r, _, _, false) => p r | _ => false
def locked (s : State) : State := { s with setup := { s.setup with committed := true } }
def ends (s : State) : Bool := s.live && s.pwr.state = 0 && s.host.inOrder == [] && s.setup.acts.all (40 * ·.1 + 40 ≤ s.clk.count)

theorem wit_ArbitrationWindowsEnd_1 :
    let s := oneWrite .host 0x00B00010 1000 State.reset
    ends s = true ∧ regAt 0x00B00010 (fun r => r.kind == .plain && !r.wide && !(s.setup.committed && r.breaksLock (reg s 0x00B00010) 1000)) = true ∧
    40 * 0 + 40 ≤ s.clk.count := by decide +kernel
theorem wit_ArbitrationWindowsEnd_2 :
    let s : State := { setup := { acts := [(0, .write (.core 0) 0x00B00010 1000 none), (0, .write .host 0x00B00010 2000 none)] }, clk := { count := 40 } }
    ends s = true ∧ masterCode .host < masterCode (.core 0) ∧ s.setup.committed = false ∧
    regAt 0x00B00010 (fun r => r.kind == .plain && !r.wide && r.contradict false (reg s 0x00B00010) 2000 1000) = true := by decide +kernel
theorem wit_ArbitrationWindowsEnd_3 :
    let s := oneWrite .host 0x01000010 32 State.reset (some 1)
    let t := oneWrite .host 0x01000010 32 State.reset
    ends s = true ∧ ends t = true ∧ regAt 0x01000010 (fun r => r.kind == .plain && r.wide &&
      !(s.setup.committed && r.breaksLock (reg64 s 0x01000010) (32 + 2 ^ 32))) = true := by decide +kernel
theorem wit_ArbitrationWindowsEnd_4 :
    let s := oneWrite .host 0x00B00010 1000 (locked State.reset)
    ends s = true ∧ s.setup.committed = true ∧ regAt 0x00B00010 (fun r => r.kind == .plain && !r.wide && r.breaksLock (reg s 0x00B00010) 1000) = true := by
  decide +kernel
theorem wit_ArbitrationWindowsEnd_5 :
    let s := oneWrite .host (aGct 0 0x30) 5 State.reset (some 1)
    ends s = true ∧ regAt (aGct 0 0x30) (fun r => guardedKind r.kind && !(s.setup.committed && r.breaksLock (reg64 s (aGct 0 0x30)) (5 + 2 ^ 32))) = true := by
  decide +kernel

theorem wit_AccessCodesAndReach_1 : Fld.write { hi := 3, lo := 0, acc := .ro } false 5 2 = 5 ∧ Fld.write { hi := 3, lo := 0, acc := .rwl } true 5 2 = 5 ∧
    Fld.write { hi := 3, lo := 0, acc := .rw } false 5 2 = 2 ∧ Fld.write { hi := 3, lo := 0, acc := .w1c } false 5 4 = 1 ∧
    Fld.write { hi := 3, lo := 0, acc := .w1s } false 5 2 = 7 := by decide +kernel
theorem wit_AccessCodesAndReach_2 : State.reset.hears .bmc = true ∧ reaches .bmc 0x200000 = false ∧ State.reset.pwr.state = 0 ∧
    reaches .bmc 0x1FFFFC = true ∧ (hostUp State.reset).hears .host = true ∧ reaches .host 0x1FFFFC = true ∧ (2 : Nat) ≠ 4 := by decide +kernel
theorem wit_AccessCodesAndReach_3 : (hostUp State.reset).hears .host = true ∧ reaches .host 0x01A00000 = true ∧ backed State.reset 0x01A00000 = false ∧
    reaches .host 0x04100004 = true ∧ (match findReg 0x04100004 with | some (r, _, _, _) => r.pkg | none => false) = true := by decide +kernel
theorem wit_AccessCodesAndReach_4 : reaches .host 0x1C100004 = true ∧ backed State.reset 0x1C100004 = true ∧
    regAt 0x1C100004 (fun r => r.pkg && !r.wide && r.kind != .carGen && r.kind != .carQCtrl) = true := by decide +kernel
def coreOf (q : CoreS) : State := setCore 5 q State.reset
theorem wit_AccessCodesAndReach_5 : (coreOf { mode := .user }).live = true ∧ (getCore (coreOf { mode := .user }) 5).mode = .user ∧
    (getCore (coreOf { handling := true }) 5).mode = .firmware ∧ (getCore (coreOf { handling := true }) 5).handling = true ∧ (8 : Nat) ≠ 4 := by decide +kernel

/-- A message of the manager of package 1 waits; it may be listened to, or not. -/
def fmSays (on cop : Nat) : State := told 0 cop 0 [0x00B00010, 5, 7] (net (putReg (aFab 0 4) (4 * on) State.reset))
def fmSound (on cop : Nat) (answer : List Nat) : Bool :=
  let s := fmSays on cop
  s.live && (match regMsgs s 0 cop with
    | [i] => i.msg.ty = 6 && ctlValid i.msg && ctlArg i.msg 0 = 0x00B00010 && s.canSend (ctlMsg 0 i.msg.spkg i.msg.sdie 0x62 0 answer)
    | _ => false)
theorem wit_FabricManagerAccesses :
    fmSound 1 0x60 [0x00B00010, 5, 0, 0] = true ∧ fromManager (fmSays 1 0x60) = true ∧ accessOk (fmSays 1 0x60) .fm 0x00B00010 4 = true ∧
    (match findReg 0x00B00010 with | some (r, 0, 0, false) => !r.wide | _ => false) = true ∧
    fmSound 1 0x61 [0x00B00010, 5, 0, 0] = true ∧ (fmSays 1 0x61).hears .fm = true ∧ wideWord 0x00B00010 ≠ some true ∧ closesWindow 0x00B00010 7 = false ∧
    fmSound 0 0x60 [0x00B00010, 5, 0, 1] = true ∧ fmSound 0 0x61 [0x00B00010, 5, 0, 1] = true ∧ fromManager (fmSays 0 0x60) = false ∧
    fmSound 1 0x62 [] = true := by decide +kernel

theorem wit_BridgesAndLinksFail_1 : State.reset.live = true ∧ mapGet 0 State.reset.boot.bridges 0 + 1 < 16 ∧
    mapGet 0 ({ boot := { bridges := [(9, 15)] } } : State).boot.bridges 9 = 15 ∧ mapGet 0 ({ boot := { bridges := [(9, 14)] } } : State).boot.bridges 9 + 1 < 16 := by
  decide +kernel
theorem wit_BridgesAndLinksFail_2 : (getPort (portIn (portNo 0 0 0) 1 State.reset) (portNo 0 0 0)).st = 1 ∧
    (getPort (portIn (portNo 7 2 1) 1 State.reset) (portNo 7 2 1)).st = 1 := by decide +kernel
/-- The far end's IDENT waits at a port. -/
def identAt (p major : Nat) (torus : Nat) : State :=
  deliver (p / 6) { msg := { cls := 3, ty := 7, bytes := rcd 64 [1, major * 2 ^ 24, 0, 0, 0, 0, 0, torus * 256] }, port := p, pool := 3, quarters := 1 } (portIn p 2 State.reset)
theorem wit_BridgesAndLinksFail_3 :
    (getPort (identAt 6 2 0) (portNo 1 0 0)).st = 2 ∧ (identMsgs (identAt 6 2 0) (portNo 1 0 0)).length = 1 ∧
    (identMsgs (identAt 6 2 0) 6).all (fun i => bitsOf (headWord i.msg 1) 31 24 ≠ 1) = true ∧
    (identMsgs (identAt 6 1 1) 6).all (fun i => bitsOf (headWord i.msg 1) 31 24 = 1 && bitsOf (ctlArg i.msg 4) 8 8 ≠ regF (identAt 6 1 1) (aFab 0 4) 1 1) = true ∧
    (identMsgs (identAt 6 1 0) 6).all (fun i => bitsOf (headWord i.msg 1) 31 24 = 1 && bitsOf (ctlArg i.msg 4) 8 8 = regF (identAt 6 1 0) (aFab 0 4) 1 1) = true := by
  decide +kernel
theorem wit_BridgesAndLinksFail_4 : (portIn 0 3 State.reset).live = true ∧ (getPort (portIn 0 3 State.reset) (portNo 0 0 0)).st = 3 := by decide +kernel

/-! ## Witnesses: tiles -/

/-- A task descriptor for tile 0 of die 0: FP8 operands, entry 0 from slot 0 on, one row from slot 100 on, output to slot 200. -/
def tdGrid (load : Nat) (more : Nat) : List Byte :=
  rcd 64 [2 ^ 24 + more, 0x22200000, 2 ^ 16 + load, 0, 100, 200, 8 * 2 ^ 16 + 1, 8 * 2 ^ 16]
def tdLoadTask : List Byte := rcd 64 [2 * 2 ^ 24, 0x22200000, 1]
def tdMark : List Byte := rcd 64 [3 * 2 ^ 24]
def tdEnd : List Byte := rcd 64 [15 * 2 ^ 24]
def tdBadOp : List Byte := rcd 64 [9 * 2 ^ 24]
def tdNoUse : List Byte := rcd 64 [2 ^ 24, 0x22200000]

/-- One entry waits in the start queue of tile 0, die 0. -/
def queued (b : List Byte) : State :=
  placeBytes 0 0 b (putReg (aTil 0 0 0x1C) 1 (putReg (aTil 0 0 0x18) 1 (putReg64 (aTil 0 0 0x10) (gaH 0 0) State.reset)))
def startOf (n base count : Nat) : List Byte :=
  rcd 32 [0x20 * 2 ^ 24 + n * 2 ^ 18 + count * 2 ^ 12 + base * 2 ^ 8, 0x1000, gaH 0 0 / 2 ^ 32, 1, 0x2000, gaH 0 0 / 2 ^ 32]
def startSound (s : State) : Bool :=
  s.live && sqWaiting 0 s && s.cleanGa (sqAddr s 0) 32 && sqOp (s.startEntry 0) = 0x20 && (getTctx s 0 (sqTctx (s.startEntry 0))).st = 0 &&
    !holdsInputs s (sqCtx (s.startEntry 0))
theorem wit_StartBeginsAnIdleTaskContext : startSound (queued (startOf 3 8 8)) = true ∧
    startBad (queued (startOf 3 8 8)) 0 ((queued (startOf 3 8 8)).startEntry 0) = false ∧
    startSound (queued (startOf 0 9 8)) = true ∧ startBad (queued (startOf 0 9 8)) 0 ((queued (startOf 0 9 8)).startEntry 0) = true ∧
    startSound (modTile 0 (fun x => { x with fenced := true }) (queued (startOf 0 0 16))) = true := by
  decide +kernel

/-- A task context of tile 0, die 0. -/
def tctxIn (x : TaskCtx) (s : State) : State := setTctx 0 0 x s

def haltState : State := tctxIn { st := 4, count := 1, cq := gaH 0 0x2000 } (queued (rcd 32 [0x21 * 2 ^ 24]))
theorem wit_HaltMakesTheTaskContextIdle : haltState.live = true ∧ sqWaiting 0 haltState = true ∧ haltState.cleanGa (sqAddr haltState 0) 32 = true ∧
    sqOp (haltState.startEntry 0) = 0x21 ∧ (getTctx haltState 0 (sqTctx (haltState.startEntry 0))).st ≠ 0 ∧
    groupRuns haltState 0 (sqTctx (haltState.startEntry 0)) = false := by decide +kernel

/-- The task context is in FETCH with a descriptor in memory. -/
def fetching (b : List Byte) : State := placeBytes 0 0 b (tctxIn { st := 1, entryCount := 16, count := 2, list := gaH 0 0, cq := gaH 0 0x2000 } State.reset)
def fetchSound (s : State) : Bool :=
  s.live && (getTctx s 0 0).st = 1 && !(getTctx s 0 0).atEnd && s.cleanGa ((getTctx s 0 0).list + 64 * (getTctx s 0 0).index) 64
def fetchBad (s : State) : Bool :=
  taskBad s 0 (getTctx s 0 0) (s.nextDescriptor 0 0) (readScr 0 (tdSubtab (s.nextDescriptor 0 0) * 256) (16 * tdEdge (s.nextDescriptor 0 0) * tdEdge (s.nextDescriptor 0 0)) s)
theorem wit_DescriptorsAreTakenOrRefused_1 : fetchSound (fetching tdBadOp) = true ∧ tdReserved ((fetching tdBadOp).nextDescriptor 0 0) = true ∧
    fetchSound (fetching tdEnd) = true ∧ tdReserved ((fetching tdEnd).nextDescriptor 0 0) = false ∧ tdOp ((fetching tdEnd).nextDescriptor 0 0) = 0x0F ∧
    tdReserved ((fetching tdMark).nextDescriptor 0 0) = false ∧ tdOp ((fetching tdMark).nextDescriptor 0 0) = 3 ∧
    tdReserved ((fetching tdNoUse).nextDescriptor 0 0) = false ∧ fetchBad (fetching tdNoUse) = true ∧
    fetchSound (fetching (tdGrid 1 0)) = true ∧ tdReserved ((fetching (tdGrid 1 0)).nextDescriptor 0 0) = false ∧ fetchBad (fetching (tdGrid 1 0)) = false := by
  decide +kernel
def markState (count : Nat) : State := tctxIn { st := 3, count, cq := gaH 0 0x2000, runs := [{ index := 0, desc := tdMark, cq := gaH 0 0x2000 }] } State.reset
theorem wit_DescriptorsAreTakenOrRefused_2 : (markState 1).live = true ∧ (getTctx (markState 1) 0 0).st = 3 ∧
    (getTctx (markState 1) 0 0).runs = [{ index := 0, desc := tdMark, cq := gaH 0 0x2000 }] ∧ tdOp tdMark = 3 ∧
    (getTctx (markState 1) 0 0).count = 0 + 1 ∧ (getTctx (markState 2) 0 0).count ≠ 0 + 1 := by decide +kernel
theorem wit_DescriptorsAreTakenOrRefused_3 : (getTctx (tctxIn { st := 1, atEnd := true } State.reset) 0 0).atEnd = true ∧
    (getTctx (tctxIn { st := 1, atEnd := true } State.reset) 0 0).runs = [] := by decide +kernel

/-- The slots from 64 on of tile 0, die 0, are tagged and EMPTY. -/
def tagged (s : State) : State := putReg (aTil 0 0 0x100) (3 * 2 ^ 30 + 1000 * 2 ^ 16 + 64) s
def runOf (b : List Byte) : Run := { index := 0, desc := b, cq := gaH 0 0x2000, groups := if tdOp b = 1 then 1 else 0 }
def waiting (s : State) : State := tctxIn { st := 2, c0 := some 0, count := 1, cq := gaH 0 0x2000, runs := [runOf (tdGrid 0 0)] } s
theorem wit_TheGridIsGivenToAReadyContext_1 : (getTctx (waiting (tagged State.reset)) 0 0).st = 2 ∧
    (getTctx (waiting (tagged State.reset)) 0 0).runs.getLast? = some (runOf (tdGrid 0 0)) ∧
    (blocking (waiting (tagged State.reset)) 0 (claimSet (waiting (tagged State.reset)) 0 (runOf (tdGrid 0 0)))).isSome = true ∧
    blocking (waiting State.reset) 0 (claimSet (waiting State.reset) 0 (runOf (tdGrid 0 0))) = none := by decide +kernel
def readyState : State := tctxIn { st := 3, count := 1, cq := gaH 0 0x2000, runs := [runOf (tdGrid 0 0)] } State.reset
theorem wit_TheGridIsGivenToAReadyContext_2 : readyState.live = true ∧ (getTile readyState 0).cur = none ∧ (getTile readyState 0).fenced = false ∧
    (List.range 4).any (fun k => (getTctx readyState 0 k).runs.any (·.failed)) = false ∧ chooseTctx readyState 0 = some 0 ∧
    (getTctx readyState 0 0).runs.getLast? = some (runOf (tdGrid 0 0)) := by decide +kernel

/-- The grid is with task context 0. -/
def gridWith (r : Run) (s : State) : State := modTile 0 (fun x => { x with cur := some 0 }) (tctxIn { st := 4, count := 1, cq := gaH 0 0x2000, runs := [r] } s)
theorem wit_HaltMakesTheTaskContextIdle_2 : groupRuns (gridWith (runOf (tdGrid 0 0)) haltState) 0 (sqTctx (haltState.startEntry 0)) = true ∧
    sqWaiting 0 (gridWith (runOf (tdGrid 0 0)) haltState) = true := by decide +kernel
theorem wit_TheGridIsGivenToAReadyContext_3 : (getTctx (waiting State.reset) 0 0).late = false := by decide +kernel
theorem wit_LoadsAndRowGroups_1 : (gridWith (runOf tdLoadTask) State.reset).live = true ∧ (getTile (gridWith (runOf tdLoadTask) State.reset) 0).cur = some 0 ∧
    curRun (getTctx (gridWith (runOf tdLoadTask) State.reset) 0 0) = some (runOf tdLoadTask) ∧ tdOp tdLoadTask = 2 ∧ (runOf tdLoadTask).loadsBegun = false := by
  decide +kernel
def loadingEntry : State := setEntry 0 15 { st := 1, fmt := 2 } { clk := { t := 120 } }
theorem wit_LoadsAndRowGroups_2 : loadingEntry.live = true ∧ (getEntry loadingEntry 0 15).st = 1 ∧ (getEntry loadingEntry 0 15).since + 132 ≤ cycleOf loadingEntry := by
  decide +kernel
def issueState : State := modTile 0 (fun x => { x with phase := 2 }) (setEntry 0 0 { st := 2, fmt := 2, elems := List.replicate 4 0 }
  (gridWith { (runOf (tdGrid 0 0)) with loadsBegun := true } State.reset))
theorem wit_LoadsAndRowGroups_3 : issueState.live = true ∧ (getTile issueState 0).cur = some 0 ∧
    curRun (getTctx issueState 0 0) = some { (runOf (tdGrid 0 0)) with loadsBegun := true } ∧ tdOp (tdGrid 0 0) = 1 ∧
    canIssue issueState 0 0 { (runOf (tdGrid 0 0)) with loadsBegun := true } = true := by decide +kernel
theorem wit_LoadsAndRowGroups_4 :
    let s := gridWith (runOf (tdGrid 1 0)) State.reset
    s.live = true ∧ (getTile s 0).cur = some 0 ∧ curRun (getTctx s 0 0) = some (runOf (tdGrid 1 0)) ∧ tdOp (tdGrid 1 0) = 1 ∧
      (runOf (tdGrid 1 0)).loadsBegun = false ∧ (getTile s 0).streaming = false ∧ (runOf (tdGrid 1 0)).reload = false := by decide +kernel
/-- The one row group of a task has taken its issue slots. -/
def issuedState : State := modTile 0 (fun x => { x with streaming := true, unit := 1 }) issueState
theorem wit_LoadsAndRowGroups_5 : (getTile issuedState 0).streaming = true ∧ (tdUnitsOf (tdGrid 0 0) 0).length ≤ (getTile issuedState 0).unit ∧
    (getTile issuedState 0).endAt ≤ cycleOf issuedState ∧ (getTctx issuedState 0 0).halting = 0 ∧ tdChain (tdGrid 0 0) = false ∧
    defers { (runOf (tdGrid 0 0)) with loadsBegun := true } = false ∧
    curRun (getTctx issuedState 0 0) = some { (runOf (tdGrid 0 0)) with loadsBegun := true } := by decide +kernel

def phaseState (phase t : Nat) : State := modTile 0 (fun x => { x with phase }) { clk := { t } }
theorem wit_PeriodsAndLongWaitsEnd_1 : (phaseState 2 100).live = true ∧ (getTile (phaseState 2 100) 0).phase = 2 ∧
    max (getTile (phaseState 2 100) 0).endAt ((getTile (phaseState 2 100) 0).phaseAt + rampCycles (phaseState 2 100) 0 0) + 8 ≤ cycleOf (phaseState 2 100) := by
  decide +kernel
theorem wit_PeriodsAndLongWaitsEnd_2 : (getTile (phaseState 4 100) 0).phase = 4 ∧ gridRun (phaseState 4 100) 0 = none ∧
    (getTile (phaseState 4 100) 0).phaseAt + rampCycles (phaseState 4 100) 0 0 ≤ cycleOf (phaseState 4 100) ∧
    (let s := modTile 0 (fun x => { x with phase := 4 }) { issueState with clk := { t := 100 } }
     (getTile s 0).phase = 4 ∧ (getTile s 0).phaseAt + rampCycles s 0 0 ≤ cycleOf s ∧
     (match gridRun s 0 with | some (n, r) => vectorsReady s 0 n r | none => false) = true) := by decide +kernel
def timeoutState : State := waiting (tagged { clk := { t := 1 } })
theorem wit_PeriodsAndLongWaitsEnd_3 : timeoutState.live = true ∧ (getTctx timeoutState 0 0).st = 2 ∧ (getTctx timeoutState 0 0).late = false ∧
    (getTctx timeoutState 0 0).c0 = some 0 ∧ (0 : Nat) < 0 + (getTctx timeoutState 0 0).tmo + 1 ∧
    0 + (getTctx timeoutState 0 0).tmo + 1 ≤ cycleOf timeoutState ∧ (blockedOn timeoutState 0 0).isSome = true := by decide +kernel
def lateState : State := modTctx 0 0 (fun x => { x with late := true, block := some (1, 64) }) timeoutState
theorem wit_PeriodsAndLongWaitsEnd_4 : lateState.live = true ∧ (getTctx lateState 0 0).st = 2 ∧ (getTctx lateState 0 0).late = true ∧
    (getTctx lateState 0 0).runs.getLast? = some (runOf (tdGrid 0 0)) ∧ (getTctx lateState 0 0).block = some (1, 64) ∧ level lateState ≠ 2 := by decide +kernel
def stallState : State := modTctx 0 0 (fun x => { x with chain := some (0, 1), chainOn := true }) (modTile 0 (fun x => { x with stallCount := 1 })
  (waiting (tagged (putReg (aTil 0 0 8) 1 { clk := { t := 1 } }))))
theorem wit_PeriodsAndLongWaitsEnd_5 : stallState.live = true ∧ (getTile stallState 0).episode = false ∧ 0 < (getTile stallState 0).stallCount ∧
    reg stallState (aTil 0 0 8) ≤ (getTile stallState 0).stallCount ∧ chainHolder stallState 0 = some 0 := by decide +kernel

def fullHalf : HalfS := { tctx := 0, task := 0, group := 0, full := true, anchors := [0], acc := [(0, {})] }
def drainState : State := modTile 0 (fun x => { x with halves := [fullHalf] }) (gridWith { (runOf (tdGrid 0 0)) with loadsBegun := true, issued := 1 } State.reset)
theorem wit_GridTasksDrainCheckAndCommit_1 : drainState.live = true ∧ (getTile drainState 0).halves.find? (·.full) = some fullHalf ∧
    fullHalf.acc.all (·.2.checks) = true ∧
    (getTctx drainState 0 fullHalf.tctx).runs.find? (fun y => y.index == fullHalf.task) = some { (runOf (tdGrid 0 0)) with loadsBegun := true, issued := 1 } := by
  decide +kernel
def tdStreamed : List Byte := rcd 64 [2 ^ 24, 0x22204000, 2 ^ 16, 0, 100, 0, 8 * 2 ^ 16 + 1, 8 * 2 ^ 16]
theorem wit_GridTasksDrainCheckAndCommit_6 : tdYStreamed tdStreamed = true ∧ tdYStreamed (tdGrid 0 0) = false ∧
    (getTctx (gridWith (runOf tdStreamed) State.reset) 0 fullHalf.tctx).runs.find? (fun y => y.index == fullHalf.task) = some (runOf tdStreamed) := by
  decide +kernel
def doneRun : Run := { (runOf (tdGrid 0 0)) with loadsBegun := true, issued := 1, drained := 1 }
theorem wit_GridTasksDrainCheckAndCommit_2 : commitUnit (gridWith doneRun State.reset) 0 0 = some [doneRun] ∧ [doneRun].getLast? = some doneRun ∧
    doneRun.index + 1 = (getTctx (gridWith doneRun State.reset) 0 0).count ∧
    (let s := modTctx 0 0 (fun x => { x with count := 2 }) (gridWith doneRun State.reset)
     commitUnit s 0 0 = some [doneRun] ∧ doneRun.index + 1 ≠ (getTctx s 0 0).count) := by decide +kernel
def checkState (c : Nat) : State := modTile 0 (fun x => { x with checks := [{ tctx := 0, task := 0, c, m := 5, anchor := 0 }] })
  (gridWith { doneRun with unchecked := 1 } State.reset)
theorem wit_GridTasksDrainCheckAndCommit_3 : (getTile (checkState 5) 0).checks = [{ tctx := 0, task := 0, c := 5, m := 5, anchor := 0 }] ∧
    (getTctx (checkState 5) 0 0).runs.find? (fun y => y.index == 0) = some { doneRun with unchecked := 1 } := by decide +kernel
theorem wit_GridTasksDrainCheckAndCommit_4 : (getTile (checkState 6) 0).checks = [{ tctx := 0, task := 0, c := 6, m := 5, anchor := 0 }] ∧ (6 : Nat) ≠ 5 ∧
    unitOf (getTctx (checkState 6) 0 0) 0 = [{ doneRun with unchecked := 1 }] ∧ doneRun.reexec = false := by decide +kernel
theorem wit_GridTasksDrainCheckAndCommit_5 : (gridWith { doneRun with failed := true } State.reset).live = true ∧
    reexecTctx (gridWith { doneRun with failed := true } State.reset) 0 = some 0 ∧
    (getTctx (gridWith { doneRun with failed := true } State.reset) 0 0).runs = [{ doneRun with failed := true }] := by decide +kernel

/-- The tag table at its bounds: the states, and the fifteenth hold. -/
theorem wit_TagsFollowTheTable_1 : claimOk { st := 0, holds := 0 } .fill = true ∧ claimOk { st := 0, holds := 1 } .fill = false ∧
    claimOk { st := 2, holds := 14 } .peek = true ∧ claimOk { st := 3, holds := 15 } .peek = false ∧ claimOk { st := 2, holds := 15 } .consume = true ∧
    (3 : Nat) < 4 := by decide +kernel
theorem wit_TagsFollowTheTable_2 : oneTagged (tagged State.reset) 0 64 1000 = true ∧ oneTagged (tagged State.reset) 0 63 1 = false ∧
    ((1 : Nat) = 1 ∨ (1 : Nat) = 2) := by decide +kernel

def pairState : State := setEntry 0 1 { st := 1, fmt := 0, elemSlot := 32 } (setEntry 0 0 { st := 1, fmt := 0, z4 := true } { clk := { t := 120 } })
theorem wit_LoadsAndRowGroups_6 : pairState.live = true ∧ (getEntry pairState 0 0).st = 1 ∧ (getEntry pairState 0 0).since + 132 ≤ cycleOf pairState ∧
    codeBits (getEntry pairState 0 0).fmt = 4 ∧ codeBits (getEntry pairState 0 1).fmt = 4 ∧ (getEntry pairState 0 1).st = 1 ∧
    (getEntry pairState 0 1).since = (getEntry pairState 0 0).since ∧ (getEntry pairState 0 0).z4 = true := by decide +kernel
def trippedIssue : State := { issuedState with pwr := { tripped := true } }
theorem wit_LoadsAndRowGroups_7 : trippedIssue.live = true ∧ (getTile trippedIssue 0).streaming = true ∧ trippedIssue.pwr.tripped = true ∧
    issuedState.pwr.tripped = false ∧ (getTile trippedIssue 0).cur = some 0 ∧ tdOp (tdGrid 0 0) = 1 ∧
    curRun (getTctx trippedIssue 0 0) = some { (runOf (tdGrid 0 0)) with loadsBegun := true } := by decide +kernel
theorem wit_PeriodsAndLongWaitsEnd_6 : level (putReg (aGct 0 8) 2 lateState) = 2 ∧ (getTctx (putReg (aGct 0 8) 2 lateState) 0 0).late = true := by
  decide +kernel
theorem wit_PeriodsAndLongWaitsEnd_7 :
    let s := modTctx 0 0 (fun x => { x with chain := none, chainOn := false }) stallState
    s.live = true ∧ (getTile s 0).episode = false ∧ 0 < (getTile s 0).stallCount ∧ reg s (aTil 0 0 8) ≤ (getTile s 0).stallCount ∧ chainHolder s 0 = none := by
  decide +kernel
theorem wit_GridTasksDrainCheckAndCommit_7 : placeOf (gridWith doneRun State.reset) (doneRun.cq + 16 * doneRun.index) = .hbm 0 0x2000 ∧
    (∀ n < 4, ∀ y ∈ (getTctx drainState 0 n).runs, y.held = []) := by decide +kernel
def tagWrite (v : Nat) (s : State) : State := oneWrite .host (aTil 0 0 0x180) (BitVec.ofNat 32 v) s
theorem wit_TagsFollowTheTable_3 : kindB (tagWrite (2 ^ 30 + 5 * 2 ^ 16 + 64) (tagged State.reset)) .tilTagCmd .host (aTil 0 0 0x180) (BitVec.ofNat 32 (1 * 2 ^ 30 + 5 * 2 ^ 16 + 64)) 0 0 = true ∧
    kindB (tagWrite (2 * 2 ^ 30 + 5 * 2 ^ 16 + 63) (tagged State.reset)) .tilTagCmd .host (aTil 0 0 0x180) (BitVec.ofNat 32 (2 * 2 ^ 30 + 5 * 2 ^ 16 + 63)) 0 0 = true ∧
    kindB (tagWrite (3 * 2 ^ 30) State.reset) .tilTagCmd .host (aTil 0 0 0x180) (BitVec.ofNat 32 (3 * 2 ^ 30 + 0 * 2 ^ 16 + 0)) 0 0 = true ∧ aTil 0 0 0x180 / 0x4000000 = 0 := by
  decide +kernel
def regionWrite (v : Word) (s : State) : State := oneWrite .host (aTil 0 0 0x104) v s
theorem wit_TagsFollowTheTable_4 : kindB (regionWrite 0xC0050002 State.reset) .tilRegion .host (aTil 0 0 0x104) 0xC0050002 1 0 = true ∧
    regionBad (regionWrite 0xC0050002 State.reset) 0 1 0xC0050002 = false ∧ aTil 0 0 0x104 = aTil 0 0 (0x100 + 4 * 1) ∧
    kindB (regionWrite 0xC0050040 (tagged State.reset)) .tilRegion .host (aTil 0 0 0x104) 0xC0050040 1 0 = true ∧
    regionBad (regionWrite 0xC0050040 (tagged State.reset)) 0 1 0xC0050040 = true := by decide +kernel
/-! ## Witnesses: streams -/

/-- A stream descriptor: opcode and flags, slot, memory address, and the words from LEN on. -/
def sdBytes (w0 slot mem : Nat) (l : List Nat) : List Byte := rcd 64 ([w0, slot, mem, mem / 2 ^ 32] ++ l)
def sdLinear (acc : Nat) : List Byte := sdBytes (0x10 * 2 ^ 24 + acc * 2 ^ 20) 100 (gaH 0 0) [256]
/-- The queue slots of tile 0, die 0, are tagged; one of them, or more, is FULL. -/
def qTagged (s : State) : State := putReg (aTil 0 0 0x104) (3 * 2 ^ 30 + 12 * 2 ^ 16 + 12276) s
def fullTag (slot : Nat) (s : State) : State := modTile 0 (fun x => { x with tags := [(slot, { st := 2 })] }) s
/-- Stream q of tile 0, die 0, with descriptors. -/
def strmIn (q : Nat) (l : List SDesc) (s : State) : State := modStream 0 q (fun x => { x with q := l }) (qTagged s)
def descIn (b : List Byte) : SDesc := { bytes := b, qslot := 0, seq := 0 }

def queueFull (slot : Nat) : State := fullTag slot (qTagged State.reset)
theorem wit_StreamSlotsAreFetchedAndMove_1 : (queueFull 12276).live = true ∧ canFetchStream 0 0 (queueFull 12276) = true ∧
    canFetchStream 0 5 (modStream 0 5 (fun x => { x with nextSlot := 1 }) (queueFull 12287)) = true := by decide +kernel
def claimDesc (todo : List Nat) : SDesc := { (descIn (sdLinear 1)) with begun := true, todo }
theorem wit_StreamSlotsAreFetchedAndMove_2 :
    let s := strmIn 0 [claimDesc [100]] (tagged State.reset)
    s.live = true ∧ streamRuns s 0 0 = true ∧ Machine.flying (getStream s 0 0) < 64 ∧
      (getStream s 0 0).q.find? (fun x => x.begun && !x.todo.isEmpty) = some (claimDesc [100]) ∧ (claimDesc [100]).todo = 100 :: [] ∧
      sdKind 0 (sdLinear 1) = some .fill ∧ streamMay s 0 0 100 .fill = true ∧ blockedMove s 0 0 = none := by decide +kernel
def movingDesc : SDesc := { (descIn (sdLinear 1)) with begun := true, inflight := [100] }
theorem wit_StreamSlotsAreFetchedAndMove_3 :
    let s := strmIn 3 [movingDesc] (tagged State.reset)
    descOf s 0 3 100 = some movingDesc ∧ movingDesc.stuck = [] ∧ readsServed s movingDesc 100 = true ∧
      (partsOf movingDesc 100).all (fun p => partReady s movingDesc p.1 p.2.1 p.2.2) = true ∧ s.cleanParts movingDesc (partsOf movingDesc 100) = true ∧
      (partsOf movingDesc 100).length = 1 ∧ sdKind 3 movingDesc.bytes = some .fill := by decide +kernel
theorem wit_StreamSlotsAreFetchedAndMove_5 :
    let s := strmIn 4 [movingDesc] (tagged State.reset)
    descOf s 0 4 100 = some movingDesc ∧ nextOut movingDesc = some 100 ∧ sdCodec movingDesc.bytes = 0 ∧
      (partsOf movingDesc 100).map (fun p => p.1.mem.map fun m => placeOf s (m + p.2.1)) = [some (.hbm 0 0)] ∧
      (memRuns (pieces movingDesc)).all (fun r => placeOf s r.1 != .remote) = true := by decide +kernel
def feedDesc : SDesc := { (descIn (sdLinear 2)) with begun := true, feed := some (0, 0) }
def feedState : State := strmIn 0 [feedDesc] (tctxIn { st := 4, runs := [runOf (tdGrid 0 0)] } State.reset)
theorem wit_StreamSlotsAreFetchedAndMove_4 : feedState.live = true ∧ feedDue feedState 0 0 = some feedDesc ∧ readsServed feedState feedDesc 0 = true ∧
    (feedParts' feedDesc).all (fun p => partReady feedState feedDesc p.1 p.2.1 p.2.2) = true ∧ feedState.cleanParts feedDesc (feedParts' feedDesc) = true ∧
    feedDesc.feed = some (0, 0) ∧ (getTctx feedState 0 (sdTctx feedDesc.bytes)).runs.any (·.index == 0) = true := by decide +kernel

/-- A sound descriptor of each row, with its stream. -/
def sdRowsSound : List (Instr × Nat × List Byte) := [
  (.linear 0 0 0, 0, sdLinear 0), (.block2d 0 0 0, 0, sdBytes (0x11 * 2 ^ 24) 100 (gaH 0 0) [256, 16 * 2 ^ 16 + 2, 256]),
  (.gather 0 0 0, 0, sdBytes (0x12 * 2 ^ 24 + 2 * 8) 100 (gaH 0 0) [4, 2 ^ 16, 64, 100, 0, gaH 0 0 / 2 ^ 32]),
  (.scatter 0 0 4, 4, sdBytes (0x13 * 2 ^ 24 + 2 * 8) 100 (gaH 0 0) [4, 2 ^ 16, 64, 100, 0, gaH 0 0 / 2 ^ 32]),
  (.note 0 0 5, 5, sdBytes (0x14 * 2 ^ 24) 0 (gaS 0 0 0x6400) [])]
def sdRowSound (c : Instr) (q : Nat) (b : List Byte) : Bool :=
  match streamRow c with
  | some (op, _, _, q') => q'.val = q && sdOp b = op && nextDesc (strmIn q [descIn b] State.reset) 0 q = some (descIn b) &&
      sdCheck (strmIn q [descIn b] State.reset) 0 q (descIn b) = 0 && !isFeed q b && !sdAfter b && sdGate b = 0
  | none => false
def sdBadRow : List Byte := sdBytes (0x10 * 2 ^ 24) 100 (gaH 0 0) [15]
/-- What a row finds as it begins: the descriptor past its gate. -/
def gatedIn (q : Nat) (b : List Byte) : State := setDesc 0 q (descIn b) { (descIn b) with gated := true } (strmIn q [descIn b] State.reset)
def indexesIn (q : Nat) (b : List Byte) : List Nat :=
  if sdOp b = 0x12 || sdOp b = 0x13 then unpackWide (if sdIdx16 b then 2 else 4) (sdLen b) ((gatedIn q b).indexBytes 0 q b) else []
def sdRowPlaced (q : Nat) (b : List Byte) : Bool :=
  sdOp b = 0x14 ||
    sdPlaceCheck (gatedIn q b) 0 q { (descIn b) with gated := true, begun := true, idx := indexesIn q b } = 0 &&
      (indexesIn q b).all (· < sdLimit b) && (sdOp b < 0x12 ||
        ((gatedIn q b).cleanGa (sdIdxAddr b) (sdLen b * 4) && placeRun (gatedIn q b) (sdIdxAddr b) (sdLen b * 4) = .hbm 0 0))
def scrGather : List Byte := sdBytes (0x12 * 2 ^ 24 + 2 * 8) 100 (gaH 0 0) [4, 2 ^ 16, 64, 100, gaS 0 0 0x6000, gaS 0 0 0x6000 / 2 ^ 32]
theorem wit_StreamDescriptorsBegin_4 : sdRowSound (.gather 0 0 0) 0 scrGather = true ∧ (gatedIn 0 scrGather).cleanGa (sdIdxAddr scrGather) (sdLen scrGather * 4) = true ∧
    placeRun (gatedIn 0 scrGather) (sdIdxAddr scrGather) (sdLen scrGather * 4) = .scr 0 0 0x6000 ∧ (indexesIn 0 scrGather).all (· < sdLimit scrGather) = true ∧
    sdPlaceCheck (gatedIn 0 scrGather) 0 0 { (descIn scrGather) with gated := true, begun := true, idx := indexesIn 0 scrGather } = 0 := by decide +kernel
theorem wit_StreamDescriptorsBegin_1 : sdRowsSound.all (fun x => sdRowSound x.1 x.2.1 x.2.2 && sdRowPlaced x.2.1 x.2.2) = true ∧
    nextDesc (strmIn 0 [descIn sdBadRow] State.reset) 0 0 = some (descIn sdBadRow) ∧ sdCheck (strmIn 0 [descIn sdBadRow] State.reset) 0 0 (descIn sdBadRow) ≠ 0 := by
  decide +kernel
def noteDesc : SDesc := descIn (sdBytes (0x14 * 2 ^ 24) 0 (gaS 0 0 0x6400) [])
/-- A NOTE into slot 100, tagged or not. -/
def noteSound (s : State) : Bool :=
  let s1 := setDesc 0 5 noteDesc { noteDesc with gated := true } s
  s.live && nextDesc s 0 5 = some noteDesc && sdOp noteDesc.bytes = 0x14 && sdCheck s 0 5 noteDesc = 0 && !sdAfter noteDesc.bytes &&
    sdGate noteDesc.bytes = 0 && sdPlaceCheck s1 0 5 { noteDesc with gated := true } = 0 && placeRun s1 (sdMem noteDesc.bytes) 256 = .scr 0 0 0x6400 &&
    (!isTagged s (engine 0 0) 100 || mayArrive s1 (engine 0 0) 100 .fill)
theorem wit_StreamDescriptorsBegin_2 : noteSound (strmIn 5 [noteDesc] (tagged State.reset)) = true ∧
    isTagged (strmIn 5 [noteDesc] (tagged State.reset)) (engine 0 0) 100 = true ∧ noteSound (strmIn 5 [noteDesc] State.reset) = true := by decide +kernel
theorem wit_StreamDescriptorsBegin_3 : nextDesc (strmIn 0 [descIn (rcd 64 [])] State.reset) 0 0 = some (descIn (rcd 64 [])) ∧ sdOp (rcd 64 []) = 0 ∧
    (rcd 64 []).all (· = 0) = true ∧ nextDesc (strmIn 0 [descIn (rcd 64 [1])] State.reset) 0 0 = some (descIn (rcd 64 [1])) ∧ sdOp (rcd 64 [1]) = 0 := by
  decide +kernel

def overDesc (f : Nat) : SDesc := { (descIn (sdLinear 0)) with begun := true, fail := f, todo := [], moved := [100] }
theorem wit_StreamDescriptorsEnd_1 : endable (strmIn 0 [overDesc 0] State.reset) 0 0 = some (overDesc 0) ∧ isGrid 0 (overDesc 0).bytes = false ∧
    endable (strmIn 0 [overDesc 1] State.reset) 0 0 = some (overDesc 1) ∧ (overDesc 1).fail ≠ 0 ∧
    endable (strmIn 4 [descIn (rcd 64 [0x77 * 2 ^ 24])] State.reset) 0 4 = some (descIn (rcd 64 [0x77 * 2 ^ 24])) := by decide +kernel
/-- A GRID descriptor of n bytes, and an output of 16 whole bytes for its stream. -/
def gridDesc (n : Nat) : SDesc := { (descIn (sdBytes (0x10 * 2 ^ 24 + 3 * 2 ^ 20) 0 (gaH 0 0) [n])) with begun := true }
def outG : GridOut := { stream := 0, tctx := 0, task := 0, cells := (List.range 16).map fun i => (i, 7), whole := true }
def gridOutIn (n : Nat) : State := modTile 0 (fun x => { x with gridOut := [outG] }) (strmIn 4 [gridDesc n] State.reset)
theorem wit_StreamDescriptorsEnd_3 : endable (gridOutIn 16) 0 4 = some (gridDesc 16) ∧ (gridDesc 16).fail = 0 ∧ isGrid 4 (gridDesc 16).bytes = true ∧
    (gridDesc 16).moved ≠ [0] ∧ gridDue (gridOutIn 16) 0 4 (gridDesc 16) = some outG ∧ sdTotal (gridDesc 16).bytes = outG.cells.length ∧
    (planFills (modTile 0 (fun t => { t with gridOut := t.gridOut.erase outG }) (gridOutIn 16)) (gridDesc 16)
      (cutParts (modTile 0 (fun t => { t with gridOut := t.gridOut.erase outG }) (gridOutIn 16)) (gridData (gridDesc 16) outG))).2 = [] ∧
    endable (gridOutIn 32) 0 4 = some (gridDesc 32) ∧ gridDue (gridOutIn 32) 0 4 (gridDesc 32) = some outG ∧ sdTotal (gridDesc 32).bytes ≠ outG.cells.length := by
  decide +kernel
def longState : State := modStream 0 0 (fun x => { x with blocked := some (0, 0, 100), waited := 1 })
  (strmIn 0 [claimDesc [100]] (fullTag 100 (tagged (putReg (aTil 0 0 8) 1 { clk := { t := 1 } }))))
theorem wit_StreamDescriptorsEnd_2 : longState.live = true ∧ (getStream longState 0 0).stalled = false ∧ (getStream longState 0 0).blocked = some (0, 0, 100) ∧
    blockedOf longState 0 0 = some (0, 0, 100) ∧ reg longState (aTil 0 0 8) ≤ (getStream longState 0 0).waited := by decide +kernel

def notedDesc : SDesc := { (descIn (sdBytes (0x10 * 2 ^ 24 + 2 ^ 16) 100 (gaH 0 0) [256, 0, 0, 0, 0, 0, 0, 0, 0x4000, gaH 0 0 / 2 ^ 32])) with begun := true, moved := [100] }
theorem wit_StreamDescriptorsEnd_4 : endable (strmIn 0 [notedDesc] State.reset) 0 0 = some notedDesc ∧ notedDesc.begun = true ∧ notedDesc.fail = 0 ∧
    isGrid 0 notedDesc.bytes = false ∧ sdComplete notedDesc.bytes = true ∧ notedDesc.replay = false ∧
    placeOf (strmIn 0 [notedDesc] State.reset) (sdCq notedDesc.bytes) = .hbm 0 0x4000 := by decide +kernel

/-! ## Witnesses: row engines -/

/-- A row engine descriptor: FP8 in and out, one row of 64 elements of tile 0, source slot 0, destination slot 10. -/
def rdBytes (op w0 par mb sid key scalar aux : Nat) : List Byte :=
  rcd 64 [op * 2 ^ 24 + (if op = 0x4A then 0 else 0x220000) + w0, 0, if aux = 0 then 0 else 20, if op = 0x4A then 0 else 10, par, 0,
    2 ^ 16 + (if op = 0x4A then 0 else 64), 0, mb, sid * 2 ^ 24, 0, key, scalar]
def rowsSound : List (Instr × List Byte) := [
  (.act 0 0, rdBytes 0x40 0 0 0 0 0 0 0), (.actBwd 0 0, rdBytes 0x41 0 0 0 0 0 0 1), (.normFwd 0 0, rdBytes 0x42 0 100 1 1 0 0 0),
  (.normBwd 0 0, rdBytes 0x43 0 100 1 1 0 0 1), (.smaxFwd 0 0, rdBytes 0x44 0 0 1 1 0 0x3F800000 0), (.smaxBwd 0 0, rdBytes 0x45 0 0 1 1 0 0x3F800000 1),
  (.opt 0 0, rdBytes 0x46 0 100 0 0 0 0 1), (.reduce 0 0, rdBytes 0x47 0 0 0 0 2 0 0), (.convert 0 0, rdBytes 0x48 0 0 0 0 0 0 0),
  (.add 0 0, rdBytes 0x49 0 0 0 0 0 0 1), (.statFree 0 0, rdBytes 0x4A 0 0 1 1 0 0 0)]
def rowQueued (b : List Byte) : State := placeBytes 0 0 b (putReg (aRow 0 0 0x1C) 1 (putReg (aRow 0 0 0x18) 1 (putReg64 (aRow 0 0 0x10) (gaH 0 0) State.reset)))
def rowQueuedOk (c : Instr) (b : List Byte) : Bool :=
  match rowRow c with
  | some (op, _, _) => let s := rowQueued b
    s.live && rowReady s 0 && !rowNextBad s 0 && rdOp (rowNext s 0) = op && s.cleanGa (rowAddr s 0) 64
  | none => false
theorem wit_RowDescriptorsBegin : rowsSound.all (fun x => rowQueuedOk x.1 x.2 && !rowMalformed (rowQueued x.2) 0 (rowNext (rowQueued x.2) 0)) = true ∧
    rowQueuedOk (.act 0 0) (rdBytes 0x40 3 0 0 0 0 0 0) = true ∧ rowMalformed (rowQueued (rdBytes 0x40 3 0 0 0 0 0 0)) 0 (rowNext (rowQueued (rdBytes 0x40 3 0 0 0 0 0 0)) 0) = true := by
  decide +kernel

/-- A row-engine descriptor that waits at its gate, tagged slot 100 of tile 0. -/
def rdGated (op : Nat) : List Byte := setWords (rdBytes op 0x1000 0 0 0 0 0 0) [(5, 100)]
def rowTaken (s : State) : State := takeRow 0 (rowNext s 0) 0 (readGa (agRow 0) (some (rowCtx s 0)) (rowAddr s 0) 64 s).1
theorem wit_RowDescriptorsBegin_2 :
    let s := tagged (rowQueued (rdGated 0x40))
    s.live = true ∧ rowReady s 0 = true ∧ rowNextBad s 0 = false ∧ rdOp (rowNext s 0) = 0x40 ∧ s.cleanGa (rowAddr s 0) 64 = true ∧
      rowMalformed s 0 (rowNext s 0) = false ∧ rdGate (rowNext s 0) ≠ 0 ∧
      (rowBarred (rowTaken s) 0 { desc := rowNext s 0, index := (getRow s 0).executed, qix := rowHead s 0 }).isSome = true := by decide +kernel

def rowRun (op : Nat) : RowRun := { desc := rdBytes op 0 0 0 0 0 0 0, index := 0, qix := 0, gated := true }
def rowIn (x : RowRun) (s : State) : State := setRow 0 { run := some x } s
theorem wit_RowEnginesRun_1 : rowCanClaim (rowIn { rowRun 0x40 with blockedAt := some 0 } (tagged State.reset)) 0 = true ∧
    (getRow (rowIn { rowRun 0x40 with blockedAt := some 0 } (tagged State.reset)) 0).run = some { rowRun 0x40 with blockedAt := some 0 } := by decide +kernel
def gateRun : RowRun := { desc := rdGated 0x40, index := 0, qix := 0, blockedAt := some 0 }
theorem wit_RowEnginesRun_7 : (rowIn gateRun (fullTag 100 (tagged State.reset))).live = true ∧
    rowCanClaim (rowIn gateRun (fullTag 100 (tagged State.reset))) 0 = true ∧
    (getRow (rowIn gateRun (fullTag 100 (tagged State.reset))) 0).run = some gateRun ∧ gateRun.gated = false ∧ rdOp gateRun.desc < 0x42 := by decide +kernel
theorem wit_RowEnginesRun_2 : (getRow (rowIn { rowRun 0x40 with open_ := true } State.reset) 0).run = some { rowRun 0x40 with open_ := true } ∧
    { rowRun 0x40 with open_ := true }.open_ = true ∧ (rowRun 0x40).cause = 0 := by decide +kernel
def keepRun : RowRun := { desc := rdBytes 0x42 0x400 100 1 1 0 0 0, index := 0, qix := 0, gated := true, row := 1 }
theorem wit_RowEnginesRun_3 : (getRow (rowIn keepRun State.reset) 0).run = some keepRun ∧ rowDone keepRun = true ∧ keepRun.cause = 0 ∧
    (rdOp keepRun.desc = 0x42 ∨ rdOp keepRun.desc = 0x44) ∧ rdKeep keepRun.desc = true ∧ rowDone { rowRun 0x40 with cause := 1 } = true := by decide +kernel
theorem wit_RowEnginesRun_4 : (rowQueued (rdBytes 0x4B 0 0 0 0 0 0 0)).live = true ∧ (getRow (rowQueued (rdBytes 0x4B 0 0 0 0 0 0 0)) 0).run = none ∧
    rowReady (rowQueued (rdBytes 0x4B 0 0 0 0 0 0 0)) 0 = true ∧ rowOpDefined (rowNext (rowQueued (rdBytes 0x4B 0 0 0 0 0 0 0)) 0) = false ∧
    (rowQueued (rdBytes 0x4B 0 0 0 0 0 0 0)).cleanGa (rowAddr (rowQueued (rdBytes 0x4B 0 0 0 0 0 0 0)) 0) 64 = true := by decide +kernel
def blockedRow : State := rowIn { rowRun 0x40 with blockedAt := some 0 } (putReg (aTil 0 0 0x100) (3 * 2 ^ 30 + 100 * 2 ^ 16) (putReg (aTil 0 0 8) 1 { clk := { t := 1 } }))
theorem wit_RowEnginesRun_5 : blockedRow.live = true ∧ (getRow blockedRow 0).run = some { rowRun 0x40 with blockedAt := some 0 } ∧ rowStallDue blockedRow 0 = true := by
  decide +kernel
theorem wit_RowEnginesRun_6 : bitsOf 1 0 0 = 1 ∧ (2 ^ 64 - 1 : Nat) < 2 ^ 64 ∧ (getRow State.reset 0).run = none ∧
    (getRow State.reset 0).recs.any (·.spill.isSome) = false ∧ (getRow State.reset 0).recs = [] ∧ (getRow (rowIn (rowRun 0x40) State.reset) 0).run ≠ none := by
  decide +kernel
theorem wit_RowEnginesRun_8 :
    let x : RowRun := { desc := rdBytes 0x40 0x4000 0 0 0 0 0 0, index := 0, qix := 0, gated := true, row := 1 }
    let s := rowIn x (putReg64 (aRow 0 0 0x28) (gaH 0 0x4000) State.reset)
    s.live = true ∧ (getRow s 0).run = some x ∧ rowDone x = true ∧ x.cause = 0 ∧ rdComplete x.desc = true ∧
      placeOf s (reg64 s (aRow 0 0 0x28) / 16 * 16 + 16 * x.qix) = .hbm 0 0x4000 := by decide +kernel
theorem wit_RowEnginesRun_9 : (rowBlocker blockedRow 0 { rowRun 0x40 with blockedAt := some 0 }).isSome = true := by decide +kernel
theorem wit_RowEnginesRun_10 :
    kindB (oneWrite .host (aRow 0 0 4) 1 State.reset) .rowCtrl .host (aRow 0 0 4) 1 0 0 = true ∧
    kindB (oneWrite .host (aRow 0 0 0x38) 2 State.reset) .rowSpillSize .host (aRow 0 0 0x38) 2 0 0 = true ∧ aRow 0 0 4 / 0x4000000 = 0 := by decide +kernel
/-! ## Witnesses: the weight carousel -/

/-- A ring record: the job, the members in order, the flags of word 1. -/
def ringRcd (job : Nat) (ms : List Nat) (w1 : Nat) : List Byte :=
  rcd 272 ([job, ms.length + w1, 0, 0] ++ (List.range 64).map fun i => ms.getD (2 * i) 0 + ms.getD (2 * i + 1) 0 * 2 ^ 16)
/-- Context x has a ring in a state. -/
def ringIn (x st : Nat) (ms : List Nat) (s : State) : State := setRing x { st, rcd := ringRcd 7 ms 0 } s

/-- A carousel queue of context 0 with one descriptor, a bound micro-batch 5, and one weight tensor 9 of 4 stones on every die. -/
def carQueue (b : List Byte) (s : State) : State :=
  placeBytes 0 0 b (putReg (aCar 0 0x12C) 1 (putReg (aCar 0 0x128) 1 (putReg64 (aCar 0 0x120) (gaH 0 0) s)))
def carTables (s : State) : State :=
  placeBytes 0 0x1000 (rcd 32 [9, 4, 0, 1])
    ((List.range 8).foldl (fun s d => putReg (aLoad d 0 0x10) 1 (putReg64 (aLoad d 0 8) (gaH 0 0x1000) s)) s)
def bound5 : BindS := { mb := 5, version := 3, gen := 0 }
def cdBytes (op flags tensor mb version first count : Nat) : List Byte :=
  rcd 32 [op * 2 ^ 24 + flags, tensor, mb * 2 ^ 16 + version, 0, first, count]
def circuitState (op flags mode : Nat) : State :=
  carTables (carQueue (cdBytes op flags 9 5 3 0 4) (setRing 0 { st := 2, rcd := ringRcd 7 [0, 1] (mode * 2 ^ 9), binds := [(5, some bound5)] } State.reset))
/-- A sound descriptor of an opcode stands at the head of the queue of context 0. -/
def carSound (op : Nat) (s : State) : Bool :=
  s.live && (match carNext s 0 with | some b => cdOp b = op | none => false) && s.cleanGa (carAddr s 0) 32 && !cdMalformed s (s.carDesc 0)
def circuitSound (op flags mode : Nat) : Bool :=
  let s := circuitState op flags mode
  match circuitEntries 0 (s.carDesc 0) (s.carTaken 0) with
  | (s2, some ents) => carSound op s && circuitMay s 0 && circuitOk s2 0 (s.carDesc 0) ents && (bindOf s 0 (cdMb (s.carDesc 0))).isSome
  | (_, none) => false
theorem wit_CircuitsBegin : circuitSound 0x30 0 0 = true ∧ circuitSound 0x31 (2 ^ 23) 1 = true := by decide +kernel

def bindState (kind : Nat) (b : List Byte) : State := modLoad 0 (fun l => { l with kind }) (carQueue b (ringIn 0 2 [0, 1] State.reset))
/-- A descriptor of a ring's queue with nothing but its opcode, a micro-batch and a version. -/
def carAct (op mb version kind : Nat) : State := bindState kind (cdBytes op 0 0 mb version 0 0)
theorem wit_BindingsAndVersions_1 : carSound 0x33 (carAct 0x33 5 0 2) = true ∧ bindFree (carAct 0x33 5 0 2) 0 (cdMb ((carAct 0x33 5 0 2).carDesc 0)) = true ∧
    (getLoad (carAct 0x33 5 0 2) 0).kind ≠ 0 ∧ versionOk (carAct 0x33 5 0 2) 0 0 = true ∧ genResident (carAct 0x33 5 0 2) 0 0 = true ∧
    carSound 0x33 (carAct 0x33 5 0 0) = true ∧ (getLoad (carAct 0x33 5 0 0) 0).kind = 0 := by decide +kernel
/-- Both stash slots hold versions, and micro-batch 5 of the older one is not complete. -/
def stashed (s : State) : State :=
  modRing 0 (fun r => { r with binds := [(5, some { mb := 5, version := 0, gen := 0 })] })
    (modLoad 0 (fun l => { l with vhi := 1 }) (setSlotVal 0 1 1 (setSlotValid 0 1 true (setSlotValid 0 0 true s))))
theorem wit_BindingsAndVersions_2 :
    [carAct 0x34 0 1 1, carAct 0x34 0 1 0, stashed (carAct 0x34 0 2 1)].all (fun s => carSound 0x34 s && (ringOf s 0).acts.isEmpty && (ringOf s 0).live.isEmpty) = true ∧
    cdVersion ((carAct 0x34 0 1 1).carDesc 0) = ((getLoad (carAct 0x34 0 1 1) 0).vhi + 1) % 2 ^ 16 ∧ (ringOf (carAct 0x34 0 1 1) 0).opened = none ∧
    stashTwo (carAct 0x34 0 1 1) 0 = false ∧ (getLoad (carAct 0x34 0 1 0) 0).kind ≠ 1 ∧
    cdVersion ((stashed (carAct 0x34 0 2 1)).carDesc 0) = 2 ∧ stashTwo (stashed (carAct 0x34 0 2 1)) 0 = true ∧
    (waitingMbs (stashed (carAct 0x34 0 2 1)) 0).isEmpty = false ∧
    carSound 0x35 (carAct 0x35 0 1 1) = true ∧ (ringOf (carAct 0x35 0 1 1) 0).acts = [] ∧ (ringOf (carAct 0x35 0 1 1) 0).opened = none := by
  decide +kernel
def granted1 : OpenS := { version := 1, index := 0, desc := cdBytes 0x34 0 0 0 1 0 0, granted := true }
def commitState : State := modRing 0 (fun r => { r with opened := some granted1 }) (carAct 0x35 0 1 1)
def committing : State :=
  let s := commitState
  let o : OpenS := { version := 1, index := carHead (s.carTaken 0) 0, desc := s.carDesc 0, after := (ringOf s 0).circuits }
  modRing 0 (fun r => { r with acts := [] }) (carAdvance 0 (modRing 0 (fun r => { r with acts := [o] }) (s.carTaken 0)))
theorem wit_BindingsAndVersions_5 : carSound 0x35 commitState = true ∧ (ringOf commitState 0).acts = [] ∧ (ringOf commitState 0).live = [] ∧
    (ringOf commitState 0).opened = some granted1 ∧ granted1.granted = true ∧ granted1.version = cdVersion (commitState.carDesc 0) ∧
    (commitLanes 0 (openSlot committing 0) committing).2 = true := by decide +kernel
def waits1 : OpenS := { granted1 with granted := false }
def openWaits : State := setRing 0 { st := 3, rcd := ringRcd 7 [0, 1] 0, opened := some waits1 } State.reset
theorem wit_BindingsAndVersions_3 : openWaits.live = true ∧ (ringOf openWaits 0).opened = some waits1 ∧ waits1.granted = false ∧
    waitingMbs openWaits 0 = [] ∧ (ringOf openWaits 0).acts = [] := by decide +kernel
theorem wit_BindingsAndVersions_4 : carSound 0x36 (carAct 0x36 0 0 0) = true ∧ 0x36 ∉ [0x30, 0x31, 0x33, 0x34, 0x35] ∧
    cdOp ((carAct 0x36 0 0 0).carDesc 0) = 0x36 ∧ cdGate ((carAct 0x36 0 0 0).carDesc 0) = false ∧ carSound 0x32 (carAct 0x32 0 0 0) = true ∧
    0x32 ∉ [0x30, 0x31, 0x33, 0x34, 0x35] := by decide +kernel

/-- A weight stone frame without payload at rest on die 0, the table entry of its tensor, and a circuit over it. -/
def frame9 : List Byte := rcd 40 [0, 0, 3, 9] ++ (sha256 []).take 8 ++ rcd 16 []
def entry9 : List Byte := rcd 32 [9, 4, 0, 1, 0x4000, gaH 0 0 / 2 ^ 32]
def emitCircuit : Circuit := { no := 0, index := 0, desc := cdBytes 0x30 0 9 5 3 0 4, version := 3, gen := 0, ents := [(0, entry9)], stop := [(0, 4)] }
def gradCircuit : Circuit := { emitCircuit with grads := [(0, frame9, 0)] }
def emitState (c : Circuit) : State := setSlotVal 0 0 3 (setSlotValid 0 0 true (modLoad 0 (fun l => { l with kind := 1 })
  (placeBytes 0 0x4000 frame9 (setRing 0 { st := 3, rcd := ringRcd 7 [0, 1] 0, live := [c] } State.reset))))
theorem wit_StonesMoveAndArePlaced_1 :
    (emitState gradCircuit).live = true ∧ emitDue (emitState gradCircuit) 0 0 = some gradCircuit ∧
    gradCircuit.grads.find? (·.1 = 0) = some (0, frame9, 0) ∧ ringN (emitState gradCircuit) 0 ≠ 1 ∧
    (emitState emitCircuit).live = true ∧ emitDue (emitState emitCircuit) 0 0 = some emitCircuit ∧ emitCircuit.grads.find? (·.1 = 0) = none ∧
    slotFor (emitState emitCircuit) 0 emitCircuit.version emitCircuit.gen = some 0 ∧ mapLookup emitCircuit.ents 0 = some entry9 ∧
    (let s := emitState emitCircuit
     let ga := teBase entry9 0 + frameSize * mapGet 0 emitCircuit.next 0
     let fh := s.bytesAt (agCar 0) ga 64
     let n := payloadBytes (shFmt fh) (shBlocks fh)
     s.cleanGa ga 64 = true ∧ s.cleanGa (ga + 256) n = true ∧ (sha256 (s.bytesAt (agCar 0) (ga + 256) n)).take 8 = shFrag fh) := by decide +kernel

/-- The header of a stone of package origin, at home position origin of the ring of job 7; tensor 9, version 3, micro-batch 5. -/
def stoneHead (w origin : Nat) : List Byte := rcd 64 [w, 0, 3, 9, origin * 2 ^ 16 + 5, origin, 0, 0, 7]
/-- The placement map of tensor 9 on die 0: four blocks, the first with record words w0 and w1. -/
def mapped (w0 w1 : Nat) (s : State) : State :=
  placeBytes 0 0x3000 (rcd 32 [w0, w1]) (placeBytes 0 (0x2000 + 144) (rcd 16 [0x3000, gaH 0 0 / 2 ^ 32, 4]) (putReg64 (aCar 0 0x138) (gaH 0 0x2000) s))
def stoneMsg (h : List Byte) : InMsg := { msg := { cls := 0, ty := 0, spkg := 1, bytes := h }, port := 0, pool := 0, quarters := 1 }
def carIn (r : RingC) : State := putReg (aFab 0 0) (2 ^ 31) (modLoad 0 (fun l => { l with kind := 1 }) (setRing 0 r State.reset))
def arriving (h : List Byte) (live : List Circuit) : State :=
  deliver 0 (stoneMsg h) (mapped (2 ^ 31) 0 (carIn { st := 3, rcd := ringRcd 7 [0, 1] 0, binds := [(5, some bound5)], live }))
/-- A NOPAY GRAD stone of package 1, and a NOPAY weight stone of this one. -/
def gradHead : List Byte := stoneHead (3 * 2 ^ 28 + 2 ^ 27 + 10 * 2 ^ 18 + 1024) 1
def ownHead : List Byte := stoneHead (2 ^ 28 + 2 ^ 27 + 1024) 0
theorem wit_StonesMoveAndArePlaced_2 :
    let s := arriving gradHead []
    let s1 := bump64 (aCar 0 0x10) (takeMsg 0 (stoneMsg gradHead) s)
    s.live = true ∧ nextStone s 0 = some (stoneMsg gradHead) ∧ ringOfJob s1 (shJob gradHead) [1, 2, 3, 4, 5] = some 0 ∧ (ringOf s1 0).st ≠ 5 ∧
      shOrigin gradHead ≠ pkgId s1 ∧ headerBad s1 0 0 gradHead [] = none ∧ s1.cleanGa (pmapAt s1 0 0 (shTensor gradHead)) 16 = true ∧
      shBlock0 gradHead + shBlocks gradHead ≤ wordAt (s1.bytesAt (agCar 0) (pmapAt s1 0 0 (shTensor gradHead)) 16) 8 ∧
      bindBad s1 0 gradHead = none ∧ shKind gradHead = 3 := by decide +kernel
def outCircuit : Circuit := { emitCircuit with out := [(0, ownHead)] }
theorem wit_StonesMoveAndArePlaced_5 :
    let s := arriving ownHead [outCircuit]
    let s1 := bump64 (aCar 0 0x10) (takeMsg 0 (stoneMsg ownHead) s)
    s.live = true ∧ nextStone s 0 = some (stoneMsg ownHead) ∧ ringOfJob s1 (shJob ownHead) [1, 2, 3, 4, 5] = some 0 ∧ (ringOf s1 0).st ≠ 5 ∧
      shOrigin ownHead = pkgId s1 ∧ shKind ownHead ≠ 3 ∧ (ringOf s1 0).live.find? (fun c => c.no = shCircuit ownHead) = some outCircuit ∧
      outCircuit.out.find? (fun o => o.1 = 0 && sameHeader o.2 ownHead) = some (0, ownHead) := by decide +kernel

/-- A stone of package 1 on die 0: its kind, its state, whether it is home, and the record of its one block. -/
def stoneIn (kind st : Nat) (home : Bool) (w0 w1 : Nat) : State :=
  setStones 0 [{ ctx := 0, header := stoneHead (kind * 2 ^ 28 + 2 ^ 27 + 1024) 1, payload := [], st, home }]
    (mapped w0 w1 (tagged (carTables (setRing 0 { st := 3, rcd := ringRcd 7 [0, 1] 0, binds := [(5, some bound5)] } { clk := { t := 2 ^ 32 } }))))
def recsOf (s : State) : List Byte := match stoneAt s 0 0 with | some x => s.stoneRecords 0 x | none => []
def boundOk (s : State) : Bool := match stoneAt s 0 0 with | some x => bindBad s 0 x.header == none | none => false
/-- A stone is here and nothing that its records lie in is in error. -/
def stoneSound (s : State) : Bool := s.live && (match stoneAt s 0 0 with | some x => s.recordsClean 0 x | none => false)
/-- What a stone has added where nothing is missing, or all that can be. -/
def addedIn (s : State) : State × Stone :=
  match stoneAt s 0 0 with
  | some x => addContribs 0 (recsOf s) (shBlocks x.header + 1) x (s.recordsTaken 0 x)
  | none => (s, { ctx := 0, header := [], payload := [] })
theorem wit_StonesMoveAndArePlaced_3 :
    (let s := stoneIn 1 0 false (2 ^ 31) 0
     stoneSound s = true ∧ canPlace s 0 0 = true ∧ boundOk s = true ∧
       ((stoneAt s 0 0).map fun x => placementOk s x (recsOf s) (placement 0 x (recsOf s))) = some true) ∧
    (let s := stoneIn 3 0 false 0 0
     stoneSound s = true ∧ canAdd s 0 0 = true ∧ boundOk s = true ∧ contribOk s 0 1 (recsOf s) = true) ∧
    canForward (stoneIn 1 1 false 0 0) 0 0 = true := by decide +kernel
/-- A stone whose micro-batch is not bound has waited since tick 0. -/
def unboundStone : State :=
  setStones 0 [{ ctx := 0, header := stoneHead (2 ^ 28 + 2 ^ 27 + 1024) 1, payload := [], wait := some (2, 0) }]
    (setRing 0 { st := 3, rcd := ringRcd 7 [0, 1] 0 } { clk := { t := 2 ^ 32 } })
theorem wit_StonesMoveAndArePlaced_8 : unboundStone.live = true ∧ (stoneAt unboundStone 0 0).isSome = true ∧ stallDue unboundStone 0 0 = true := by decide +kernel
theorem wit_StonesMoveAndArePlaced_6 :
    let s := stoneIn 3 0 true (2 ^ 30) (100 * 2 ^ 16)
    stoneSound s = true ∧ canApply s 0 0 = true ∧ contribOk s 0 1 (recsOf s) = true ∧ (addedIn s).2.done < 1 := by decide +kernel
/-- The same with no contribution, and an allotment for its gradient. -/
def homeState : State :=
  let s := stoneIn 3 0 true 0 0
  { s with hbm := { s.hbm with allots := [(1, { ctx := 0, cat := 2, runs := List.replicate 8 (reserveTop, 2 ^ 16) })] } }
theorem wit_StonesMoveAndArePlaced_7 : stoneSound homeState = true ∧ canApply homeState 0 0 = true ∧ contribOk homeState 0 1 (recsOf homeState) = true ∧
    1 ≤ (addedIn homeState).2.done ∧
    (match readTable (agCar 0) 0 0 (addedIn homeState).1 with
     | (w, some t) => (ringOf w 0).live.isEmpty && gradAddr t w 0 0 9 0 = some (0, reserveTop)
     | (_, none) => false) = true := by decide +kernel
theorem wit_StonesMoveAndArePlaced_4 : (fillSlots [⟨0, 100, []⟩, ⟨0, 100, []⟩] State.reset).2 = 1 := by decide +kernel

def formIn (st : Nat) (s : State) : State := ringIn 0 st [1, 0] s
/-- A token of the forming ring, of a job, waits at die 0. -/
def tokenOf (job cop a0 : Nat) : State :=
  told 0 cop job (a0 :: ringDigestWords (formIn 1 State.reset) 0) (formIn 1 State.reset)
def tokenIn (cop a0 : Nat) : State := tokenOf 7 cop a0
/-- A sound token waits, and one of FORM may be taken by ring 0. -/
def tokenSound (s : State) (cop : Nat) (f : InMsg → Bool) : Bool :=
  s.live && (match (ctlMsgs s 0 cop).find? (fun i => cop ≠ 0x10 || formMay s i.msg) with
    | some i => ctlValid i.msg && f i
    | none => false)
/-- A token agrees with the record of ring 0. -/
def tokenAgrees (s : State) (i : InMsg) : Bool :=
  ctlJob i.msg = rcdJob (ringOf s 0).rcd && bitsOf (ctlArg i.msg 0) 7 0 = rcdN (ringOf s 0).rcd && [ctlArg i.msg 1, ctlArg i.msg 2] = ringDigestWords s 0
theorem wit_RingsFormOrAbort_1 : tokenSound (tokenIn 0x11 0) 0x11 (fun i => ringOfJob (takeMsg 0 i (tokenIn 0x11 0)) (ctlJob i.msg) [1] == some 0 &&
    [ctlArg i.msg 1, ctlArg i.msg 2] = ringDigestWords (tokenIn 0x11 0) 0) = true := by decide +kernel
theorem wit_RingsFormOrAbort_2 : tokenSound (tokenIn 0x12 1) 0x12 (fun i => abortedFor (takeMsg 0 i (tokenIn 0x12 1)) (ctlJob i.msg) == some 0) = true := by
  decide +kernel
theorem wit_RingsFormOrAbort_3 : (formIn 1 { clk := { t := 100000000 } }).live = true ∧ (ringOf (formIn 1 { clk := { t := 100000000 } }) 0).st = 1 ∧
    (ringOf (formIn 1 { clk := { t := 100000000 } }) 0).formAt + formTicks (ringOf (formIn 1 { clk := { t := 100000000 } }) 0).rcd ≤
      (formIn 1 { clk := { t := 100000000 } }).now := by decide +kernel
theorem wit_RingsFormOrAbort_4 :
    tokenSound (tokenIn 0x10 (2 + 2 ^ 8)) 0x10 (fun i => formingFor (tokenIn 0x10 (2 + 2 ^ 8)) i.msg == some 0 && tokenAgrees (tokenIn 0x10 (2 + 2 ^ 8)) i) = true ∧
    tokenSound (tokenOf 8 0x10 (2 + 2 ^ 8)) 0x10 (fun i => formingFor (tokenOf 8 0x10 (2 + 2 ^ 8)) i.msg == some 0 && !tokenAgrees (tokenOf 8 0x10 (2 + 2 ^ 8)) i) = true := by
  decide +kernel

/-! ## Witnesses: HBM -/

/-- Every slot of the frame is of a class; no merge read is to come. -/
def slotsAre (w : Nat) (s : State) : State := (List.range 8).foldl (fun s i => putReg (aHbm 0 0 (0x100000 + 4 * i)) w s) s
/-- A whole unit, or a part of one, of the host waits at controller 0 of die 0; every slot is a WRITE slot. -/
def writeWaits (off n : Nat) (s : State) : State :=
  let u := hbmWrite .host 0 off (List.replicate n 7) (slotsAre 0x55555555 s)
  { u with hbm := { u.hbm with rq := [] } }
/-- The length of the unit that its slot's turn has come to; 0 for a read unit. -/
def acceptLen (s : State) : Option Nat :=
  match nextAccept s 0 0 with
  | some (_, _, _, y) => if y.read then some 0 else
      (s.hbm.wq.find? fun w => w.agent = y.agent && w.wid = y.id && w.die = y.die && w.unit = y.unit).map (·.bytes.length)
  | none => none
def badUnit (s : State) : State := upsetUnit 0 0 [(0, 1), (1, 1), (2, 5)] s
def readDue : State := { (slotsAre 0 { clk := { t := 200 } }) with hbm := { rq := [{ agent := .host, rid := 0, die := 0, unit := 0 }] } }
theorem wit_WritesAreSeenInOrder : acceptLen (writeWaits 0 64 { clk := { t := 200 } }) = some 64 ∧ acceptLen (writeWaits 63 1 { clk := { t := 200 } }) = some 1 ∧
    unitErrs (writeWaits 63 1 { clk := { t := 200 } }) 0 0 = [] ∧ acceptLen (badUnit (writeWaits 0 63 { clk := { t := 200 } })) = some 63 ∧
    unitBad (badUnit (writeWaits 0 63 { clk := { t := 200 } })) 0 0 = true ∧ acceptLen readDue = some 0 ∧ (Agent.remote ≠ Agent.host) := by decide +kernel
theorem wit_HbmReadsCorrectAndMaintenance_1 : ((63 : Nat) < 64 ∨ (68 ≤ (63 : Nat) ∧ (63 : Nat) < 71)) ∧ ((70 : Nat) < 64 ∨ (68 ≤ (70 : Nat) ∧ (70 : Nat) < 71)) ∧ (0xFF#8 ≠ 0#8) ∧
    (64 ≤ (67 : Nat) ∧ (67 : Nat) < 68) := by decide +kernel
/-- A demand read is made, and finds what it finds. -/
def readMade (s : State) (d unit : Nat) : Bool := s.live && unit < hbmUnits && !readNext s .host d unit && !readWaits s .host d unit && !cacheHit s .host d unit
def ceState : State := upsetUnit 0 0 [(3, 9)] (putReg (aHbm 0 (ctrlOf 0) 0xC) 0 State.reset)
def ueState : State :=
  let s := badUnit (putReg (aHbm 0 (ctrlOf 0) 0x10) (2 ^ 31) State.reset)
  { s with hbm := { s.hbm with ueRaised := [(unitKey 0 0, ownerCtx s 0 0 none)] } }
def waitState : State := { hbm := { rq := [{ agent := .host, rid := 0, die := 0, unit := 0 }] } }
def lineState : State := { icu := { l2 := [(unitKey 0 1, { bytes := List.replicate 64 7 })] } }
theorem wit_HbmReadsCorrectAndMaintenance_2 : readMade State.reset 7 (hbmUnits - 1) = true ∧ unitErrs State.reset 7 (hbmUnits - 1) = [] ∧
    readMade ceState 0 0 = true ∧ decodeErrs (unitErrs ceState 0 0) = .delivered [] true ∧ reg ceState (aHbm 0 (ctrlOf 0) 0xC) = 0 ∧
    readMade ueState 0 0 = true ∧ unitBad ueState 0 0 = true ∧ ueState.hbm.ueRaised.contains (unitKey 0 0, ownerCtx ueState 0 (64 * 0) none) = true ∧
    regF ueState (aHbm 0 (ctrlOf 0) 0x10) 31 31 = 1 ∧
    ownWhole .host ueState 0 0 = false ∧ ownerCtx ueState 0 (64 * 0) none < 256 ∧ (ueContexts ueState (ownerCtx ueState 0 (64 * 0) none)).all
      (fun x => ueState.hbm.ueRaised.contains (unitKey 0 0, x)) = true ∧
    readWaits waitState .host 0 0 = true ∧ readNext waitState .host 0 0 = false ∧ cacheHit lineState (.core 5) 0 1 = true ∧ readNext lineState (.core 5) 0 1 = false := by
  decide +kernel
theorem wit_HbmReadsCorrectAndMaintenance_3 : awakeHbm State.reset = true ∧ regF State.reset (aHbm 7 1 0) 1 1 ≠ bit true 0 := by decide +kernel
/-- An uncorrectable unit of an allotment of context 3, which nobody has met yet. -/
def firstUnit : Nat := reserveTop / 64
def ueFirst : State := upsetUnit 0 firstUnit [(0, 1), (1, 1), (2, 5)] { hbm := { allots := [(1, { ctx := 3, cat := 0, runs := [(reserveTop, reserveTop + 65536)] })] } }
theorem wit_HbmReadsCorrectAndMaintenance_5 : readMade ueFirst 0 firstUnit = true ∧ unitBad ueFirst 0 firstUnit = true ∧ ownWhole .host ueFirst 0 firstUnit = false ∧
    ownerCtx ueFirst 0 (64 * firstUnit) none = 3 ∧ ueFirst.hbm.ueRaised.contains (unitKey 0 firstUnit, 3) = false ∧
    regF ueFirst (aHbm 0 (ctrlOf (64 * firstUnit)) 0x10) 31 31 = 0 := by decide +kernel
def ueStream : State := badUnit (strmIn 0 [movingDesc] (tagged State.reset))
theorem wit_HbmReadsCorrectAndMaintenance_6 : ueStream.live = true ∧ ueStream.pwr.state = 0 ∧ readNext ueStream (.stream 0 0 0) 0 0 = false ∧
    readWaits ueStream (.stream 0 0 0) 0 0 = false ∧ cacheHit ueStream (.stream 0 0 0) 0 0 = false ∧ unitBad ueStream 0 0 = true ∧
    ownWhole (.stream 0 0 0) ueStream 0 0 = false ∧ readerAt ueStream (engine 0 0) 0 0 0 = some movingDesc := by decide +kernel
def ownUnit : State := badUnit (writeWaits 0 64 State.reset)
theorem wit_HbmReadsCorrectAndMaintenance_7 : readMade ownUnit 0 0 = true ∧ unitBad ownUnit 0 0 = true ∧ ownWhole .host ownUnit 0 0 = true := by decide +kernel
def checkingState : State := { checks := [(0, some { begun := 0 })], clk := { t := 3276 } }
theorem wit_HbmReadsCorrectAndMaintenance_8 : checkingState.live = true ∧ awakeHbm checkingState = true ∧ windowDue checkingState 0 0 0 = some 4096 ∧
    checkOf checkingState 0 = some { begun := 0 } ∧ mapGet [] checkingState.hbm.cq (slotKey 0 0) = [] ∧ scrubMarked checkingState (4096 / 4096) = false ∧
    (∀ y ∈ passUnits checkingState 0 { begun := 0 }, unitErrs checkingState 0 y.2 = []) ∧ checkOf State.reset 0 = none := by decide +kernel
theorem wit_HbmReadsCorrectAndMaintenance_4 : windowDue State.reset 0 0 0 = some 0 ∧ (windowDue { clk := { t := 4032 * 4 / 5 } } 0 0 63).isSome = true := by decide +kernel
theorem wit_CachesHoldLinesUntilCleaned : corePlace lineState (0x40 * 2 ^ 37 + 127) = .hbm 0 127 ∧ lineOf lineState 0 (127 / 64) = some { bytes := List.replicate 64 7 } ∧
    127 % 64 + [(1 : Byte)].length ≤ 64 ∧ (List.replicate 64 (7 : Byte)).length = 64 ∧ lineOf State.reset 0 (127 / 64) = none ∧ unitErrs State.reset 0 (127 / 64) = [] ∧
    corePlace State.reset (0x40 * 2 ^ 37 + 127) = .hbm 0 127 := by decide +kernel
theorem wit_CachesHoldLinesUntilCleaned_2 : (getCore (coreOf { mode := .user }) 5).mode = .user ∧ corePlace (coreOf { mode := .user }) 0x100 = .scr 0 0 0x100 ∧
    corePlace State.reset (0x28 * 2 ^ 37 + 4) = .setup ∧ corePlace State.reset (0x29 * 2 ^ 37) = .rom 0 ∧
    coreBarrier 0 (cleanLine 0 0 0 (coreStore 0 (0x40 * 2 ^ 37 + 8) [5] State.reset).1) = false := by decide +kernel
/-! ## Witnesses: the fabric -/

/-- The bytes of an idle frame whose CRC word is all ones: its first four bytes take the CRC register to 0. -/
def frameBody : List Byte := [0xFF, 0xFF, 0xFF, 0xFF] ++ List.replicate 1064 0
def frameOf (crc : Nat) : List Byte := frameBody ++ natLE 4 crc

theorem crc_of_zeros (n : Nat) : (List.replicate n (0 : Byte)).foldl (fun c b => crcByte c b.toNat) 0 = 0 := by
  induction n with
  | zero => rfl
  | succ n ih =>
    have h : crcByte 0 (0 : Byte).toNat = 0 := by decide +kernel
    rw [List.replicate_succ, List.foldl_cons, h, ih]

theorem crc_of_ones (n : Nat) : crc32 ([0xFF, 0xFF, 0xFF, 0xFF] ++ List.replicate n 0) = 0xFFFFFFFF := by
  have h : ([0xFF, 0xFF, 0xFF, 0xFF] : List Byte).foldl (fun c b => crcByte c b.toNat) 0xFFFFFFFF = 0 := by decide +kernel
  unfold crc32
  rw [List.foldl_append, h, crc_of_zeros, Nat.zero_xor]
theorem crc_of_frame : crc32 frameBody = 0xFFFFFFFF := crc_of_ones 1064

theorem length_of_body (n : Nat) : (([0xFF, 0xFF, 0xFF, 0xFF] : List Byte) ++ List.replicate n 0).length = 4 + n := by
  rw [List.length_append, List.length_replicate]; rfl
theorem body_of_frame (c : Nat) : (frameOf c).take 0x42C = frameBody := List.take_left' (length_of_body 1064)
theorem word_of_frame (c : Nat) (h : leNat ((natLE 4 c).take 4) = c) : wordAt (frameOf c) 0x42C = c := by
  have : (frameOf c).drop 0x42C = natLE 4 c := List.drop_left' (length_of_body 1064)
  unfold wordAt; rw [this, h]
theorem length_of_frame (c : Nat) : (frameOf c).length = 1072 := by
  have h : (frameOf c).length = frameBody.length + (natLE 4 c).length := List.length_append
  have h4 : (natLE 4 c).length = 4 := by simp [natLE]
  have hb : frameBody.length = 4 + 1064 := length_of_body 1064
  rw [h, hb, h4]

theorem wit_FramesAreTakenOrRefused_1 : (portIn 0 3 State.reset).live = true ∧ (frameOf 0).length = 1072 ∧
    (getPort (portIn 0 3 State.reset) (portNo 0 0 0)).st = 3 ∧ (∀ n, some 3 = some n → wordAt (frameOf 0) 0x42C ≠ crc32 ((frameOf 0).take 0x42C)) ∧
    (∀ n, (none : Option Nat) = some n → wordAt (frameOf 0xFFFFFFFF) 0x42C ≠ crc32 ((frameOf 0xFFFFFFFF).take 0x42C)) := by
  rw [body_of_frame, body_of_frame, crc_of_frame, word_of_frame 0 (by decide +kernel), word_of_frame _ (by decide +kernel), length_of_frame]
  exact ⟨by decide +kernel, rfl, by decide +kernel, fun _ _ => by decide +kernel, fun _ h => by cases h⟩
/-- A frame of words of the trailer, closed by its CRC. -/
def closed (ws : List Nat) : List Byte := (List.replicate 1024 0 ++ wordsLE ws) ++ natLE 4 (crc32 (List.replicate 1024 0 ++ wordsLE ws))
theorem sound_closed (s : State) (p : Nat) (ws : List Nat) (hw : (List.replicate 1024 (0 : Byte) ++ wordsLE ws).length = 0x42C) (hl : s.live = true)
    (hp : (getPort s p).st = 3) (hf : s.fab.lost = []) : s.soundFrame p (closed ws) :=
  ⟨hl, (crc_of_closed _ hw).1, hp, (crc_of_closed _ hw).2, hf⟩
/-- An idle frame that acknowledges frame 5, one that is a NAK, and a port that keeps frame 5. -/
def ackFrame : List Nat := [5 * 2 ^ 16, 2 ^ 31, 0, 0, 0, 0, 0, 0, 0, 0, 77]
def nakFrame : List Nat := [0, 2 ^ 30, 0, 0, 0, 0, 0, 0, 0, 0, 77]
def keeping (naks : Nat) : State := modPort 0 (fun x => { x with replay := [(5, [])], naks, nakSeq := 5 }) (portIn 0 3 State.reset)
theorem wit_FramesAreTakenOrRefused_2 : (keeping 0).soundFrame 0 (closed ackFrame) ∧ (keeping 0).soundFrame 0 (closed nakFrame) :=
  ⟨sound_closed _ _ _ (by decide +kernel) (by decide +kernel) (by decide +kernel) (by decide +kernel),
    sound_closed _ _ _ (by decide +kernel) (by decide +kernel) (by decide +kernel) (by decide +kernel)⟩
theorem wit_FramesAreTakenOrRefused_3 : frIdle (closed ackFrame) = true ∧ frAck (closed ackFrame) = some 5 ∧ (getPort (keeping 0) 0).queue = [] ∧
    (getPort (keeping 0) 0).naks < 15 ∧ (getPort (keeping 0) 0).replay.any (·.1 = 5) = true ∧
    frIdle (closed nakFrame) = true ∧ frNak (closed nakFrame) = true ∧ frAck (closed nakFrame) = none := by decide +kernel
theorem wit_FramesAreTakenOrRefused_4 : (keeping 15).soundFrame 0 (closed nakFrame) ∧ (getPort (keeping 15) 0).replay = (5, []) :: [] ∧
    (getPort (keeping 15) 0).naks = 15 ∧ (getPort (keeping 15) 0).nakSeq = 5 :=
  ⟨sound_closed _ _ _ (by decide +kernel) (by decide +kernel) (by decide +kernel) (by decide +kernel), by decide +kernel, by decide +kernel, by decide +kernel⟩
/-- A frame with one quarter, a whole message of type 5 from package 1. -/
def oneQuarter (fseq : Nat) : List Nat := [fseq, 2 ^ 20 + 28, 5 * 16, 2 ^ 16, 0, 0, 0, 0, 0, 0, 0]
theorem wit_FramesAreTakenOrRefused_5 : (net State.reset).soundFrame 0 (closed (oneQuarter 0)) ∧ (net State.reset).soundFrame 0 (closed (oneQuarter 1)) ∧
    (net State.reset).soundFrame 0 (closed (oneQuarter 65535)) :=
  ⟨sound_closed _ _ _ (by decide +kernel) (by decide +kernel) (by decide +kernel) (by decide +kernel),
    sound_closed _ _ _ (by decide +kernel) (by decide +kernel) (by decide +kernel) (by decide +kernel),
    sound_closed _ _ _ (by decide +kernel) (by decide +kernel) (by decide +kernel) (by decide +kernel)⟩
theorem wit_FramesAreTakenOrRefused_6 :
    let b := closed (oneQuarter 0)
    let m := (headMsg b 0 0).msg
    let s := net State.reset
    frNak b = false ∧ (getPort s 0).naks < 16 ∧ frFseq b = s.wantedFrame 0 ∧ bitsOf (frQuarter b 0) 4 2 = 7 ∧
      (∀ q ∈ [1, 2, 3], bitsOf (frQuarter b q) 4 4 = 0) ∧ regF s (aFab 0 0) 31 31 = 1 ∧ m.dpkg = pkgId s ∧ m.ty ≠ 0 ∧ m.ty ≠ 7 ∧
      hasTaker m = true ∧ (getRx s (rxKey m.spkg m.sdie m.ddie m.cls)).expect = m.msn ∧ (getRx s (rxKey m.spkg m.sdie m.ddie m.cls)).held = [] := by
  decide +kernel
/-- One frame behind the wanted one, and one ahead. -/
def behindOf (f : Nat) : Nat := ((net State.reset).wantedFrame 0 + 65536 - frFseq (closed (oneQuarter f))) % 65536
theorem wit_FramesAreTakenOrRefused_7 : frIdle (closed (oneQuarter 65535)) = false ∧ frNak (closed (oneQuarter 65535)) = false ∧
    behindOf 65535 ≠ 0 ∧ behindOf 65535 < 32768 ∧ frIdle (closed (oneQuarter 1)) = false ∧ frNak (closed (oneQuarter 1)) = false ∧ 32768 ≤ behindOf 1 := by
  decide +kernel

/-- The package is READY, port 0 of die 0 is in a state and has failed, and a write of its FAB_PORT_CTRL is due. -/
def portWrite (st v : Nat) : State :=
  oneWrite .host (aPortCtrl 0 0) (BitVec.ofNat 32 v) (modPort 0 (fun x => { x with failed := true }) (portIn 0 st (putReg (aIdv 0 8) (7 * 2 ^ 28) State.reset)))
theorem wit_BridgesAndLinksFail_5 : [(0, 1), (3, 0), (5, 5), (3, 9)].all (fun (st, v) =>
      kindB (portWrite st v) .fabPortCtrl .host (aPortCtrl 0 0) (BitVec.ofNat 32 v) 0 0 && bootStage (portWrite st v) = 7 &&
        hwSetNow (portWrite st v) (aPortCtrl 0 0) = 0 && (getPort (portWrite st v) (portNo 0 0 0)).st = st) = true ∧
    aPortCtrl 0 0 / 0x4000000 = 0 ∧ (0 : Half).val ∈ halves (portWrite 0 1) := by decide +kernel
theorem wit_BridgesAndLinksFail_6 :
    [State.reset, ringIn 0 2 [0, 1] State.reset].all (fun s =>
      kindB (oneWrite .host (aFab 0 0) 0x80000005 s) .fabId .host (aFab 0 0) 0x80000005 0 0 &&
        kindB (oneWrite .host (aFab 0 0x2804) 0x80000003 s) .fabRoute .host (aFab 0 0x2804) 0x80000003 1 0) = true ∧
    allIdle (oneWrite .host (aFab 0 0) 0x80000005 State.reset) = true ∧
    allIdle (oneWrite .host (aFab 0 0) 0x80000005 (ringIn 0 2 [0, 1] State.reset)) = false := by decide +kernel

/-- Two messages of a stream of class 1 to package 1 are not DELIVERED. -/
def undelivered (n t : Nat) : TxMsg := { msg := { cls := 1, ty := 5, bytes := [], msn := n }, own := .none, port := 0, sentAt := t }
def deliveredState : State := told 0 2 0 [1 * 2 ^ 8, 0] (setTx (txKey 0 1 0 1) { undel := [undelivered 0 0, undelivered 1 0] } State.reset)
theorem wit_DeliveryIsConfirmed : deliveredState.live = true ∧
    (match ctlMsgs deliveredState 0 2 with
     | [i] => let a := ctlArg i.msg 0
       ctlValid i.msg && bitsOf a 16 16 = 0 && bitsOf a 9 8 = 1 && txKey (bitsOf a 2 0) i.msg.spkg (bitsOf a 6 4) 1 = txKey 0 1 0 1 &&
         (bitsOf (ctlArg i.msg 1) 7 0 + 257 - 0) % 256 ≤ 2
     | _ => false) = true ∧
    (getTx deliveredState (txKey 0 1 0 1)).undel = [undelivered 0 0, undelivered 1 0] ∧
    (getTx deliveredState (txKey 0 1 0 1)).undel.any (·.again) = false ∧ (getTx deliveredState (txKey 0 1 0 1)).wait = [] ∧
    rxDue (setRx (rxKey 1 0 0 1) { count := 1 } { clk := { t := 1000 } }) 0 ≠ [] ∧
    e2eDue (setTx (txKey 0 1 0 1) { undel := [undelivered 0 0] } { clk := { t := 2 ^ 32 } }) 0 = some 0 := by decide +kernel

/-- Streams of class 2 and 1 of package 1 that owe a DELIVERED. -/
def owing (c : Nat) : State := setRx (rxKey 1 0 0 c) { count := 1, expect := 9 } (net { clk := { t := 1000 } })
theorem wit_DeliveryIsConfirmed_2 : [1, 2].all (fun c => (owing c).live && rxDue (owing c) 0 = [rxKey 1 0 0 c] &&
      (let k := rxKey 1 0 0 c
       let a0 := k / 32 % 8 + 0 * 2 ^ 4 + k % 4 * 2 ^ 8 + bit (k % 4 = 1 && mcWaits (owing c) 0 (k / 256)) 17
       (owing c).canSend (ctlMsg 0 (k / 256) (k / 32 % 8) 2 0 [a0, ((getRx (owing c) k).expect + 255) % 256]))) = true := by decide +kernel

/-- Window 17 of die 0: 100 slots of tile 3's scratchpad from slot 5 on, or 100 × 64 KiB of HBM from 5 × 64 KiB on. -/
def winAt (st gen : Nat) (scr : Bool) (s : State) : State :=
  putReg (aWin 0 17 0) (st * 2 ^ 30 + 3 * 2 ^ 28 + bit scr 27 + 3 * 2 ^ 21 + gen) (putReg (aWin 0 17 1) 5 (putReg (aWin 0 17 2) 100 s))
theorem wit_WindowsAdmitRemoteAccesses_1 : openBad (winAt 0 0 true State.reset) 0 17 = false ∧
    openBad (winAt 1 0 true State.reset) 0 17 = true ∧ (hostUp State.reset).hears .host = true ∧ (hostUp State.reset).pwr.state = 0 ∧ reaches .host (aFab 7 0x24) = true ∧ reaches .fm (aFab 7 0x24) = true ∧
    winState (winAt 1 0 true State.reset) 0 17 = 1 ∧ (winAt 2 0 true State.reset).live = true ∧ winState (winAt 2 0 true State.reset) 0 17 = 2 ∧
    winBusy (winAt 2 0 true State.reset) 0 17 = false := by decide +kernel
theorem wit_WindowsAdmitRemoteAccesses_4 : [0, 1].all (fun st =>
      kindB (oneWrite .host (aFab 0 0x24) 0x40000011 (winAt st 0 true State.reset)) .fabWinCmd .host (aFab 0 0x24) 0x40000011 0 0) = true ∧
    aFab 0 0x24 / 0x4000000 = 0 ∧ (0x40000011 : Word).toNat = 2 ^ 30 + 17 := by decide +kernel
/-- A remote access from package 1 to an offset of window 17 of die 0 waits there. -/
def remoteIn (ty gen off : Nat) (data : List Byte) : InMsg :=
  { msg := { cls := 2, ty, spkg := 1, bytes := remoteHead ty 0 gen 256 (gaS 0 17 off) 5 0 ++ data }, port := 0, pool := 2, quarters := 1 }
def remoteSound (i : InMsg) (s : State) : Bool :=
  s.live && nextAccess s 0 i.msg.ty = some i && !i.admitted && !s.clk.replaying && !s.clk.recording && !isNeighbourMode s &&
    gaPkg (rmAddr i.msg) = pkgId s && gaDie (rmAddr i.msg) = 0 && 0 < rmLen i.msg && rmLen i.msg ≤ 4096 && rmWin i.msg = 17 &&
    (i.msg.ty ≠ 1 || i.msg.bytes.length = 64 + (rmLen i.msg + 63) / 64 * 64) &&
    s.canSend (answerMsg 0 i.msg (if i.msg.ty = 1 then 4 else 3) 0 []) && s.canSend (answerMsg 0 i.msg (if i.msg.ty = 1 then 4 else 3) 6 [])
def atTarget (i : InMsg) (st gen : Nat) (scr : Bool) : State := deliver 0 i (net (winAt st gen scr State.reset))
/-- What the window says of the access. -/
def judged (i : InMsg) (st gen : Nat) (scr : Bool) : Bool × Bool × Place :=
  let s := atTarget i st gen scr
  (winLive s 0 17 (i.msg.ty = 1) i.msg, winAllows s 0 17 (i.msg.ty = 1) i.msg, winPlace s 0 17 (rmOff i.msg))
def wrAt (off : Nat) : InMsg := remoteIn 1 1 off (List.replicate 256 9)
def rdAt (off : Nat) : InMsg := remoteIn 2 0 off []
theorem wit_WindowsAdmitRemoteAccesses_2 :
    remoteSound (wrAt 0) (atTarget (wrAt 0) 0 1 true) = true ∧ judged (wrAt 0) 0 1 true = (false, true, .scr 0 3 1280) ∧
    remoteSound (wrAt 0) (atTarget (wrAt 0) 1 2 true) = true ∧ judged (wrAt 0) 1 2 true = (false, true, .scr 0 3 1280) ∧
    remoteSound (wrAt 25345) (atTarget (wrAt 25345) 1 1 true) = true ∧ (judged (wrAt 25345) 1 1 true).2.1 = false ∧
    remoteSound (wrAt 25344) (atTarget (wrAt 25344) 1 1 true) = true ∧ judged (wrAt 25344) 1 1 true = (true, true, .scr 0 3 26624) ∧
    wholeOk (atTarget (wrAt 25344) 1 1 true) (.scr 0 3 26624) 256 = true ∧ tagBlocked (atTarget (wrAt 25344) 1 1 true) (.scr 0 3 26624) 256 .fill = false ∧
    remoteSound (wrAt 7) (atTarget (wrAt 7) 1 1 false) = true ∧ judged (wrAt 7) 1 1 false = (true, true, .hbm 0 327687) := by decide +kernel
theorem wit_WindowsAdmitRemoteAccesses_3 :
    remoteSound (rdAt 0) (atTarget (rdAt 0) 0 1 true) = true ∧ (judged (rdAt 0) 0 1 true).1 = false ∧
    remoteSound (rdAt 7) (atTarget (rdAt 7) 1 9 true) = true ∧ judged (rdAt 7) 1 9 true = (true, true, .scr 0 3 1287) ∧
    tagBlocked (atTarget (rdAt 7) 1 9 true) (.scr 0 3 1287) 256 .peek = false ∧
    remoteSound (rdAt 7) (atTarget (rdAt 7) 1 9 false) = true ∧ judged (rdAt 7) 1 9 false = (true, true, .hbm 0 327687) ∧
    (unitsOf 327687 256).all (fun q => (unitErrs (atTarget (rdAt 7) 1 9 false) 0 q).isEmpty) = true := by decide +kernel

def copyOp : FabOp := { desc := rcd 64 [0x50 * 2 ^ 24, 128, 0, 2 ^ 16, 0, gaH 0 0 / 2 ^ 32], index := 0, tags := [5] }
/-- An answer from package 1 to the access with tag 5, which belongs to a COPY of context 0. -/
def answerIn (ty status len : Nat) : InMsg :=
  { msg := { cls := 2, ty, spkg := 1, bytes := remoteHead ty status 0 len 0 5 0 ++ List.replicate len 9 }, port := 0, pool := 2, quarters := 1 }
def pend5 : Pend := { own := .copy 0 5, dst := gaH 0 0, len := 128 }
def answerState (i : InMsg) : State := deliver 0 i (setOp 0 copyOp { fab := { pend := [(5, pend5)] } })
theorem wit_AnswersEndWhatWaits_1 : (answerState (answerIn 3 0 128)).live = true ∧ nextRData (answerState (answerIn 3 0 128)) 0 = some (answerIn 3 0 128) ∧
    pendOf (answerState (answerIn 3 0 128)) (rmTag (answerIn 3 0 128).msg) = some pend5 ∧
    placeRun (answerState (answerIn 3 0 128)) (pend5.dst + pend5.got) 128 = .hbm 0 0 ∧
    nextRData (answerState (answerIn 3 0 64)) 0 = some (answerIn 3 0 64) ∧ ¬ (128 ≤ 0 + (((answerIn 3 0 64).msg.bytes.drop 64).take (rmLen (answerIn 3 0 64).msg)).length) ∧
    nextRData (answerState (answerIn 3 6 0)) 0 = some (answerIn 3 6 0) ∧ rmStatus (answerIn 3 6 0).msg ≠ 0 := by decide +kernel
theorem wit_AnswersEndWhatWaits_2 : nextRAck (answerState (answerIn 4 6 0)) 0 = some (answerIn 4 6 0) ∧
    pendOf (answerState (answerIn 4 6 0)) (rmTag (answerIn 4 6 0).msg) = some pend5 ∧
    getOp (answerState (answerIn 4 6 0)) 0 = some copyOp ∧ copyOp.status = none ∧ rmStatus (answerIn 4 6 0).msg ≠ 0 ∧ rmStatus (answerIn 4 0 0).msg = 0 := by decide +kernel

def opQueued (b : List Byte) : State :=
  placeBytes 0 0 b (putReg (aFab 0 0x10C) 1 (putReg (aFab 0 0x108) 1 (putReg64 (aFab 0 0x100) (gaH 0 0) (ringIn 0 2 [0] State.reset))))
def foBytes (op : Nat) : List Byte := rcd 64 [op * 2 ^ 24, 128, 0x10000, gaH 0 0 / 2 ^ 32, 0x20000, gaH 0 0 / 2 ^ 32]
def opRows : List Instr := [.copy 0, .allReduce 0, .reduceScatter 0, .allGather 0, .multicast 0]
def opSound (c : Instr) (refused : Bool) : Bool :=
  match fabOpRow c with
  | some (op, _) =>
    let b := if refused then rcd 64 [op * 2 ^ 24] else foBytes op
    let s := opQueued b
    s.live && opqReady s 0 && opqNext s 0 = (b, false) && foOp b = op && s.cleanGa (opqAddr s 0) 64 &&
      (foRefuse (putReg (aFab 0 0x110) ((opqHead s 0 + 1) % 2 ^ opqLog s 0) s) 0 b).isSome == refused
  | none => false
theorem wit_FabricOperationsBeginAndEnd : opRows.all (fun c => opSound c false && opSound c true) = true ∧
    getOp (setOp 0 { copyOp with tags := [] } State.reset) 0 = some { copyOp with tags := [] } ∧
    opDone (setOp 0 { copyOp with tags := [] } State.reset) 0 { copyOp with tags := [] } = true ∧
    opDone (setOp 0 { copyOp with status := some (9, 6) } State.reset) 0 { copyOp with status := some (9, 6) } = true := by decide +kernel

/-- A COPY of 128 bytes within die 0's HBM, with a record at 0x4000. -/
def recordedCopy (st : Option (Nat × Nat)) : FabOp :=
  { desc := rcd 64 [0x50 * 2 ^ 24 + 2 ^ 17, 128, 0x10000, gaH 0 0 / 2 ^ 32, 0x20000, gaH 0 0 / 2 ^ 32, 0, 0, 0x4000, gaH 0 0 / 2 ^ 32, 77], index := 0, status := st }
theorem wit_FabricOperationsBeginAndEnd_2 : [none, some (9, 6)].all (fun st => let s := setOp 0 (recordedCopy st) State.reset
      s.live && getOp s 0 = some (recordedCopy st) && opDone s 0 (recordedCopy st)) = true ∧ foComplete (recordedCopy none).desc = true ∧
    placeOf State.reset (foCq (recordedCopy none).desc / 16 * 16) = .hbm 0 0x4000 ∧
    placeRun State.reset (foSrc (recordedCopy none).desc + 64) 64 = .hbm 0 0x10040 ∧
    placeRun State.reset (foDst (recordedCopy none).desc + 64) 64 = .hbm 0 0x20040 ∧
    (unitsOf 0x10040 64).all (fun q => (unitErrs State.reset 0 q).isEmpty) = true := by decide +kernel
def haltedQueue : State := { fab := { halted := mapSet false [] 3 true } }
theorem wit_FabricOperationsBeginAndEnd_3 : mapGet false haltedQueue.fab.halted 3 = true ∧
    kindB (oneWrite .host (aFab 0 (0x108 + 0x20 * 3)) 0x80000000 haltedQueue) .fabOpqCtrl .host (aFab 0 (0x108 + 0x20 * 3)) 0x80000000 3 0 = true ∧
    bitsOf (0x80000000 : Word).toNat 31 31 = 1 := by decide +kernel

/-- A collective of a ring of three over 128 elements: chunk 2 has 42, of which 6 are die 0's; piece 0 of chunk j, phase ph. -/
def collOp (op ph j : Nat) : FabOp := { desc := foBytes op, index := 0, todo := [(0, ph, j, 0)] }
def collMsg (op ph j at_ n : Nat) : InMsg :=
  { msg := { cls := 1, ty := 5, spkg := 2, bytes := collHead 7 0 (foBytes op) j ph at_ n ++ padGrain (List.replicate (4 * n) 9) }, port := 0, pool := 1, quarters := 1 }
def collState (op ph j : Nat) (i : InMsg) : State := deliver 0 i (setOp 0 (collOp op ph j) (ringIn 0 3 [0, 1, 2] (net State.reset)))
/-- The message of piece 0 of chunk j, and a state that expects it, or its job's another. -/
def pieceIn (op ph j : Nat) : InMsg := let (a, l) := pieceAt (foBytes op) 3 0 j 0; collMsg op ph j a l
def collSound (op ph j : Nat) (i : InMsg) : Bool :=
  let s := collState op ph j i
  s.live && nextColl s 0 = some i && ringOfJob s (chJob i.msg) [2, 3, 4] = some 0 && chSeq i.msg ≠ loaderSeq && getOp s 0 = some (collOp op ph j) &&
    isColl (foBytes op) && (collOp op ph j).seqNo = chSeq i.msg && (mapLookup s.fab.aborts 0).isNone
def collOk (op ph j : Nat) : Bool :=
  let i := pieceIn op ph j
  let s := collState op ph j i
  collSound op ph j i && collAgrees s 0 0 (foBytes op) i.msg && pieceNo (foBytes op) 3 0 i.msg = 0 &&
    s.canSend (pieceMsg s 0 0 (collOp op ph j) (ringNextPkg s 0 0) j ph 0 [])
theorem wit_CollectivesGoOn_1 :
    collSound 0x51 1 2 (collMsg 0x51 1 2 1 1) = true ∧ collAgrees (collState 0x51 1 2 (collMsg 0x51 1 2 1 1)) 0 0 (foBytes 0x51) (collMsg 0x51 1 2 1 1).msg = false ∧
    collOk 0x51 1 2 = true ∧ (ringPos (collState 0x51 1 2 (pieceIn 0x51 1 2)) 0 + 1) % 3 ≠ 2 ∧
    placeRun (collState 0x51 1 2 (pieceIn 0x51 1 2)) (dstOf (foBytes 0x51) 3 2 (chAt (pieceIn 0x51 1 2).msg)) (chLen (pieceIn 0x51 1 2).msg * 4) =
      .hbm 0 (0x20000 + 86 * 4) ∧
    (pieceIn 0x51 1 2).msg.bytes.length = 64 + (chLen (pieceIn 0x51 1 2).msg * 4 + 63) / 64 * 64 := by decide +kernel
theorem wit_CollectivesGoOn_5 :
    (let s := collState 0x51 0 2 (pieceIn 0x51 0 2)
     let src := srcOf (foBytes 0x51) 3 2 (chAt (pieceIn 0x51 0 2).msg)
     collOk 0x51 0 2 = true ∧ s.cleanGa src 24 = true ∧ placeRun s src 24 = placeOf s src ∧ ringPos s 0 ≠ 2) ∧
    (let s := collState 0x52 0 0 (pieceIn 0x52 0 0)
     let src := srcOf (foBytes 0x52) 3 0 (chAt (pieceIn 0x52 0 0).msg)
     collOk 0x52 0 0 = true ∧ s.cleanGa src 24 = true ∧ placeRun s src 24 = placeOf s src ∧ ringPos s 0 = 0 ∧
      placeRun s (dstOf (foBytes 0x52) 3 0 0) 24 = .hbm 0 0x20000) := by decide +kernel
def castMsg : Msg := { cls := 1, ty := 5, dpkg := 1, bytes := rcd 64 [7, 0, 0x54 * 2 ^ 24] }
def castState : State :=
  let s := setTx (txKey 0 1 0 1) { undel := [{ msg := castMsg, own := .coll 0, port := 0, sentAt := 0 }] }
    (setPort 0 { st := 3, queue := [{ msg := castMsg, pool := 1 }], used := [(1, 4096)] } (ringIn 0 3 [0, 1] { clk := { t := 2 ^ 32 } }))
  { s with fab := { s.fab with stalls := [(0, some { msn := 0, since := 0 })] } }
theorem wit_CollectivesGoOn_2 : castState.live = true ∧ (castStall castState 0 0).isSome = true := by decide +kernel
theorem wit_CollectivesGoOn_3 : (ctlMsgs (told 0 0x30 7 [0, 1] (ringIn 0 3 [0, 1] State.reset)) 0 0x30).all (fun i => ctlValid i.msg &&
      ringOfJob (told 0 0x30 7 [0, 1] (ringIn 0 3 [0, 1] State.reset)) (ctlJob i.msg) [2, 3, 4] = some 0) = true ∧
    (ctlMsgs (told 0 0x30 7 [0, 1] (ringIn 0 3 [0, 1] State.reset)) 0 0x30).length = 1 := by decide +kernel
def castOp : FabOp := { desc := foBytes 0x54, index := 0 }
def offState : State := told 0 0x31 7 [0, 1, 64, 0] (setOp 0 castOp (ringIn 0 3 [0, 1] State.reset))
theorem wit_CollectivesGoOn_4 : (ctlMsgs offState 0 0x31).length = 1 ∧ (ctlMsgs offState 0 0x31).all (fun i => ctlValid i.msg &&
      ringOfJob offState (ctlJob i.msg) [2, 3, 4] = some 0 && castOp.seqNo = ctlArg i.msg 0) = true ∧ getOp offState 0 = some castOp ∧
    foOp castOp.desc = 0x54 ∧ foRoot castOp.desc = ringPos offState 0 ∧ castOp.status = none := by decide +kernel
/-- Members 0, 1 and 2; the removal of member 1 is noted; 2's report is the last. -/
def lastOff : State :=
  told 0 0x31 7 [0, 2, 64, 0] (setOp 0 castOp (noteRemoved 0 0 1 (ringIn 0 3 [0, 1, 2] State.reset)))
theorem wit_CollectivesGoOn_6 : (ctlMsgs lastOff 0 0x31).length = 1 ∧ (ctlMsgs lastOff 0 0x31).all (fun i => ctlValid i.msg &&
      ringOfJob lastOff (ctlJob i.msg) [2, 3, 4] = some 0 && castOp.seqNo = ctlArg i.msg 0) = true ∧ lastOff.live = true ∧ getOp lastOff 0 = some castOp ∧
    allReported lastOff 0 0 { castOp with offs := castOp.offs ++ [(0, 2, 64)] } = true ∧ allReported lastOff 0 0 castOp = false ∧
    lowOff lastOff 0 0 { castOp with offs := castOp.offs ++ [(0, 2, 64)] } = some 64 := by decide +kernel
def removeWrite : State := oneWrite .fm (aFab 0 0x28) 1 (setOp 3 castOp (ringIn 3 3 [0, 1, 2] (net State.reset)))
theorem wit_CollectivesGoOn_7 : kindB removeWrite .fabMcRemove .fm (aFab 0 0x28) 1 0 0 = true ∧ getOp removeWrite 3 = some castOp ∧ foOp castOp.desc = 0x54 ∧
    castOp.status = none ∧ (∀ y < 3, getOp removeWrite y = none) ∧ 1 ≠ foRoot castOp.desc ∧ 1 < ringN removeWrite 3 ∧
    1 ∉ removedOf removeWrite 3 castOp.seqNo := by decide +kernel

def abortIn : State := setOp 0 copyOp (told 0 0x20 7 [0, 0, 9] (ringIn 0 3 [0, 1] State.reset))
theorem wit_JobAbortsHaltAndSettle_1 : abortIn.live = true ∧ (ctlMsgs abortIn 0 0x20).length = 1 ∧ (ctlMsgs abortIn 0 0x20).all (fun i => ctlValid i.msg &&
      ringOfJob abortIn (ctlJob i.msg) [1, 2, 3, 4, 5] = some 0) = true ∧ (ringOf abortIn 0).st ≠ 5 ∧ mapLookup abortIn.fab.aborts 0 = none ∧
    (ctlMsgs abortIn 0 0x20).all (fun i => abortOfJob abortIn (ctlJob i.msg) = none) = true ∧
    getOp abortIn 0 = some copyOp ∧ foOp copyOp.desc = 0x50 ∧ copyOp.status = none := by decide +kernel
theorem wit_JobAbortsHaltAndSettle_3 :
    let a : AbortS := { step := 2 ^ 32 + 5, cause := 9, haltAt := 0, job := 7 }
    let s : State := { fab := { aborts := [(7, a)] }, clk := { t := 2 ^ 32 } }
    s.live = true ∧ settleDue s 7 = true ∧ mapLookup s.fab.aborts 7 = some a ∧ launched s 7 = false ∧ lostRequests s 7 = [] ∧ abortCmds s 7 = [] := by
  decide +kernel
theorem wit_JobAbortsHaltAndSettle_2 : settleDue { fab := { aborts := [(7, { step := 0, cause := 9, haltAt := 0 })] }, clk := { t := 2 ^ 32 } } 7 = true := by
  decide +kernel

/-! ## Witnesses: timekeeping -/

/-- SYNC_IN serves the rack sync. -/
def syncOn (s : State) : State := putReg (aGct 0 0x10) 1 s
def armedAt (count : Nat) : State := syncOn { clk := { count, armed := true } }
theorem wit_SyncTriggersAndCompares_1 : (armedAt 0).live = true ∧ syncSrc (armedAt 0) = 1 ∧ (armedAt 0).clk.armed = true ∧
    ((armedAt 0).clk.count ≤ reg64 (armedAt 0) (aGct 0 0x18) + syncDelay (armedAt 0) ∧ reg64 (armedAt 0) (aGct 0 0x18) + syncDelay (armedAt 0) < 2 ^ 64) ∧
    ¬ ((armedAt 1).clk.count ≤ reg64 (armedAt 1) (aGct 0 0x18) + syncDelay (armedAt 1)) := by decide +kernel
def acquiredAt (count : Nat) : State := syncOn { clk := { count, expect := 10000, acquired := true } }
/-- An edge comes within its window; `fits`: its error does not exceed the limit. -/
def inWindowOf (s : State) (fits : Bool) : Bool :=
  s.live && syncSrc s = 1 && !s.clk.armed && s.clk.acquired && s.clk.expect ≤ s.clk.count + syncLimit s && s.clk.count ≤ s.clk.expect + syncLimit s &&
    level s ≠ 2 && ((syncError s).natAbs ≤ syncLimit s) == fits
theorem wit_SyncTriggersAndCompares_2 : inWindowOf (acquiredAt 10001) true = true ∧ (syncError (acquiredAt 10001)).natAbs < 2 ∧
    inWindowOf (acquiredAt 10064) true = true ∧ 2 ≤ (syncError (acquiredAt 10064)).natAbs ∧ (syncError (acquiredAt 10064)).natAbs ≤ 64 ∧
    inWindowOf (putReg (aGct 0 0x14) 4000 (acquiredAt 10000)) false = true := by decide +kernel
def manyMissed (s : State) : State := putRegF aSync 19 16 7 s
theorem wit_SyncTriggersAndCompares_3 :
    [acquiredAt 0, acquiredAt 20000, manyMissed (acquiredAt 0), manyMissed (acquiredAt 20000)].all (fun s =>
      s.live && syncSrc s = 1 && !s.clk.armed && s.clk.acquired && level s ≠ 2) = true ∧
    (acquiredAt 0).clk.count + syncLimit (acquiredAt 0) < (acquiredAt 0).clk.expect ∧
    (acquiredAt 20000).clk.expect + syncLimit (acquiredAt 20000) < (acquiredAt 20000).clk.count ∧
    [acquiredAt 0, acquiredAt 20000, manyMissed (acquiredAt 0), manyMissed (acquiredAt 20000)].all (fun s => !s.clk.owed && !s.clk.early) = true ∧
    regF (acquiredAt 0) aSync 19 16 < 7 ∧ ¬ (regF (manyMissed (acquiredAt 0)) aSync 19 16 < 7) := by decide +kernel
theorem wit_SyncTriggersAndCompares_4 : syncSrc (putReg (aGct 0 0x10) 2 State.reset) = 2 ∧ (putReg (aGct 0 0x10) 2 State.reset).clk.trigAt = none ∧
    (putReg (aGct 0 0x10) 2 State.reset).clk.count < 2 ^ 64 ∧ (putReg (aGct 0 0x10) 2 State.reset).live = true ∧
    (putReg (aGct 0 0x10) 2 State.reset).clk.recording = false ∧ (putReg (aGct 0 0x10) 2 State.reset).clk.replaying = false := by decide +kernel
theorem wit_SyncTriggersAndCompares_5 : softHolds (putReg (aCmpCtrl 3 7) (2 ^ 31) State.reset) 3 7 = true ∧
    reg64 (putReg (aCmpCtrl 3 7) (2 ^ 31) State.reset) (aGct 3 (0x300 + 0x10 * 7)) ≤ (putReg (aCmpCtrl 3 7) (2 ^ 31) State.reset).clk.count ∧
    swSetNow (putReg (aCmpCtrl 3 7) (2 ^ 31) State.reset) (aCmpCtrl 3 7) = 0 := by decide +kernel

/-- The pulse of the window before has counted, or the next one's edge came early. -/
def countedAt (count : Nat) (owed early : Bool) : State := let s := acquiredAt count; { s with clk := { s.clk with owed, early } }
theorem wit_SyncTriggersAndCompares_6 : [countedAt 0 true false, countedAt 20000 false true].all (fun s =>
      s.live && syncSrc s = 1 && !s.clk.armed && s.clk.acquired) = true ∧
    (countedAt 0 true false).clk.count + syncLimit (countedAt 0 true false) < (countedAt 0 true false).clk.expect ∧
    (countedAt 20000 false true).clk.expect + syncLimit (countedAt 20000 false true) < (countedAt 20000 false true).clk.count := by decide +kernel
def syncWrite (v : Word) (src : Nat) : State := oneWrite .host (aGct 0 0x10) v (putReg (aGct 0 0x10) src State.reset)
theorem wit_SyncTriggersAndCompares_7 : [(1, 2), (2, 1), (0x80000001, 0), (0x80000001, 1)].all (fun (v, src) =>
      kindB (syncWrite v src) .gctSyncCtrl .host (aGct 0 0x10) v 0 0 && !(syncWrite v src).setup.committed && syncSrc (syncWrite v src) = src &&
        !anyBusy (syncWrite v src)) = true := by decide +kernel
/-- A write of GCT_CMP_CTRL of unit 7 of die 3, which a launch holds or not. -/
def cmpWrite (v : Word) (held : Nat) : State := oneWrite .host (aCmpCtrl 3 7) v (putReg (aCmpCtrl 3 7) (held * 2 ^ 30) State.reset)
theorem wit_SyncTriggersAndCompares_8 : [(0x80000000, 1), (0x80000000, 0), (0, 1)].all (fun (v, held) =>
      kindB (cmpWrite v held) .gctCmpCtrl .host (aCmpCtrl 3 7) v 7 0 && regF (cmpWrite v held) (aCmpCtrl 3 7) 30 30 = held) = true ∧
    aCmpCtrl 3 7 / 0x4000000 = 3 := by decide +kernel
def recWrite (v : Word) (s : State) : State := oneWrite .host (aGct 0 0x50) v s
theorem wit_SyncTriggersAndCompares_9 :
    [recWrite 6 State.reset, recWrite 6 (setCtxSt 1 2 State.reset), recWrite 6 (putReg (aLcc 0 0 0x104) 1 State.reset)].all (fun s =>
      kindB s .gctRecCtrl .host (aGct 0 0x50) 6 0 0) = true ∧ bitsOf (6 : Word).toNat 1 0 = 2 ∧
    anyBusy (recWrite 6 State.reset) = false ∧ anyBusy (recWrite 6 (setCtxSt 1 2 State.reset)) = true ∧
    anyBusy (recWrite 6 (putReg (aLcc 0 0 0x104) 1 State.reset)) = false ∧
    regF (recWrite 6 State.reset) (aLcc 0 0 0x104) 0 0 = 0 ∧ regF (recWrite 6 (putReg (aLcc 0 0 0x104) 1 State.reset)) (aLcc 0 0 0x104) 0 0 = 1 ∧
    (∀ d < 8, softHolds (recWrite 6 State.reset) d 5 = false) := by decide +kernel

/-- Context 2 is armed, with step 0 closed or not, and inputs that are held. -/
def armedLaunch (closed : List Nat) (held : List HeldIn) : State := setCtxSt 2 1 (putReg aLaunch (2 ^ 31 + 2) { clk := { closed, held } })
def heldTail (after : Bool) : HeldIn := { ctx := 2, addr := aFab 0 (0x10C + 0x40), v := 1, after }
theorem wit_LaunchesAndStepsGoOn_1 :
    [armedLaunch [] [], armedLaunch [2] [], armedLaunch [] [heldTail false], armedLaunch [] [heldTail true]].all (fun s =>
      s.live && launchArmed s && regF s aLaunch 2 0 = 2 && mapGet 0 s.clk.launchAt 2 ≤ s.clk.count) = true ∧
    (∀ e < 320, sqWaiting e (armedLaunch [2] []) = false) ∧ (armedLaunch [2] []).clk.closed.contains 2 = true ∧
    (armedLaunch [] [heldTail true]).clk.closed.contains 2 = false ∧
    (findReg (heldTail true).addr).map (fun r => r.1.kind) = some .fabOpqTail := by decide +kernel
theorem wit_LaunchesAndStepsGoOn_2 : (setCtxSt 1 3 State.reset).live = true ∧ level (setCtxSt 1 3 State.reset) ≠ 2 ∧ ctxSt (setCtxSt 1 3 State.reset) 1 = 3 ∧
    ctxIdle (setCtxSt 1 3 State.reset) 1 = true ∧ (setCtxSt 1 3 State.reset).clk.held = [] ∧ (setCtxSt 1 3 State.reset).clk.recording = false := by decide +kernel
def levelTime (st : Nat) : State := putReg (aGct 0 8) 2 (setCtxSt 1 st { clk := { count := 2 ^ 40 } })
theorem wit_LaunchesAndStepsGoOn_3 : [levelTime 3, levelTime 2].all (fun s => s.live && level s = 2 && launched s 1 && (mapLookup s.fab.aborts 1).isNone &&
      boundaryAt s 1 ≤ s.clk.count) = true ∧ ctxSt (levelTime 3) 1 = 3 ∧ ctxIdle (levelTime 3) 1 = true ∧ (levelTime 3).clk.held = [] ∧
    ¬(ctxSt (levelTime 2) 1 = 3 ∧ ctxIdle (levelTime 2) 1 = true) := by decide +kernel

/-- A write of GCT_LAUNCH_CTRL for context 2, with LAUNCH_AT as given. -/
def launchWrite (v : Word) (at_ : Nat) (s : State) : State := oneWrite .host aLaunch v (putReg64 (aGct 0 0x30) at_ s)
theorem wit_LaunchesAndStepsGoOn_4 :
    [launchWrite 0x80000002 0 State.reset, launchWrite 0x80000002 20000 (putReg (aCmpCtrl 0 7) (2 ^ 31) State.reset),
      launchWrite 0x80000002 20000 State.reset].all (fun s => kindB s .gctLaunchCtrl .host aLaunch 0x80000002 0 0 && !launchArmed s) = true ∧
    bitsOf (0x80000002 : Word).toNat 2 0 = 2 ∧
    reg64 (launchWrite 0x80000002 0 State.reset) (aGct 0 0x30) < (launchWrite 0x80000002 0 State.reset).clk.count + 10000 ∧
    armRefused (launchWrite 0x80000002 0 State.reset) 2 = 1 ∧ armConflict (launchWrite 0x80000002 0 State.reset) 2 = none ∧
    armConflict (launchWrite 0x80000002 20000 (putReg (aCmpCtrl 0 7) (2 ^ 31) State.reset)) 2 = some 4 ∧
    armRefused (launchWrite 0x80000002 20000 State.reset) 2 = 0 ∧ replays (launchWrite 0x80000002 20000 State.reset) 2 = false := by decide +kernel
theorem wit_LaunchesAndStepsGoOn_5 :
    [launchWrite 0x40000002 0 (setCtxSt 2 2 State.reset), launchWrite 0x40000002 0 (setCtxSt 2 2 (armedLaunch [] []))].all (fun s =>
      kindB s .gctLaunchCtrl .host aLaunch 0x40000002 0 0 && launched s 2) = true := by decide +kernel
theorem wit_LaunchesAndStepsGoOn_6 : [0, 1, 2, 3].all (fun st =>
      let s := oneWrite .host (aGct 0 0x48) 2 (setCtxSt 2 st State.reset)
      kindB s .gctStepClose .host (aGct 0 0x48) 2 0 0 && ctxSt s 2 = st) = true := by decide +kernel
def heldWrite (st : Nat) : State := oneWrite .host (aFab 0 (0x10C + 0x40)) 1 (setCtxSt 2 st State.reset)
theorem wit_LaunchesAndStepsGoOn_7 : [1, 3].all (fun st =>
      kindB (heldWrite st) .fabOpqTail .host (aFab 0 (0x10C + 0x40)) 1 2 0 && holdsInputs (heldWrite st) 2 &&
        (match findReg (aFab 0 (0x10C + 0x40)) with | some (r, i, j, false) => queueCtx (heldWrite st) r i j 0 = some 2 | _ => false)) = true := by
  decide +kernel

/-- The next record of die 0's log: its kind, its payload of len bytes, in words. -/
def replayState (kind len : Nat) (l : List Nat) : State :=
  placeBytes 0 (captureBase State.reset) (rcd 128 ([kind * 2 ^ 24 + len, 0, 0, 0] ++ l))
    { clk := { replaying := true, logDone := [1, 2, 3, 4, 5, 6, 7] } }
/-- The record is due and in no unit in error. -/
def replaySound (kind : Nat) (s : State) : Bool :=
  s.live && s.clk.replaying && !s.clk.logDone.contains 0 && replayDue s 0 && fld (replayHead s 0) 0 31 24 = kind && !pastStop s 0 (replayHead s 0) &&
    (unitsOf (replayAt s 0) (16 + fld (replayHead s 0) 0 15 0)).all (fun u => (unitErrs s 0 u).isEmpty)
def payloadOf (s : State) : List Byte := hbmPeek (agReplay 0) 0 (replayAt s 0 + 16) (fld (replayHead s 0) 0 15 0) s
def cmdRecord : State := let s := replayState 2 64 []; { s with host := { s.host with rings := [(1, {})] } }
theorem wit_ReplayAndFuseBurnsEnd_1 :
    replaySound 15 (replayState 15 4 []) = true ∧ replaySound 1 (replayState 1 8 [0x00B00010, 7]) = true ∧ replaySound 7 (replayState 7 9 [0x00B00010, 7, 1]) = true ∧
    replaySound 3 (replayState 3 16 [0x1000, gaH 0 0 / 2 ^ 32, 1, 2]) = true ∧ replaySound 5 (replayState 5 3 [67]) = true ∧
    replaySound 6 (replayState 6 8 [5]) = true ∧ replaySound 2 cmdRecord = true := by decide +kernel
theorem wit_ReplayAndFuseBurnsEnd_2 :
    (let s := replayState 7 9 [0x00B00010, 7, 1]
     let b := payloadOf s
     masterOf (leNat ((b.drop 8).take 1)) = .host ∧ accessOk s .host (wordAt b 0) 4 = true ∧ wideWord (wordAt b 0) ≠ some true ∧
       closesWindow (wordAt b 0) (BitVec.ofNat 32 (wordAt b 4)) = false) ∧
    placeOf (replayState 3 16 [0x1000, gaH 0 0 / 2 ^ 32, 1, 2]) (dwordAt (payloadOf (replayState 3 16 [0x1000, gaH 0 0 / 2 ^ 32, 1, 2])) 0) = .hbm 0 0x1000 ∧
    sourceDefined (leNat (((payloadOf (replayState 5 3 [67])).drop 2).take 1)) (leNat ((payloadOf (replayState 5 3 [67])).take 2)) = true ∧
    (getRing cmdRecord (recCtx cmdRecord + 1)).map (canReserve cmdRecord (Fin.ofNat 9 (recCtx cmdRecord + 1))) = some false ∧
    level cmdRecord ≠ 2 := by
  decide +kernel
theorem wit_ReplayAndFuseBurnsEnd_3 : burning (putReg (aGct 0 0x64) 0x100 State.reset) = true ∧ (putReg (aGct 0 0x64) 0x100 State.reset).live = true ∧
    (putReg (aGct 0 0x64) 0x100 State.reset).boot.dueReset = 0 := by decide +kernel
def gradeWrite (v : Word) (grade : Nat) (masks : Bool) : State :=
  let s : State := { boot := { grade } }
  oneWrite .host (aGct 0 0x60) v (if masks then (List.range 8).foldl (fun s d => putReg64 (aGct d 0x68) 0xF s) s else s)
theorem wit_ReplayAndFuseBurnsEnd_4 :
    [(0x5A380001, 0, true), (0x5A380001, 0, false), (0x5A380001, 2, true), (0x5A370001, 0, true)].all (fun (v, g, m) =>
      kindB (gradeWrite v g m) .gctRegradeCtrl .host (aGct 0 0x60) v 0 0 && regF (gradeWrite v g m) (aGct 0 0x64) 9 8 = 0) = true ∧
    bitsOf (0x5A380001 : Word).toNat 31 16 = 0x5A38 ∧ bitsOf (0x5A380001 : Word).toNat 0 0 = 1 ∧ bitsOf (0x5A370001 : Word).toNat 31 16 ≠ 0x5A38 ∧
    regradeBad (gradeWrite 0x5A380001 0 true) = 0 ∧ regradeBad (gradeWrite 0x5A380001 0 false) = 2 ∧ regradeBad (gradeWrite 0x5A380001 2 true) = 1 := by
  decide +kernel
/-- Two host read records; one of their addresses is not that of a record which a command read for itself. -/
def readRecord (o : Nat) : State := replayState 3 16 [o, gaH 0 0 / 2 ^ 32, 1, 2]
theorem two_records : replaySound 3 (readRecord 0x1000) = true ∧ replaySound 3 (readRecord 0x2000) = true ∧
    dwordAt (payloadOf (readRecord 0x1000)) 0 ≠ dwordAt (payloadOf (readRecord 0x2000)) 0 := by decide +kernel
theorem wit_ReplayAndFuseBurnsEnd_5 : replaySound 3 (readRecord 0x1000) = true ∧ replaySound 3 (readRecord 0x2000) = true ∧
    (dwordAt (payloadOf (readRecord 0x1000)) 0 ≠ Config.recordAddress.toNat ∨
      dwordAt (payloadOf (readRecord 0x2000)) 0 ≠ Config.recordAddress.toNat) := by
  refine ⟨two_records.1, two_records.2.1, ?_⟩
  by_cases h : dwordAt (payloadOf (readRecord 0x1000)) 0 = Config.recordAddress.toNat
  · exact .inr fun h' => two_records.2.2 (h.trans h'.symm)
  · exact .inl h
/-! ## Witnesses: the loader -/

/-- A manifest of n shards with one tensor of one block in each lane, all of it in shard 0, and r REPLICATE tensors of 16 bytes. -/
def manOf (n r comp segc seglen : Nat) (dig rdig : List Byte) : List Byte :=
  wordsLE [0x01000000 + n, 77, 0x10000 + r, 64, 80, 80 + 32 * n, 80 + 32 * n + 32 * r, 0] ++ rdig ++
  wordsLE [5, 128, 128, comp * 2 ^ 28 + 0x990000] ++
  wordsLE [0, segc, 0, 0, seglen, 0, 0, 0] ++ List.replicate (32 * (n - 1)) 0 ++
  (if r = 0 then [] else wordsLE [6, comp * 2 ^ 28, 0, 0, 16, 0, 16, 0]) ++
  List.replicate 16 0 ++ dig ++ List.replicate (48 * (n - 1)) 0
def loadRec (man : List Byte) (dig : List Byte) : List Byte := wordsLE [2 ^ 28, 77, 1, 0, 0, 0, man.length, 0, 0, 0, 0, 0, 0, 0, 0, 0] ++ dig
def jobOf (man : List Byte) (phase : Nat) : LoadJob := { cmd := 0, swap := false, record := loadRec man (List.replicate 32 0), man, phase }
/-- Context 0 loads a model on a ring of one. -/
def loading (j : LoadJob) (s : State) : State := setLoad 0 { job := some j } (ringIn 0 2 [0] { s with host := { s.host with link := 3 } })

def digest0 : List Byte := sha256 []
def man0 : List Byte := manOf 1 0 0 1 262144 digest0 digest0
def job1 : LoadJob := { cmd := 0, swap := false, record := loadRec man0 (sha256 man0), phase := 1 }
/-- HBM of every die is allotted already. -/
def fullHbm (s : State) : State :=
  { s with hbm := { s.hbm with allots := [(9, { ctx := 3, cat := 2, runs := List.replicate 8 (reserveTop, (captureBase State.reset - reserveTop) / 65536) })] } }
/-- Whether a manifest's allotments fit. -/
def allotsFit (s : State) : Bool := match makeAllots 0 (loadNeed man0 job1.record (ringPos s 0)) [] s with | .inr _ => true | .inl _ => false
theorem wit_ManifestsAndShardsArrive_1 : (loading job1 State.reset).live = true ∧ (loading job1 State.reset).host.link = 3 ∧
    (getLoad (loading job1 State.reset) 0).job = some job1 ∧ job1.phase = 1 ∧ job1.swap = false ∧ man0.length = recManLen job1.record ∧
    manBad (ringN (loading job1 State.reset) 0) job1.record man0 = none ∧ manBad (ringN (loading job1 State.reset) 0) job1.record (0 :: man0.tail) = some 0 ∧
    (0 :: man0.tail).length = recManLen job1.record ∧
    (match exec (.manifestFetched 0 man0) (loading job1 State.reset) with | .next u => jobPhase u 0 = 3 | _ => false) = true ∧
    allotsFit (loading job1 State.reset) = true ∧ allotsFit (fullHbm (loading job1 State.reset)) = false := by decide +kernel

def jobEmpty : LoadJob := jobOf (manOf 1 0 0 0 0 digest0 digest0) 3
def jobBad : LoadJob := jobOf (manOf 1 1 1 1 16 digest0 digest0) 3
def images (s : State) (j : LoadJob) (segs : List (List Byte)) : Option (List (List Byte)) :=
  decodeAll ((List.range (manT j.man)).map fun t => ((tensorAt j.man t).comp, segSrcLen j.man (ringPos s 0) t, segs.getD t []))
def replImages (j : LoadJob) (srcs : List (List Byte)) : Option (List (List Byte)) :=
  decodeAll ((List.range (manR j.man)).map fun r => (replComp j.man r = 1, replSrcLen j.man r, srcs.getD r []))
theorem wit_ManifestsAndShardsArrive_2 : (loading jobEmpty State.reset).live = true ∧ jobEmpty.phase = 3 ∧ jobEmpty.shardOk = false ∧ jobEmpty.replOk = false ∧
    [[]].map (List.length (α := Byte)) = shardLens (loading jobEmpty State.reset) 0 jobEmpty ∧ images (loading jobEmpty State.reset) jobEmpty [[]] = some [[]] ∧
    sha256 ([[]] : List (List Byte)).flatten = shardDigest jobEmpty.man (ringPos (loading jobEmpty State.reset) 0) ∧
    [].map (List.length (α := Byte)) = replLens jobEmpty ∧ replImages jobEmpty [] = some [] ∧
    sha256 ([] : List (List Byte)).flatten = (jobEmpty.man.drop 0x20).take 32 ∧ ringPos (loading jobEmpty State.reset) 0 = 0 := by decide +kernel
/-- The attempts allowed. -/
def tries : Nat := regF State.reset (aSec 0 0x80000) 3 0
theorem wit_ManifestsAndShardsArrive_3 : [List.replicate 16 (0 : Byte)].map List.length = shardLens (loading jobBad State.reset) 0 jobBad ∧
    images (loading jobBad State.reset) jobBad [List.replicate 16 0] = none ∧ jobBad.attempts ≤ tries ∧
    tries < { jobBad with attempts := tries + 1 }.attempts ∧ jobBad.fail = none := by decide +kernel
theorem wit_ManifestsAndShardsArrive_4 : (getLoad (loading jobBad State.reset) 0).job = some jobBad ∧ [List.replicate 16 (0 : Byte)].map List.length = replLens jobBad ∧
    replComp jobBad.man 0 = 1 ∧ replImages jobBad [List.replicate 16 0] = none ∧ jobBad.replAttempts ≤ tries ∧
    tries < { jobBad with replAttempts := tries + 1 }.replAttempts := by decide +kernel
def late : State := { clk := { t := 2 ^ 40 } }
theorem wit_ManifestsAndShardsArrive_5 : jobEmpty.fail = none ∧ jobEmpty.shardOk = false ∧
    jobEmpty.since + reg (loading jobEmpty late) (aSec 0 0x80004) ≤ (loading jobEmpty late).now ∧ ringPos (loading jobEmpty late) 0 = 0 ∧
    jobEmpty.replOk = false ∧ jobEmpty.replSince + reg (loading jobEmpty late) (aSec 0 0x80004) ≤ (loading jobEmpty late).now ∧
    (loading jobEmpty late).now < { jobEmpty with since := 2 ^ 40 }.since + reg (loading jobEmpty late) (aSec 0 0x80004) := by decide +kernel

def jobDone : LoadJob := { jobEmpty with shardOk := true, replOk := true }
/-- The load of context 0 on a ring of package 0 and others, with a path to package 1. -/
def ringLoad (j : LoadJob) (ms : List Nat) (s : State) : State := setLoad 0 { job := some j } (ringIn 0 2 ms (net s))
/-- A DONE token of a load with a count and parts. -/
def doneIn (j : LoadJob) (count : Nat) (parts : List (List Byte)) : InMsg :=
  { msg := { cls := 3, ty := 6, spkg := 1, bytes := ctlGrain 0x50 4 7 (loadArgs j ++ [count]) ++ parts.flatten }, port := 0, pool := 3, quarters := 1 }
def parts0 : List (List Byte) := List.replicate 8 (sha256 [])
def doneMsg (j : LoadJob) (count : Nat) (parts : List (List Byte)) (s : State) : Msg :=
  { cls := 3, ty := 6, dpkg := ringNextPkg s 0 0, bytes := ctlGrain 0x50 4 (ringJob s 0) (loadArgs j ++ [count]) ++ parts.flatten }
theorem wit_LoadsCommitOrFail_1 : jobDone.phase = 3 ∧ jobDone.parts = [] ∧ manR jobDone.man = 0 ∧ jobDone.swap = false ∧ jobDone.slot < 2 ∧
    [[0], [0, 1], [1, 0]].all (fun ms => let s := ringLoad jobDone ms State.reset; s.live && replDone s 0 jobDone) = true ∧
    ringN (ringLoad jobDone [0] State.reset) 0 = 1 ∧ ringPos (ringLoad jobDone [0, 1] State.reset) 0 = 0 ∧
    (ringLoad jobDone [0, 1] State.reset).canSend (doneMsg jobDone 1 parts0 (ringLoad jobDone [0, 1] State.reset)) = true ∧
    ringPos (ringLoad jobDone [1, 0] State.reset) 0 ≠ 0 ∧ ctlMsgs (ringLoad jobDone [1, 0] State.reset) 0 0x50 = [] := by decide +kernel
/-- The load's one replicate part is at byte 0 of every die; die 0's is in error or not. -/
def jobParts : LoadJob := { jobBad with shardOk := true, replOk := true, allots := [9] }
def partAt (bad : Bool) : State :=
  let s := ringLoad jobParts [0, 1] State.reset
  let s := { s with hbm := { s.hbm with allots := [(9, { ctx := 0, cat := 1, runs := List.replicate 8 (0, 1) })] } }
  if bad then badUnit s else s
theorem wit_LoadsCommitOrFail_5 : [[0], [0, 1], [1, 0]].all (fun ms => let s := ringLoad jobDone ms State.reset
      (partDigests 0 jobDone s).2 = some parts0 && (getLoad (partDigests 0 jobDone s).1 0).job = some jobDone) = true ∧
    [true, false].all (fun bad => let s := partAt bad
      s.live && (getLoad s 0).job = some jobParts && jobParts.phase = 3 && jobParts.shardOk && jobParts.parts = [] && replDone s 0 jobParts) = true ∧
    (partDigests 0 jobParts (partAt true)).2 = none ∧ (partDigests 0 jobParts (partAt false)).2.isSome = true := by decide +kernel
/-- A DONE token comes to this package of a ring of two. -/
def doneTo (j : LoadJob) (ms : List Nat) (i : InMsg) : State := deliver 0 i (ringLoad j ms State.reset)
def doneSound (j : LoadJob) (ms : List Nat) (i : InMsg) : Bool :=
  let s := doneTo j ms i
  s.live && nextDone s 0 = some i && tokenCtx s i.msg = some 0 && ctlValid i.msg && j.phase ≠ 5 && j.fail.isNone
def jobFor (phase : Nat) (parts : List (List Byte)) : LoadJob := { jobDone with phase, parts }
def agreesWith (j : LoadJob) (i : InMsg) : Bool := (List.range 4).all fun k => ctlArg i.msg k = (loadArgs j).getD k 0
def jobOther : LoadJob := { jobFor 4 parts0 with record := rcd 96 [0, 78] }
theorem wit_LoadsCommitOrFail_2 :
    doneSound (jobFor 4 parts0) [0, 1] (doneIn jobDone 2 parts0) = true ∧ bitsOf (ctlArg (doneIn jobDone 2 parts0).msg 4) 7 0 = 2 ∧
    (oldTables 0 (jobFor 4 parts0) (doneTo (jobFor 4 parts0) [0, 1] (doneIn jobDone 2 parts0))).2.all (·.isSome) = true ∧
    doneSound jobOther [1, 0] (doneIn jobDone 1 parts0) = true ∧ agreesWith jobOther (doneIn jobDone 1 parts0) = false ∧
    doneSound (jobFor 3 parts0) [1, 0] (doneIn jobDone 1 (List.replicate 8 (List.replicate 32 1))) = true ∧
    tokenParts (doneIn jobDone 1 (List.replicate 8 (List.replicate 32 1))).msg ≠ parts0 ∧
    doneSound (jobFor 3 parts0) [1, 0] (doneIn jobDone 1 parts0) = true ∧ agreesWith (jobFor 3 parts0) (doneIn jobDone 1 parts0) = true ∧
    tokenParts (doneIn jobDone 1 parts0).msg = parts0 ∧
    (doneTo (jobFor 3 parts0) [1, 0] (doneIn jobDone 1 parts0)).canSend (doneMsg jobDone 2 parts0 (doneTo (jobFor 3 parts0) [1, 0] (doneIn jobDone 1 parts0))) = true := by
  decide +kernel
/-- A member at position 1 of a ring of two, to which a token of the load comes. -/
def member (cop phase : Nat) (args : List Nat) : State := told 0 cop 7 args (ringLoad { jobEmpty with phase } [1, 0] State.reset)
def tokenHere (s : State) (cop n : Nat) : Bool :=
  s.live && (match ctlMsgs s 0 cop with
    | [i] => tokenCtx s i.msg = some 0 && ctlValid i.msg &&
        s.canSend (ctlMsg 0 (ringNextPkg s 0 0) 0 cop (ringJob s 0) ((List.range n).map (ctlArg i.msg)))
    | _ => false)
theorem wit_LoadsCommitOrFail_3 : tokenHere (member 0x51 4 []) 0x51 4 = true ∧ (getLoad (member 0x51 4 []) 0).job = some { jobEmpty with phase := 4 } ∧
    ringPos (member 0x51 4 []) 0 ≠ 0 ∧ jobEmpty.slot < 2 ∧ (oldTables 0 { jobEmpty with phase := 4 } (member 0x51 4 [])).2.all (·.isSome) = true ∧
    tokenHere (member 0x52 3 [0, 0, 0, 0, 0, 0x26]) 0x52 6 = true ∧ (ctlMsgs (member 0x52 3 [0, 0, 0, 0, 0, 0x26]) 0 0x52).all (fun i =>
      bitsOf (ctlArg i.msg 4) 22 16 ≠ ringPos (member 0x52 3 [0, 0, 0, 0, 0, 0x26]) 0) = true := by decide +kernel
theorem wit_LoadsCommitOrFail_4 : (loading { jobEmpty with fail := some (0, 0x26, 0, 0) } late).live = true ∧
    0 + reg (loading { jobEmpty with fail := some (0, 0x26, 0, 0) } late) (aFab 0 0x18) ≤ (loading { jobEmpty with fail := some (0, 0x26, 0, 0) } late).now := by decide +kernel

/-- An ABORT comes to a member that has no load. -/
def noLoad : State := told 0 0x52 7 [1, 2, 3, 4, 0, 0x26] (ringIn 0 2 [1, 0] (net State.reset))
theorem wit_LoadsCommitOrFail_6 : tokenHere noLoad 0x52 6 = true ∧ (getLoad noLoad 0).job = none ∧
    (ctlMsgs noLoad 0 0x52).all (fun i => !committedAs noLoad 0 i.msg && bitsOf (ctlArg i.msg 4) 22 16 ≠ ringPos noLoad 0) = true := by decide +kernel

/-- A PASS_COUNT token comes to the head of a ring of two with a count of requests for the current generation. -/
def headPass : State := told 0 0x40 7 [9, 0, 5, 0, 0] (ringIn 0 2 [0, 1] (net State.reset))
theorem wit_PassesAndChecks_1 : tokenHere (member 0x40 3 [9, 0, 5, 0, 0]) 0x40 5 = true ∧ ringPos (member 0x40 3 [9, 0, 5, 0, 0]) 0 ≠ 0 ∧
    tokenHere (member 0x41 3 [9, 1]) 0x41 2 = true ∧ ringPos (member 0x41 3 [9, 1]) 0 ≠ 0 ∧
    tokenHere headPass 0x40 5 = true ∧ ringPos headPass 0 = 0 ∧ 1 < ringN headPass 0 ∧ (ctlMsgs headPass 0 0x40).all (fun i => ctlArg i.msg 2 ≠ 0) = true ∧
    headPass.canSend (ctlMsg 0 (ringNextPkg headPass 0 0) 0 0x41 (ringJob headPass 0) [9, (getLoad headPass 0).genCur]) = true := by decide +kernel
def inferring : State := setLoad 3 { kind := 2 } (ringIn 3 3 [0, 1] (net State.reset))
theorem wit_PassesAndChecks_2 : inferring.live = true ∧ ctlMsgs inferring 0 0x40 = [] ∧ (List.range 8).find? (countable inferring) = some 3 ∧ 1 < ringN inferring 3 ∧
    inferring.canSend (ctlMsg 0 (ringNextPkg inferring 3 0) 0 0x40 (ringJob inferring 3) [1, 0, 0, 0, 0]) = true := by decide +kernel
/-- A slot of context 2 is valid, its lane without stones; the digest kept of it is right, or not. -/
def checking (dig : List Byte) : State :=
  setSlotValid 2 0 true { loads := [(2, { kind := 1, digests := [(7, dig)] })], checks := [(7, some { begun := 0, cover := [(2, 0, 0, 5)] })] }
def slotChecked (s : State) : Bool :=
  s.live && awakeHbm s && checkOf s 7 == some { begun := 0, cover := [(2, 0, 0, 5)] } && coverLeft s { begun := 0, cover := [(2, 0, 0, 5)] } = [(2, 0, 0, 5)] &&
    (getLoad s 2).job.isNone && (lanePayload 7 2 0 s).2 == some []
theorem wit_PassesAndChecks_3 : late.live = true ∧ awakeHbm late = true ∧ checkOf late 7 = none ∧
    mapGet 0 late.checkAt 7 + reg late (aSec 0 0x80008) * 10 ^ 9 ≤ 2 ^ 50 ∧
    checkOf ({ checks := [(7, some { begun := 0 })] } : State) 7 = some { begun := 0 } ∧ coverLeft ({ checks := [(7, some { begun := 0 })] } : State) { begun := 0 } = [] ∧
    slotChecked (checking (sha256 [])) = true ∧ sha256 [] = mapGet [] (getLoad (checking (sha256 [])) 2).digests 7 ∧
    slotChecked (checking []) = true ∧ sha256 [] ≠ mapGet [] (getLoad (checking []) 2).digests 7 := by decide +kernel

/-- A head that has retired a generation which other members may still need. -/
def retired : State := setLoad 3 { kind := 2, genOld := some 4, genCur := 5 } (ringIn 3 3 [0, 1] (net State.reset))
def markedBad : CheckS := { begun := 0, cover := [(2, 0, 0, 5)], bad := [2] }
theorem wit_PassesAndChecks_4 :
    passRead (checking (sha256 [])) 7 { begun := 0, cover := [(2, 0, 0, 5)] } = true ∧ passRead (checking []) 7 { begun := 0, cover := [(2, 0, 0, 5)] } = true ∧
    passRead ({ checks := [(7, some { begun := 0 })] } : State) 7 { begun := 0 } = true ∧
    passRead { (checking []) with checks := [(7, some markedBad)] } 7 markedBad = true ∧
    coverLeft { (checking []) with checks := [(7, some markedBad)] } markedBad = [(2, 0, 0, 5)] ∧ markedBad.bad.contains 2 = true := by decide +kernel

/-! ## Witnesses: the host interface -/

def linkIn (l : Nat) (s : State) : State := { s with host := { s.host with link := l } }
theorem wit_TheHostLinkTrainsAndFails : (linkIn 1 State.reset).live = true ∧ (linkIn 1 State.reset).host.link = 1 ∧
    (linkIn 2 State.reset).host.link = 2 ∧ (linkIn 2 State.reset).host.downDue = [] ∧ (linkIn 3 State.reset).host.link = 3 := by decide +kernel

/-- A command of a ring with operand words from A0 on. -/
def cmdOf (r : RingSet) (op ctx : Nat) (l : List Nat) : Cmd :=
  { src := .ring r, words := (([op * 2 ^ 24 + ctx * 2 ^ 19, 0, 0, 0] ++ l ++ List.replicate 16 0).take 16).map (BitVec.ofNat 32), seqNo := 0 }
/-- Command 0 waits, after negotiation, at a stage of boot; the link is UP. -/
def cmdIn (stage : Nat) (x : Cmd) (s : State) : State :=
  setCmd 0 x (putReg (aIdv 0 8) (stage * 2 ^ 28) { s with host := { s.host with link := 3, negotiated := true, nextCmd := 1 } })
def accIn (q : Access) (s : State) : State := { s with host := { s.host with accs := [(0, q)], nextAcc := 1 } }
def anAcc (p : Purpose) (write : Bool) (len : Nat) : Access := { cmd := 0, purpose := p, write, addr := 0, len, off := 0, issued := 0 }
theorem wit_HostAccessesComplete_1 : ∀ p ∈ [Purpose.copyOut, .firmware],
    let s := accIn (anAcc p true 64) (cmdIn 7 (cmdOf 1 0x18 0 []) { clk := { t := 2 ^ 40 } })
    s.live = true ∧ getAcc s 0 = some (anAcc p true 64) ∧ (anAcc p true 64).issued + reg s (aHlk 0x80) ≤ s.now ∧ p ≠ .manifest ∧ (getCmd s 0).isSome = true := by
  decide +kernel
theorem wit_HostAccessesComplete_2 : ∀ p ∈ [Purpose.allotResult 3, .report 64, .copyIn (gaS 0 0 0)],
    let s := accIn (anAcc p (p ≠ .copyIn (gaS 0 0 0)) 64) (cmdIn 7 (cmdOf 1 0x17 0 []) State.reset)
    s.live = true ∧ s.host.link = 3 ∧ getAcc s 0 = some (anAcc p (p ≠ .copyIn (gaS 0 0 0)) 64) ∧ 0 < s.host.nextAcc ∧ (getCmd s 0).any (fun x => cmdOp x = 0x17) = true ∧
      (List.replicate 64 (7 : Byte)).length = 64 ∧ s.clk.replaying = false ∧ s.clk.recording = false ∧ placeOf s (gaS 0 0 0) = .scr 0 0 0 := by
  decide +kernel

theorem wit_HostAccessesComplete_3 : ∀ e ∈ [(Purpose.ringRecord, 0x10, 272), (Purpose.loadRecord, 0x12, 96), (Purpose.nonce, 5, 32)],
    let s := accIn (anAcc e.1 false e.2.2) (cmdIn 7 (cmdOf 1 e.2.1 0 []) State.reset)
    s.live = true ∧ s.host.link = 3 ∧ getAcc s 0 = some (anAcc e.1 false e.2.2) ∧ 0 < s.host.nextAcc ∧ (getCmd s 0).any (fun x => cmdOp x = e.2.1) = true ∧
      (List.replicate e.2.2 (7 : Byte)).length = (anAcc e.1 false e.2.2).len ∧ s.clk.replaying = false ∧ s.clk.recording = false := by decide +kernel
theorem wit_HostAccessesComplete_4 :
    let s := accIn (anAcc .manifest false 64) (cmdIn 7 (cmdOf 1 0x12 0 []) { clk := { t := 2 ^ 40 } })
    s.live = true ∧ getAcc s 0 = some (anAcc .manifest false 64) ∧ (anAcc .manifest false 64).issued + reg s (aHlk 0x80) ≤ s.now ∧ (getCmd s 0).isSome = true := by
  decide +kernel

/-- Aperture 0 is open on this package's scratchpads or, with its high word set, on HBM of die 0. -/
def apIn (hi : Nat) : State := putReg (aHlk 0x60) 1 (putReg (aHlk 0x64) hi (linkIn 3 State.reset))
theorem wit_ApertureAccesses_1 : (apIn 0).live = true ∧ apertureOk 64 64 = true ∧ apertureAt (linkIn 3 State.reset) 0 64 64 = none ∧
    apertureAt (apIn 0) 0 64 64 = some 64 ∧ placeOf (apIn 0) 64 = .scr 0 0 64 ∧ (apIn 0).cleanGa 64 64 = true ∧
    apertureAt (apIn 0x800) 0 64 64 = some (gaH 0 64) ∧ placeOf (apIn 0x800) (gaH 0 64) = .hbm 0 64 ∧ (apIn 0x800).cleanGa (gaH 0 64) 64 = true ∧
    (apIn 0).pwr.state = 0 ∧ (apIn 0).host.inOrder = [] ∧ setupBusy (apIn 0) = false ∧ (apIn 0).clk.replaying = false ∧ (apIn 0).clk.recording = false := by
  decide +kernel
theorem wit_ApertureAccesses_2 : (badUnit (apIn 0x800)).live = true ∧ apertureOk 0 64 = true ∧ apertureAt (badUnit (apIn 0x800)) 0 0 64 = some (gaH 0 0) ∧
    placeOf (badUnit (apIn 0x800)) (gaH 0 0) = .hbm 0 0 ∧ (unitsOf 0 64).any (unitBad (badUnit (apIn 0x800)) 0) = true ∧
    (badUnit (apIn 0x800)).pwr.state = 0 ∧ (badUnit (apIn 0x800)).host.link = 3 := by decide +kernel

theorem wit_ApertureAccesses_3 :
    let s := oneWrite .host (aGct 0 8) 1 (apIn 0)
    s.live = true ∧ s.host.link = 3 ∧ s.pwr.state = 0 ∧ s.host.inOrder = [] ∧ setupBusy s = true ∧
      ({ (apIn 0) with pwr := { state := 2 } } : State).live = true ∧ ({ (apIn 0) with pwr := { state := 2 } } : State).host.link = 3 := by decide +kernel

def ringOpen (r : Nat) (s : State) : State := putReg (aBell r 0) 1 (putRing r { cmdLog := 4, cplLog := 4, evLog := 4 } s)
def nopBytes : List Byte := rcd 64 [0x1B * 2 ^ 24]
/-- Core 6's port holds one command in HBM. -/
def corePort : State := placeBytes 0 0 nopBytes (putReg64 (aLcc 1 2 0x20) (gaH 0 0) (putReg (aLcc 1 2 0x28) 4 (putReg (aLcc 1 2 0x2C) 1 State.reset)))
def cmdAllowed (src : CmdSrc) (b : List Byte) : Bool := opAllowed { src, words := toWords 16 b, seqNo := 0 }
theorem wit_CommandsAreFetched : mayFetchRing (ringOpen 1 (cmdIn 7 (cmdOf 0 7 0 []) State.reset)) 1 = true ∧
    (getRing (ringOpen 1 (cmdIn 7 (cmdOf 0 7 0 []) State.reset)) 1).isSome = true ∧ nopBytes.length = 64 ∧ cmdAllowed (.ring 1) nopBytes = true ∧
    State.reset.clk.recording = false ∧
    corePort.live = true ∧ mayFetchCore corePort 6 = true ∧ reg64 corePort (aLcc 1 2 0x20) + 64 * reg corePort (aLcc 1 2 0x30) = gaH 0 0 ∧
    corePort.cleanGa (gaH 0 0) 64 = true ∧ cmdAllowed (.core 6) (corePort.bytesAt (agCmd 0) (gaH 0 0) 64) = true ∧
    (17 : Fin 18).val ∈ ({ host := { link := 3, irqWait := [17] }, clk := { t := 2 ^ 40 } } : State).host.irqWait ∧
    mapGet 0 ([] : SMap Nat) 17 + reg ({ host := { link := 3, irqWait := [17] }, clk := { t := 2 ^ 40 } } : State) (aHlk 0x84) ≤ 2 ^ 40 + 1 := by decide +kernel
def requestBytes : List Byte := rcd 64 [0x19 * 2 ^ 24]
theorem wit_CommandsAreFetched_2 : requestBytes.length = 64 ∧ cmdAllowed (.ring 1) requestBytes = true ∧
    (∀ e ∈ (ringOpen 1 (cmdIn 7 (cmdOf 0 7 0 []) State.reset)).host.cmds, opAllowed e.2 = true) ∧
    [(RegKind.cmdTail, 0), (.cplHead, 4), (.evHead, 8)].all (fun (k, o) => [0, 1, 8].all fun i =>
      kindB (oneWrite .host (aBell i o) 0x12345 State.reset) k .host (aBell i o) 0x12345 i 0 && (i = 0 || !holdsInputs State.reset (i - 1))) = true := by
  decide +kernel

/-- The opcodes of the rows below, in their order (R361). -/
def cmdOps : List Nat := (List.range 7).map (· + 1) ++ (List.range 12).map (· + 0x10)
/-- Every row of a command of the rings, with a descriptor that it may begin. -/
def cmdRows : List (Instr × RingSet × List Nat) := [(.negotiate 0, 0, []), (.setupCommit 0, 0, []), (.ctxOpen 0, 0, [0, 0, 0, 0, 0, 0, 0x444]),
  (.ctxClose 0, 0, []), (.attestReport 0 0 false, 0, []), (.fwUpdate 0, 0, []), (.adminMark 0, 0, []), (.ringForm 0 0, 1, []), (.ringDissolve 0, 1, []),
  (.modelLoad 0 0, 1, []), (.modelSwap 0 0, 1, []), (.modelUnload 0, 1, []), (.allot 0, 1, [2, 1]), (.free 0, 1, []),
  (.copyIn 0, 1, [0, 0, 0, 0, 64]), (.copyOut 0, 1, [0, 0, 0, 0, 64]), (.request 0, 1, [0, 0, 0, 0, 0, 0, 1]), (.jobAbort 0, 1, []), (.mark 0, 1, [])]
def cmdSound (stage : Nat) (neg bad : Bool) (e : (Instr × RingSet × List Nat) × Nat) : Bool :=
  let x := cmdOf e.1.2.1 e.2 0 (if bad then (if e.2 = 5 then [0, 0, 0, 0, 0, 2] else e.1.2.2 ++ List.replicate 12 1) else e.1.2.2)
  let s := cmdIn stage x State.reset
  let s := { s with host := { s.host with negotiated := neg } }
  match commandRow s e.1.1 with
  | some (op, c, _) => op == e.2 &&
    s.live && canBegin s c (fun x => opAllowed x && cmdOp x = op) && getCmd s c == some x && bootStage s == stage && (cmdBad s x).isSome == bad
  | none => false
theorem wit_RingCommandsBeginAndComplete_1 :
    (cmdRows.zip cmdOps).all (fun e => cmdSound 7 true false e && cmdSound 7 true true e && cmdSound 7 false false e && cmdSound 6 true false e) = true ∧
    cmdOps.filter (fun op => windowed op) = [3, 4, 0x10, 0x11, 0x12, 0x13, 0x14, 0x15, 0x16, 0x17, 0x18, 0x19, 0x1A, 0x1B] ∧
    cmdOps.filter (fun op => !windowed op) = [1, 2, 5, 6, 7] := by decide +kernel
theorem wit_RingCommandsBeginAndComplete_4 :
    (cmdRows.zip cmdOps).all (fun e => (0x10 ≤ e.2 || cmdSound 9 true false e) && cmdSound 8 true false e && cmdSound 8 false false e) = true := by
  decide +kernel
/-- A command whose arbitration window is over. -/
def windowOver (x : Cmd) : State := { cmdIn 7 x { clk := { count := 40 } } with setup := { acts := [(0, .cmd 0)] } }
theorem wit_RingCommandsBeginAndComplete_2 : (windowOver (cmdOf 1 0x1B 0 [])).setup.acts = [(0, .cmd 0)] ∧ windowed 0x1B = true ∧
    getCmd (windowOver (cmdOf 1 0x1B 0 [])) 0 = some (cmdOf 1 0x1B 0 []) ∧ cmdOp (cmdOf 1 0x1B 0 []) = 0x1B ∧
    (windowOver (cmdOf 1 0x1B 0 [])).live = true ∧ (windowOver (cmdOf 1 0x1B 0 [])).pwr.state = 0 ∧ 40 * 0 + 40 ≤ (windowOver (cmdOf 1 0x1B 0 [])).clk.count ∧
    ((commandRow (windowOver (cmdOf 1 0x1B 0 [])) (.mark 0)).map fun r => (r.1, r.2.1)) = some (0x1B, 0) := by decide +kernel
theorem wit_RingCommandsBeginAndComplete_3 : getCmd (ringOpen 1 (cmdIn 7 (cmdOf 1 0x1B 0 []) State.reset)) 0 = some (cmdOf 1 0x1B 0 []) ∧
    (cmdOf 1 0x1B 0 []).src = .ring 1 ∧ (getRing (ringOpen 1 (cmdIn 7 (cmdOf 1 0x1B 0 []) State.reset)) (1 : RingSet).val).isSome = true := by decide +kernel

/-- Words of a NEGOTIATE that agree with the reset majors, and one that does not. -/
def negWords (d : Nat) : List Nat := (List.range 5).map fun i => (regF State.reset (aHlk (0x10 + 4 * i)) 31 24 + d) * 256
theorem wit_AdminCommandsAct_1 :
    let s (d : Nat) : State := { cmdIn 7 (cmdOf 0 1 0 (negWords d)) State.reset with host := { (cmdIn 7 (cmdOf 0 1 0 (negWords d)) State.reset).host with negotiated := false } }
    getCmd (s 0) 0 = some (cmdOf 0 1 0 (negWords 0)) ∧ (s 0).host.negotiated = false ∧
      ((List.range 5).all (fun i => bitsOf (cmdA (cmdOf 0 1 0 (negWords 0)) i) 15 8 == regF (s 0) (aHlk (0x10 + 4 * i)) 31 24)) = true ∧
      ((List.range 5).all (fun i => bitsOf (cmdA (cmdOf 0 1 0 (negWords 1)) i) 15 8 != regF (s 1) (aHlk (0x10 + 4 * i)) 31 24)) = true := by decide +kernel
theorem wit_AdminCommandsAct_2 : (cmdIn 7 (cmdOf 0 2 0 []) State.reset).host.negotiated = true ∧ (cmdIn 7 (cmdOf 0 2 0 []) State.reset).setup.committed = false ∧
    commitBad (cmdIn 7 (cmdOf 0 2 0 []) State.reset) = none ∧
    commitBad (putReg (aGct 0 8) 3 (cmdIn 7 (cmdOf 0 2 0 []) State.reset)) = some (aGct 0 8) ∧ aGct 0 8 < 2 ^ 32 ∧
    (getCmd (putReg (aGct 0 8) 3 (cmdIn 7 (cmdOf 0 2 0 []) State.reset)) 0).isSome = true := by decide +kernel
def committedIn (x : Cmd) : State := { cmdIn 7 x State.reset with setup := { committed := true } }
theorem wit_AdminCommandsAct_3 : getCmd (committedIn (cmdOf 0 3 7 [])) 0 = some (cmdOf 0 3 7 []) ∧ cmdCtx (cmdOf 0 3 7 []) = 7 ∧
    (cmdOf 0 3 7 []).src = .ring 0 ∧ (committedIn (cmdOf 0 3 7 [])).setup.committed = true ∧ getRing (committedIn (cmdOf 0 3 7 [])) (cmdCtx (cmdOf 0 3 7 []) + 1) = none ∧
    (cmdIn 7 (cmdOf 0 3 7 []) State.reset).setup.committed = false ∧ earlierCmds (cmdIn 7 (cmdOf 1 0x1B 0 []) State.reset) (cmdOf 1 0x1B 0 []) = [] := by decide +kernel

theorem wit_AllotmentsAndContexts_1 : (match makeAllots 0 [(2, 1), (3, 2)] [] State.reset with | .inr (ids, _) => ids.length = 2 | .inl _ => false) = true ∧
    (fitRuns State.reset ([(2, 1), (3, 2)].map (·.2)) (usedRuns State.reset 7 [])).isSome = true := by decide +kernel
def allotIn (ctx : Nat) (s : State) : State := { s with hbm := { s.hbm with allots := [(9, { ctx, cat := 2, runs := List.replicate 8 (reserveTop, 1) })] } }
theorem wit_AllotmentsAndContexts_2 :
    mapLookup (allotIn 3 (cmdIn 7 (cmdOf 4 0x16 3 [9]) State.reset)).hbm.allots (cmdA (cmdOf 4 0x16 3 [9]) 0) = some { ctx := 3, cat := 2, runs := List.replicate 8 (reserveTop, 1) } ∧
    cmdCtx (cmdOf 4 0x16 3 [9]) = 3 ∧ getCmd (allotIn 3 (cmdIn 7 (cmdOf 4 0x16 3 [9]) State.reset)) 0 = some (cmdOf 4 0x16 3 [9]) ∧ cmdCtx (cmdOf 5 0x16 0 [9]) ≠ 3 := by
  decide +kernel
theorem wit_AllotmentsAndContexts_3 :
    let s := ringOpen 4 (allotIn 3 (cmdIn 7 (cmdOf 0 4 3 []) State.reset))
    getCmd s 0 = some (cmdOf 0 4 3 []) ∧ ctxOpen s (cmdCtx (cmdOf 0 4 3 [])) = true ∧ launched s (cmdCtx (cmdOf 0 4 3 [])) = false ∧
      mapLookup s.fab.aborts (cmdCtx (cmdOf 0 4 3 [])) = none := by decide +kernel

theorem wit_AllotmentsAndContexts_4 :
    (match makeAllots 0 [(2, 1)] [] State.reset with | .inr (ids, _) => ids.length | .inl _ => 0) = 1 ∧
    (match makeAllots 0 [(2, 2 ^ 32 - 1)] [] State.reset with | .inl d => d | .inr _ => 9) = 0 ∧
    getCmd (cmdIn 7 (cmdOf 1 0x15 0 [2, 1]) State.reset) 0 = some (cmdOf 1 0x15 0 [2, 1]) := by decide +kernel

/-- A COPY of n bytes between the host and an address of the package, either way. -/
def copyCmd (op ga n : Nat) : Cmd := cmdOf 1 op 0 (if op = 0x17 then [0, 0, ga % 2 ^ 32, ga / 2 ^ 32, n] else [ga % 2 ^ 32, ga / 2 ^ 32, 0, 0, n])
def copyIn7 (op ga n : Nat) : State := cmdIn 7 (copyCmd op ga n) State.reset
theorem wit_ContextCommandsAct_1 : ∀ op ∈ [0x17, 0x18], getCmd (copyIn7 op (gaH 0 0) 64) 0 = some (copyCmd op (gaH 0 0) 64) ∧ cmdOp (copyCmd op (gaH 0 0) 64) = op ∧
    copyPlaced (copyIn7 op (gaH 0 0) 64) (copyCmd op (gaH 0 0) 64) = true ∧ cmdA (copyCmd op (gaH 0 0) 64) 4 = 64 ∧ (copyIn7 op (gaH 0 0) 64).host.accs = [] ∧
    cmdA64 (copyCmd 0x18 (gaH 0 0) 64) 0 = gaH 0 0 ∧ (copyIn7 op (gaH 0 0) 64).cleanGa (gaH 0 0) 64 = true ∧
    copyPlaced (copyIn7 op (2 ^ 45 - 64) 64) (copyCmd op (2 ^ 45 - 64) 64) = false := by decide +kernel
theorem wit_ContextCommandsAct_2 :
    let s := ringIn 0 2 [0] (cmdIn 7 (cmdOf 1 0x1A 0 []) State.reset)
    getCmd s 0 = some (cmdOf 1 0x1A 0 []) ∧ mapLookup s.fab.aborts (cmdCtx (cmdOf 1 0x1A 0 [])) = none ∧ (ringOf s 0).st = 2 ∧ ringN s 0 = 1 := by decide +kernel
/-- A RING_FORM of context 0 with a record, in a torus where `torus` is 1. -/
def formCmd (torus st : Nat) : State := setRing 0 { st } (cmdIn 7 (cmdOf 1 0x10 0 []) (putReg (aFab 0 4) (2 * torus) (net State.reset)))
def transitSet : State := putReg (aPort 0 0 8) 0 (putReg (aFab 0 0x2808) (2 ^ 31 + 2 ^ 29 + 1) (formCmd 1 0))
def torus4 (mode : Nat) : List Byte := ringRcd 7 [0, 1, 2, 3] (2 ^ 11 + mode * 2 ^ 9)
theorem wit_ContextCommandsAct_3 : getCmd (formCmd 0 1) 0 = some (cmdOf 1 0x10 0 []) ∧ (torus4 0).length = 272 ∧ (ringOf (formCmd 0 1) 0).st ≠ 0 ∧
    (ringOf (formCmd 0 0) 0).st = 0 ∧ ringListBad (formCmd 0 0) 0 (ringRcd 7 [1, 0, 1] 0) = some 2 ∧
    ringListBad (formCmd 1 0) 0 (ringRcd 7 [0, 2] (2 ^ 11)) = none ∧ hopBad (ringRcd 7 [0, 2] (2 ^ 11)) = some 0 ∧
    ringListBad transitSet 0 (torus4 0) = none ∧ hopBad (torus4 0) = none ∧ transitBad transitSet (torus4 0) = some 0 ∧
    transitBad (formCmd 1 0) (torus4 0) = none := by decide +kernel
def formed (ms : List Nat) : State := formRing 0 (ringRcd 7 ms 0) (formCmd 0 0)
theorem wit_ContextCommandsAct_4 : (∀ ms ∈ [[0], [0, 1]], ringListBad (formCmd 0 0) 0 (ringRcd 7 ms 0) = none ∧ hopBad (ringRcd 7 ms 0) = none ∧
      transitBad (formCmd 0 0) (ringRcd 7 ms 0) = none ∧ rcdN (ringRcd 7 ms 0) = ms.length ∧ (ringRcd 7 ms 0).length = 272) ∧
    rcdMember (ringRcd 7 [0, 1] 0) 0 = pkgId (formCmd 0 0) ∧
    (formed [0, 1]).canSend (ctlMsg 0 (ringNextPkg (formed [0, 1]) 0 0) 0 0x10 7 ((2 + 2 ^ 8) :: ringDigestWords (formed [0, 1]) 0)) = true := by decide +kernel
/-- A MODEL_LOAD of context 0 whose ring is in a state. -/
def loadCmd (st : Nat) : State := ringIn 0 st [0] (cmdIn 7 (cmdOf 1 0x12 0 []) State.reset)
def goodRecord : List Byte := loadRec man0 (sha256 man0)
theorem wit_ContextCommandsAct_5 : getCmd (loadCmd 2) 0 = some (cmdOf 1 0x12 0 []) ∧ cmdOp (cmdOf 1 0x12 0 []) = 0x12 ∧ goodRecord.length = 96 ∧
    loadBusy (modLoad 0 (fun l => { l with kind := 1 }) (loadCmd 2)) 0 false = true ∧ loadBusy (loadCmd 2) 0 false = false ∧ (ringOf (loadCmd 2) 0).st = 2 ∧
    (ringOf (loadCmd 0) 0).st ≠ 2 ∧ loadBusy (loadCmd 0) 0 false = false ∧ recBad false goodRecord = none := by decide +kernel
theorem wit_ContextCommandsAct_6 : (ringOf (loadCmd 3) 0).st = 3 ∧ (getLoad (loadCmd 2) 0).job = none ∧ (ringOf (loadCmd 2) 0).cmd = none := by decide +kernel

def updating (len phase : Nat) : State := accIn (anAcc .firmware false len) (cmdIn 7 { cmdOf 0 6 0 [] with begun := true, phase } State.reset)
theorem wit_FirmwareUpdates_0 : (updateCmd (updating 64 1)).isSome = true ∧ (getCmd (updating 64 1) 0).isSome = true ∧
    updateCmd (cmdIn 7 (cmdOf 0 6 0 []) State.reset) = none ∧ swSetNow (cmdIn 7 (cmdOf 0 6 0 []) State.reset) aUpdate = 0 ∧ bootStage (cmdIn 7 (cmdOf 0 6 0 []) State.reset) ≠ 8 ∧
    getCmd (cmdIn 7 (cmdOf 0 6 0 []) State.reset) 0 = some (cmdOf 0 6 0 []) := by decide +kernel
/-- An ATTEST_REPORT with a buffer of n bytes, and the key that signs it. -/
def attesting (n : Nat) : State := { cmdIn 7 (cmdOf 0 5 0 [0, 0, n]) State.reset with boot := { attKey := some 1 } }
theorem wit_FirmwareUpdates_3 : getCmd (attesting 64) 0 = some (cmdOf 0 5 0 [0, 0, 64]) ∧ (attesting 64).boot.attKey = some 1 ∧
    cmdA (cmdOf 0 5 0 [0, 0, 64]) 2 < reportLen (attesting 64) (cmdA (cmdOf 0 5 0 [0, 0, 64]) 5 = 1) ∧
    reportLen (attesting 65536) (cmdA (cmdOf 0 5 0 [0, 0, 65536]) 5 = 1) ≤ cmdA (cmdOf 0 5 0 [0, 0, 65536]) 2 := by decide +kernel
theorem wit_FirmwareUpdates_1 : (updating 64 1).live = true ∧ (updating 64 1).host.link = 3 ∧ imageAcc (updating 64 1) = some (0, anAcc .firmware false 64) ∧
    swSetNow (updating 64 1) aUpdate = 0 ∧ (List.replicate 64 (0 : Byte)).length = 64 ∧ imageBad (updating 64 1) (List.replicate 64 0) = some (2, 0) := by decide +kernel
theorem wit_FirmwareUpdates_2 : swSetNow (updating 64 2) aUpdate = 0 ∧ updateCmd (updating 64 2) = some 0 ∧ getCmd (updating 64 2) 0 = some { cmdOf 0 6 0 [] with begun := true, phase := 2 } := by decide +kernel
theorem wit_RingCommandsBeginAndComplete_5 : let x := { cmdOf 1 0x1B 0 [] with src := .core 6 }
    getCmd (cmdIn 7 x State.reset) 0 = some x ∧ x.src = .core 6 := by decide +kernel
/-- A MODEL_SWAP of context 0 on a ring in a state, with a model of a kind. -/
def swapCmd (st kind : Nat) (newValid : Bool) : State :=
  modLoad 0 (fun l => { l with kind, newValid }) (ringIn 0 st [0] (cmdIn 7 (cmdOf 1 0x13 0 []) State.reset))
def swapRecord : List Byte := wordsLE [2 * 2 ^ 28, 77, 1, 0, 0, 0, man0.length, 0, 0, 0, 0, 0, 0, 0, 0, 0] ++ sha256 man0
theorem wit_ContextCommandsAct_7 : getCmd (swapCmd 2 2 true) 0 = some (cmdOf 1 0x13 0 []) ∧ cmdOp (cmdOf 1 0x13 0 []) = 0x13 ∧
    loadBusy (swapCmd 2 2 true) 0 true = false ∧ (getLoad (swapCmd 2 2 true) 0).newValid = true ∧
    loadBusy (swapCmd 2 1 false) 0 true = false ∧ (ringOf (swapCmd 2 1 false) 0).st = 2 ∧ (getLoad (swapCmd 2 1 false) 0).kind ≠ 2 ∧
    loadBusy (swapCmd 3 2 false) 0 true = false ∧ (ringOf (swapCmd 3 2 false) 0).st = 3 ∧ (getLoad (swapCmd 3 2 false) 0).kind = 2 ∧
    swapRecord.length = 96 ∧ recBad true swapRecord = none := by decide +kernel
def noted : State := { (attesting 65536) with boot := { attKey := some 1, reports := [(0, List.replicate 256 0)] } }
theorem wit_FirmwareUpdates_4 : noted.boot.attKey = some 1 ∧ mapLookup noted.boot.reports 0 = some (List.replicate 256 0) ∧
    0x40 ≤ (List.replicate 256 (0 : Byte)).length ∧ State.reset.boot.attKey = none := by decide +kernel
/-- An image of one sector's first 64 bytes is staged. -/
def staged : State := { (updating 64 2) with boot := { staged := List.replicate 64 5 } }
theorem wit_FirmwareUpdates_5 : staged.live = true ∧ updateCmd staged = some 0 ∧ getCmd staged 0 = some { cmdOf 0 6 0 [] with begun := true, phase := 2 } ∧
    swSetNow staged aUpdate = 0 ∧ staged.boot.staged.length ≤ 2 ^ 25 ∧ imageSectors staged.boot.staged = 1 ∧ 0 < imageSectors staged.boot.staged ∧
    updateCmd staged ≠ none ∧ bitsOf 0x00010001 31 29 = 0 ∧ bitsOf 0xE0000000 31 29 ≠ 0 := by decide +kernel

/-! ## Witnesses: cores, power, boot and reset, the management bus, numbers -/

def pendingAt (d src tgt : Nat) (s : State) : State := setPending d src (putReg (aIcu d (4 * src)) (2 ^ 31 + tgt) s)
theorem wit_InterruptsReachTheirCores_1 : (pendingAt 7 451 0 State.reset).live = true ∧ srcDelivered (pendingAt 7 451 0 State.reset) 7 (451 : Fin 1024).val = true ∧
    srcSignalled (pendingAt 7 451 0 State.reset) 7 451 = false := by decide +kernel
theorem wit_InterruptsReachTheirCores_3 : sourceDefined 0 1023 = false ∧ sourceDefined 3 41 = false ∧
    regsIcu.any (fun r => r.kind == .icuPend) = true ∧ srcPending (pendingAt 7 451 0 State.reset) 7 451 = true ∧
    hwSetNow (pendingAt 7 451 0 State.reset) (aPend 7 451) = 2 ^ (451 % 32) ∧ hwSetNow State.reset (aPend 7 451) = 0 := by decide +kernel
def runningCore (s : State) : State := putReg (aLcc 0 0 0) 1 (putReg (aIdv 0 8) (7 * 2 ^ 28) s)
theorem wit_InterruptsReachTheirCores_2 : coreRuns (runningCore (pendingAt 0 33 0 State.reset)) 0 = true ∧
    signalFor (runningCore (pendingAt 0 33 0 { icu := { signalled := [(33, true)] } })) 0 = true := by decide +kernel

theorem wit_InterruptsReachTheirCores_4 : [(State.reset, (0x80000005 : Word)), (State.reset, 5), (locked State.reset, 0x80000000), (locked State.reset, 0)].all (fun (s, v) =>
      kindB (oneWrite .host (aIcu 7 (4 * 451)) v s) .icuSrc .host (aIcu 7 (4 * 451)) v 451 0) = true ∧ aIcu 7 (4 * 451) / 0x4000000 = 7 ∧
    kindB (oneWrite .host (aIcu 7 (0x1000 + 4 * 14)) 8 State.reset) .icuPend .host (aIcu 7 (0x1000 + 4 * 14)) 8 14 0 = true ∧
    kindB (oneWrite .host (aIcu 7 0x1180) 451 State.reset) .icuAck .host (aIcu 7 0x1180) 451 0 0 = true ∧
    kindB (oneWrite .host (aIcu 7 0x1250) 3 State.reset) .icuEvqHead .host (aIcu 7 0x1250) 3 0 0 = true := by decide +kernel
def traceWrite (v : Word) (on mode : Nat) : State :=
  oneWrite .host (aLcc 0 0 0x104) v (putReg (aGct 0 0x50) mode (putReg (aLcc 0 0 0x104) on State.reset))
theorem wit_InterruptsReachTheirCores_5 : [(1, 0, 1), (1, 0, 0), (0, 1, 1), (1, 1, 1)].all (fun (v, on, mode) =>
      kindB (traceWrite v on mode) .lccTrace .host (aLcc 0 0 0x104) v 0 0 && regF (traceWrite v on mode) (aLcc 0 0 0x104) 0 0 = on &&
        recMode (traceWrite v on mode) = mode) = true := by decide +kernel
/-- A write of LCC_DBG_CTRL of core 6, which is halted or not. -/
def dbgWrite (v : Word) (halted : Bool) (s : State) : State := oneWrite .host (aLcc 1 2 4) v (setCore 6 { halted } s)
def debugOf (on : Bool) : State := let s := locked State.reset; { s with setup := { s.setup with debugAllowed := on } }
theorem wit_InterruptsReachTheirCores_6 : [State.reset, debugOf true, debugOf false].all (fun s => [(1, false), (2, true), (3, true)].all fun (v, h) =>
      kindB (dbgWrite v h s) .lccDbgCtrl .host (aLcc 1 2 4) v 0 2 && (getCore (dbgWrite v h s) 6).halted == h && !(getCore (dbgWrite v h s) 6).stopped) = true ∧
    4 * (aLcc 1 2 4 / 0x4000000) + 2 = 6 ∧ (debugOf true).setup.debugAllowed = true ∧ (debugOf false).setup.debugAllowed = false := by decide +kernel
theorem wit_InterruptsReachTheirCores_7 :
    kindB (oneWrite .host (aLcc 1 2 0x2C) 5 State.reset) .lccCmdTail .host (aLcc 1 2 0x2C) 5 0 2 = true ∧
    hwSetNow (oneWrite .host (aLcc 1 2 0x2C) 5 State.reset) (aLcc 1 2 0x2C) = 0 := by decide +kernel
/-- Die 3's event queue of 16 entries at 0x4000, with HEAD and TAIL, having lost some. -/
def evqAt (head tail lost : Nat) : State :=
  { (putReg (aIcu 3 0x124C) tail (putReg (aIcu 3 0x1250) head (putReg (aIcu 3 0x1248) 4 (putReg64 (aIcu 3 0x1240) (gaH 3 0x4000) State.reset)))) with
    icu := { evq := [(3, { lost })] } }
theorem wit_InterruptsReachTheirCores_8 : [(0, 0, 0), (6, 5, 0), (0, 15, 4), (9, 5, 2)].all (fun (h, t, l) => evqBase 3 (evqAt h t l) = some (3, 0x4000) &&
      !badFor (.icu 3) (evqAt h t l) 3 ((0x4000 + 32 * t) / 64)) = true ∧ regF (evqAt 0 0 0) (aIcu 3 0x1248) 3 0 = 4 ∧
    [(0, 0), (9, 5)].all (fun (h, t) => (t + 1) % 2 ^ 4 ≠ h % 2 ^ 4) = true ∧ [(6, 5), (0, 15)].all (fun (h, t) => (t + 1) % 2 ^ 4 = h % 2 ^ 4) = true ∧
    evqBase 3 (putReg64 (aIcu 3 0x1240) (gaH 3 reserveTop) State.reset) = none := by decide +kernel
/-- An event of context 2, and its ring set with room or without. -/
def anEvent : Ev := { die := 3, code := 0x0504, ctx := some 2, p0 := 7 }
def ringLost (tail lost : Nat) : State := putRing 3 { evLog := 4, evTail := tail, lost } (hostUp State.reset)
theorem wit_InterruptsReachTheirCores_9 : mapLookup State.reset.host.rings 3 = none ∧
    [(0, 0), (15, 0), (0, 2)].all (fun (t, l) => mapLookup (ringLost t l).host.rings 3 = some { evLog := 4, evTail := t, lost := l }) = true ∧
    evRoom (ringLost 0 0) 3 { evLog := 4, evTail := 0 } = true ∧ evRoom (ringLost 15 0) 3 { evLog := 4, evTail := 15 } = false ∧
    evRoom (ringLost 0 2) 3 { evLog := 4, evTail := 0, lost := 2 } = true ∧ sourceDefined anEvent.die (eventSource anEvent.code) = true := by decide +kernel

/-- The grid of tile 3 of die 0 asks for leave. -/
def asking (klass : Nat) (s : State) : State := modTile 3 (fun t => { t with phase := 1, klass }) s
theorem wit_LeaveStaysWithinTheBudget_1 : (asking 0 State.reset).live = true ∧ (getTile (asking 0 State.reset) (engine 0 3)).phase = 1 ∧
    gridGrant (asking 0 State.reset) (engine 0 3) = none ∧ reqsOf (asking 0 State.reset) 0 = [] ∧ mapGet 0 (asking 0 State.reset).pwr.nextGrant 0 ≤ cycleOf (asking 0 State.reset) ∧
    charges (putReg (aPwr 0 4) 600 (asking 0 State.reset)) 0 + gridMw 0 ≤ budgetOf (putReg (aPwr 0 4) 600 (asking 0 State.reset)) 0 ∧
    ¬ (charges (putReg (aPwr 0 4) 0 (asking 0 State.reset)) 0 + gridMw 0 ≤ budgetOf (putReg (aPwr 0 4) 0 (asking 0 State.reset)) 0) := by decide +kernel
theorem wit_LeaveStaysWithinTheBudget_2 : (∀ t : TileId, LeaveSrc.hbmRead 1 ≠ .grid t) ∧ State.reset.pwr.tripped = false ∧ State.reset.live = true ∧
    (grantsOf State.reset 0).all (·.src ≠ leaveSrc (.hbmRead 1)) = true ∧
    leavePending { hbm := { rq := [{ agent := .host, rid := 0, die := 0, unit := 4 }] } } 0 (leaveSrc (.hbmRead 1)) = true ∧
    leavePending { hbm := { wq := [{ wid := 0, agent := .host, die := 0, unit := 0, off := 0, bytes := [] }] } } 0 (leaveSrc (.hbmWrite 0)) = true ∧
    leavePending (setPort 0 { st := 3, queue := [{ msg := { cls := 1, ty := 5, bytes := [] }, pool := 1 }] } State.reset) 0 (leaveSrc (.port 0)) = true := by
  decide +kernel
def granted (g : LeaveGrant) (s : State) : State := setGrants 0 [g] (asking 0 s)
theorem wit_LeaveStaysWithinTheBudget_3 : (granted { src := 3, mw := 2400, due := 0 } State.reset).live = true ∧
    firstOnWay (granted { src := 3, mw := 2400, due := 0 } State.reset) 0 3 = true ∧ mapGet 0 State.reset.pwr.nextHere 0 ≤ cycleOf State.reset ∧
    gridGrant (granted { src := 3, mw := 2400, due := 0 } State.reset) (engine 0 3) = some { src := 3, mw := 2400, due := 0 } ∧ 0 ≤ cycleOf State.reset ∧
    ({ src := 3, mw := 2400, due := 0 } : LeaveGrant).marked = false := by decide +kernel
theorem wit_LeaveStaysWithinTheBudget_4 : grantOver (granted { src := 3, mw := 2400, due := 0, ended := true } State.reset) 0 (leaveSrc (.grid 3)) = true ∧
    grantOver (granted { src := 44, mw := 2250, due := 0 } { clk := { t := 1000 } }) 0 (leaveSrc (.port 0)) = true ∧
    reqsOf (granted { src := 44, mw := 2250, due := 0 } { clk := { t := 1000 } }) 0 = [] := by decide +kernel

/-- Three grids hold grants beside a port. -/
def fourGrants : State := setGrants 0 [⟨1, 40000, 0, false, false, false⟩, ⟨2, 40000, 0, false, false, false⟩, ⟨44, 40000, 0, false, false, false⟩, ⟨3, 40000, 0, false, false, false⟩] (putReg (aPwr 0 4) 900 State.reset)
theorem wit_LeaveStaysWithinTheBudget_5 : ((grantsOf fourGrants 0).map (·.src)).Nodup ∧ budgetOf fourGrants 0 < sumMw (grantsOf fourGrants 0) ∧
    ({ pwr := { tripped := true } } : State).pwr.tripped = true := by decide +kernel
theorem wit_LeaveStaysWithinTheBudget_6 : kindB (oneWrite .host (aPwr 0 4) 900 State.reset) .pwrLimit .host (aPwr 0 4) 900 0 0 = true ∧
    hwSetNow (oneWrite .host (aPwr 0 4) 900 State.reset) (aPwr 0 4) = 0 := by decide +kernel

theorem wit_PowerStatesAreEnteredAndLeft_1 :
    let s : State := putReg (aPwr 0 0xC) (2 * 2 ^ 16 + 10) (putReg (aPwr 0 8) 0xFFFFFFFF { clk := { t := 10000 } })
    s.live = true ∧ s.pwr.state = 0 ∧ pkgIdle s = true ∧ s.pwr.idleSince + 1000 * regF s (aPwr 0 0xC) 15 0 ≤ s.now ∧ deepest s = 2 := by decide +kernel
theorem wit_PowerStatesAreEnteredAndLeft_2 :
    let s : State := { pwr := { state := 4, waking := true }, clk := { t := 50000000 } }
    s.live = true ∧ s.pwr.waking = true ∧ s.pwr.wakeAt + 1000 * exitLatency s.pwr.state ≤ s.now ∧ s.host.inOrder = [] ∧ s.fab.early = [] ∧ s.pwr.state ≠ 0 := by decide +kernel

theorem wit_SensorsAndTrips_2 : regF State.reset (aPwr 5 0) 2 2 = 0 ∧ 8 * (regF State.reset (aPwr 0 0x20) 23 16 : Int) ≤ 1000 ∧
    8 * (regF State.reset (aPwr 0 0x20) 15 8 : Int) ≤ 1000 ∧ State.reset.pwr.tripped = false ∧
    heldFor ({ pwr := { lowSince := some 0 }, clk := { t := 100000 } } : State).pwr.lowSince 100000 100000 = true ∧
    regF State.reset (aPwr 0 0) 3 3 = 0 ∧ ({ boot := { inReset := true, resetCold := false } } : State).boot.resetCold = false := by decide +kernel
theorem wit_SensorsAndTrips :
    let s : State := { pwr := { tripped := true }, clk := { t := 100000 } }
    s.live = true ∧ s.pwr.tripped = true ∧ s.pwr.trippedAt + 100000 ≤ s.now ∧ regF State.reset (aPwr 0 0) 5 5 ≠ bit true 0 ∧
      regF (putReg (aPwr 0 0) 32 State.reset) (aPwr 0 0) 5 5 ≠ bit false 0 ∧ State.reset.clk.replaying = false ∧ State.reset.pwr.rails = true ∧
      heldFor (holdSince (34999 < 35000 || 46000 < 34999) (some 0) 10000) 10000 10000 = true ∧ State.reset.boot.inReset = false := by decide +kernel

def stageIn (n : Nat) (b : BootS) : State := putReg (aIdv 0 8) (n * 2 ^ 28) { boot := b }
theorem wit_BootGoesThroughItsStages : (stageIn 0 {}).live = true ∧ bootStage State.reset = 0 ∧ bootStage (stageIn 1 {}) = 1 ∧ bootStage (stageIn 2 {}) = 2 ∧
    (List.replicate 192 (0 : Byte)).length = 192 ∧ (List.replicate 256 (0 : Byte)).length = 256 ∧ bootsRetained (stageIn 2 {}) = false ∧
    firstBad (headChecks (stageIn 2 {}) (List.replicate 192 0) (List.replicate 256 0)) = some (2, 0) ∧
    bootsRetained (stageIn 2 { warmBoot := true, retained := [1] }) = true ∧ bootStage (stageIn 3 {}) = 3 ∧ bootsRetained (stageIn 3 {}) = false ∧
    ([] : List Byte).length = wordAt (imgHeader (stageIn 3 {})) 0xC ∧ firstBad (bodyChecks (stageIn 3 {}) (imgHeader (stageIn 3 {})) []) = some (7, 0x20) ∧
    bootStage (stageIn 4 {}) = 4 ∧ bootStage (stageIn 5 {}) = 5 ∧ (stageIn 5 {}).boot.attKey = none ∧ (stageIn 5 { attKey := some 1 }).boot.attKey ≠ none := by decide +kernel

/-- A warm reset has kept the copy of a body. -/
def retainedIn : State := stageIn 3 { warmBoot := true, retained := rcd 192 [0, 0, 0, 4096], header := rcd 192 [0, 0, 0, 4096] }
theorem wit_BootGoesThroughItsStages_2 : retainedIn.live = true ∧ bootStage retainedIn = 3 ∧ bootsRetained retainedIn = true ∧
    (unitsOf bodyAt (wordAt (imgHeader retainedIn) 0xC)).all (fun u => (unitErrs retainedIn 0 u).isEmpty) = true := by decide +kernel

theorem wit_BootGoesThroughItsStages_3 : (stageIn 5 { attKey := some 1 }).boot.svnBurn = none ∧ (stageIn 5 { attKey := some 1, svnBurn := some 2 }).boot.svnBurn ≠ none ∧
    (stageIn 5 {}).live = true ∧ (stageIn 5 { attKey := some 1 }).live = true ∧
    [6, 7].all (fun st => [(0 : Word), 1].all fun v => kindB (oneWrite (.core 0) (aSec 0 0) v (stageIn st {})) .secReady (.core 0) (aSec 0 0) v 0 0) = true := by
  decide +kernel
theorem wit_ResetsAndPowerUp_4 : ({ pwr := { tripped := true, rails := false } } : State).pwr.tripped = true ∧ burning { pwr := { tripped := true, rails := false } } = false ∧
    (putReg (aGct 0 0x64) 0x100 State.reset).pwr.rails = true ∧ (stageIn 5 { svnBurn := some 2 }).pwr.rails = true ∧ (stageIn 5 { svnBurn := some 2 }).boot.dueReset = 0 ∧
    burning (stageIn 5 { svnBurn := some 2 }) = true := by decide +kernel
/-- A package in reset since tick 5 with RST_N low, at tick t. -/
def heldAt (t : Nat) : State := { boot := { inReset := true, rstLow := true, fromPower := true, resetAt := 5 }, clk := { t } }
theorem wit_ResetsAndPowerUp_5 :
    let t := 5 + Config.inputLow 5 + Config.refclkAt 5 + 1000000
    (heldAt t).boot.inReset = true ∧ (heldAt t).pwr.rails = true ∧ (heldAt t).boot.resetAt + 1000000 ≤ (heldAt t).clk.t ∧
      (heldAt t).boot.resetAt + Config.inputLow (heldAt t).boot.resetAt + 1000000 ≤ (heldAt t).clk.t ∧
      Config.refclkAt (heldAt t).boot.resetAt + 1000000 ≤ (heldAt t).clk.t ∧ (heldAt 1000004).clk.t < (heldAt 1000004).boot.resetAt + 1000000 ∧
      (heldAt 1000004).boot.rstLow = true ∧ (heldAt 1000004).clk.t < (heldAt 1000004).boot.resetAt + Config.inputLow (heldAt 1000004).boot.resetAt + 1000000 := by
  refine ⟨rfl, rfl, ?_, ?_, ?_, ?_, rfl, ?_⟩ <;> simp only [heldAt] <;> omega
theorem wit_ResetsAndPowerUp_6 :
    [(0x5A380001 : Word), 0x5A380002, 0x5A380003, 1].all (fun v => kindB (oneWrite .bmc (aIdv 0 0xC) v State.reset) .idvReset .bmc (aIdv 0 0xC) v 0 0) = true ∧
    [Master.bmc, .host].all (fun m => kindB (oneWrite m (aIdv 0 0x10) 9 State.reset) .idvMbox m (aIdv 0 0x10) 9 0 0) = true := by decide +kernel
theorem wit_ResetsAndPowerUp_1 : State.reset.pwr.rails = true ∧ burning State.reset = false ∧ regraded State.reset = false ∧
    (State.reset.boot.inReset && State.reset.boot.resetCold) = false ∧ State.reset.pwr.tripped = false ∧ burning (putReg (aGct 0 0x64) 0x100 State.reset) = true := by decide +kernel
theorem wit_ResetsAndPowerUp_2 :
    let s : State := { boot := { inReset := true, idvResets := [(0, 2)] }, clk := { t := 1000000 } }
    s.boot.inReset = true ∧ s.pwr.rails = true ∧ s.boot.resetAt + 1000000 ≤ s.clk.t ∧ s.boot.idvResets = [(0, 2)] ∧ 0 + 10000 ≤ s.clk.t := by decide +kernel
theorem wit_ResetsAndPowerUp_3 : ({ pwr := { rails := false } } : State).pwr.rails = false ∧ ({ pwr := { rails := false } } : State).pwr.vinAt = none ∧
    ({ pwr := { rails := false, vinAt := some 0 }, clk := { t := 10000000 } } : State).pwr.vinAt = some 0 := by decide +kernel

theorem wit_ManagementBusCommands : State.reset.live = true ∧ State.reset.boot.dynAddr = none ∧ ({ boot := { dynAddr := some 9 } } : State).boot.dynAddr ≠ none ∧
    i3cMine State.reset 0x3A = true ∧ i3cMine { boot := { dynAddr := some 9 } } 9 = true ∧ i3cMine State.reset 9 = false := by decide +kernel

theorem wit_HeldValuesConvertExactly : codeFp 8 ≠ none ∧ (codeFp 8).all (fun f => 0x3F80 < 2 ^ (f.eb + f.mb + 1) &&
    (match f.decode 0x3F80 with | .fin false _ _ => true | _ => false)) = true := by decide +kernel
theorem wit_ResiduesFollowTheSums : ({} : Accu).checks = true := by decide +kernel
/-- Accumulators with a mark of each kind, and with none. -/
theorem wit_ResiduesFollowTheSums_2 : ({ nan := true } : Accu).nan = true ∧ ({ pinf := true, ninf := true } : Accu).pinf = true ∧ ({ pinf := true } : Accu).ninf = false ∧
    ({ ninf := true } : Accu).pinf = false ∧ max winMin (min winMax ({} : Accu).q) = 0 ∧ max winMin (min winMax ({ q := -5 } : Accu).q) = -5 := by decide +kernel
theorem wit_ResiduesFollowTheSums_3 : isNan32 0x7FC00000 = true ∧ (∀ x ∈ [0x3F800000, 0x80000000, 0], x < 2 ^ 32 ∧ isNan32 x = false) ∧
    ([⟨2, 0, 1⟩, ⟨1, 0, 5⟩] : List Partial).Perm [⟨1, 0, 5⟩, ⟨2, 0, 1⟩] ∧ (([⟨2, 0, 1⟩, ⟨1, 0, 5⟩] : List Partial).map fun p => (p.engine, p.chunk)).Nodup := by
  refine ⟨by decide +kernel, by decide +kernel, List.Perm.swap .., by decide +kernel⟩
theorem wit_ConversionsRoundAndHold_1 : codeFp 8 ≠ none ∧ (∃ x, x < 2 ^ 16 ∧ (codeFp 8).map (fun f => f.eb + f.mb + 1) = some 16 ∧ x = 0x3F80) := by
  exact ⟨by decide +kernel, 0x3F80, by decide +kernel, by decide +kernel, rfl⟩
/-- A transposing block of one band of one 32 × 32 tile. -/
def turnB : List Byte := rcd 64 [2 ^ 24 + 2 * 2 ^ 22, 0x55200000, 2 ^ 16, 0, 0, 0, 32]
def turnU : Sub := ⟨0, 0, 0, 0, 0, 0, 0, 32⟩
theorem wit_ConversionsRoundAndHold_2 : tdSide turnB = 32 ∧ bandsOf turnB turnU 0 = 1 ∧ (maskBits (tdUse turnB)).length = 1 ∧ tdSwapped turnB = false ∧
    (List.replicate 2048 (7 : Byte)).length = 2048 ∧ ((0 / (if tdClass turnB = 0 then 2 else 1) * 1 + 0) * (if tdClass turnB = 0 then 2 else 1) + 1) * tileBytes turnB ≤ 2048 ∧
    31 < (subRows turnB turnU 0).length := by decide +kernel
theorem wit_ConversionsRoundAndHold_3 : (List.replicate 64 (0xFF : Byte)).length % 64 = 0 ∧ 31 < codecElems 1 64 ∧ 63 < codecElems 2 64 ∧
    (List.replicate 64 (0xFF : Byte)).length = imageBytes 1 64 ∧ (List.replicate 64 (0xFF : Byte)).length = imageBytes 2 64 ∧
    ((List.replicate 64 (0xFF : Byte)).drop 32)[0]? = some 0xFF := by decide +kernel
end Sys2Proof.Tests
end

section
/-! PROOFS. The set-up space: how a write that nothing keeps back arrives (R14, R15, R37), what a read returns and leaves in the
master's latches (R15, R192), the synchronous aborts of the cores (R377, R378), and the state after reset (R20, R439). -/

namespace Sys2Proof.Machine

/-! ## Arrival of a write that nothing keeps back -/

theorem capture_of_not_recording (d k : Nat) (b : List Byte) (s : State) (h : s.clk.recording = false) : capture d k b s = s := by
  simp [capture, h]

theorem arriveNow_of_uncaptured (d : Nat) (m : Master) (a : Nat) (v : Word) (n : Nat) (s : State)
    (hr : s.clk.recording = false) (hp : s.clk.replaying = false) : arriveNow d m a v n s = arriveRaw m a v n s := by
  simp [arriveNow, hp, capture_of_not_recording, hr]

@[simp] theorem wakeEvent_of_awake (s : State) (h : s.pwr.state = 0) : wakeEvent s = s := by simp [wakeEvent, h]

/-- The write enters an empty link order, and leaves it at once. -/
theorem linkWrite_setup_of_idle (a : Nat) (v : Word) (n : Nat) (s : State) (hp : s.pwr.state = 0) (ho : s.host.inOrder = [])
    (hb : apertureBusy s = false) : linkWrite (.setup a v n) s = arriveNow 0 .host a v n s := by
  have hs : setOrder [] { s with host := { s.host with inOrder := [LinkWr.setup a v n] } } = s := by
    obtain ⟨_, _, _, _, _, _, ⟨⟩, _⟩ := s
    cases ho
    rfl
  have hb' : apertureBusy { s with host := { s.host with inOrder := [LinkWr.setup a v n] } } = false := hb
  simp [linkWrite, ho, hp, drainHost, drainLink, hb', hs]

theorem arrive_of_hears (m : Master) (a : Nat) (v : Word) (s : State) (h : s.hears m = true) (ha : a % 4 = 0) :
    arrive m a v 4 s = arriveRaw m a v 4 s := by
  simp only [State.hears, Bool.and_eq_true, Bool.not_eq_true'] at h
  obtain ⟨⟨⟨-, hrec⟩, hrep⟩, hm⟩ := h
  have hnow (d : Nat) := arriveNow_of_uncaptured d m a v 4 s hrec hrep
  cases m with
  | bmc => exact hnow _
  | host =>
    simp only [Bool.and_eq_true, decide_eq_true_eq, Bool.not_eq_true', List.isEmpty_iff] at hm
    obtain ⟨⟨⟨hl, ho⟩, hb⟩, hp⟩ := hm
    simp only [arrive, arriveFrom, hl, if_true, linkWrite_setup_of_idle a v 4 s hp ho hb, hnow]
  | fm => simp only [arrive, arriveFrom, hm, if_true, hnow]
  | core c =>
    have hbar : coreBars s c.val a 4 = false := by simpa [coreBars, ha] using hm
    simp only [arrive, arriveFrom, hbar, hnow, Bool.false_eq_true, if_false]

theorem live_of_hears {m : Master} {s : State} (h : s.hears m = true) : s.live = true := by
  simp only [State.hears, Bool.and_eq_true] at h
  obtain ⟨⟨⟨hl, -⟩, -⟩, -⟩ := h
  exact hl

/-! ## Accesses to registers that exist -/

theorem accessOk_inv {s : State} {m : Master} {a n : Nat} (h : accessOk s m a n = true) :
    reaches m a = true ∧ n = 4 ∧ a % 4 = 0 ∧ backed s a = true ∧
      ∃ r i j hi, findReg a = some (r, i, j, hi) ∧ (r.pkg = true → a < 0x4000000) := by
  simp only [accessOk, Bool.and_eq_true, decide_eq_true_eq] at h
  obtain ⟨⟨⟨⟨hreach, hn⟩, ha⟩, hb⟩, hf⟩ := h
  refine ⟨hreach, hn, ha, hb, ?_⟩
  split at hf
  next r i j hi heq =>
    refine ⟨r, i, j, hi, heq, fun hp => ?_⟩
    simpa [hp] using hf
  next => cases hf

theorem findReg_of_wideWord {a : Nat} {hi : Bool} (h : wideWord a = some hi) :
    ∃ r i j, findReg a = some (r, i, j, hi) ∧ r.wide = true := by
  unfold wideWord at h
  split at h
  next r i j b heq =>
    split at h
    next hw => cases h; exact ⟨r, i, j, heq, hw⟩
    next => cases h
  next => cases h

/-- A read of a register within reach: its low word's address in the array of die 0 where the register is of package scope. -/
theorem readSetup_of_found {s : State} {m : Master} {a : Nat} {r : Reg} {i j : Nat} {hi : Bool} (hr : reaches m a = true)
    (ha : a % 4 = 0) (hb : backed s a = true) (hf : findReg a = some (r, i, j, hi)) :
    readSetup m a 4 s =
      readReg m r i j (if r.pkg then (if hi then a - 4 else a) % 0x4000000 else if hi then a - 4 else a) hi s := by
  simp [readSetup, hr, ha, hb, hf]

theorem readSetup_of_accessOk {s : State} {m : Master} {a : Nat} {r : Reg} {i j : Nat} {hi : Bool} (h : accessOk s m a 4 = true)
    (hf : findReg a = some (r, i, j, hi)) : readSetup m a 4 s = readReg m r i j (if hi then a - 4 else a) hi s := by
  obtain ⟨hr, -, ha, hb, r', i', j', hi', hf', hpkg⟩ := accessOk_inv h
  cases hf.symm.trans hf'
  rw [readSetup_of_found hr ha hb hf]
  congr 1
  split
  next hp =>
    have := hpkg hp
    split <;> omega
  next => rfl

theorem giveData_of_heard (m : Master) (a : Nat) (s : State) (hfm : m = .fm → fromManager s = true)
    (hbar : masterBarred s m a = false) :
    giveData m a s = emit (.regData m a (BitVec.ofNat 32 (readSetup m a 4 s).2)) (readSetup m a 4 s).1 := by
  have h : ¬(decide (m = .fm) && !fromManager s) = true := by
    simp only [Bool.and_eq_true, decide_eq_true_eq, Bool.not_eq_true', not_and, Bool.not_eq_false]
    exact hfm
  rw [giveData, if_neg h, hbar]
  rfl

/-! ## What a read returns -/

theorem readReg_wide_low {r : Reg} (m : Master) (i j a : Nat) (s : State) (hw : r.wide = true) :
    readReg m r i j a false s = (putLatch m a (regValue s r i j a / 2 ^ 32) s, regValue s r i j a % 2 ^ 32) := by
  simp [readReg, hw]

theorem readReg_high_latched (m : Master) (r : Reg) (i j a : Nat) (s : State) (w : Word) (h : latchOf s m a = some w) :
    readReg m r i j a true s = (dropLatch m a s, w.toNat) := by
  simp [readReg, h]

/-- A read of a 32-bit register returns its value, but for the flags of CAR_RINGn_Q_CTRL that an earlier read latched (R192). -/
theorem readReg_narrow_value {r : Reg} (m : Master) (i j a : Nat) (s : State) (hw : r.wide = false) (hk : r.kind ≠ .carQCtrl) :
    (readReg m r i j a false s).2 = regValue s r i j a := by
  unfold readReg
  simp only [hw, Bool.false_eq_true, if_false]
  split
  · rfl
  · contradiction
  · rfl

/-- A read moves nothing but the latches of the set-up path. -/
theorem readReg_moves_setup_only (m : Master) (r : Reg) (i j a : Nat) (hi : Bool) (s : State) :
    ∃ x, (readReg m r i j a hi s).1 = { s with setup := x } := by
  unfold readReg
  dsimp only
  split
  · split
    · exact ⟨_, rfl⟩
    · exact ⟨s.setup, rfl⟩
  · split
    · exact ⟨_, rfl⟩
    · split
      · exact ⟨_, rfl⟩
      · split
        · exact ⟨_, rfl⟩
        · exact ⟨s.setup, rfl⟩
      · exact ⟨s.setup, rfl⟩

/-! ## Latched and held high words -/

theorem find?_filter_not {α : Type} (p : α → Bool) (l : List α) : (l.filter fun e => !p e).find? p = none :=
  List.find?_eq_none.2 fun e he => by simpa using (List.mem_filter.1 he).2

/-- An entry put in the place of those of its key is the one found. -/
theorem find?_filter_not_append {α : Type} (p : α → Bool) (l : List α) (x : α) (h : p x = true) :
    ((l.filter fun e => !p e) ++ [x]).find? p = some x := by
  rw [List.find?_append, find?_filter_not]
  simp [h]

theorem latchOf_putLatch (m : Master) (a v : Nat) (s : State) : latchOf (putLatch m a v s) m a = some (BitVec.ofNat 32 v) := by
  simp only [latchOf, putLatch, dropLatch]
  rw [find?_filter_not_append (fun e : Nat × Nat × Word => e.1 == masterKey m && e.2.1 == a) _ _ (by simp)]
  rfl

theorem latchOf_dropLatch (m : Master) (a : Nat) (s : State) : latchOf (dropLatch m a s) m a = none := by
  simp only [latchOf, dropLatch]
  rw [find?_filter_not (fun e : Nat × Nat × Word => e.1 == masterKey m && e.2.1 == a)]
  rfl

/-- The high word of the register at `a` is held for a master, in place of one that it held before (R15). -/
def holdHigh (m : Master) (a : Nat) (v : Word) (s : State) : State :=
  { s with setup := { s.setup with
    held := (s.setup.held.filter fun e => !(e.1 == masterKey m && e.2.1 == a)) ++ [(masterKey m, a, v)] } }

theorem heldOf_holdHigh (m : Master) (a : Nat) (v : Word) (s : State) : heldOf (holdHigh m a v s) m a = some v := by
  simp only [heldOf, holdHigh]
  rw [find?_filter_not_append (fun e : Nat × Nat × Word => e.1 == masterKey m && e.2.1 == a) _ _ (by simp)]
  rfl

theorem backed_congr {s t : State} (h : t.boot = s.boot) (a : Nat) : backed t a = backed s a := by
  unfold backed tilesPerDie
  rw [h]

/-- A high-word write within reach joins no window: it is held for its master. -/
theorem arriveRaw_high_word {s : State} {m : Master} {a : Nat} (v : Word) (h : accessOk s m a 4 = true)
    (hw : wideWord a = some true) : arriveRaw m a v 4 s = holdHigh m (a - 4) v (wakeEvent s) := by
  obtain ⟨hr, -, ha, hb, r, i, j, hi, hf, hpkg⟩ := accessOk_inv h
  obtain ⟨r', i', j', hf', -⟩ := findReg_of_wideWord hw
  cases hf.symm.trans hf'
  have hb' : backed (wakeEvent s) a = true := (backed_congr (quiet_wakeEvent s).boot a).trans hb
  have hp : (r.pkg && decide (0x4000000 ≤ a)) = false := by simpa using hpkg
  simp only [arriveRaw, hr, ha, hb', hf]
  simp [holdHigh, hp]

/-! ## CAR_RINGn_GEN and the reach of the management controller -/

/-- The address of CAR_RINGn_GEN names the generation register of its ring, of package scope (R192). -/
theorem findReg_carGen (d : Die) (x : Ctx) :
    ∃ r, findReg (aCar d (0x114 + 0x40 * x)) = some (r, x.val, 0, false) ∧ r.kind = .carGen ∧ r.wide = false := by
  have h : ∀ (d : Die) (x : Ctx), (findReg (aCar d (0x114 + 0x40 * x))).map (fun e => (e.1.kind, e.1.wide, e.2)) =
      some (.carGen, false, x.val, 0, false) := by decide +kernel
  obtain ⟨⟨r, i, j, hi⟩, hf, he⟩ := Option.map_eq_some_iff.1 (h d x)
  simp only [Prod.mk.injEq] at he
  obtain ⟨hk, hw, rfl, rfl, rfl⟩ := he
  exact ⟨r, hf, hk, hw⟩

theorem backed_carGen (s : State) (d : Die) (x : Ctx) : backed s (aCar d (0x114 + 0x40 * x)) = true := by
  have hoff : aCar d (0x114 + 0x40 * x) % 0x4000000 = 0xE00114 + 0x40 * x := by simp only [aCar, aDie]; omega
  have hlt : aCar d (0x114 + 0x40 * x) < 0x20000000 := by simp only [aCar, aDie]; omega
  have hblock : regsAt (0xE00114 + 0x40 * x) = regsCar := by
    unfold regsAt
    repeat rw [if_neg (by omega)]
    exact if_pos (by omega)
  have hbelow : ¬(0x1000000 + 0x40000 * tilesPerDie s ≤ 0xE00114 + 0x40 * x) := by omega
  have habove : ¬(0xE00114 + 0x40 * x.val < 0xD00000) := by omega
  simp [backed, hoff, hlt, hblock, hbelow, habove, regsCar]

/-- A master that reaches a ring register of the carousel reaches CAR_RINGn_GEN of every ring. -/
theorem reaches_carGen (m : Master) (d : Die) (x : Ctx) (h : reaches m (aCar d 0x100) = true) :
    reaches m (aCar d (0x114 + 0x40 * x)) = true := by
  have hlt : aCar d (0x114 + 0x40 * x) < 0x20000000 := by simp only [aCar, aDie]; omega
  cases m with
  | host => simp [reaches, hlt]
  | core c => simp [reaches, hlt]
  | bmc | fm => simp [reaches, aCar, aDie] at h

theorem mem_of_findIn {off : Nat} {l : List Reg} {r : Reg} {i j : Nat} {hi : Bool} (h : findIn off l = some (r, i, j, hi)) : r ∈ l := by
  induction l with
  | nil => cases h
  | cons x l ih =>
    unfold findIn at h
    split at h
    · cases h; exact List.mem_cons_self
    · exact List.mem_cons_of_mem _ (ih h)

/-- The management controller reaches IDV and PWR only (R37), and so no queue register of the carousel. -/
theorem kind_ne_carQCtrl_of_bmc {a : Nat} {r : Reg} {i j : Nat} {hi : Bool} (h : reaches .bmc a = true)
    (hf : findReg a = some (r, i, j, hi)) : r.kind ≠ .carQCtrl := by
  have hoff : a % 0x4000000 < 0x200000 := of_decide_eq_true (Bool.and_eq_true_iff.1 h).2
  have hblock : regsAt (a % 0x4000000) = regsIdv ∨ regsAt (a % 0x4000000) = regsPwr := by
    by_cases hidv : a % 0x4000000 < 0x100000
    · exact .inl (if_pos hidv)
    · exact .inr ((if_neg hidv).trans (if_pos hoff))
  have hnone : ∀ r ∈ regsIdv ++ regsPwr, r.kind ≠ .carQCtrl := by decide
  refine hnone r (List.mem_append.2 ?_)
  have hmem := mem_of_findIn hf
  rcases hblock with hl | hl <;> rw [hl] at hmem
  · exact .inl hmem
  · exact .inr hmem

/-! ## The wide words, by row -/

@[simp] theorem wakeEvent_setup (s : State) : (wakeEvent s).setup = s.setup := by unfold wakeEvent; split <;> rfl
@[simp] theorem wakeEvent_regs (s : State) : (wakeEvent s).regs = s.regs := by unfold wakeEvent; split <;> rfl
@[simp] theorem wakeEvent_out (s : State) : (wakeEvent s).out = s.out := by unfold wakeEvent; split <;> rfl

theorem exec_wideHighWordWrite (m : Master) (addr v : Word) (s : State) (h : s.hears m = true) (ha : accessOk s m addr.toNat 4 = true)
    (hw : wideWord addr.toNat = some true) :
    exec (.wideHighWordWrite m addr v) s = .next (holdHigh m (addr.toNat - 4) v (wakeEvent s)) := by
  obtain ⟨-, -, h4, -⟩ := accessOk_inv ha
  have hrow : exec (.wideHighWordWrite m addr v) s = .next (arrive m addr.toNat v 4 s) := by
    show execWideHighWordWrite m addr v s = _
    exact onlyIf_true _ _ s (live_of_hears h) (by simp [hw])
  rw [hrow, arrive_of_hears m addr.toNat v s h h4, arriveRaw_high_word v ha hw]

/-- The row of a read of either word of a 64-bit register gives the master what the read returns. -/
theorem exec_wideLowWordRead (m : Master) (addr : Word) (s : State) (hl : s.live = true) (hfm : m = .fm → fromManager s = true)
    (hbar : masterBarred s m addr.toNat = false) (hw : (wideWord addr.toNat).isSome = true) :
    exec (.wideLowWordRead m addr) s = .next (emit (.regData m addr.toNat (BitVec.ofNat 32 (readSetup m addr.toNat 4 s).2))
      (readSetup m addr.toNat 4 s).1) := by
  have hrow : exec (.wideLowWordRead m addr) s = .next (giveData m addr.toNat s) := by
    show execWideLowWordRead m addr s = _
    exact onlyIf_true _ _ s hl hw
  rw [hrow, giveData_of_heard m addr.toNat s hfm hbar]

theorem exec_carRingGenRead (m : Master) (d : Die) (x : Ctx) (s : State) (hl : s.live = true) (hfm : m = .fm → fromManager s = true)
    (hbar : masterBarred s m (aCar d (0x114 + 0x40 * x)) = false) :
    exec (.carRingGenRead m d x) s = .next (emit (.regData m (aCar d (0x114 + 0x40 * x))
        (BitVec.ofNat 32 (readSetup m (aCar d (0x114 + 0x40 * x)) 4 s).2)) (readSetup m (aCar d (0x114 + 0x40 * x)) 4 s).1) := by
  have hrow : exec (.carRingGenRead m d x) s = .next (giveData m (aCar d (0x114 + 0x40 * x)) s) := by
    show execCarRingGenRead m d x s = _
    exact onlyIf_true _ _ s hl rfl
  rw [hrow, giveData_of_heard m _ s hfm hbar]

theorem exec_i3cPrivateRead (k : BitVec 7) (b : List Byte) (s : State) (hl : s.live = true) (hk : i3cMine s k = true)
    (hb : b.length = 4) :
    exec (.i3cPrivateRead ⟨k, b⟩ 4) s =
      .next (emit (.i3c (natLE 4 (readSetup .bmc (wordAt b 0) 4 s).2)) (readSetup .bmc (wordAt b 0) 4 s).1) := by
  show execI3cPrivateRead ⟨k, b⟩ 4 s = _
  refine (onlyIf_true _ _ s hl hk).trans ?_
  simp [hb]

theorem wideWord_of_findReg {a : Nat} {r : Reg} {i j : Nat} {hi : Bool} (hf : findReg a = some (r, i, j, hi)) (hw : r.wide = true) :
    wideWord a = some hi := by
  simp [wideWord, hf, hw]

/-- Settles O6: each row comes down to what one read or one arriving write does to the master's latches and held words. -/
theorem wideWordsAndReads : Obligations.WideWordsAndReads := by
  refine ⟨?highWrite, ?lowRead, ?highRead, ?genRead, ?i3cRead⟩
  case highWrite =>
    intro m addr v s h ha hw
    have hq := quiet_wakeEvent s
    exact ⟨_, exec_wideHighWordWrite m addr v s h ha hw, heldOf_holdHigh .., by simp [holdHigh], by simp [holdHigh], hq.mem, hq.scr,
      hq.tiles, by simp [holdHigh]⟩
  case lowRead =>
    intro m addr s r i j hl hfm hbar ha hf hw
    have hread : readSetup m addr.toNat 4 s = _ := (readSetup_of_accessOk ha hf).trans (readReg_wide_low m i j _ s hw)
    refine ⟨_, exec_wideLowWordRead m addr s hl hfm hbar (by simp [wideWord_of_findReg hf hw]), ?_⟩
    rw [hread]
    exact ⟨by simp [putLatch, dropLatch, BitVec.ofNat, Fin.ofNat], latchOf_putLatch .., rfl, rfl, rfl, rfl⟩
  case highRead =>
    intro m addr w s hl hfm hbar ha hw hlatch
    obtain ⟨r, i, j, hf, -⟩ := findReg_of_wideWord hw
    have hread : readSetup m addr.toNat 4 s = _ := (readSetup_of_accessOk ha hf).trans (readReg_high_latched m r i j _ s w hlatch)
    refine ⟨_, exec_wideLowWordRead m addr s hl hfm hbar (by simp [hw]), ?_⟩
    rw [hread]
    exact ⟨by simp [dropLatch], latchOf_dropLatch .., rfl, rfl, rfl, rfl⟩
  case genRead =>
    intro m d x s hl hreach hfm hbar
    obtain ⟨r, hf, hk, hw⟩ := findReg_carGen d x
    have h4 : aCar d (0x114 + 0x40 * x) % 4 = 0 := by simp only [aCar, aDie]; omega
    obtain ⟨low, hread⟩ : ∃ low, readSetup m (aCar d (0x114 + 0x40 * x)) 4 s = readReg m r x 0 low false s :=
      ⟨_, readSetup_of_found (reaches_carGen m d x hreach) h4 (backed_carGen s d x) hf⟩
    have hval := readReg_narrow_value m x 0 low s hw (by simp [hk])
    obtain ⟨y, hstate⟩ := readReg_moves_setup_only m r x 0 low false s
    refine ⟨_, exec_carRingGenRead m d x s hl (fun h => absurd h hfm) hbar, ?_⟩
    rw [hread, hstate, hval]
    exact ⟨by simp [regValue, hk, carValue], rfl, rfl, rfl, rfl⟩
  case i3cRead =>
    intro k b s r i j hl hk hb ha hf hw
    obtain ⟨hreach, -⟩ := accessOk_inv ha
    have hread := readSetup_of_accessOk ha hf
    have hval := readReg_narrow_value .bmc i j (wordAt b 0) s hw (kind_ne_carQCtrl_of_bmc hreach hf)
    obtain ⟨y, hstate⟩ := readReg_moves_setup_only .bmc r i j (wordAt b 0) false s
    refine ⟨_, exec_i3cPrivateRead k b s hl hk hb, ?_⟩
    rw [hread]
    simp only [Bool.false_eq_true, if_false, hstate, hval]
    exact ⟨rfl, rfl, rfl, rfl, rfl⟩

/-! ## The synchronous aborts of the cores -/

theorem arrive_core_barred (c : Core) (a : Nat) (v : Word) (n : Nat) (s : State) (h : coreBars s c.val a n = true) :
    arrive (.core c) a v n s = coreAbort c.val s := by
  simp [arrive, arriveFrom, h]

/-- Where a core goes on after an abort is a free value of its own book: an abort takes one. -/
theorem coreAbort_freeCtr (c : Nat) (s : State) : (coreAbort c s).freeCtr = s.freeCtr + 1 := by
  unfold coreAbort
  dsimp only
  split
  · exact (quiet_raise _ _).freeCtr
  · rfl

/-- Refutes O8: a core's write to an address beyond the set-up space that is not word-aligned takes a synchronous abort before its
reach is judged (R14, R377), so it is not denied. -/
theorem not_accessCodesAndReach : ¬ Obligations.AccessCodesAndReach := by
  rintro ⟨-, hdeny, -⟩
  obtain ⟨⟨t, hstep, hdenied, -⟩, -⟩ := hdeny (.core 0) 0x20000001 0 State.reset (by decide) (by decide) rfl
  have hrow : exec (.setupRegisterWrite (.core 0) 0x20000001 0 4) State.reset = .next (coreAbort 0 State.reset) := by
    have hbarred : arrive (.core 0) 0x20000001 0 4 State.reset = coreAbort 0 State.reset := arrive_core_barred 0 _ 0 4 _ (by decide)
    rw [← hbarred]
    show execSetupRegisterWrite _ _ _ _ _ = _
    exact onlyIf_true _ _ _ rfl rfl
  have habort : coreAbort 0 State.reset = deny (.core 0) 0x20000001 State.reset := by
    cases hrow.symm.trans hstep
    exact hdenied
  have hctr := congrArg State.freeCtr habort
  rw [coreAbort_freeCtr, (quiet_deny _ _ _).freeCtr] at hctr
  omega

/-! ## Registers by their address -/

theorem regW_of_regs_nil {s : State} (h : s.regs = []) (a : Nat) : regW s a = resetWord a := by
  rw [regW, h, mapGet_nil]

/-- Addresses that name one register read what is written at any of them (R36). -/
theorem regW_putRegW_same (a b : Nat) (v : Word) (s : State) (hc : canon b = canon a) (hz : resetWord b = resetWord a) :
    regW (putRegW a v s) b = v := by
  simp [regW, putRegW, hc, hz]

theorem regW_putRegW_other (a b : Nat) (v : Word) (s : State) (hc : canon b ≠ canon a) :
    regW (putRegW a v s) b = regW s b := by
  unfold regW putRegW mapGet mapSet
  dsimp only
  split
  · rw [mapLookup_erase_other _ _ _ hc]
  · rw [mapLookup_insert_other _ _ _ _ hc]

/-! ## The state after reset -/

/-- Settles O4: reset lists nothing, so every register and every unit reads as its default. -/
theorem resetState : Obligations.ResetState :=
  ⟨⟨regW_of_regs_nil rfl, rfl, fun _ => rfl, fun _ _ => rfl, fun _ _ => rfl, fun _ => rfl, rfl, rfl⟩, rfl, rfl⟩

/-! ## The energy through a warm reset -/

/-- A reset that nothing counts as cold ends with the input energy in PWR_ENERGY (R413, R439). -/
theorem resetNow_warm_puts_energy (s : State) (hreset : (s.boot.inReset && s.boot.resetCold) = false) (hgrade : regraded s = false)
    (htrip : s.pwr.tripped = false) : ∃ r, resetNow false s = putReg64 (aPwr 0 0x40) (s.pwr.energy / 100000000) r := by
  unfold resetNow
  simp only [hreset, hgrade, htrip, Bool.or_false, Bool.false_eq_true, if_false]
  exact ⟨_, rfl⟩

theorem exec_warmReset_of_not_burning (s : State) (hrails : s.pwr.rails = true) (hburn : burning s = false) :
    exec .warmReset s = .next (resetNow false { s with boot := { s.boot with wrstLow := true } }) := by
  have hburn' : burning { s with boot := { s.boot with wrstLow := true } } = false := hburn
  show execWarmReset s = _
  simp [execWarmReset, recognise, hrails, hburn']

/-- PWR_ENERGY is of package scope: every die's address of it reads what is stored (R36). -/
theorem reg_putReg64_energy (d : Die) (v : Nat) (s : State) : reg (putReg64 (aPwr 0 0x40) v s) (aPwr d 0x40) = v % 2 ^ 32 := by
  have hc : ∀ d : Die, canon (aPwr d 0x40) = canon (aPwr 0 0x40) ∧ canon (aPwr d 0x40) ≠ canon (aPwr 0 0x40 + 4) ∧
      resetWord (aPwr d 0x40) = resetWord (aPwr 0 0x40) := by decide +kernel
  obtain ⟨hsame, hother, hreset⟩ := hc d
  rw [reg, putReg64, putReg, regW_putRegW_other _ _ _ _ hother, putReg, regW_putRegW_same _ _ _ _ hsame hreset]
  exact BitVec.toNat_ofNat _ _

/-- A package as after reset, but that its input has taken 1 mJ since (R413). -/
def chargedState : State := { pwr := { energy := 100000000 } }

/-- Refutes O57: the statement lets PWR_ENERGY differ from its reset value at die 0's address only, but the register is of package
scope, so after a warm reset die 1's address reads the energy too. -/
theorem not_resetsAndPowerUp : ¬ Obligations.ResetsAndPowerUp := by
  rintro ⟨⟨-, hwarm, -⟩, -⟩
  have hrow := exec_warmReset_of_not_burning chargedState rfl (by decide)
  obtain ⟨r, henergy⟩ := resetNow_warm_puts_energy { chargedState with boot := { wrstLow := true } } rfl (by decide) rfl
  obtain ⟨u, hstep, -, -, hregs, -⟩ := hwarm chargedState rfl (by decide) rfl (by decide) rfl
  have hone : reg u (aPwr 1 0x40) = 1 := by
    cases hrow.symm.trans hstep
    exact (congrArg (reg · (aPwr 1 0x40)) henergy).trans (reg_putReg64_energy 1 1 r)
  have hzero := hregs (aPwr 1 0x40) (by decide) (by decide)
  rw [hone] at hzero
  exact absurd hzero (by decide +kernel)

end Sys2Proof.Machine
end

section
/-! PROOFS. The row engines: which engine a row of an opcode begins its descriptor on (R205). -/

namespace Sys2Proof.Machine

/-! ## The engine on which a row of an opcode begins -/

/-- A sum of `Fin 8` in place of the row engine's number: the die drops out of it. -/
theorem rowNumber_in_fin (d : Die) (j : RowId) : (d * 8 + j).val = j.val := by
  have hzero : (8 : Die).val = 0 := rfl
  have hlt : j.val < 8 := j.isLt
  rw [Fin.val_add, Fin.val_mul, hzero]
  omega

/-- The guard of a row of an opcode reads the head of row engine `j` of die `d`, but its effect is on row engine `j` of die 0. -/
theorem rowOpcode_begins_on_die_zero (op : Nat) (d : Die) (j : RowId) (s : State) (hl : s.live = true)
    (hready : rowReady s (d.val * 8 + j.val) = true) (hgood : rowNextBad s (d.val * 8 + j.val) = false)
    (hop : rdOp (rowNext s (d.val * 8 + j.val)) = op) :
    rowOpcode op d j s =
      .next (demandGa (agRow j) (some (rowCtx s j)) (rowAddr s j) 64 id (fun _ s => beginRowDesc j s) s) := by
  rw [rowOpcode, onlyIf_true _ _ s hl (by simp [hready, hgood, hop])]
  dsimp only
  rw [rowNumber_in_fin]

/-- A malformed descriptor that a row engine takes leaves every other row engine as it was. -/
theorem getRow_beginRowDesc_malformed_other {r k : Nat} {s : State} (hbad : rowMalformed s (r / 8) (rowNext s r) = true)
    (hk : k ≠ r) : getRow (beginRowDesc r s) k = getRow s k := by
  simp [beginRowDesc, hbad, takeRow, getRow, setRow, mapGet_set, hk]

theorem demandGa_of_scr {s : State} {ga n : Nat} {d t o : Nat} (a : Agent) (ctx : Option Nat) (onBad : State → State)
    (onGood : List Byte → State → State) (h : placeOf s ga = .scr d t o) :
    demandGa a ctx ga n onBad onGood s = onGood (readScr (engine d t) o n s) s := by
  simp [demandGa, h]

/-- Row engine 0 of die 1 has a queue of two entries at byte 0 of die 0's HBM, with an ACT of no rows posted in it; the row engines
of die 0 are as after reset. -/
def dieOneQueued : State :=
  { putReg (aRow 1 0 0x1C) 1 (putReg (aRow 1 0 0x18) 1 (putReg64 (aRow 1 0 0x10) (2 ^ 43) State.reset)) with
    mem := [(hbmCell 0 3, 0x40)] }

/-- Refutes O22: the malformed descriptor of die 1's row engine 0 is begun on row engine 0 of die 0, because `rowOpcode` forms the
engine's number in `Fin 8`; the engine whose queue holds it runs nothing. -/
theorem not_rowDescriptorsBegin : ¬ Obligations.RowDescriptorsBegin := by
  intro h
  have hready : rowReady dieOneQueued 8 = true := by decide +kernel
  have hgood : rowNextBad dieOneQueued 8 = false := by decide +kernel
  have hop : rdOp (rowNext dieOneQueued 8) = 0x40 := by decide +kernel
  obtain ⟨u, hstep, hmalformed, -⟩ :=
    h (.act 1 0) 0x40 1 0 dieOneQueued rfl rfl hready hgood hop (by decide +kernel)
  obtain ⟨-, -, -, -, hrun, -⟩ := hmalformed (by decide +kernel)
  have hrow : exec (.act 1 0) dieOneQueued = .next (beginRowDesc 0 dieOneQueued) := by
    have hplace : placeOf dieOneQueued (rowAddr dieOneQueued 0) = .scr 0 0 0 := by decide +kernel
    show rowOpcode 0x40 1 0 dieOneQueued = _
    rw [rowOpcode_begins_on_die_zero 0x40 1 0 _ rfl hready hgood hop]
    exact congrArg Host.Outcome.next (demandGa_of_scr _ _ _ _ hplace)
  have hidle : getRow u 8 = getRow dieOneQueued 8 := by
    cases hrow.symm.trans hstep
    exact getRow_beginRowDesc_malformed_other (by decide +kernel) (by decide)
  have hnone : (getRow u 8).run = none := by rw [hidle]; rfl
  cases hnone.symm.trans hrun

end Sys2Proof.Machine
end
